-- ==== Sys2Proof/Word.lean ====
section
/-! DEFINITION. The word types of the block (00_scope.md R8, R18): 32-bit words, 8-bit bytes,
5-bit register numbers as indices, reorder-buffer tags as slot indices. -/

namespace Sys2Proof

/-- Registers, values, addresses and instruction words are 32 bits wide (R8). -/
abbrev Word := BitVec 32

/-- The backing store's unit (R46, R60). -/
abbrev Byte := BitVec 8

/-- A register number naming `x0 .. x31` (R22, R95). -/
abbrev RegIdx := Fin 32

/-- A tag is a reorder-buffer slot index (R31). -/
abbrev Tag := Nat

end Sys2Proof
end

