-- ==== Sys2Proof/WellFormed.lean ====
section
/-! DEFINITION. The checks an instruction term passes when some word encodes it. Register numbers,
immediates and amounts are within range by their types (30_encoding.md R110); two conditions
remain: a branch or JAL offset is even (R99), and an ADDI is not the halt marker (R102). -/

namespace Sys2Proof

/-- R99: "always even". -/
def evenOffset {n : Nat} (off : BitVec n) : Bool := !off.getLsbD 0

/-- R102: the ADDI that is the halt marker's word is no ADDI. -/
def notMarker (rd rs1 : RegIdx) (imm : BitVec 12) : Bool :=
  !(decide (rd = 10) && decide (rs1 = 0) && decide (imm = 255#12))

/-- An instruction some word decodes to. -/
def Instr.wellFormed (i : Instr) : Bool :=
  match i with
  | .halt => true
  | .lui _ _ => true
  | .auipc _ _ => true
  | .jal _ off => evenOffset off
  | .jalr _ _ _ => true
  | .beq _ _ off => evenOffset off
  | .bne _ _ off => evenOffset off
  | .blt _ _ off => evenOffset off
  | .bge _ _ off => evenOffset off
  | .bltu _ _ off => evenOffset off
  | .bgeu _ _ off => evenOffset off
  | .lb _ _ _ => true
  | .lh _ _ _ => true
  | .lw _ _ _ => true
  | .lbu _ _ _ => true
  | .lhu _ _ _ => true
  | .sb _ _ _ => true
  | .sh _ _ _ => true
  | .sw _ _ _ => true
  | .addi rd rs1 imm => notMarker rd rs1 imm
  | .slti _ _ _ => true
  | .sltiu _ _ _ => true
  | .xori _ _ _ => true
  | .ori _ _ _ => true
  | .andi _ _ _ => true
  | .slli _ _ _ => true
  | .srli _ _ _ => true
  | .srai _ _ _ => true
  | .add _ _ _ => true
  | .sub _ _ _ => true
  | .sll _ _ _ => true
  | .slt _ _ _ => true
  | .sltu _ _ _ => true
  | .xor _ _ _ => true
  | .srl _ _ _ => true
  | .sra _ _ _ => true
  | .or _ _ _ => true
  | .and _ _ _ => true

end Sys2Proof
end

