-- ==== Sys2Proof/Decode.lean ====
section
/-! DEFINITION. The decoder and the encoder (30_encoding.md R90 to R110), written from the field
layouts of R94, R95, R99 and the mask and match pairs of R101. -/

namespace Sys2Proof

/-! ## Fields of a word -/

/-- `w[11:7]` (R95). -/
def fieldRd (w : Word) : RegIdx := Fin.ofNat 32 (w.extractLsb' 7 5).toNat

/-- `w[19:15]` (R95). -/
def fieldRs1 (w : Word) : RegIdx := Fin.ofNat 32 (w.extractLsb' 15 5).toNat

/-- `w[24:20]` (R95). -/
def fieldRs2 (w : Word) : RegIdx := Fin.ofNat 32 (w.extractLsb' 20 5).toNat

/-- I format: `w[31:20]` (R94, R99). -/
def fieldImmI (w : Word) : BitVec 12 := w.extractLsb' 20 12

/-- Immediate shifts: `w[24:20]` (R99). -/
def fieldShamt (w : Word) : BitVec 5 := w.extractLsb' 20 5

/-- S format: `w[31:25] ++ w[11:7]` (R99). -/
def fieldImmS (w : Word) : BitVec 12 := w.extractLsb' 25 7 ++ w.extractLsb' 7 5

/-- B format: `w[31] ++ w[7] ++ w[30:25] ++ w[11:8] ++ 0` (R99). -/
def fieldImmB (w : Word) : BitVec 13 :=
  w.extractLsb' 31 1 ++ w.extractLsb' 7 1 ++ w.extractLsb' 25 6 ++ w.extractLsb' 8 4 ++ 0#1

/-- U format: `w[31:12]` (R99). -/
def fieldImmU (w : Word) : BitVec 20 := w.extractLsb' 12 20

/-- J format: `w[31] ++ w[19:12] ++ w[20] ++ w[30:21] ++ 0` (R99). -/
def fieldImmJ (w : Word) : BitVec 21 :=
  w.extractLsb' 31 1 ++ w.extractLsb' 12 8 ++ w.extractLsb' 20 1 ++ w.extractLsb' 21 10 ++ 0#1

/-! ## The opcode map -/

/-- A row of R101: a word `w` selects it iff `w & mask = match`. -/
structure OpcodeRow where
  mask : Word
  pattern : Word
  build : Word → Instr

/-- A row is selected (R101). -/
def OpcodeRow.selects (r : OpcodeRow) (w : Word) : Bool := w &&& r.mask == r.pattern

/-- The U, J and JALR rows of R101, after the halt marker's, which is tried first (R102). -/
def rowsUpperJump : List OpcodeRow :=
  [⟨0xffffffff#32, 0x0ff00513#32, fun _ => .halt⟩,
   ⟨0x0000007f#32, 0x00000037#32, fun w => .lui (fieldRd w) (fieldImmU w)⟩,
   ⟨0x0000007f#32, 0x00000017#32, fun w => .auipc (fieldRd w) (fieldImmU w)⟩,
   ⟨0x0000007f#32, 0x0000006f#32, fun w => .jal (fieldRd w) (fieldImmJ w)⟩,
   ⟨0x0000707f#32, 0x00000067#32, fun w => .jalr (fieldRd w) (fieldRs1 w) (fieldImmI w)⟩]

/-- The branch rows of R101. -/
def rowsBranch : List OpcodeRow :=
  [⟨0x0000707f#32, 0x00000063#32, fun w => .beq (fieldRs1 w) (fieldRs2 w) (fieldImmB w)⟩,
   ⟨0x0000707f#32, 0x00001063#32, fun w => .bne (fieldRs1 w) (fieldRs2 w) (fieldImmB w)⟩,
   ⟨0x0000707f#32, 0x00004063#32, fun w => .blt (fieldRs1 w) (fieldRs2 w) (fieldImmB w)⟩,
   ⟨0x0000707f#32, 0x00005063#32, fun w => .bge (fieldRs1 w) (fieldRs2 w) (fieldImmB w)⟩,
   ⟨0x0000707f#32, 0x00006063#32, fun w => .bltu (fieldRs1 w) (fieldRs2 w) (fieldImmB w)⟩,
   ⟨0x0000707f#32, 0x00007063#32, fun w => .bgeu (fieldRs1 w) (fieldRs2 w) (fieldImmB w)⟩]

/-- The load and store rows of R101. -/
def rowsMemory : List OpcodeRow :=
  [⟨0x0000707f#32, 0x00000003#32, fun w => .lb (fieldRd w) (fieldRs1 w) (fieldImmI w)⟩,
   ⟨0x0000707f#32, 0x00001003#32, fun w => .lh (fieldRd w) (fieldRs1 w) (fieldImmI w)⟩,
   ⟨0x0000707f#32, 0x00002003#32, fun w => .lw (fieldRd w) (fieldRs1 w) (fieldImmI w)⟩,
   ⟨0x0000707f#32, 0x00004003#32, fun w => .lbu (fieldRd w) (fieldRs1 w) (fieldImmI w)⟩,
   ⟨0x0000707f#32, 0x00005003#32, fun w => .lhu (fieldRd w) (fieldRs1 w) (fieldImmI w)⟩,
   ⟨0x0000707f#32, 0x00000023#32, fun w => .sb (fieldRs1 w) (fieldRs2 w) (fieldImmS w)⟩,
   ⟨0x0000707f#32, 0x00001023#32, fun w => .sh (fieldRs1 w) (fieldRs2 w) (fieldImmS w)⟩,
   ⟨0x0000707f#32, 0x00002023#32, fun w => .sw (fieldRs1 w) (fieldRs2 w) (fieldImmS w)⟩]

/-- The register-immediate rows of R101. -/
def rowsImmediate : List OpcodeRow :=
  [⟨0x0000707f#32, 0x00000013#32, fun w => .addi (fieldRd w) (fieldRs1 w) (fieldImmI w)⟩,
   ⟨0x0000707f#32, 0x00002013#32, fun w => .slti (fieldRd w) (fieldRs1 w) (fieldImmI w)⟩,
   ⟨0x0000707f#32, 0x00003013#32, fun w => .sltiu (fieldRd w) (fieldRs1 w) (fieldImmI w)⟩,
   ⟨0x0000707f#32, 0x00004013#32, fun w => .xori (fieldRd w) (fieldRs1 w) (fieldImmI w)⟩,
   ⟨0x0000707f#32, 0x00006013#32, fun w => .ori (fieldRd w) (fieldRs1 w) (fieldImmI w)⟩,
   ⟨0x0000707f#32, 0x00007013#32, fun w => .andi (fieldRd w) (fieldRs1 w) (fieldImmI w)⟩,
   ⟨0xfe00707f#32, 0x00001013#32, fun w => .slli (fieldRd w) (fieldRs1 w) (fieldShamt w)⟩,
   ⟨0xfe00707f#32, 0x00005013#32, fun w => .srli (fieldRd w) (fieldRs1 w) (fieldShamt w)⟩,
   ⟨0xfe00707f#32, 0x40005013#32, fun w => .srai (fieldRd w) (fieldRs1 w) (fieldShamt w)⟩]

/-- The register-register rows of R101. -/
def rowsRegister : List OpcodeRow :=
  [⟨0xfe00707f#32, 0x00000033#32, fun w => .add (fieldRd w) (fieldRs1 w) (fieldRs2 w)⟩,
   ⟨0xfe00707f#32, 0x40000033#32, fun w => .sub (fieldRd w) (fieldRs1 w) (fieldRs2 w)⟩,
   ⟨0xfe00707f#32, 0x00001033#32, fun w => .sll (fieldRd w) (fieldRs1 w) (fieldRs2 w)⟩,
   ⟨0xfe00707f#32, 0x00002033#32, fun w => .slt (fieldRd w) (fieldRs1 w) (fieldRs2 w)⟩,
   ⟨0xfe00707f#32, 0x00003033#32, fun w => .sltu (fieldRd w) (fieldRs1 w) (fieldRs2 w)⟩,
   ⟨0xfe00707f#32, 0x00004033#32, fun w => .xor (fieldRd w) (fieldRs1 w) (fieldRs2 w)⟩,
   ⟨0xfe00707f#32, 0x00005033#32, fun w => .srl (fieldRd w) (fieldRs1 w) (fieldRs2 w)⟩,
   ⟨0xfe00707f#32, 0x40005033#32, fun w => .sra (fieldRd w) (fieldRs1 w) (fieldRs2 w)⟩,
   ⟨0xfe00707f#32, 0x00006033#32, fun w => .or (fieldRd w) (fieldRs1 w) (fieldRs2 w)⟩,
   ⟨0xfe00707f#32, 0x00007033#32, fun w => .and (fieldRd w) (fieldRs1 w) (fieldRs2 w)⟩]

/-- The opcode map, in the order in which rows are matched (R101). -/
def opcodeMap : List OpcodeRow :=
  rowsUpperJump ++ rowsBranch ++ rowsMemory ++ rowsImmediate ++ rowsRegister

/-- Why the decoder gives no instruction. -/
inductive DecodeError where
  /-- The word matches no row of the opcode map: the verdict "unrecognized" (R13, R108). -/
  | unrecognized (w : Word)
  /-- Fewer than the four bytes of an instruction word were given (R93). -/
  | shortFetch
  deriving DecidableEq, Repr

/-- The decoder's contract on a fetched word: the first matching row, or unrecognized (R90, R101,
R108). -/
def decodeWord (w : Word) : Except DecodeError Instr :=
  match opcodeMap.find? (fun r => r.selects w) with
  | some r => .ok (r.build w)
  | none => .error (.unrecognized w)

/-- The instruction word of four bytes in ascending address order, little-endian (R62). -/
def wordOfBytes (b0 b1 b2 b3 : Byte) : Word := b3 ++ b2 ++ b1 ++ b0

/-- Decode the instruction at the front of a byte sequence, with the rest of the sequence; every
instruction is four bytes (R62, R93). -/
def decodeBytes (bytes : List Byte) : Except DecodeError (Instr × List Byte) :=
  match bytes with
  | b0 :: b1 :: b2 :: b3 :: rest =>
    match decodeWord (wordOfBytes b0 b1 b2 b3) with
    | .ok i => .ok (i, rest)
    | .error e => .error e
  | _ => .error .shortFetch

/-! ## The encoder -/

/-- A register number as a 5-bit field (R95). -/
def regBits (r : RegIdx) : BitVec 5 := BitVec.ofNat 5 r.val

/-- R format (R94): funct7, rs2, rs1, funct3, rd, opcode. -/
def encodeR (funct7 : BitVec 7) (funct3 : BitVec 3) (opcode : BitVec 7) (rd rs1 rs2 : RegIdx) : Word :=
  funct7 ++ regBits rs2 ++ regBits rs1 ++ funct3 ++ regBits rd ++ opcode

/-- I format (R94): imm, rs1, funct3, rd, opcode. -/
def encodeI (funct3 : BitVec 3) (opcode : BitVec 7) (rd rs1 : RegIdx) (imm : BitVec 12) : Word :=
  imm ++ regBits rs1 ++ funct3 ++ regBits rd ++ opcode

/-- The immediate shifts' form of the I format: funct7, amount (R101). -/
def encodeShift (funct7 : BitVec 7) (funct3 : BitVec 3) (rd rs1 : RegIdx) (shamt : BitVec 5) : Word :=
  encodeI funct3 0b0010011#7 rd rs1 (funct7 ++ shamt)

/-- S format (R94). -/
def encodeS (funct3 : BitVec 3) (rs1 rs2 : RegIdx) (imm : BitVec 12) : Word :=
  imm.extractLsb' 5 7 ++ regBits rs2 ++ regBits rs1 ++ funct3 ++ imm.extractLsb' 0 5 ++ 0b0100011#7

/-- B format (R94). -/
def encodeB (funct3 : BitVec 3) (rs1 rs2 : RegIdx) (off : BitVec 13) : Word :=
  off.extractLsb' 12 1 ++ off.extractLsb' 5 6 ++ regBits rs2 ++ regBits rs1 ++ funct3 ++
    off.extractLsb' 1 4 ++ off.extractLsb' 11 1 ++ 0b1100011#7

/-- U format (R94). -/
def encodeU (opcode : BitVec 7) (rd : RegIdx) (imm20 : BitVec 20) : Word :=
  imm20 ++ regBits rd ++ opcode

/-- J format (R94). -/
def encodeJ (rd : RegIdx) (off : BitVec 21) : Word :=
  off.extractLsb' 20 1 ++ off.extractLsb' 1 10 ++ off.extractLsb' 11 1 ++ off.extractLsb' 12 8 ++
    regBits rd ++ 0b1101111#7

/-- The word of an instruction (R94, R101, R102). Bit 0 of a branch or JAL offset has no place in
the word. -/
def encode (i : Instr) : Word :=
  match i with
  | .halt => 0x0ff00513#32
  | .lui rd imm => encodeU 0b0110111#7 rd imm
  | .auipc rd imm => encodeU 0b0010111#7 rd imm
  | .jal rd off => encodeJ rd off
  | .jalr rd rs1 imm => encodeI 0b000#3 0b1100111#7 rd rs1 imm
  | .beq rs1 rs2 off => encodeB 0b000#3 rs1 rs2 off
  | .bne rs1 rs2 off => encodeB 0b001#3 rs1 rs2 off
  | .blt rs1 rs2 off => encodeB 0b100#3 rs1 rs2 off
  | .bge rs1 rs2 off => encodeB 0b101#3 rs1 rs2 off
  | .bltu rs1 rs2 off => encodeB 0b110#3 rs1 rs2 off
  | .bgeu rs1 rs2 off => encodeB 0b111#3 rs1 rs2 off
  | .lb rd rs1 imm => encodeI 0b000#3 0b0000011#7 rd rs1 imm
  | .lh rd rs1 imm => encodeI 0b001#3 0b0000011#7 rd rs1 imm
  | .lw rd rs1 imm => encodeI 0b010#3 0b0000011#7 rd rs1 imm
  | .lbu rd rs1 imm => encodeI 0b100#3 0b0000011#7 rd rs1 imm
  | .lhu rd rs1 imm => encodeI 0b101#3 0b0000011#7 rd rs1 imm
  | .sb rs1 rs2 imm => encodeS 0b000#3 rs1 rs2 imm
  | .sh rs1 rs2 imm => encodeS 0b001#3 rs1 rs2 imm
  | .sw rs1 rs2 imm => encodeS 0b010#3 rs1 rs2 imm
  | .addi rd rs1 imm => encodeI 0b000#3 0b0010011#7 rd rs1 imm
  | .slti rd rs1 imm => encodeI 0b010#3 0b0010011#7 rd rs1 imm
  | .sltiu rd rs1 imm => encodeI 0b011#3 0b0010011#7 rd rs1 imm
  | .xori rd rs1 imm => encodeI 0b100#3 0b0010011#7 rd rs1 imm
  | .ori rd rs1 imm => encodeI 0b110#3 0b0010011#7 rd rs1 imm
  | .andi rd rs1 imm => encodeI 0b111#3 0b0010011#7 rd rs1 imm
  | .slli rd rs1 sh => encodeShift 0b0000000#7 0b001#3 rd rs1 sh
  | .srli rd rs1 sh => encodeShift 0b0000000#7 0b101#3 rd rs1 sh
  | .srai rd rs1 sh => encodeShift 0b0100000#7 0b101#3 rd rs1 sh
  | .add rd rs1 rs2 => encodeR 0b0000000#7 0b000#3 0b0110011#7 rd rs1 rs2
  | .sub rd rs1 rs2 => encodeR 0b0100000#7 0b000#3 0b0110011#7 rd rs1 rs2
  | .sll rd rs1 rs2 => encodeR 0b0000000#7 0b001#3 0b0110011#7 rd rs1 rs2
  | .slt rd rs1 rs2 => encodeR 0b0000000#7 0b010#3 0b0110011#7 rd rs1 rs2
  | .sltu rd rs1 rs2 => encodeR 0b0000000#7 0b011#3 0b0110011#7 rd rs1 rs2
  | .xor rd rs1 rs2 => encodeR 0b0000000#7 0b100#3 0b0110011#7 rd rs1 rs2
  | .srl rd rs1 rs2 => encodeR 0b0000000#7 0b101#3 0b0110011#7 rd rs1 rs2
  | .sra rd rs1 rs2 => encodeR 0b0100000#7 0b101#3 0b0110011#7 rd rs1 rs2
  | .or rd rs1 rs2 => encodeR 0b0000000#7 0b110#3 0b0110011#7 rd rs1 rs2
  | .and rd rs1 rs2 => encodeR 0b0000000#7 0b111#3 0b0110011#7 rd rs1 rs2

/-! ## The host's reading of a table word -/

/-- The word whose low `nbits` bits are `w`'s and whose other bits are 0. -/
def tableWord (nbits w : Nat) : Word := BitVec.ofNat 32 (w % 2 ^ nbits)

/-- The bytes of a word in ascending address order (R61, R62). -/
def bytesOfWord (w : Word) : List Byte :=
  [w.extractLsb' 0 8, w.extractLsb' 8 8, w.extractLsb' 16 8, w.extractLsb' 24 8]

/-- The instruction the decoder reads from the bytes of a table word, none where it refuses. -/
def decodeTableWord (nbits w : Nat) : Option Instr :=
  match decodeBytes (bytesOfWord (tableWord nbits w)) with
  | .ok (i, _) => some i
  | .error _ => none

end Sys2Proof
end

