-- ==== Sys2Proof/Config.lean ====
section
/-! DEFINITION. The implementation parameters of 00_scope.md R9, the constraint a legal
configuration meets, and the reference configuration REF. -/

namespace Sys2Proof

/-- The configuration record of R9. `IMAGE` and `ENTRY_PC`, the run's inputs, are arguments of
`Machine.resetWith`. `bpInit` has two bits, so R9's constraint `0 .. 3` on it always holds. -/
structure Config where
  /-- `N_ROB`: reorder-buffer slots. -/
  nRob : Nat
  /-- `N_RSA`: arithmetic reservation-station slots. -/
  nRsa : Nat
  /-- `N_RSM`: memory reservation-station entries. -/
  nRsm : Nat
  /-- `N_LSB`: load-store-buffer entries. -/
  nLsb : Nat
  /-- `RB_CAP`: result-bus slots per cycle. -/
  rbCap : Nat
  /-- `CB_CAP`: commit-bus slots per cycle. -/
  cbCap : Nat
  /-- `N_BP`: direction counters. -/
  nBp : Nat
  /-- `BP_INIT`: reset value of every direction counter. -/
  bpInit : BitVec 2
  /-- `N_RAS`: depth of the return/target stack. -/
  nRas : Nat
  /-- `MEM_LATENCY`: the value loaded into the load-store buffer's countdown. -/
  memLatency : Nat
  /-- `MEM_SIZE`: bytes of backing store. -/
  memSize : Nat
  deriving DecidableEq, Repr

/-- The constraints of R9. -/
def Config.legal (c : Config) : Bool :=
  decide (2 ≤ c.nRob) && decide (1 ≤ c.nRsa) && decide (1 ≤ c.nRsm) && decide (1 ≤ c.nLsb) &&
  decide (1 ≤ c.rbCap) && decide (1 ≤ c.cbCap) && decide (1 ≤ c.nBp) && decide (1 ≤ c.nRas) &&
  decide (4 ≤ c.memSize) && decide (c.memSize ≤ 4294967296)

/-- The reference configuration REF of R9. -/
def Config.ref : Config where
  nRob := 32
  nRsa := 16
  nRsm := 16
  nLsb := 16
  rbCap := 4
  cbCap := 2
  nBp := 256
  bpInit := 1
  nRas := 16
  memLatency := 3
  memSize := 1048576

/-- The configuration SMALL of 95_test_vectors.md. -/
def Config.small : Config :=
  { Config.ref with nRob := 4, nRsa := 2, nRsm := 2, nLsb := 2, rbCap := 3, cbCap := 1 }

end Sys2Proof
end

