-- ==== Sys2Proof/Machine/State.lean ====
section
/-! DEFINITION. The state of the block (10_state.md), as plain data: the current view `S` of every
structure, and the reset state (R50). The next view `N`, the buses and the flush signal exist only
within a cycle (R20, R27, R42) and are in Machine/Ops.lean. -/

namespace Sys2Proof.Machine

/-! ## Operation kinds (30_encoding.md R91)

The 38 kinds are grouped so that a structure holds only kinds it can hold: the load-store buffer and
the memory station the eight memory-class kinds, the arithmetic station the others. -/

/-- The five loads. -/
inductive LoadKind where
  | lb | lh | lw | lbu | lhu
  deriving DecidableEq, Repr

/-- The three stores. -/
inductive StoreKind where
  | sb | sh | sw
  deriving DecidableEq, Repr

/-- The six conditional branches. -/
inductive BranchKind where
  | beq | bne | blt | bge | bltu | bgeu
  deriving DecidableEq, Repr

/-- The nine register-immediate kinds. -/
inductive ImmKind where
  | addi | slti | sltiu | xori | ori | andi | slli | srli | srai
  deriving DecidableEq, Repr

/-- The ten register-register kinds. -/
inductive RegKind where
  | add | sub | sll | slt | sltu | xor | srl | sra | or | and
  deriving DecidableEq, Repr

/-- The memory-class kinds: "load/store" (R91). -/
inductive MemKind where
  | load (k : LoadKind)
  | store (k : StoreKind)
  deriving DecidableEq, Repr

/-- The arithmetic-class kinds: "everything else", the halt marker included (R91, R190). -/
inductive ArithKind where
  | lui
  | auipc
  | jal
  | jalr
  | branch (k : BranchKind)
  | imm (k : ImmKind)
  | reg (k : RegKind)
  | halt
  deriving DecidableEq, Repr

/-- An operation kind; its constructor is the class the orchestrator sorts it into (R91, R125). -/
inductive OpKind where
  | arith (k : ArithKind)
  | mem (k : MemKind)
  deriving DecidableEq, Repr

/-! ## Entries -/

/-- A reorder-buffer entry (R30). `target` is meaningful for branches and JALR only. -/
structure RobEntry where
  pc : Word
  tag : Tag
  op : OpKind
  dest : Option RegIdx
  ready : Bool
  value : Word
  target : Word
  deriving DecidableEq, Repr

/-- A reservation-station entry (R35). A value is meaningful where its producer tag is absent. -/
structure RsEntry (κ : Type) where
  op : κ
  tag : Tag
  vj : Word
  qj : Option Tag
  vk : Word
  qk : Option Tag
  imm : Word
  pc : Word
  deriving DecidableEq, Repr

/-- A load-store-buffer entry (R36, R37). -/
structure LsbEntry where
  op : MemKind
  addr : Word
  value : Word
  tag : Tag
  ready : Bool
  deriving DecidableEq, Repr

/-! ## Structures -/

/-- The register file: committed values and producer tags (R22, R32). -/
structure RegFile where
  val : Vector Word 32
  tag : Vector (Option Tag) 32
  deriving DecidableEq, Repr

/-- The reorder buffer: a circular array with a head index and a count (R29). An unoccupied slot is
absent (R51). -/
structure Rob where
  slots : List (Option RobEntry)
  head : Nat
  count : Nat
  deriving DecidableEq, Repr

/-- The load-store buffer: the queue, oldest first, and its one countdown (R36). -/
structure Lsb where
  q : List LsbEntry
  c : Nat
  deriving DecidableEq, Repr

/-- The branch predictor: direction counters (R38) and the return/target stack, youngest last (R39). -/
structure Predictor where
  ctr : List (BitVec 2)
  ras : List Word
  deriving DecidableEq, Repr

/-- The backing store's content (R46): the bytes that differ from `Memory.unlisted`, at strictly
rising addresses (`Memory.wf` in Machine/Ops.lean). -/
abbrev Memory := List Host.Cell

/-- The state of the block. -/
structure State where
  /-- The configuration (R9), constant during a run. The model's own field. -/
  cfg : Config
  /-- The address of the next instruction to fetch on the speculative path (R24). -/
  pc : Word
  /-- The register file (R22, R32). -/
  regs : RegFile
  /-- The reorder buffer (R29). -/
  rob : Rob
  /-- The arithmetic reservation station RS_A, slot by slot (R33). -/
  rsa : List (Option (RsEntry ArithKind))
  /-- The memory reservation station RS_M, oldest first (R34). -/
  rsm : List (RsEntry MemKind)
  /-- The load-store buffer (R36). -/
  lsb : Lsb
  /-- The branch predictor (R38, R39). -/
  bp : Predictor
  /-- The backing store (R46). -/
  mem : Memory
  /-- Set when the halt marker is issued, cleared by a flush (R27, R149). -/
  haltIssued : Bool
  /-- Set by the commit of HALT (R27, R143). -/
  halted : Bool
  /-- The exit value, valid when `halted` (R15, R27). -/
  exitValue : BitVec 8
  /-- Set by a fatal condition (R27, R400). -/
  fatal : Bool
  /-- The cause code, valid when `fatal` (R15, R400). -/
  fatalCause : BitVec 2
  /-- The cycle counter (R27, R145). -/
  clkCount : Nat
  deriving DecidableEq, Repr

/-- Why a step has no next state. Neither is a behaviour of the hardware: each names a value of
`State` that is no state of a machine the spec describes (notes/assumptions/6.md). The spec's own
fatal conditions are next states (R144, R400; notes/assumptions/4.md). -/
inductive Fault where
  /-- Raised by a cycle whose configuration violates R9. Safe: the spec describes no such machine. -/
  | illegalConfiguration
  /-- Raised by a cycle in whose state a structure does not have the size its configuration gives it
  (R29, R33, R34, R36, R38, R39). Safe: no run from a reset state reaches such a state. -/
  | illSizedState
  deriving DecidableEq, Repr

/-- Why a step is refused. -/
inductive Refusal where
  /-- Raised by an arm of `exec` whose instruction has no meaning yet. Safe. No arm does. -/
  | notModelled (mnemonic : String)
  deriving DecidableEq, Repr

/-- The reset state (R50) of the reference configuration with the empty image and entry address 0
(the image and the entry address are inputs: notes/assumptions/3.md). `exitValue` and `fatalCause`
are unspecified by R51: notes/assumptions/5.md. -/
def State.reset : State where
  cfg := Config.ref
  pc := 0
  regs := { val := Vector.replicate 32 0, tag := Vector.replicate 32 none }
  rob := { slots := List.replicate 32 none, head := 0, count := 0 }
  rsa := List.replicate 16 none
  rsm := []
  lsb := { q := [], c := 0 }
  bp := { ctr := List.replicate 256 1, ras := [] }
  mem := []
  haltIssued := false
  halted := false
  exitValue := 0
  fatal := false
  fatalCause := 0
  clkCount := 0

end Sys2Proof.Machine
end

