-- ==== Sys2Proof/Machine/Ops.lean ====
section
/-! DEFINITION. The named operations over memory, the register file, the buses and the whole state:
backing store (20_memory.md R61, R68), register file (R23, R191, R262, R264), the within-cycle
signals and the two buses (R42, R251, R252), the fatal stop (R144, R400), and the size checks. -/

namespace Sys2Proof.Machine

/-! ## Backing store -/

/-- What an unlisted byte reads as: bytes named by no image segment are `0x00` (R50). -/
def Memory.unlisted : Byte := 0

/-- The byte at an address. -/
def Memory.read (m : Memory) (a : Nat) : Byte :=
  match m with
  | [] => Memory.unlisted
  | (b, v) :: rest => if a = b then v else Memory.read rest a

/-- Set the byte at an address, keeping the canonical form. -/
def Memory.write (m : Memory) (a : Nat) (v : Byte) : Memory :=
  match m with
  | [] => if v = Memory.unlisted then [] else [(a, v)]
  | (b, w) :: rest =>
    if a < b then
      if v = Memory.unlisted then (b, w) :: rest else (a, v) :: (b, w) :: rest
    else if a = b then
      if v = Memory.unlisted then rest else (a, v) :: rest
    else (b, w) :: Memory.write rest a v

/-- Every listed address is above `a`, addresses rise strictly, and no listed byte is the one an
unlisted address reads as. -/
def Memory.wfAbove (a : Option Nat) (m : Memory) : Bool :=
  match m with
  | [] => true
  | (b, v) :: rest =>
    (match a with | none => true | some a => decide (a < b)) &&
      decide (v ≠ Memory.unlisted) && Memory.wfAbove (some b) rest

/-- The canonical form of memory. -/
def Memory.wf (m : Memory) : Bool := Memory.wfAbove none m

/-- `MemRead(a, n)`: the `n` bytes from `a` on, little-endian, zero-extended to a word (R61). Here
`a + k` is an unbounded integer. -/
def Memory.readLE (m : Memory) (a : Nat) (n : Nat) : Word :=
  match n with
  | 0 => 0
  | n + 1 => (Memory.read m a).setWidth 32 ||| (Memory.readLE m (a + 1) n <<< 8)

/-- `MemWrite(a, n, v)`: the low `8 n` bits of `v` to the `n` bytes from `a` on, little-endian
(R61). -/
def Memory.writeLE (m : Memory) (a : Nat) (n : Nat) (v : Word) : Memory :=
  match n with
  | 0 => m
  | n + 1 => Memory.writeLE (Memory.write m a (v.setWidth 8)) (a + 1) n (v >>> 8)

/-- An access of `n` bytes at `a` is in range (R68), as unbounded integers. -/
def inRange (cfg : Config) (a : Word) (n : Nat) : Bool := decide (a.toNat + n ≤ cfg.memSize)

/-! ## Register file -/

/-- The committed value of a register, `x[r]` (R19). -/
def RegFile.value (rf : RegFile) (r : RegIdx) : Word := rf.val[r]

/-- The producer tag of a register (R32). -/
def RegFile.producer (rf : RegFile) (r : RegIdx) : Option Tag := rf.tag[r]

/-- Write a committed value. -/
def RegFile.setValue (rf : RegFile) (r : RegIdx) (v : Word) : RegFile :=
  { rf with val := rf.val.set r v }

/-- Write a producer tag. -/
def RegFile.setProducer (rf : RegFile) (r : RegIdx) (t : Option Tag) : RegFile :=
  { rf with tag := rf.tag.set r t }

/-- Issue records the producer of a destination register; `x0` and NONE get none (R128). -/
def RegFile.recordProducer (rf : RegFile) (rd : Option RegIdx) (t : Tag) : RegFile :=
  match rd with
  | none => rf
  | some r => if r = 0 then rf else rf.setProducer r (some t)

/-- The effect of one commit-bus entry on the register file (R262). -/
def RegFile.acceptCommit (rf : RegFile) (t : Tag) (v : Word) (d : Option RegIdx) : RegFile :=
  match d with
  | none => rf
  | some r =>
    if r = 0 then rf
    else if rf.producer r = some t then (rf.setValue r v).setProducer r none
    else rf.setValue r v

/-- State commit forces register 0 to zero (R139, R265). -/
def RegFile.forceZero (rf : RegFile) : RegFile := rf.setValue 0 0

/-- A flush clears every producer tag and keeps every value (R264). -/
def RegFile.clearTags (rf : RegFile) : RegFile := { rf with tag := Vector.replicate 32 none }

/-! ## The cycle's signals and the two buses -/

/-- A result-bus entry: tag, value and the wake bit (R251). -/
structure ResultEntry where
  tag : Tag
  value : Word
  wake : Bool
  deriving DecidableEq, Repr

/-- A commit-bus entry: tag, value and destination (R252). -/
structure CommitEntry where
  tag : Tag
  value : Word
  dest : Option RegIdx
  deriving DecidableEq, Repr

/-- What exists within a cycle only: the next view `N` (the backing store, single-copy by R46, in
it), the two buses (R42) and the flush request with its target (R27). -/
structure Cycle where
  next : State
  rb : List ResultEntry
  cb : List CommitEntry
  flushReq : Option Word
  deriving DecidableEq, Repr

/-- `N <- S ; RB <- [] ; CB <- [] ; flush_req <- (0, -)` (R146). -/
def Cycle.start (s : State) : Cycle := { next := s, rb := [], cb := [], flushReq := none }

/-- The cause of a fatal stop (R400). -/
inductive FatalCause where
  /-- Raised by Issue on an unrecognized word (R401). -/
  | decode
  /-- Raised by a `put` on a full bus (R402). -/
  | bus
  /-- Raised by a fetch or a performed access outside the backing store (R403). -/
  | mem
  deriving DecidableEq, Repr

/-- The codes of `fatal_cause` (R400). -/
def FatalCause.code (c : FatalCause) : BitVec 2 :=
  match c with
  | .decode => 1
  | .bus => 2
  | .mem => 3

/-- A fatal condition met inside a cycle: its cause, and the backing store as it then stands, which
"keeps any write already made in that cycle" (R144). -/
structure FatalStop where
  cause : FatalCause
  mem : Memory
  deriving DecidableEq, Repr

/-- What a phase gives: the signals it leaves behind, or the fatal condition that stops the cycle. -/
abbrev Phase := Except FatalStop Cycle

/-- `RB.put(tag, value, wake)` (R251). -/
def rbPut (t : Tag) (v : Word) (wake : Bool) (c : Cycle) : Phase :=
  if c.rb.length < c.next.cfg.rbCap then .ok { c with rb := c.rb ++ [⟨t, v, wake⟩] }
  else .error ⟨.bus, c.next.mem⟩

/-- `CB.put(tag, value, dest)` (R252). -/
def cbPut (t : Tag) (v : Word) (d : Option RegIdx) (c : Cycle) : Phase :=
  if c.cb.length < c.next.cfg.cbCap then .ok { c with cb := c.cb ++ [⟨t, v, d⟩] }
  else .error ⟨.bus, c.next.mem⟩

/-! ## Entering the two end states -/

/-- The fatal stop: the flag and the cause are set, the cycle is not committed, so every structure
stays as it was at the start of the cycle; the backing store keeps what was written (R144, R400). -/
def raiseFatal (f : FatalStop) (s : State) : State :=
  { s with fatal := true, fatalCause := f.cause.code, mem := f.mem }

/-- The halt: the flag and the exit value are set (R143). -/
def raiseHalt (v : BitVec 8) (n : State) : State := { n with halted := true, exitValue := v }

/-- No cycle runs once the machine has halted or stopped fatally (R121). -/
def State.stopped (s : State) : Bool := s.halted || s.fatal

/-- Every structure has the size its configuration gives it (R29, R33, R34, R36, R38, R39). -/
def State.wellSized (s : State) : Bool :=
  decide (s.rob.slots.length = s.cfg.nRob) && decide (s.rob.head < s.cfg.nRob) &&
  decide (s.rob.count ≤ s.cfg.nRob) && decide (s.rsa.length = s.cfg.nRsa) &&
  decide (s.rsm.length ≤ s.cfg.nRsm) && decide (s.lsb.q.length ≤ s.cfg.nLsb) &&
  decide (s.lsb.c ≤ s.cfg.memLatency) && decide (s.bp.ctr.length = s.cfg.nBp) &&
  decide (s.bp.ras.length ≤ s.cfg.nRas)

/-! ## Reset and outputs -/

/-- The content of the backing store after loading: the image's bytes in the order in which the
image names them, a later value for a byte replacing an earlier one, zero elsewhere (R441). Bytes
beyond `MEM_SIZE` do not exist and are dropped (notes/assumptions/9.md). -/
def loadImage (memSize : Nat) (image : List Host.Cell) : Memory :=
  image.foldl (fun m b => if b.1 < memSize then Memory.write m b.1 b.2 else m) []

/-- The reset state for a configuration, an image and an entry address (R50, R441). -/
def resetWith (cfg : Config) (image : List Host.Cell) (entryPc : Word) : State where
  cfg := cfg
  pc := entryPc
  regs := { val := Vector.replicate 32 0, tag := Vector.replicate 32 none }
  rob := { slots := List.replicate cfg.nRob none, head := 0, count := 0 }
  rsa := List.replicate cfg.nRsa none
  rsm := []
  lsb := { q := [], c := 0 }
  bp := { ctr := List.replicate cfg.nBp cfg.bpInit, ras := [] }
  mem := loadImage cfg.memSize image
  haltIssued := false
  halted := false
  exitValue := 0
  fatal := false
  fatalCause := 0
  clkCount := 0

/-- The outcome of a run as an observer of the status outputs sees it (R15, R400). -/
inductive RunOutcome where
  | running
  | halted (exitValue : BitVec 8)
  | fatal (cause : BitVec 2)
  deriving DecidableEq, Repr

/-- The status outputs of R15: `exit_value` is valid only with `halted`, `fatal_cause` only with
`fatal`; after a fatal stop there is no exit value (R400, R405). -/
def State.outputs (s : State) : RunOutcome :=
  if s.fatal then .fatal s.fatalCause
  else if s.halted then .halted s.exitValue
  else .running

end Sys2Proof.Machine
end

