-- ==== Sys2Proof/Machine/Operands.lean ====
section
/-! DEFINITION. Operand forms: the decoded record with its register fields and immediate (R90 to R92,
R99, R100), the operand read at issue (R191), the immediate a station entry holds (R192), and what
R91's table says of each kind (class, commit group, width). -/

namespace Sys2Proof.Machine

/-! ## The decoded record -/

/-- The instruction-format class (R90, R94). -/
inductive Format where
  | r | i | s | b | u | j
  deriving DecidableEq, Repr

/-- The decoded instruction record (R90); an absent register field is NONE. -/
structure Record where
  op : OpKind
  fmt : Format
  rd : Option RegIdx
  rs1 : Option RegIdx
  rs2 : Option RegIdx
  imm : Word
  deriving DecidableEq, Repr

/-- R format: no immediate (R91, R99). -/
def recordR (k : RegKind) (rd rs1 rs2 : RegIdx) : Record :=
  { op := .arith (.reg k), fmt := .r, rd := some rd, rs1 := some rs1, rs2 := some rs2, imm := 0 }

/-- I format: the 12-bit immediate sign-extended (R91, R99). -/
def recordI (op : OpKind) (rd rs1 : RegIdx) (imm : BitVec 12) : Record :=
  { op := op, fmt := .i, rd := some rd, rs1 := some rs1, rs2 := none, imm := imm.signExtend 32 }

/-- The immediate shifts: the 5-bit amount zero-extended (R91, R99). -/
def recordShift (k : ImmKind) (rd rs1 : RegIdx) (shamt : BitVec 5) : Record :=
  { op := .arith (.imm k), fmt := .i, rd := some rd, rs1 := some rs1, rs2 := none,
    imm := shamt.setWidth 32 }

/-- S format: base `rs1`, data `rs2`, no destination (R91, R92, R99). -/
def recordS (k : StoreKind) (rs1 rs2 : RegIdx) (imm : BitVec 12) : Record :=
  { op := .mem (.store k), fmt := .s, rd := none, rs1 := some rs1, rs2 := some rs2,
    imm := imm.signExtend 32 }

/-- B format: the even 13-bit offset sign-extended, no destination (R91, R92, R99). -/
def recordB (k : BranchKind) (rs1 rs2 : RegIdx) (off : BitVec 13) : Record :=
  { op := .arith (.branch k), fmt := .b, rd := none, rs1 := some rs1, rs2 := some rs2,
    imm := off.signExtend 32 }

/-- U format: the upper 20 bits in place, the low 12 zero (R91, R99). -/
def recordU (k : ArithKind) (rd : RegIdx) (imm20 : BitVec 20) : Record :=
  { op := .arith k, fmt := .u, rd := some rd, rs1 := none, rs2 := none, imm := imm20 ++ 0#12 }

/-- J format: the even 21-bit offset sign-extended (R91, R99). -/
def recordJ (rd : RegIdx) (off : BitVec 21) : Record :=
  { op := .arith .jal, fmt := .j, rd := some rd, rs1 := none, rs2 := none, imm := off.signExtend 32 }

/-- The halt marker: no destination, `rs1 = 0`, `imm = 255` (R102). -/
def recordHalt : Record :=
  { op := .arith .halt, fmt := .i, rd := none, rs1 := some 0, rs2 := none, imm := 255 }

/-! ## What R91's table says of a kind -/

/-- Bytes a load reads (R63, R223). -/
def LoadKind.width (k : LoadKind) : Nat :=
  match k with
  | .lb => 1
  | .lh => 2
  | .lw => 4
  | .lbu => 1
  | .lhu => 2

/-- Bytes a store writes (R63, R223). -/
def StoreKind.width (k : StoreKind) : Nat :=
  match k with
  | .sb => 1
  | .sh => 2
  | .sw => 4

/-- `width(op)` (R223). -/
def MemKind.width (k : MemKind) : Nat :=
  match k with
  | .load k => k.width
  | .store k => k.width

/-- The commit groups (R164). -/
inductive CommitGroup where
  | halt | store | pcValue | branch | indirectJump | other
  deriving DecidableEq, Repr

/-- `group(op)` (R91, R164). -/
def OpKind.group (op : OpKind) : CommitGroup :=
  match op with
  | .arith .halt => .halt
  | .arith .auipc => .pcValue
  | .arith .jal => .pcValue
  | .arith (.branch _) => .branch
  | .arith .jalr => .indirectJump
  | .arith .lui => .other
  | .arith (.imm _) => .other
  | .arith (.reg _) => .other
  | .mem (.store _) => .store
  | .mem (.load _) => .other

/-- The kinds whose resolved next address the reorder buffer records as the target: the six branches
and JALR (R30, R172). -/
def OpKind.hasTarget (op : OpKind) : Bool :=
  match op with
  | .arith (.branch _) => true
  | .arith .jalr => true
  | _ => false

/-- The spec's own 6-bit code of a kind (R91); no rule depends on it. -/
def OpKind.code (op : OpKind) : BitVec 6 :=
  match op with
  | .arith .lui => 0
  | .arith .auipc => 1
  | .arith .jal => 2
  | .arith .jalr => 3
  | .arith (.branch .beq) => 4
  | .arith (.branch .bne) => 5
  | .arith (.branch .blt) => 6
  | .arith (.branch .bge) => 7
  | .arith (.branch .bltu) => 8
  | .arith (.branch .bgeu) => 9
  | .mem (.load .lb) => 10
  | .mem (.load .lh) => 11
  | .mem (.load .lw) => 12
  | .mem (.load .lbu) => 13
  | .mem (.load .lhu) => 14
  | .mem (.store .sb) => 15
  | .mem (.store .sh) => 16
  | .mem (.store .sw) => 17
  | .arith (.imm .addi) => 18
  | .arith (.imm .slti) => 19
  | .arith (.imm .sltiu) => 20
  | .arith (.imm .xori) => 21
  | .arith (.imm .ori) => 22
  | .arith (.imm .andi) => 23
  | .arith (.imm .slli) => 24
  | .arith (.imm .srli) => 25
  | .arith (.imm .srai) => 26
  | .arith (.reg .add) => 27
  | .arith (.reg .sub) => 28
  | .arith (.reg .sll) => 29
  | .arith (.reg .slt) => 30
  | .arith (.reg .sltu) => 31
  | .arith (.reg .xor) => 32
  | .arith (.reg .srl) => 33
  | .arith (.reg .sra) => 34
  | .arith (.reg .or) => 35
  | .arith (.reg .and) => 36
  | .arith .halt => 37

/-! ## Operands -/

/-- `read_operand(r)` (R191): the value, or the producer tag; `x0` and NONE are zero and never carry
a dependency (R23). -/
def readOperand (rf : RegFile) (r : Option RegIdx) : Word × Option Tag :=
  match r with
  | none => (0, none)
  | some r =>
    if r = 0 then (0, none)
    else
      match rf.producer r with
      | none => (rf.value r, none)
      | some t => (0, some t)

/-- The immediate an arithmetic-station entry holds (R192): AUIPC and JAL are resolved with the
issuing pc, the register-register kinds hold 0. -/
def stationImm (k : ArithKind) (imm pc : Word) : Word :=
  match k with
  | .lui => imm
  | .auipc => pc + imm
  | .jal => pc + 4
  | .jalr => imm
  | .branch _ => imm
  | .imm _ => imm
  | .reg _ => 0
  | .halt => imm

/-- The arithmetic-station entry made at issue (R192). -/
def arithEntry (k : ArithKind) (r : Record) (t : Tag) (rf : RegFile) (pc : Word) : RsEntry ArithKind :=
  { op := k, tag := t,
    vj := (readOperand rf r.rs1).1, qj := (readOperand rf r.rs1).2,
    vk := (readOperand rf r.rs2).1, qk := (readOperand rf r.rs2).2,
    imm := stationImm k r.imm pc, pc := pc }

/-- The memory-station entry made at issue (R192). -/
def memEntry (k : MemKind) (r : Record) (t : Tag) (rf : RegFile) (pc : Word) : RsEntry MemKind :=
  { op := k, tag := t,
    vj := (readOperand rf r.rs1).1, qj := (readOperand rf r.rs1).2,
    vk := (readOperand rf r.rs2).1, qk := (readOperand rf r.rs2).2,
    imm := r.imm, pc := pc }

/-- `u32(vj + imm)`: the one addressing mode, base register plus immediate (R65, R100, R199). -/
def effectiveAddress (base imm : Word) : Word := base + imm

/-- Neither operand waits for a producer (R194, R197). -/
def RsEntry.resolved {κ : Type} (e : RsEntry κ) : Bool := e.qj.isNone && e.qk.isNone

end Sys2Proof.Machine
end

