-- ==== Sys2Proof/Machine/Predictor.lean ====
section
/-! DEFINITION. The branch predictor (44_buses_regfile_predictor.md R269 to R277). Its answers are
hints: they change which address is fetched next, never what commits (10_state.md R40). -/

namespace Sys2Proof.Machine

/-- `pc mod N_BP`, of the byte address (R271). -/
def counterIndex (cfg : Config) (pc : Word) : Nat := pc.toNat % cfg.nBp

/-- The counter of an address. The index is always within a well-sized table. -/
def Predictor.counter (bp : Predictor) (cfg : Config) (pc : Word) : BitVec 2 :=
  bp.ctr.getD (counterIndex cfg pc) 0

/-- `Predictor.direction(pc)`: predicted taken iff the counter is 2 or 3 (R271). -/
def Predictor.direction (bp : Predictor) (cfg : Config) (pc : Word) : Bool :=
  decide (2 ≤ (bp.counter cfg pc).toNat)

/-- The saturating two-bit walk (R272). -/
def saturate (c : BitVec 2) (taken : Bool) : BitVec 2 :=
  if taken then (if c = 3 then 3 else c + 1) else (if c = 0 then 0 else c - 1)

/-- `Predictor.update(pc, taken)` on the next view `n`, reading the counter in `s` (R272). -/
def Predictor.update (s n : Predictor) (cfg : Config) (pc : Word) (taken : Bool) : Predictor :=
  { n with ctr := n.ctr.set (counterIndex cfg pc) (saturate (s.counter cfg pc) taken) }

/-- `Predictor.push(a)`: the oldest entry is evicted on overflow (R274). -/
def Predictor.push (bp : Predictor) (cfg : Config) (a : Word) : Predictor :=
  { bp with ras := (bp.ras ++ [a]).drop (bp.ras.length + 1 - cfg.nRas) }

/-- `Predictor.pop()`: the youngest entry and the stack without it, or EMPTY (R275). -/
def Predictor.pop (bp : Predictor) : Option Word × Predictor :=
  match bp.ras.getLast? with
  | none => (none, bp)
  | some t => (some t, { bp with ras := bp.ras.dropLast })

/-- A jump that keeps a return address pushes it (R274): `rd` is present and not `x0`. -/
def Predictor.pushLink (bp : Predictor) (cfg : Config) (rd : Option RegIdx) (pc : Word) : Predictor :=
  match rd with
  | none => bp
  | some r => if r = 0 then bp else bp.push cfg (pc + 4)

/-- The next fetch address of a record issued at `pc`, with the predictor after issue (R129). -/
def nextFetch (cfg : Config) (bp : Predictor) (r : Record) (pc : Word) : Word × Predictor :=
  match r.op with
  | .arith (.branch _) => (if bp.direction cfg pc then pc + r.imm else pc + 4, bp)
  | .arith .jalr => (bp.pop.1.getD (pc + 4), bp.pop.2.pushLink cfg r.rd pc)
  | .arith .jal => (pc + r.imm, bp.pushLink cfg r.rd pc)
  | .arith .lui => (pc + 4, bp)
  | .arith .auipc => (pc + 4, bp)
  | .arith (.imm _) => (pc + 4, bp)
  | .arith (.reg _) => (pc + 4, bp)
  | .arith .halt => (pc + 4, bp)
  | .mem _ => (pc + 4, bp)

end Sys2Proof.Machine
end

