-- ==== Sys2Proof/Machine/ReorderBuffer.lean ====
section
/-! DEFINITION. The reorder buffer (41_reorder_buffer.md R160 to R176): issue, checkBus, commit and
clear. -/

namespace Sys2Proof.Machine

/-- The tail slot, which is the next tag (R29, R161). -/
def Rob.tail (rob : Rob) (cfg : Config) : Tag := (rob.head + rob.count) % cfg.nRob

/-- The entry in a slot, absent when the slot is unoccupied. -/
def Rob.entry (rob : Rob) (t : Tag) : Option RobEntry := (rob.slots[t]?).join

/-- The buffer is full (R29, R124). -/
def Rob.full (rob : Rob) (cfg : Config) : Bool := decide (rob.count = cfg.nRob)

/-- A new entry (R161): not ready, `value` and `target` 0 "for definiteness". -/
def newRobEntry (r : Record) (t : Tag) (pc : Word) : RobEntry :=
  { pc := pc, tag := t, op := r.op, dest := r.rd, ready := false, value := 0, target := 0 }

/-- `ROB.issue` (R161): the entry goes into the tail slot of `s`; the count is written relative to
`n`. -/
def Rob.issue (s n : Rob) (cfg : Config) (r : Record) (pc : Word) : Rob :=
  { slots := n.slots.set (s.tail cfg) (some (newRobEntry r (s.tail cfg) pc)), head := n.head,
    count := n.count + 1 }

/-- An entry made ready by a result-bus value; the six branches and JALR record it as their target
(R172). -/
def RobEntry.complete (e : RobEntry) (v : Word) : RobEntry :=
  { e with ready := true, value := v, target := if e.op.hasTarget then v else e.target }

/-- The effect of one result-bus entry on the buffer (R172). -/
def Rob.acceptResult (rob : Rob) (b : ResultEntry) : Rob :=
  match rob.entry b.tag with
  | none => rob
  | some e => if e.ready then rob else { rob with slots := rob.slots.set b.tag (some (e.complete b.value)) }

/-- `ROB.checkBus(RB)` (R172). -/
def Rob.checkBus (rob : Rob) (rb : List ResultEntry) : Rob := rb.foldl Rob.acceptResult rob

/-- `ROB.clear()` (R173). -/
def Rob.clear (rob : Rob) : Rob :=
  { slots := List.replicate rob.slots.length none, head := 0, count := 0 }

/-- The oldest entry, absent when the buffer is empty (R163). -/
def Rob.oldest (rob : Rob) : Option RobEntry := if rob.count = 0 then none else rob.entry rob.head

/-- `pop` (R166): slot, head and count of `n` as the rule gives them. -/
def Rob.pop (s n : Rob) (cfg : Config) : Rob :=
  { slots := n.slots.set s.head none, head := (s.head + 1) % cfg.nRob, count := n.count - 1 }

/-- The address fetched after the oldest entry (R174): the next entry's pc, or `S.pc` when there is
no next entry. -/
def fetchedAfter (s : State) : Word :=
  if 2 ≤ s.rob.count then
    match s.rob.entry ((s.rob.head + 1) % s.cfg.nRob) with
    | some e => e.pc
    | none => s.pc
  else s.pc

/-- The result of a commit (R132). `nothing` covers an idle commit and an ordinary retirement. -/
inductive CommitOutcome where
  | nothing
  | halt (v : BitVec 8)
  | flush (target : Word)
  deriving DecidableEq, Repr

/-- Pop the oldest entry in the next view. -/
def popHead (s : State) (c : Cycle) : Cycle :=
  { c with next := { c.next with rob := s.rob.pop c.next.rob s.cfg } }

/-- The target check of R169 and R170. -/
def targetCheck (s : State) (e : RobEntry) : CommitOutcome :=
  if e.target = fetchedAfter s then .nothing else .flush e.target

/-- Commit of the halt marker (R165): no pop, no bus entry. -/
def commitHalt (s : State) (c : Cycle) : Except FatalStop (Cycle × CommitOutcome) :=
  .ok (c, .halt ((s.regs.value 10).setWidth 8))

/-- Commit of a store (R167): only its tag on the commit bus. -/
def commitStore (s : State) (e : RobEntry) (c : Cycle) : Except FatalStop (Cycle × CommitOutcome) :=
  match cbPut e.tag 0 none c with
  | .error f => .error f
  | .ok c => .ok (popHead s c, .nothing)

/-- Commit of JAL and AUIPC (R168): a JAL's value is recomputed from the recorded pc. -/
def commitPcValue (s : State) (e : RobEntry) (c : Cycle) : Except FatalStop (Cycle × CommitOutcome) :=
  match cbPut e.tag (if e.op = .arith .jal then e.pc + 4 else e.value) e.dest c with
  | .error f => .error f
  | .ok c => .ok (popHead s c, .nothing)

/-- Commit of a conditional branch (R169): train the counter, pop, check the target; nothing on the
commit bus. -/
def commitBranch (s : State) (e : RobEntry) (c : Cycle) : Except FatalStop (Cycle × CommitOutcome) :=
  let taken := decide (e.target ≠ e.pc + 4)
  let trained := { c with next := { c.next with bp := Predictor.update s.bp c.next.bp s.cfg e.pc taken } }
  .ok (popHead s trained, targetCheck s e)

/-- Commit of JALR (R170): the link value on the commit bus, pop, check the target. -/
def commitIndirectJump (s : State) (e : RobEntry) (c : Cycle) :
    Except FatalStop (Cycle × CommitOutcome) :=
  match cbPut e.tag (e.pc + 4) e.dest c with
  | .error f => .error f
  | .ok c => .ok (popHead s c, targetCheck s e)

/-- Commit of every other kind (R171). -/
def commitOther (s : State) (e : RobEntry) (c : Cycle) : Except FatalStop (Cycle × CommitOutcome) :=
  match cbPut e.tag e.value e.dest c with
  | .error f => .error f
  | .ok c => .ok (popHead s c, .nothing)

/-- Commit of a ready oldest entry, by group (R163, R164). -/
def commitEntry (s : State) (e : RobEntry) (c : Cycle) : Except FatalStop (Cycle × CommitOutcome) :=
  match e.op.group with
  | .halt => commitHalt s c
  | .store => commitStore s e c
  | .pcValue => commitPcValue s e c
  | .branch => commitBranch s e c
  | .indirectJump => commitIndirectJump s e c
  | .other => commitOther s e c

/-- `ROB.commit()` (R163): only the oldest entry, and only if ready. -/
def robCommit (s : State) (c : Cycle) : Except FatalStop (Cycle × CommitOutcome) :=
  match s.rob.oldest with
  | none => .ok (c, .nothing)
  | some e => if e.ready then commitEntry s e c else .ok (c, .nothing)

end Sys2Proof.Machine
end

