-- ==== Sys2Proof/Machine/Flags.lean ====
section
/-! DEFINITION. The instruction set has no flag: "no instruction sets or reads a status flag"
(10_state.md R25, 45_ops_integer.md R299). What another machine does with flags this one does with
comparisons: the two set-if-less-than results of R300 and the six branch conditions of R339. -/

namespace Sys2Proof.Machine

/-- A comparison's result, zero-extended to 32 bits (R300). -/
def boolWord (b : Bool) : Word := if b then 1 else 0

/-- `s32(a) < s32(b)`: both read as two's-complement numbers (R300, R339). -/
def lessSigned (a b : Word) : Bool := decide (a.toInt < b.toInt)

/-- `a < b` as unsigned numbers (R300, R339). -/
def lessUnsigned (a b : Word) : Bool := decide (a.toNat < b.toNat)

/-- BEQ: `a = b` (R342). -/
def condBeq (a b : Word) : Bool := decide (a = b)

/-- BNE: `a != b` (R343). -/
def condBne (a b : Word) : Bool := decide (a ≠ b)

/-- BLT: `s32(a) < s32(b)` (R344). -/
def condBlt (a b : Word) : Bool := lessSigned a b

/-- BGE: `s32(a) >= s32(b)` (R345). -/
def condBge (a b : Word) : Bool := !lessSigned a b

/-- BLTU: `a < b` unsigned (R346). -/
def condBltu (a b : Word) : Bool := lessUnsigned a b

/-- BGEU: `a >= b` unsigned (R347). -/
def condBgeu (a b : Word) : Bool := !lessUnsigned a b

/-- `cond(op, a, b)` (R339). -/
def branchCond (k : BranchKind) (a b : Word) : Bool :=
  match k with
  | .beq => condBeq a b
  | .bne => condBne a b
  | .blt => condBlt a b
  | .bge => condBge a b
  | .bltu => condBltu a b
  | .bgeu => condBgeu a b

end Sys2Proof.Machine
end

