-- ==== Sys2Proof/Machine/Alu.lean ====
section
/-! DEFINITION. The arithmetic unit (45_ops_integer.md R300) and the load extensions (20_memory.md
R64), as pure functions (00_scope.md R14). -/

namespace Sys2Proof.Machine

/-- add: the sum modulo `2^32` (R300). -/
def aluAdd (a b : Word) : Word := a + b

/-- sub: "add-of-complement" (R300). -/
def aluSub (a b : Word) : Word := a + ~~~b + 1

/-- lt_signed (R300). -/
def aluSlt (a b : Word) : Word := boolWord (lessSigned a b)

/-- lt_unsigned (R300). -/
def aluSltu (a b : Word) : Word := boolWord (lessUnsigned a b)

def aluXor (a b : Word) : Word := a ^^^ b

def aluOr (a b : Word) : Word := a ||| b

def aluAnd (a b : Word) : Word := a &&& b

/-- shamt: the low five bits of the second operand (R300). -/
def shamtOf (b : Word) : Nat := (b.extractLsb' 0 5).toNat

/-- sll (R300). -/
def aluSll (a b : Word) : Word := a <<< shamtOf b

/-- srl: zeros enter at bit 31 (R300). -/
def aluSrl (a b : Word) : Word := a >>> shamtOf b

/-- sra: copies of `a[31]` enter at bit 31 (R300). -/
def aluSra (a b : Word) : Word := a.sshiftRight (shamtOf b)

/-- `alu(op, a, b)` for the register-immediate kinds, `b` the immediate (R300, R303 to R311). -/
def immAlu (k : ImmKind) (a b : Word) : Word :=
  match k with
  | .addi => aluAdd a b
  | .slti => aluSlt a b
  | .sltiu => aluSltu a b
  | .xori => aluXor a b
  | .ori => aluOr a b
  | .andi => aluAnd a b
  | .slli => aluSll a b
  | .srli => aluSrl a b
  | .srai => aluSra a b

/-- `alu(op, a, b)` for the register-register kinds (R300, R312 to R321). -/
def regAlu (k : RegKind) (a b : Word) : Word :=
  match k with
  | .add => aluAdd a b
  | .sub => aluSub a b
  | .sll => aluSll a b
  | .slt => aluSlt a b
  | .sltu => aluSltu a b
  | .xor => aluXor a b
  | .srl => aluSrl a b
  | .sra => aluSra a b
  | .or => aluOr a b
  | .and => aluAnd a b

/-- The target of a JALR: the sum with bit 0 cleared (R196, R341). -/
def jalrTarget (base imm : Word) : Word := (base + imm) &&& 0xfffffffe#32

/-- The resolved target of a branch (R196). -/
def branchTarget (k : BranchKind) (a b pc imm : Word) : Word :=
  if branchCond k a b then pc + imm else pc + 4

/-- LB: `sext_8` of the byte (R64, R360). -/
def extendLb (raw : Word) : Word := (raw.setWidth 8).signExtend 32

/-- LH: `sext_16` of the half-word (R64, R361). -/
def extendLh (raw : Word) : Word := (raw.setWidth 16).signExtend 32

/-- LW: the 32 bits read (R64, R362). -/
def extendLw (raw : Word) : Word := raw

/-- LBU: `zext_8` of the byte (R64, R363). -/
def extendLbu (raw : Word) : Word := (raw.setWidth 8).setWidth 32

/-- LHU: `zext_16` of the half-word (R64, R364). -/
def extendLhu (raw : Word) : Word := (raw.setWidth 16).setWidth 32

/-- The 32-bit result of a load from the bits read (R64). -/
def loadExtend (k : LoadKind) (raw : Word) : Word :=
  match k with
  | .lb => extendLb raw
  | .lh => extendLh raw
  | .lw => extendLw raw
  | .lbu => extendLbu raw
  | .lhu => extendLhu raw

/-- The low `8 n` bits of a word, the others zero: what a store of `n` bytes keeps of its data (R64,
R222). -/
def truncateBytes (n : Nat) (v : Word) : Word := v &&& BitVec.ofNat 32 (2 ^ (8 * n) - 1)

/-- The data a store keeps: SB, SH and SW ignore the bits above 7, 15 and none (R64, R222). -/
def storeData (k : StoreKind) (v : Word) : Word :=
  match k with
  | .sb => truncateBytes 1 v
  | .sh => truncateBytes 2 v
  | .sw => truncateBytes 4 v

/-- The value and the wake bit an executed arithmetic-station entry puts on the result bus (R196):
`wake` is set exactly when the instruction writes a register and the value is what it writes. -/
def arithResult (e : RsEntry ArithKind) : Word × Bool :=
  match e.op with
  | .lui => (e.imm, true)
  | .auipc => (e.imm, true)
  | .jal => (e.imm, true)
  | .jalr => (jalrTarget e.vj e.imm, false)
  | .branch k => (branchTarget k e.vj e.vk e.pc e.imm, false)
  | .imm k => (immAlu k e.vj e.imm, true)
  | .reg k => (regAlu k e.vj e.vk, true)
  | .halt => (aluAdd e.vj e.imm, false)

end Sys2Proof.Machine
end

