-- ==== Sys2Proof/Machine/LoadStoreBuffer.lean ====
section
/-! DEFINITION. The load-store buffer (43_load_store_buffer.md R220 to R240): execute with
store-to-load forwarding, checkBus, tryLoadStore and the partial rollback. -/

namespace Sys2Proof.Machine

/-! ## Byte ranges (R223), as unbounded integers -/

/-- The byte range of an entry starts at `addr.toNat` and has `width` bytes; two ranges meet when they
have an address in common (R223, R224). -/
def rangesMeet (a : Nat) (n : Nat) (b : Nat) (m : Nat) : Bool := decide (a < b + m) && decide (b < a + n)

/-- The range of `m` bytes at `b` contains the range of `n` bytes at `a` (R224). -/
def rangeCovers (b : Nat) (m : Nat) (a : Nat) (n : Nat) : Bool := decide (b ≤ a) && decide (a + n ≤ b + m)

/-- A store entry whose range meets the `n` bytes at `a` (R224). -/
def LsbEntry.overlaps (x : LsbEntry) (a : Word) (n : Nat) : Bool :=
  match x.op with
  | .load _ => false
  | .store k => rangesMeet a.toNat n x.addr.toNat k.width

/-- The nearest overlapping store, from the youngest entry to the oldest (R224). -/
def nearestStore (q : List LsbEntry) (a : Word) (n : Nat) : Option LsbEntry :=
  q.reverse.find? (fun x => x.overlaps a n)

/-! ## execute -/

/-- Append an entry at the young end of the next view's queue. -/
def lsbAppend (x : LsbEntry) (c : Cycle) : Cycle :=
  { c with next := { c.next with lsb := { c.next.lsb with q := c.next.lsb.q ++ [x] } } }

/-- `LSB.execute` of a store (R222): appended unready with its data truncated, its tag on the result
bus with value 0 and no wake. -/
def lsbExecuteStore (k : StoreKind) (addr data : Word) (t : Tag) (c : Cycle) : Phase :=
  rbPut t 0 false
    (lsbAppend { op := .store k, addr := addr, value := storeData k data, tag := t, ready := false } c)

/-- The value a load forwards from a covering store (R225): the sub-field at the byte offset, extended. -/
def forwardValue (k : LoadKind) (addr : Word) (x : LsbEntry) : Word :=
  loadExtend k (truncateBytes k.width (x.value >>> (8 * (addr.toNat - x.addr.toNat))))

/-- `LSB.execute` of a load (R224 to R226): forward from the nearest overlapping store of `s` if that
store covers the load, else queue the load as ready. -/
def lsbExecuteLoad (s : State) (k : LoadKind) (addr : Word) (t : Tag) (c : Cycle) : Phase :=
  match nearestStore s.lsb.q addr k.width with
  | some x =>
    if rangeCovers x.addr.toNat x.op.width addr.toNat k.width then
      rbPut t (forwardValue k addr x) true c
    else .ok (lsbAppend { op := .load k, addr := addr, value := 0, tag := t, ready := true } c)
  | none => .ok (lsbAppend { op := .load k, addr := addr, value := 0, tag := t, ready := true } c)

/-! ## checkBus -/

/-- One unready entry against the commit bus (R228). -/
def LsbEntry.markReady (cb : List CommitEntry) (x : LsbEntry) : LsbEntry :=
  if x.ready then x
  else if cb.any (fun b => decide (b.tag = x.tag)) then { x with ready := true } else x

/-- `LSB.checkBus(CB)` (R228). -/
def Lsb.checkBus (l : Lsb) (cb : List CommitEntry) : Lsb :=
  { l with q := l.q.map (LsbEntry.markReady cb) }

/-! ## tryLoadStore -/

/-- Perform an entry (R232): bounds check, then the store's write, or the load's read and broadcast. -/
def lsbPerform (h : LsbEntry) (c : Cycle) : Phase :=
  if inRange c.next.cfg h.addr h.op.width then
    match h.op with
    | .store k =>
      .ok { c with next := { c.next with mem := c.next.mem.writeLE h.addr.toNat k.width h.value } }
    | .load k => rbPut h.tag (loadExtend k (c.next.mem.readLE h.addr.toNat k.width)) true c
  else .error ⟨.mem, c.next.mem⟩

/-- Set the countdown of the next view. -/
def setCountdown (n : Nat) (c : Cycle) : Cycle :=
  { c with next := { c.next with lsb := { c.next.lsb with c := n } } }

/-- Remove the head of the next view's queue. -/
def lsbPop (c : Cycle) : Cycle :=
  { c with next := { c.next with lsb := { c.next.lsb with q := c.next.lsb.q.drop 1 } } }

/-- The countdown after a performed access: started only if the new head is ready in `s` (R230). -/
def countdownAfter (s : State) : Nat :=
  match s.lsb.q with
  | _ :: x :: _ => if x.ready then s.cfg.memLatency else 0
  | _ => 0

/-- `LSB.tryLoadStore()`, the countdown machine (R230). -/
def tryLoadStore (s : State) (c : Cycle) : Phase :=
  if 0 < s.lsb.c then .ok (setCountdown (s.lsb.c - 1) c)
  else
    match s.lsb.q with
    | [] => .ok c
    | h :: _ =>
      if h.ready then
        match lsbPerform h c with
        | .error f => .error f
        | .ok c => .ok (setCountdown (countdownAfter s) (lsbPop c))
      else .ok c

/-! ## Partial rollback -/

/-- A store that has committed (R37). -/
def LsbEntry.committedStore (x : LsbEntry) : Bool :=
  match x.op with
  | .store _ => x.ready
  | .load _ => false

/-- `LSB.clear()` on a flush keeps exactly the committed stores, and the countdown (R236, R237). -/
def Lsb.clear (l : Lsb) : Lsb := { l with q := l.q.filter LsbEntry.committedStore }

/-- The backing store with the committed stores of the queue applied in order (R80, R461). The spec does
not say what becomes of a pending store whose range leaves the backing store (R68), which the halt has
kept from being performed and so from being fatal. The model's choice (DESIGN CHOICE,
notes/assumptions/17.md): it is applied unchecked, so the result lists bytes at or beyond MEM_SIZE. -/
def pendingApplied (q : List LsbEntry) (m : Memory) : Memory :=
  match q with
  | [] => m
  | x :: rest =>
    match x.op with
    | .store k =>
      pendingApplied rest (if x.ready then m.writeLE x.addr.toNat k.width x.value else m)
    | .load _ => pendingApplied rest m

end Sys2Proof.Machine
end

