-- ==== Sys2Proof/Machine/ReservationStations.lean ====
section
/-! DEFINITION. The two reservation stations (42_reservation_stations.md R190 to R203): placement,
selection, dispatch, wake-up and clear. -/

namespace Sys2Proof.Machine

/-! ## Issue -/

/-- The lowest-numbered free slot (R193). -/
def firstFree (rsa : List (Option (RsEntry ArithKind))) : Option Nat :=
  match rsa with
  | [] => none
  | none :: _ => some 0
  | some _ :: rest => (firstFree rest).map (· + 1)

/-- `RS.issue` on RS_A (R192, R193): into the lowest slot free in `s`. -/
def rsaIssue (s n : List (Option (RsEntry ArithKind))) (e : RsEntry ArithKind) :
    List (Option (RsEntry ArithKind)) :=
  match firstFree s with
  | none => n
  | some i => n.set i (some e)

/-- `RS.issue` on RS_M (R193): at the young end. -/
def rsmIssue (n : List (RsEntry MemKind)) (e : RsEntry MemKind) : List (RsEntry MemKind) := n ++ [e]

/-- The station for a kind has room in `s` (R125). -/
def State.hasRoom (s : State) (op : OpKind) : Bool :=
  match op with
  | .arith _ => (firstFree s.rsa).isSome
  | .mem _ => decide (s.rsm.length < s.cfg.nRsm)

/-! ## Execute, arithmetic station -/

/-- The lowest-numbered busy slot whose both operands are resolved, with its entry (R194). -/
def rsaSelect (rsa : List (Option (RsEntry ArithKind))) : Option (Nat × RsEntry ArithKind) :=
  match rsa with
  | [] => none
  | none :: rest => (rsaSelect rest).map (fun p => (p.1 + 1, p.2))
  | some e :: rest =>
    if e.resolved then some (0, e) else (rsaSelect rest).map (fun p => (p.1 + 1, p.2))

/-- `RS_A.execute()` (R194, R195): the selected entry's result on the result bus, its slot freed. -/
def rsaExecute (s : State) (c : Cycle) : Phase :=
  match rsaSelect s.rsa with
  | none => .ok c
  | some (i, e) =>
    match rbPut e.tag (arithResult e).1 (arithResult e).2 c with
    | .error f => .error f
    | .ok c => .ok { c with next := { c.next with rsa := c.next.rsa.set i none } }

/-! ## Execute, memory station -/

/-- The first load with a resolved base found before any store (R198). -/
def loadScan (rsm : List (RsEntry MemKind)) : Option (RsEntry MemKind) :=
  match rsm with
  | [] => none
  | e :: rest =>
    match e.op with
    | .store _ => none
    | .load _ => if e.qj.isNone then some e else loadScan rest

/-- The entry the memory station dispatches: the oldest if it is a resolved store, else the load scan
(R197, R198). -/
def rsmSelect (rsm : List (RsEntry MemKind)) : Option (RsEntry MemKind) :=
  match rsm with
  | [] => none
  | e :: rest =>
    match e.op with
    | .store _ => if e.resolved then some e else none
    | .load _ => loadScan (e :: rest)

/-- Remove the entry with a tag; the others keep their order (R199). -/
def rsmRemove (n : List (RsEntry MemKind)) (t : Tag) : List (RsEntry MemKind) :=
  n.eraseP (fun e => decide (e.tag = t))

/-- Dispatch (R199): remove the entry, compute the effective address, hand it to the load-store
buffer; the data operand is a store's. -/
def dispatch (s : State) (e : RsEntry MemKind) (c : Cycle) : Phase :=
  let c := { c with next := { c.next with rsm := rsmRemove c.next.rsm e.tag } }
  match e.op with
  | .store k => lsbExecuteStore k (effectiveAddress e.vj e.imm) e.vk e.tag c
  | .load k => lsbExecuteLoad s k (effectiveAddress e.vj e.imm) e.tag c

/-- `RS_M.execute()` (R197, R198): nothing when the load-store buffer is full in `s` (R199). -/
def rsmExecute (s : State) (c : Cycle) : Phase :=
  if s.lsb.q.length < s.cfg.nLsb then
    match rsmSelect s.rsm with
    | none => .ok c
    | some e => dispatch s e c
  else .ok c

/-! ## checkBus and clear -/

/-- One operand slot against the two buses (R200): first the result bus, waking entries only (R201),
then the commit bus, entries with a destination only. -/
def wakeOperand (rb : List ResultEntry) (cb : List CommitEntry) (v : Word) (q : Option Tag) :
    Word × Option Tag :=
  match q with
  | none => (v, none)
  | some t =>
    match rb.find? (fun b => decide (b.tag = t) && b.wake) with
    | some b => (b.value, none)
    | none =>
      match cb.find? (fun b => decide (b.tag = t) && b.dest.isSome) with
      | some b => (b.value, none)
      | none => (v, some t)

/-- Both operand slots of an entry (R200). -/
def RsEntry.wake {κ : Type} (rb : List ResultEntry) (cb : List CommitEntry) (e : RsEntry κ) : RsEntry κ :=
  { e with
    vj := (wakeOperand rb cb e.vj e.qj).1, qj := (wakeOperand rb cb e.vj e.qj).2,
    vk := (wakeOperand rb cb e.vk e.qk).1, qk := (wakeOperand rb cb e.vk e.qk).2 }

/-- `RS_A.checkBus(RB, CB)` (R200). -/
def rsaCheckBus (rb : List ResultEntry) (cb : List CommitEntry)
    (rsa : List (Option (RsEntry ArithKind))) : List (Option (RsEntry ArithKind)) :=
  rsa.map (fun x => x.map (RsEntry.wake rb cb))

/-- `RS_M.checkBus(RB, CB)` (R200). -/
def rsmCheckBus (rb : List ResultEntry) (cb : List CommitEntry) (rsm : List (RsEntry MemKind)) :
    List (RsEntry MemKind) :=
  rsm.map (RsEntry.wake rb cb)

/-- `RS.clear()` on RS_A: every slot free (R202). -/
def rsaClear (rsa : List (Option (RsEntry ArithKind))) : List (Option (RsEntry ArithKind)) :=
  List.replicate rsa.length none

end Sys2Proof.Machine
end

