-- ==== Sys2Proof/Machine/Orchestrator.lean ====
section
/-! DEFINITION. The pipeline orchestrator (40_orchestrator_cycle.md): the six phases of one clock
cycle, the state commit, the flush and the halt (R120 to R149). -/

namespace Sys2Proof.Machine

/-! ## Phase 1: Issue -/

/-- Issue does nothing this cycle: the halt marker is issued, or the reorder buffer is full (R124 (a),
(b)). No fetch is then made. -/
def State.issueBlocked (s : State) : Bool := s.haltIssued || s.rob.full s.cfg

/-- What the fetch and the decoder offer to Issue in a cycle (R124 (c)). -/
inductive Offer where
  /-- No fetch is made. -/
  | none
  /-- A decoded instruction. -/
  | instr (r : Record)
  /-- The fetch is out of range or the word is unrecognized (R401, R403). -/
  | fatal (cause : FatalCause)
  deriving DecidableEq, Repr

/-- The station entry of an issued record, in the station of its class (R126, R190 to R193). -/
def stationIssue (s : State) (r : Record) (n : State) : State :=
  match r.op with
  | .arith k =>
    { n with rsa := rsaIssue s.rsa n.rsa (arithEntry k r (s.rob.tail s.cfg) s.regs s.pc) }
  | .mem k => { n with rsm := rsmIssue n.rsm (memEntry k r (s.rob.tail s.cfg) s.regs s.pc) }

/-- Allocation of an instruction that has room: reorder-buffer slot, station entry, producer tag, next
pc with the predictor's effects, and the mark behind the halt marker (R126, R128, R129, R149, R161). -/
def issueInto (s : State) (r : Record) (n : State) : State :=
  let n := stationIssue s r n
  { n with
    rob := s.rob.issue n.rob s.cfg r s.pc
    regs := n.regs.recordProducer r.rd (s.rob.tail s.cfg)
    pc := (nextFetch s.cfg s.bp r s.pc).1
    bp := (nextFetch s.cfg s.bp r s.pc).2
    haltIssued := n.haltIssued || decide (r.op = .arith .halt) }

/-- The Issue phase (R124, R125): nothing when blocked; a fatal fetch or decode stops the cycle;
an instruction without room is abandoned and the pc stays. -/
def issuePhase (o : Offer) (s : State) (c : Cycle) : Phase :=
  if s.issueBlocked then .ok c
  else
    match o with
    | .none => .ok c
    | .fatal cause => .error ⟨cause, c.next.mem⟩
    | .instr r => if s.hasRoom r.op then .ok { c with next := issueInto s r c.next } else .ok c

/-! ## Phases 2 to 4 -/

/-- The Execute phase (R130): RS_A, then RS_M. -/
def executePhase (s : State) (c : Cycle) : Phase :=
  match rsaExecute s c with
  | .error f => .error f
  | .ok c => rsmExecute s c

/-- The MemoryAccess phase (R131). -/
def memoryAccessPhase (s : State) (c : Cycle) : Phase := tryLoadStore s c

/-- The Commit phase (R132): the outcome raises the flush request or the halt (R143). -/
def commitPhase (s : State) (c : Cycle) : Phase :=
  match robCommit s c with
  | .error f => .error f
  | .ok (c, .nothing) => .ok c
  | .ok (c, .halt v) => .ok { c with next := raiseHalt v c.next }
  | .ok (c, .flush t) => .ok { c with flushReq := some t }

/-! ## Phase 5: bus propagation -/

/-- `RF.checkBus(CB)` (R262). -/
def regsCheckBus (cb : List CommitEntry) (rf : RegFile) : RegFile :=
  cb.foldl (fun rf b => rf.acceptCommit b.tag b.value b.dest) rf

/-- Bus propagation: every structure of the next view looks at the buses (R135). -/
def busPropagate (c : Cycle) : State :=
  { c.next with
    rob := c.next.rob.checkBus c.rb
    rsa := rsaCheckBus c.rb c.cb c.next.rsa
    rsm := rsmCheckBus c.rb c.cb c.next.rsm
    lsb := c.next.lsb.checkBus c.cb
    regs := regsCheckBus c.cb c.next.regs }

/-! ## Phase 6: state commit and flush -/

/-- State commit without a flush (R139, R145): register 0 forced to zero, the clock advanced. -/
def stateCommit (s n : State) : State :=
  { n with regs := n.regs.forceZero, clkCount := s.clkCount + 1 }

/-- The flush to a corrected target (R141). -/
def flushTo (t : Word) (n : State) : State :=
  { n with
    rob := n.rob.clear
    rsa := rsaClear n.rsa
    rsm := []
    lsb := n.lsb.clear
    regs := n.regs.clearTags
    pc := t
    haltIssued := false }

/-- The end of the cycle: state commit, then the flush if one was requested (R139, R141). -/
def endOfCycle (s : State) (c : Cycle) : State :=
  match c.flushReq with
  | none => stateCommit s (busPropagate c)
  | some t => flushTo t (stateCommit s (busPropagate c))

/-! ## The cycle -/

/-- The four phases that write the next view and the buses, in order (R120). -/
def phases (o : Offer) (s : State) : Phase :=
  match issuePhase o s (Cycle.start s) with
  | .error f => .error f
  | .ok c =>
    match executePhase s c with
    | .error f => .error f
    | .ok c =>
      match memoryAccessPhase s c with
      | .error f => .error f
      | .ok c => commitPhase s c

/-- The state after a cycle that runs (R146): the end of the cycle, or the fatal stop (R144). -/
def afterCycle (o : Offer) (s : State) : State :=
  match phases o s with
  | .error f => raiseFatal f s
  | .ok c => endOfCycle s c

/-- One clock edge with `rst = 0` (R11): no state changes after a halt or a fatal stop (R121); a
cycle otherwise. A value of `State` that is no state of a machine of R9 is faulted
(notes/assumptions/6.md). -/
def cycle (o : Offer) (s : State) : Host.Outcome State Fault Refusal :=
  if s.stopped then .next s
  else if !s.cfg.legal then .fault .illegalConfiguration
  else if !s.wellSized then .fault .illSizedState
  else .next (afterCycle o s)

/-- The cycle in which a decoded instruction stands at the fetch address: what every instruction's
meaning calls with its own record. -/
def cycleIssuing (r : Record) (s : State) : Host.Outcome State Fault Refusal := cycle (.instr r) s

end Sys2Proof.Machine
end

