-- ==== Sys2Proof/Machine/Control.lean ====
section
/-! DEFINITION. Control transfer and the halt marker (46_ops_control.md R338 to R350). The meaning of an
instruction is the cycle in which it stands at the fetch address: it is issued with its record, and
the next fetch address is chosen (`nextFetch`, R129). The resolved target is `arithResult`'s
(Machine/Alu.lean), the check and the link value are the commit's (Machine/ReorderBuffer.lean R165,
R168 to R170, R174), the redirection is `flushTo` (Machine/Orchestrator.lean R141) -/

namespace Sys2Proof.Machine

/-- JAL (R340): `x[rd] <- u32(pc + 4); pc <- u32(pc + imm)`; the target is applied at issue. -/
def execJal (rd : RegIdx) (off : BitVec 21) (s : State) : Host.Outcome State Fault Refusal :=
  cycleIssuing (recordJ rd off) s

/-- JALR (R341): `t <- u32(x[rs1] + imm)` with bit 0 cleared; `x[rd] <- u32(pc + 4); pc <- t`; the
next fetch is the stack's prediction, checked at commit. -/
def execJalr (rd rs1 : RegIdx) (imm : BitVec 12) (s : State) : Host.Outcome State Fault Refusal :=
  cycleIssuing (recordI (.arith .jalr) rd rs1 imm) s

/-- BEQ (R342): condition `a = b`; the next fetch is the counter's prediction, checked at commit. -/
def execBeq (rs1 rs2 : RegIdx) (off : BitVec 13) (s : State) : Host.Outcome State Fault Refusal :=
  cycleIssuing (recordB .beq rs1 rs2 off) s

/-- BNE (R343): condition `a != b`; the next fetch is the counter's prediction, checked at commit. -/
def execBne (rs1 rs2 : RegIdx) (off : BitVec 13) (s : State) : Host.Outcome State Fault Refusal :=
  cycleIssuing (recordB .bne rs1 rs2 off) s

/-- BLT (R344): condition `s32(a) < s32(b)`; the next fetch is the counter's prediction, checked at
commit. -/
def execBlt (rs1 rs2 : RegIdx) (off : BitVec 13) (s : State) : Host.Outcome State Fault Refusal :=
  cycleIssuing (recordB .blt rs1 rs2 off) s

/-- BGE (R345): condition `s32(a) >= s32(b)`; the next fetch is the counter's prediction, checked at
commit. -/
def execBge (rs1 rs2 : RegIdx) (off : BitVec 13) (s : State) : Host.Outcome State Fault Refusal :=
  cycleIssuing (recordB .bge rs1 rs2 off) s

/-- BLTU (R346): condition `a < b` unsigned; the next fetch is the counter's prediction, checked at
commit. -/
def execBltu (rs1 rs2 : RegIdx) (off : BitVec 13) (s : State) : Host.Outcome State Fault Refusal :=
  cycleIssuing (recordB .bltu rs1 rs2 off) s

/-- BGEU (R347): condition `a >= b` unsigned; the next fetch is the counter's prediction, checked at
commit. -/
def execBgeu (rs1 rs2 : RegIdx) (off : BitVec 13) (s : State) : Host.Outcome State Fault Refusal :=
  cycleIssuing (recordB .bgeu rs1 rs2 off) s

/-- HALT (R349): issued with no destination, stops further issue (R149), halts the machine when it
commits (R165, R143). -/
def execHalt (s : State) : Host.Outcome State Fault Refusal :=
  cycleIssuing recordHalt s

end Sys2Proof.Machine
end

