-- ==== Sys2Proof/Machine/Integer.lean ====
section
/-! DEFINITION. The 21 integer kinds (45_ops_integer.md R298 to R322). The meaning of an instruction is the
cycle in which it stands at the fetch address: it is issued with its record. Its way on through the
block (R298) is in the later cycles' phases, by its operation kind: the result in `arithResult`
(Machine/Alu.lean), commit in `commitOther` or `commitPcValue` (Machine/ReorderBuffer.lean), the
register write in `RegFile.acceptCommit` (Machine/Ops.lean) -/

namespace Sys2Proof.Machine

/-- LUI (R301): `v = imm`. -/
def execLui (rd : RegIdx) (imm20 : BitVec 20) (s : State) : Host.Outcome State Fault Refusal :=
  cycleIssuing (recordU .lui rd imm20) s

/-- AUIPC (R302): `v = u32(pc + imm)`, formed at issue. -/
def execAuipc (rd : RegIdx) (imm20 : BitVec 20) (s : State) : Host.Outcome State Fault Refusal :=
  cycleIssuing (recordU .auipc rd imm20) s

/-- ADDI (R303): `v = add(a, imm)`. -/
def execAddi (rd rs1 : RegIdx) (imm : BitVec 12) (s : State) : Host.Outcome State Fault Refusal :=
  cycleIssuing (recordI (.arith (.imm .addi)) rd rs1 imm) s

/-- SLTI (R304): `v = lt_signed(a, imm)`. -/
def execSlti (rd rs1 : RegIdx) (imm : BitVec 12) (s : State) : Host.Outcome State Fault Refusal :=
  cycleIssuing (recordI (.arith (.imm .slti)) rd rs1 imm) s

/-- SLTIU (R305): `v = lt_unsigned(a, imm)`, the immediate sign-extended first. -/
def execSltiu (rd rs1 : RegIdx) (imm : BitVec 12) (s : State) : Host.Outcome State Fault Refusal :=
  cycleIssuing (recordI (.arith (.imm .sltiu)) rd rs1 imm) s

/-- XORI (R306): `v = a xor imm`. -/
def execXori (rd rs1 : RegIdx) (imm : BitVec 12) (s : State) : Host.Outcome State Fault Refusal :=
  cycleIssuing (recordI (.arith (.imm .xori)) rd rs1 imm) s

/-- ORI (R307): `v = a or imm`. -/
def execOri (rd rs1 : RegIdx) (imm : BitVec 12) (s : State) : Host.Outcome State Fault Refusal :=
  cycleIssuing (recordI (.arith (.imm .ori)) rd rs1 imm) s

/-- ANDI (R308): `v = a and imm`. -/
def execAndi (rd rs1 : RegIdx) (imm : BitVec 12) (s : State) : Host.Outcome State Fault Refusal :=
  cycleIssuing (recordI (.arith (.imm .andi)) rd rs1 imm) s

/-- SLLI (R309): `v = sll(a, imm)`. -/
def execSlli (rd rs1 : RegIdx) (shamt : BitVec 5) (s : State) : Host.Outcome State Fault Refusal :=
  cycleIssuing (recordShift .slli rd rs1 shamt) s

/-- SRLI (R310): `v = srl(a, imm)`. -/
def execSrli (rd rs1 : RegIdx) (shamt : BitVec 5) (s : State) : Host.Outcome State Fault Refusal :=
  cycleIssuing (recordShift .srli rd rs1 shamt) s

/-- SRAI (R311): `v = sra(a, imm)`. -/
def execSrai (rd rs1 : RegIdx) (shamt : BitVec 5) (s : State) : Host.Outcome State Fault Refusal :=
  cycleIssuing (recordShift .srai rd rs1 shamt) s

/-- ADD (R312): `v = add(a, b)`. -/
def execAdd (rd rs1 rs2 : RegIdx) (s : State) : Host.Outcome State Fault Refusal :=
  cycleIssuing (recordR .add rd rs1 rs2) s

/-- SUB (R313): `v = sub(a, b)`. -/
def execSub (rd rs1 rs2 : RegIdx) (s : State) : Host.Outcome State Fault Refusal :=
  cycleIssuing (recordR .sub rd rs1 rs2) s

/-- SLL (R314): `v = sll(a, b)`. -/
def execSll (rd rs1 rs2 : RegIdx) (s : State) : Host.Outcome State Fault Refusal :=
  cycleIssuing (recordR .sll rd rs1 rs2) s

/-- SLT (R315): `v = lt_signed(a, b)`. -/
def execSlt (rd rs1 rs2 : RegIdx) (s : State) : Host.Outcome State Fault Refusal :=
  cycleIssuing (recordR .slt rd rs1 rs2) s

/-- SLTU (R316): `v = lt_unsigned(a, b)`. -/
def execSltu (rd rs1 rs2 : RegIdx) (s : State) : Host.Outcome State Fault Refusal :=
  cycleIssuing (recordR .sltu rd rs1 rs2) s

/-- XOR (R317): `v = a xor b`. -/
def execXor (rd rs1 rs2 : RegIdx) (s : State) : Host.Outcome State Fault Refusal :=
  cycleIssuing (recordR .xor rd rs1 rs2) s

/-- SRL (R318): `v = srl(a, b)`. -/
def execSrl (rd rs1 rs2 : RegIdx) (s : State) : Host.Outcome State Fault Refusal :=
  cycleIssuing (recordR .srl rd rs1 rs2) s

/-- SRA (R319): `v = sra(a, b)`. -/
def execSra (rd rs1 rs2 : RegIdx) (s : State) : Host.Outcome State Fault Refusal :=
  cycleIssuing (recordR .sra rd rs1 rs2) s

/-- OR (R320): `v = a or b`. -/
def execOr (rd rs1 rs2 : RegIdx) (s : State) : Host.Outcome State Fault Refusal :=
  cycleIssuing (recordR .or rd rs1 rs2) s

/-- AND (R321): `v = a and b`. -/
def execAnd (rd rs1 rs2 : RegIdx) (s : State) : Host.Outcome State Fault Refusal :=
  cycleIssuing (recordR .and rd rs1 rs2) s

end Sys2Proof.Machine
end

