-- ==== Sys2Proof/Machine/LoadStore.lean ====
section
/-! DEFINITION. Loads and stores (47_ops_memory.md R357 to R368). The meaning of an instruction is the
cycle in which it stands at the fetch address: it is issued with its record into the memory station.
Dispatch is `rsmExecute` (Machine/ReservationStations.lean), forwarding, queueing and the access are
in Machine/LoadStoreBuffer.lean, the extension of a load is `loadExtend` and the data a store keeps
is `storeData` (Machine/Alu.lean) -/

namespace Sys2Proof.Machine

/-- LB (R360): `x[rd] <- sext_8(mem[addr])`. -/
def execLb (rd rs1 : RegIdx) (imm : BitVec 12) (s : State) : Host.Outcome State Fault Refusal :=
  cycleIssuing (recordI (.mem (.load .lb)) rd rs1 imm) s

/-- LH (R361): `x[rd] <- sext_16(mem[addr+1] ++ mem[addr])`. -/
def execLh (rd rs1 : RegIdx) (imm : BitVec 12) (s : State) : Host.Outcome State Fault Refusal :=
  cycleIssuing (recordI (.mem (.load .lh)) rd rs1 imm) s

/-- LW (R362): `x[rd]` is the four bytes at `addr`, little-endian. -/
def execLw (rd rs1 : RegIdx) (imm : BitVec 12) (s : State) : Host.Outcome State Fault Refusal :=
  cycleIssuing (recordI (.mem (.load .lw)) rd rs1 imm) s

/-- LBU (R363): `x[rd] <- zext_8(mem[addr])`. -/
def execLbu (rd rs1 : RegIdx) (imm : BitVec 12) (s : State) : Host.Outcome State Fault Refusal :=
  cycleIssuing (recordI (.mem (.load .lbu)) rd rs1 imm) s

/-- LHU (R364): `x[rd] <- zext_16(mem[addr+1] ++ mem[addr])`. -/
def execLhu (rd rs1 : RegIdx) (imm : BitVec 12) (s : State) : Host.Outcome State Fault Refusal :=
  cycleIssuing (recordI (.mem (.load .lhu)) rd rs1 imm) s

/-- SB (R365): stores the low byte of `x[rs2]` at `u32(x[rs1] + imm)`. -/
def execSb (rs1 rs2 : RegIdx) (imm : BitVec 12) (s : State) : Host.Outcome State Fault Refusal :=
  cycleIssuing (recordS .sb rs1 rs2 imm) s

/-- SH (R366): stores the low half-word of `x[rs2]` at `u32(x[rs1] + imm)`. -/
def execSh (rs1 rs2 : RegIdx) (imm : BitVec 12) (s : State) : Host.Outcome State Fault Refusal :=
  cycleIssuing (recordS .sh rs1 rs2 imm) s

/-- SW (R367): stores the four bytes of `x[rs2]` at `u32(x[rs1] + imm)`. -/
def execSw (rs1 rs2 : RegIdx) (imm : BitVec 12) (s : State) : Host.Outcome State Fault Refusal :=
  cycleIssuing (recordS .sw rs1 rs2 imm) s

end Sys2Proof.Machine
end

