-- ==== Sys2Proof/Machine/Fetch.lean ====
section
/-! DEFINITION. The instruction fetch of the Issue phase (R62, R124), and the placing of a word where
it will be fetched. -/

namespace Sys2Proof.Machine

/-- `MemRead(S.pc, 4)`, absent when out of range (R62, R68, R124). -/
def fetchWord (s : State) : Option Word :=
  if inRange s.cfg s.pc 4 then some (s.mem.readLE s.pc.toNat 4) else none

/-- Store the four bytes of a word at the fetch address, little-endian (R62). -/
def storeFetchWord (s : State) (w : Word) : State :=
  { s with mem := s.mem.writeLE s.pc.toNat 4 w }

end Sys2Proof.Machine
end

