-- ==== Sys2Proof/Machine/Step.lean ====
section
/-! DEFINITION. One step of the machine: one clock cycle (R11, R120, R146), the Issue phase's fetch
and decode included (R124). -/

namespace Sys2Proof.Machine

/-- One clock cycle. When Issue is not blocked the word at `S.pc` is fetched and decoded: an
instruction is executed, a fetch out of range or an unrecognized word is fatal (R124, R401, R403). -/
def step (s : State) : Host.Outcome State Fault Refusal :=
  if s.issueBlocked then cycle .none s
  else
    match fetchWord s with
    | none => cycle (.fatal .mem) s
    | some w =>
      match decodeWord w with
      | .error _ => cycle (.fatal .decode) s
      | .ok i => exec i s

/-- `s` with a table word stored where `step` fetches its next instruction. -/
def State.withFetchWord (s : State) (nbits w : Nat) : State :=
  storeFetchWord s (tableWord nbits w)

end Sys2Proof.Machine
end

