-- ==== Sys2Proof/Machine/Clock.lean ====
section
/-! DEFINITION. A clock edge with the reset input (00_scope.md R11, 70_reset_and_hazards.md R441). -/

namespace Sys2Proof.Machine

/-- A rising edge of `clk`. With `rst = 1` the loader has supplied an image and an entry address and
the edge loads the reset state, from every state, halted or fatal included (R11, R27, R400, R441);
with `rst = 0` it is one step. -/
def clockEdge (rst : Option (List Host.Cell × Word)) (s : State) : Host.Outcome State Fault Refusal :=
  match rst with
  | none => step s
  | some (image, entryPc) => .next (resetWith s.cfg image entryPc)

end Sys2Proof.Machine
end

