-- ==== Sys2Proof/Machine/Loader.lean ====
section
/-! DEFINITION. The external image loader's text format (30_encoding.md R112): whitespace-separated
tokens; a token that begins with the marker `@` starts a segment at the hexadecimal address after the
marker; every other token is a two-digit hexadecimal byte at the current address, which then rises by
one. What a malformed text does is not in the spec: notes/assumptions/9.md. -/

namespace Sys2Proof.Machine

/-- The value of a hexadecimal digit, in either case. -/
def hexDigit (c : Char) : Option Nat :=
  if 48 ≤ c.toNat && c.toNat ≤ 57 then some (c.toNat - 48)
  else if 65 ≤ c.toNat && c.toNat ≤ 70 then some (c.toNat - 55)
  else if 97 ≤ c.toNat && c.toNat ≤ 102 then some (c.toNat - 87)
  else none

/-- A sequence of hexadecimal digits read after the digits whose value is `acc`. -/
def hexDigits (cs : List Char) (acc : Nat) : Option Nat :=
  match cs with
  | [] => some acc
  | c :: rest =>
    match hexDigit c with
    | none => none
    | some d => hexDigits rest (acc * 16 + d)

/-- A non-empty hexadecimal number. -/
def hexNumber (cs : List Char) : Option Nat :=
  match cs with
  | [] => none
  | c :: rest => hexDigits (c :: rest) 0

/-- A two-digit hexadecimal byte. -/
def hexByte (cs : List Char) : Option Byte :=
  match cs with
  | [c, d] => (hexNumber [c, d]).map (BitVec.ofNat 8)
  | _ => none

/-- Space, tab, line feed and carriage return separate tokens. -/
def isBlank (c : Char) : Bool := c.toNat == 32 || c.toNat == 9 || c.toNat == 10 || c.toNat == 13

/-- The tokens of a text; `cur` is the token begun, in reverse. -/
def tokensFrom (cs : List Char) (cur : List Char) : List (List Char) :=
  match cs with
  | [] => if cur.isEmpty then [] else [cur.reverse]
  | c :: rest =>
    if isBlank c then
      if cur.isEmpty then tokensFrom rest [] else cur.reverse :: tokensFrom rest []
    else tokensFrom rest (c :: cur)

/-- The bytes named by tokens from the current address on; none on a malformed token. -/
def imageFrom (tokens : List (List Char)) (addr : Nat) : Option (List Host.Cell) :=
  match tokens with
  | [] => some []
  | token :: rest =>
    match token with
    | '@' :: digits =>
      match hexNumber digits with
      | none => none
      | some a => imageFrom rest a
    | _ =>
      match hexByte token with
      | none => none
      | some b => (imageFrom rest (addr + 1)).map (fun m => (addr, b) :: m)

/-- The image and the entry address of a text; the first segment's address is the entry (R112). -/
def loadText (cs : List Char) : Option (List Host.Cell × Word) :=
  match tokensFrom cs [] with
  | ('@' :: digits) :: rest =>
    match hexNumber digits with
    | none => none
    | some a => (imageFrom rest a).map (fun m => (m, BitVec.ofNat 32 a))
  | _ => none

end Sys2Proof.Machine
end

