-- ==== Sys2Proof/Machine/Records.lean ====
section
/-! DEFINITION. The decoded instruction record of every instruction (30_encoding.md R90 to R92, R99,
R102), as one table, and the decoder's contract in terms of records (00_scope.md R13). -/

namespace Sys2Proof.Machine

/-- The record the decoder returns for an instruction (R90, R91). -/
def recordOf (i : Instr) : Record :=
  match i with
  | .halt => recordHalt
  | .lui rd imm20 => recordU .lui rd imm20
  | .auipc rd imm20 => recordU .auipc rd imm20
  | .jal rd off => recordJ rd off
  | .jalr rd rs1 imm => recordI (.arith .jalr) rd rs1 imm
  | .beq rs1 rs2 off => recordB .beq rs1 rs2 off
  | .bne rs1 rs2 off => recordB .bne rs1 rs2 off
  | .blt rs1 rs2 off => recordB .blt rs1 rs2 off
  | .bge rs1 rs2 off => recordB .bge rs1 rs2 off
  | .bltu rs1 rs2 off => recordB .bltu rs1 rs2 off
  | .bgeu rs1 rs2 off => recordB .bgeu rs1 rs2 off
  | .lb rd rs1 imm => recordI (.mem (.load .lb)) rd rs1 imm
  | .lh rd rs1 imm => recordI (.mem (.load .lh)) rd rs1 imm
  | .lw rd rs1 imm => recordI (.mem (.load .lw)) rd rs1 imm
  | .lbu rd rs1 imm => recordI (.mem (.load .lbu)) rd rs1 imm
  | .lhu rd rs1 imm => recordI (.mem (.load .lhu)) rd rs1 imm
  | .sb rs1 rs2 imm => recordS .sb rs1 rs2 imm
  | .sh rs1 rs2 imm => recordS .sh rs1 rs2 imm
  | .sw rs1 rs2 imm => recordS .sw rs1 rs2 imm
  | .addi rd rs1 imm => recordI (.arith (.imm .addi)) rd rs1 imm
  | .slti rd rs1 imm => recordI (.arith (.imm .slti)) rd rs1 imm
  | .sltiu rd rs1 imm => recordI (.arith (.imm .sltiu)) rd rs1 imm
  | .xori rd rs1 imm => recordI (.arith (.imm .xori)) rd rs1 imm
  | .ori rd rs1 imm => recordI (.arith (.imm .ori)) rd rs1 imm
  | .andi rd rs1 imm => recordI (.arith (.imm .andi)) rd rs1 imm
  | .slli rd rs1 shamt => recordShift .slli rd rs1 shamt
  | .srli rd rs1 shamt => recordShift .srli rd rs1 shamt
  | .srai rd rs1 shamt => recordShift .srai rd rs1 shamt
  | .add rd rs1 rs2 => recordR .add rd rs1 rs2
  | .sub rd rs1 rs2 => recordR .sub rd rs1 rs2
  | .sll rd rs1 rs2 => recordR .sll rd rs1 rs2
  | .slt rd rs1 rs2 => recordR .slt rd rs1 rs2
  | .sltu rd rs1 rs2 => recordR .sltu rd rs1 rs2
  | .xor rd rs1 rs2 => recordR .xor rd rs1 rs2
  | .srl rd rs1 rs2 => recordR .srl rd rs1 rs2
  | .sra rd rs1 rs2 => recordR .sra rd rs1 rs2
  | .or rd rs1 rs2 => recordR .or rd rs1 rs2
  | .and rd rs1 rs2 => recordR .and rd rs1 rs2

/-- The decoder interface: the record, or the verdict "unrecognized" (R13, R90, R108). -/
def decodeRecord (w : Word) : Except DecodeError Record :=
  match decodeWord w with
  | .ok i => .ok (recordOf i)
  | .error e => .error e

end Sys2Proof.Machine
end

