-- ==== Sys2Proof/Machine/Sequential.lean ====
section
/-! DEFINITION. The sequential machine (70_reset_and_hazards.md R450): the architectural effect of
each kind (45_ops_integer.md R298 to R321, 46_ops_control.md R340 to R349, 47_ops_memory.md R358 to
R367), one instruction at a time, and the architectural view of the block's state it is compared with
(10_state.md R24, R452, R461). It is what the spec measures the block against; `step` does not use it. -/

namespace Sys2Proof.Machine

/-- The sequential machine's state (R450), with the size of its memory. -/
structure Seq where
  x : Vector Word 32
  pc : Word
  mem : Memory
  memSize : Nat
  deriving DecidableEq, Repr

/-- What one sequential step gives (R450). -/
inductive SeqOutcome where
  | running (q : Seq)
  | halted (exitValue : BitVec 8)
  | fatal (cause : FatalCause)
  deriving DecidableEq, Repr

/-- `x[r]`, with `x[0] = 0` (R450). -/
def Seq.reg (q : Seq) (r : RegIdx) : Word := if r = 0 then 0 else q.x[r]

/-- `x[rd] <- v`; `x0` discards it (R23). -/
def Seq.setReg (q : Seq) (rd : RegIdx) (v : Word) : Seq :=
  if rd = 0 then q else { q with x := q.x.set rd v }

/-- The access of `n` bytes at `a` is in range (R68). -/
def Seq.inRange (q : Seq) (a : Word) (n : Nat) : Bool := decide (a.toNat + n ≤ q.memSize)

/-- `x[rd] <- v; pc <- pc + 4` (R298). -/
def seqValue (rd : RegIdx) (v : Word) (q : Seq) : SeqOutcome :=
  .running { q.setReg rd v with pc := q.pc + 4 }

/-- A register-immediate kind (R303 to R311). -/
def seqImm (k : ImmKind) (rd rs1 : RegIdx) (imm : Word) (q : Seq) : SeqOutcome :=
  seqValue rd (immAlu k (q.reg rs1) imm) q

/-- A register-register kind (R312 to R321). -/
def seqReg (k : RegKind) (rd rs1 rs2 : RegIdx) (q : Seq) : SeqOutcome :=
  seqValue rd (regAlu k (q.reg rs1) (q.reg rs2)) q

/-- `x[rd] <- u32(pc + 4); pc <- target` (R340, R341). -/
def seqJump (rd : RegIdx) (target : Word) (q : Seq) : SeqOutcome :=
  .running { q.setReg rd (q.pc + 4) with pc := target }

/-- A conditional branch (R342 to R347). -/
def seqBranch (k : BranchKind) (rs1 rs2 : RegIdx) (off : BitVec 13) (q : Seq) : SeqOutcome :=
  .running { q with pc := branchTarget k (q.reg rs1) (q.reg rs2) q.pc (off.signExtend 32) }

/-- A load (R358); out of range is fatal (R450). -/
def seqLoad (k : LoadKind) (rd rs1 : RegIdx) (imm : BitVec 12) (q : Seq) : SeqOutcome :=
  let a := effectiveAddress (q.reg rs1) (imm.signExtend 32)
  if q.inRange a k.width then seqValue rd (loadExtend k (q.mem.readLE a.toNat k.width)) q
  else .fatal .mem

/-- A store, written to memory at once (R359, R450); out of range is fatal. -/
def seqStore (k : StoreKind) (rs1 rs2 : RegIdx) (imm : BitVec 12) (q : Seq) : SeqOutcome :=
  let a := effectiveAddress (q.reg rs1) (imm.signExtend 32)
  if q.inRange a k.width then
    .running { q with mem := q.mem.writeLE a.toNat k.width (q.reg rs2), pc := q.pc + 4 }
  else .fatal .mem

/-- The architectural effect of an instruction (R450). -/
def seqExec (i : Instr) (q : Seq) : SeqOutcome :=
  match i with
  | .halt => .halted ((q.reg 10).setWidth 8)
  | .lui rd imm20 => seqValue rd (imm20 ++ 0#12) q
  | .auipc rd imm20 => seqValue rd (q.pc + (imm20 ++ 0#12)) q
  | .jal rd off => seqJump rd (q.pc + off.signExtend 32) q
  | .jalr rd rs1 imm => seqJump rd (jalrTarget (q.reg rs1) (imm.signExtend 32)) q
  | .beq rs1 rs2 off => seqBranch .beq rs1 rs2 off q
  | .bne rs1 rs2 off => seqBranch .bne rs1 rs2 off q
  | .blt rs1 rs2 off => seqBranch .blt rs1 rs2 off q
  | .bge rs1 rs2 off => seqBranch .bge rs1 rs2 off q
  | .bltu rs1 rs2 off => seqBranch .bltu rs1 rs2 off q
  | .bgeu rs1 rs2 off => seqBranch .bgeu rs1 rs2 off q
  | .lb rd rs1 imm => seqLoad .lb rd rs1 imm q
  | .lh rd rs1 imm => seqLoad .lh rd rs1 imm q
  | .lw rd rs1 imm => seqLoad .lw rd rs1 imm q
  | .lbu rd rs1 imm => seqLoad .lbu rd rs1 imm q
  | .lhu rd rs1 imm => seqLoad .lhu rd rs1 imm q
  | .sb rs1 rs2 imm => seqStore .sb rs1 rs2 imm q
  | .sh rs1 rs2 imm => seqStore .sh rs1 rs2 imm q
  | .sw rs1 rs2 imm => seqStore .sw rs1 rs2 imm q
  | .addi rd rs1 imm => seqImm .addi rd rs1 (imm.signExtend 32) q
  | .slti rd rs1 imm => seqImm .slti rd rs1 (imm.signExtend 32) q
  | .sltiu rd rs1 imm => seqImm .sltiu rd rs1 (imm.signExtend 32) q
  | .xori rd rs1 imm => seqImm .xori rd rs1 (imm.signExtend 32) q
  | .ori rd rs1 imm => seqImm .ori rd rs1 (imm.signExtend 32) q
  | .andi rd rs1 imm => seqImm .andi rd rs1 (imm.signExtend 32) q
  | .slli rd rs1 shamt => seqImm .slli rd rs1 (shamt.setWidth 32) q
  | .srli rd rs1 shamt => seqImm .srli rd rs1 (shamt.setWidth 32) q
  | .srai rd rs1 shamt => seqImm .srai rd rs1 (shamt.setWidth 32) q
  | .add rd rs1 rs2 => seqReg .add rd rs1 rs2 q
  | .sub rd rs1 rs2 => seqReg .sub rd rs1 rs2 q
  | .sll rd rs1 rs2 => seqReg .sll rd rs1 rs2 q
  | .slt rd rs1 rs2 => seqReg .slt rd rs1 rs2 q
  | .sltu rd rs1 rs2 => seqReg .sltu rd rs1 rs2 q
  | .xor rd rs1 rs2 => seqReg .xor rd rs1 rs2 q
  | .srl rd rs1 rs2 => seqReg .srl rd rs1 rs2 q
  | .sra rd rs1 rs2 => seqReg .sra rd rs1 rs2 q
  | .or rd rs1 rs2 => seqReg .or rd rs1 rs2 q
  | .and rd rs1 rs2 => seqReg .and rd rs1 rs2 q

/-- One sequential step (R450). -/
def seqStep (q : Seq) : SeqOutcome :=
  if q.inRange q.pc 4 then
    match decodeWord (q.mem.readLE q.pc.toNat 4) with
    | .ok i => seqExec i q
    | .error _ => .fatal .decode
  else .fatal .mem

/-- `k` sequential steps, stopping at a halt or a fatal stop. -/
def seqRun (k : Nat) (q : Seq) : SeqOutcome :=
  match k with
  | 0 => .running q
  | k + 1 =>
    match seqStep q with
    | .running q => seqRun k q
    | .halted v => .halted v
    | .fatal f => .fatal f

/-- The start of the sequential machine (R450). -/
def seqStart (cfg : Config) (image : List Host.Cell) (entryPc : Word) : Seq where
  x := Vector.replicate 32 0
  pc := entryPc
  mem := loadImage cfg.memSize image
  memSize := cfg.memSize

/-! ## The architectural view of the block -/

/-- The address of the next instruction to commit (R24). -/
def State.archPc (s : State) : Word :=
  if s.rob.count = 0 then s.pc
  else
    match (s.rob.slots[s.rob.head]?).join with
    | some e => e.pc
    | none => s.pc

/-- The committed registers, the architectural pc, and the backing store with the committed stores of
the load-store buffer applied in order (R24, R452, R461). -/
def State.view (s : State) : Seq where
  x := s.regs.val
  pc := s.archPc
  mem := pendingApplied s.lsb.q s.mem
  memSize := s.cfg.memSize

end Sys2Proof.Machine
end

