-- ==== Sys2Proof/Safety.lean ====
section
/-! DEFINITION. The terms statements use: a running cycle, the invariants of the block (10_state.md
R44), an idle machine and what an instruction issued into it completes with, and what the oldest entry
does at its commit, each written out from the rules and not from the machine's phases. -/

namespace Sys2Proof.Machine

/-! ## Running -/

/-- A state in which a cycle runs (R121), of a machine of R9. -/
abbrev State.running (s : State) : Prop :=
  s.halted = false ∧ s.fatal = false ∧ s.cfg.legal = true ∧ s.wellSized = true

/-- A cycle that runs from `s` and is not stopped by a fatal condition leaves `t` (R120, R139). -/
abbrev State.advances (s t : State) : Prop := s.running ∧ step s = .next t ∧ t.fatal = false

/-! ## The invariants of the block (R44) -/

/-- The backing store lists only addresses that exist (R60). -/
abbrev Memory.within (m : Memory) (size : Nat) : Prop := ∀ b ∈ m, b.1 < size

/-- The entry is a store. -/
def LsbEntry.isStore (x : LsbEntry) : Bool :=
  match x.op with
  | .load _ => false
  | .store _ => true

/-- A load-store-buffer entry as the buffer makes it: a load is ready and holds no data, a store holds
its data truncated to its width (R36, R222, R226). -/
def LsbEntry.shaped (x : LsbEntry) : Bool :=
  match x.op with
  | .load _ => x.ready && decide (x.value = 0)
  | .store k => decide (x.value.toNat < 2 ^ (8 * k.width))

/-- The structural facts: sizes and capacities (R44 (f)), the canonical memory, register 0 (R23), and
the load-store buffer's entries (R36). -/
abbrev State.sound (s : State) : Prop :=
  s.cfg.legal = true ∧ s.wellSized = true ∧ s.mem.wf = true ∧ s.mem.within s.cfg.memSize ∧
  s.regs.value 0 = 0 ∧ s.regs.producer 0 = none ∧ (∀ x ∈ s.lsb.q, x.shaped = true)

/-- The distance of a slot behind the head, around the circle (R29). -/
def Rob.age (rob : Rob) (cfg : Config) (t : Tag) : Nat := (t + cfg.nRob - rob.head) % cfg.nRob

/-- The kinds that have no destination: stores, branches and the halt marker (R30, R92). -/
def OpKind.noDest (op : OpKind) : Bool :=
  match op with
  | .arith .halt => true
  | .arith (.branch _) => true
  | .mem (.store _) => true
  | _ => false

/-- The occupied slots are exactly the `count` slots from the head on (R29). -/
abbrev State.windowed (s : State) : Prop :=
  ∀ t, t < s.cfg.nRob → ((s.rob.entry t).isSome = true ↔ s.rob.age s.cfg t < s.rob.count)

/-- An entry's tag is its slot's index (R30, R44 (a)), and it has a destination exactly when its kind
writes a register (R30). -/
abbrev State.tagged (s : State) : Prop :=
  ∀ t, t < s.cfg.nRob → ∀ e ∈ s.rob.entry t, e.tag = t ∧ (e.dest = none ↔ e.op.noDest = true)

/-- Every register's producer tag names an occupied slot whose destination is that register, and that
slot is the youngest occupied one with that destination (R31, R44 (c)). -/
abbrev State.producersInFlight (s : State) : Prop :=
  ∀ r : RegIdx, ∀ t ∈ s.regs.producer r,
    (∃ e ∈ s.rob.entry t, e.dest = some r) ∧
    ∀ t', t' < s.cfg.nRob → ∀ e' ∈ s.rob.entry t', e'.dest = some r →
      s.rob.age s.cfg t' ≤ s.rob.age s.cfg t

/-- The reorder buffer and the producer tags agree (R29, R30, R31, R44). -/
abbrev State.consistent (s : State) : Prop := s.windowed ∧ s.tagged ∧ s.producersInFlight

/-- The tags held by the arithmetic station, the memory station and the load-store buffer's loads and
unready stores (R31, R44 (b)). -/
def State.holders (s : State) : List Tag :=
  s.rsa.filterMap (fun x => x.map (·.tag)) ++ s.rsm.map (·.tag) ++
    (s.lsb.q.filter (fun x => !x.committedStore)).map (·.tag)

/-- No tag is held twice, and each holder's tag names the reorder-buffer entry it belongs to, which is
not ready, but for a dispatched store, whose entry is (R31, R44 (b)). -/
abbrev State.owned (s : State) : Prop :=
  s.holders.Nodup ∧
  (∀ y ∈ s.rsa, ∀ e ∈ y,
    ∃ x ∈ s.rob.entry e.tag, x.ready = false ∧ x.op = .arith e.op ∧ x.pc = e.pc) ∧
  (∀ e ∈ s.rsm, ∃ x ∈ s.rob.entry e.tag, x.ready = false ∧ x.op = .mem e.op) ∧
  (∀ e ∈ s.lsb.q, e.committedStore = false →
    ∃ x ∈ s.rob.entry e.tag, x.op = .mem e.op ∧ x.ready = e.isStore)

/-- The producers an operand pair waits for are in flight, write a register, and are older than the
instruction with the given tag (R44 (d)). -/
abbrev State.waitsOnOlder (s : State) (tag : Tag) (qj qk : Option Tag) : Prop :=
  ∀ t ∈ qj.toList ++ qk.toList,
    (∃ x ∈ s.rob.entry t, x.dest.isSome = true) ∧ s.rob.age s.cfg t < s.rob.age s.cfg tag

/-- R44 (d) for both stations. -/
abbrev State.operandsOlder (s : State) : Prop :=
  (∀ y ∈ s.rsa, ∀ e ∈ y, s.waitsOnOlder e.tag e.qj e.qk) ∧
  (∀ e ∈ s.rsm, s.waitsOnOlder e.tag e.qj e.qk)

/-- R44 (e): RS_M is in issue order, and in the load-store buffer the committed stores precede all other
stores. The order of those others, which are older than every entry of RS_M, is what makes it hold on:
a store leaves RS_M only as its oldest entry (R197). -/
abbrev State.inOrder (s : State) : Prop :=
  s.rsm.Pairwise (fun x y => s.rob.age s.cfg x.tag < s.rob.age s.cfg y.tag) ∧
  (s.lsb.q.filter (·.isStore)).Pairwise (fun x y =>
    (y.ready = true → x.ready = true) ∧
    (x.ready = false → y.ready = false → s.rob.age s.cfg x.tag < s.rob.age s.cfg y.tag)) ∧
  ∀ x ∈ s.lsb.q, x.isStore = true → x.ready = false →
    ∀ e ∈ s.rsm, s.rob.age s.cfg x.tag < s.rob.age s.cfg e.tag

/-- The invariants on which the statements about a busy machine rest. -/
abbrev State.inv (s : State) : Prop := s.sound ∧ s.consistent ∧ s.owned

/-! ## Commit, as the rules of 41_reorder_buffer.md give it -/

/-- The oldest entry, if it is ready: what commits in this cycle (R163). -/
def State.committing (s : State) : Option RobEntry :=
  if s.rob.count = 0 then none
  else
    match s.rob.entry s.rob.head with
    | none => none
    | some e => if e.ready then some e else none

/-- The value an entry's commit writes to its destination (R168, R170, R171). -/
def RobEntry.committed (e : RobEntry) : Word :=
  match e.op with
  | .arith .jal => e.pc + 4
  | .arith .jalr => e.pc + 4
  | _ => e.value

/-- The kinds whose commit checks the target (R169, R170). -/
def OpKind.checked (op : OpKind) : Bool :=
  match op with
  | .arith (.branch _) => true
  | .arith .jalr => true
  | _ => false

/-- The commit of this cycle signals a misprediction to this target (R169, R170, R174). -/
def State.mispredicts (s : State) : Option Word :=
  match s.committing with
  | none => none
  | some e => if e.op.checked && decide (e.target ≠ fetchedAfter s) then some e.target else none

/-- A cycle that ends without a flush. -/
abbrev State.advancesUnflushed (s t : State) : Prop := s.advances t ∧ s.mispredicts = none

/-- The commit of this cycle pops an entry: every group but halt (R166). -/
def State.retires (s : State) : Bool :=
  match s.committing with
  | none => false
  | some e => decide (e.op ≠ .arith .halt)

/-! ## Issue and memory access -/

/-- The instruction `i` at the fetch address is issued in this cycle (R124, R125). -/
abbrev State.issues (s : State) (i : Instr) : Prop :=
  s.haltIssued = false ∧ s.rob.count < s.cfg.nRob ∧ s.hasRoom (recordOf i).op = true

/-- The fetch address after issuing `i` (R129): a branch goes where its counter says, a JALR to the
youngest address of the stack, a JAL to its target, every other kind to the next word. -/
def State.fetchesAfter (s : State) (i : Instr) : Word :=
  match (recordOf i).op with
  | .arith (.branch _) =>
    if 2 ≤ (s.bp.ctr.getD (s.pc.toNat % s.cfg.nBp) 0).toNat then s.pc + (recordOf i).imm
    else s.pc + 4
  | .arith .jalr => s.bp.ras.getLast?.getD (s.pc + 4)
  | .arith .jal => s.pc + (recordOf i).imm
  | _ => s.pc + 4

/-- The return/target stack after issuing `i` (R129, R274, R275): a JALR pops; a JAL or JALR that
keeps a link pushes the next address, and the oldest addresses beyond `N_RAS` are evicted. -/
def State.stackAfter (s : State) (i : Instr) : List Word :=
  let popped := if (recordOf i).op = .arith .jalr then s.bp.ras.dropLast else s.bp.ras
  let links := (recordOf i).op = .arith .jal ∨ (recordOf i).op = .arith .jalr
  if links ∧ (recordOf i).rd ≠ some 0 then
    (popped ++ [s.pc + 4]).drop (popped.length + 1 - s.cfg.nRas)
  else popped

/-- The head of the load-store buffer is performed in this cycle (R230). -/
def State.performing (s : State) : Option LsbEntry :=
  if 0 < s.lsb.c then none
  else
    match s.lsb.q with
    | [] => none
    | h :: _ => if h.ready then some h else none

/-- The queue without the entry this cycle performs (R230). -/
def State.queueAfterAccess (s : State) : List LsbEntry :=
  s.lsb.q.drop s.performing.toList.length

/-- The entry the arithmetic station executes, with its slot: the lowest-numbered whose operands are
resolved (R194). -/
abbrev State.executesArith (s : State) (n : Nat) (e : RsEntry ArithKind) : Prop :=
  s.rsa[n]? = some (some e) ∧ e.resolved = true ∧
  ∀ m, m < n → ∀ e', s.rsa[m]? = some (some e') → e'.resolved = false

/-- The memory station dispatches this store: it is the oldest entry, its operands are resolved, and
the load-store buffer has room (R197, R199). -/
abbrev State.dispatchesStore (s : State) (k : StoreKind) (e : RsEntry MemKind) : Prop :=
  s.rsm.head? = some e ∧ e.op = .store k ∧ e.resolved = true ∧ s.lsb.q.length < s.cfg.nLsb

/-- The memory station dispatches this load: its base is resolved, every entry before it is a load
whose base is not, and the load-store buffer has room (R198, R199). -/
abbrev State.dispatchesLoad (s : State) (k : LoadKind) (e : RsEntry MemKind) : Prop :=
  e.op = .load k ∧ e.qj = none ∧ s.lsb.q.length < s.cfg.nLsb ∧
  ∃ older younger, s.rsm = older ++ e :: younger ∧
    ∀ x ∈ older, (∃ l, x.op = .load l) ∧ x.qj ≠ none

/-- The nearest store of the buffer that overlaps the `n` bytes at `a` is `x` (R224): no younger entry
of the buffer overlaps them. -/
abbrev State.nearestOverlap (s : State) (a : Word) (n : Nat) (x : LsbEntry) : Prop :=
  ∃ older younger, s.lsb.q = older ++ x :: younger ∧ x.overlaps a n = true ∧
    ∀ y ∈ younger, y.overlaps a n = false

/-- A load of kind `k` at `a` forwards from `x` (R224). -/
abbrev State.forwards (s : State) (k : LoadKind) (a : Word) (x : LsbEntry) : Prop :=
  s.nearestOverlap a k.width x ∧
  x.addr.toNat ≤ a.toNat ∧ a.toNat + k.width ≤ x.addr.toNat + x.op.width

/-! ## Broadcasts and wake-up -/

/-- The result bus of this cycle wakes the operands that wait for `p` with the value `v`: the result of
the arithmetic station's instruction unless its entry has `wake = 0`, a forwarded load, or a performed
load (R195, R196, R201, R225, R232). -/
def State.resultBroadcast (s : State) (p : Tag) (v : Word) : Prop :=
  (∃ n e, s.executesArith n e ∧ e.tag = p ∧ arithResult e = (v, true)) ∨
  (∃ k e x, s.dispatchesLoad k e ∧ e.tag = p ∧ s.forwards k (e.vj + e.imm) x ∧
    v = forwardValue k (e.vj + e.imm) x) ∨
  (∃ k h, s.performing = some h ∧ h.op = .load k ∧ h.tag = p ∧
    v = loadExtend k (s.mem.readLE h.addr.toNat k.width))

/-- The commit bus of this cycle wakes the operands that wait for `p` with the value `v`: an entry with
a destination commits (R168, R170, R171, R200). -/
def State.commitBroadcast (s : State) (p : Tag) (v : Word) : Prop :=
  ∃ e, s.committing = some e ∧ e.tag = p ∧ e.dest.isSome = true ∧ v = e.committed

/-- Either bus wakes the operands that wait for `p` with the value `v`. -/
def State.broadcast (s : State) (p : Tag) (v : Word) : Prop :=
  s.resultBroadcast p v ∨ s.commitBroadcast p v

/-- An operand that waits for `p` is, after this cycle, `(v, q)`: the value broadcast for `p`, or still
waiting for `p` when nothing is (R200). -/
def State.waitsThrough (s : State) (p : Tag) (v : Word) (q : Option Tag) : Prop :=
  (∀ x, s.broadcast p x → q = none ∧ v = x) ∧ ((∀ x, ¬ s.broadcast p x) → q = some p)

/-- A source register captured by the entry issued in this cycle is, after it, `(v, q)`: zero for an
absent source and for `x0`, the committed value where the register has no producer, and otherwise an
operand that waits for the producer through the buses of this same cycle (R135, R191, R200). -/
def State.captures (s : State) (r : Option RegIdx) (v : Word) (q : Option Tag) : Prop :=
  match r with
  | none => v = 0 ∧ q = none
  | some r =>
    if r = 0 then v = 0 ∧ q = none
    else
      match s.regs.producer r with
      | none => v = s.regs.value r ∧ q = none
      | some p => s.waitsThrough p v q

/-- `c'` is the station entry `c`, its operands apart. -/
def RsEntry.sameBut {κ : Type} (c c' : RsEntry κ) : Prop :=
  c'.op = c.op ∧ c'.tag = c.tag ∧ c'.imm = c.imm ∧ c'.pc = c.pc

/-- Both operands of `c'` are those of `c` with the broadcasts `b` taken: one that waits for a tag with
a broadcast value has that value and waits no more. -/
def RsEntry.takes {κ : Type} (b : Tag → Word → Prop) (c c' : RsEntry κ) : Prop :=
  (∀ p v, c.qj = some p → b p v → c'.qj = none ∧ c'.vj = v) ∧
  (∀ p v, c.qk = some p → b p v → c'.qk = none ∧ c'.vk = v)

/-- Both operands of `c'` are those of `c` where no broadcast `b` is for them: a resolved one keeps its
value, and one that waits for a tag without broadcast waits on. -/
def RsEntry.keeps {κ : Type} (b : Tag → Word → Prop) (c c' : RsEntry κ) : Prop :=
  (c.qj = none → c'.qj = none ∧ c'.vj = c.vj) ∧ (c.qk = none → c'.qk = none ∧ c'.vk = c.vk) ∧
  (∀ p, c.qj = some p → (∀ v, ¬ b p v) → c'.qj = some p) ∧
  (∀ p, c.qk = some p → (∀ v, ¬ b p v) → c'.qk = some p)

/-- The memory station dispatches this entry in this cycle (R197 to R199). -/
abbrev State.dispatches (s : State) (e : RsEntry MemKind) : Prop :=
  (∃ k, s.dispatchesStore k e) ∨ ∃ k, s.dispatchesLoad k e

/-! ## A memory image as text (30_encoding.md R112) -/

/-- A hexadecimal digit, in lower or upper case. -/
def hexChar (lower : Bool) (n : Nat) : Char :=
  Char.ofNat (if n < 10 then 48 + n else (if lower then 87 else 55) + n)

/-- The last `digits` hexadecimal digits of a number, most significant first. -/
def hexText (lower : Bool) (digits n : Nat) : List Char :=
  match digits with
  | 0 => []
  | d + 1 => hexText lower d (n / 16) ++ [hexChar lower (n % 16)]

/-- A segment: the marker with the load address in `w` digits, and its bytes, with `sep` before each. -/
def segmentText (lower : Bool) (w : Nat) (sep : List Char) (g : Nat × List Byte) : List Char :=
  '@' :: hexText lower w g.1 ++ g.2.flatMap (fun b => sep ++ hexText lower 2 b.toNat)

/-- Segments one after the other, with `sep` between them. -/
def imageText (lower : Bool) (w : Nat) (sep : List Char) (segments : List (Nat × List Byte)) : List Char :=
  List.intercalate sep (segments.map (segmentText lower w sep))

/-- The bytes of a segment, at consecutive addresses. -/
def segmentCells (g : Nat × List Byte) : List Host.Cell :=
  g.2.zipIdx.map (fun b => (g.1 + b.2, b.1))

/-! ## An idle machine -/

/-- No instruction is in flight, the memory port is idle and Issue is not blocked: the state after
reset, and the state to which the block returns after a flush once the committed stores are written. -/
abbrev State.idle (s : State) : Prop :=
  s.running ∧ s.haltIssued = false ∧
  s.rob.count = 0 ∧ (∀ x ∈ s.rob.slots, x = none) ∧ (∀ x ∈ s.rsa, x = none) ∧ s.rsm = [] ∧
  s.lsb.q = [] ∧ s.lsb.c = 0 ∧ (∀ r : RegIdx, s.regs.producer r = none) ∧ s.regs.value 0 = 0

/-- `x[r]` as an instruction issued into an idle machine reads it (R191). -/
def State.x (s : State) (r : RegIdx) : Word := if r = 0 then 0 else s.regs.value r

/-- The value of an optional source register (R191). -/
def State.source (s : State) (r : Option RegIdx) : Word :=
  match r with
  | none => 0
  | some r => s.x r

/-- An idle machine after the cycle that issues `i`: one reorder-buffer entry, one station entry with
its operands resolved, the producer tag, the next fetch address (R126, R128, R129, R149). -/
def State.issued (i : Instr) (s : State) : State :=
  let r := recordOf i
  { s with
    rob := { slots := s.rob.slots.set s.rob.head (some
               { pc := s.pc, tag := s.rob.head, op := r.op, dest := r.rd, ready := false, value := 0,
                 target := 0 }),
             head := s.rob.head, count := 1 }
    rsa := match r.op with
      | .arith k => s.rsa.set 0 (some
          { op := k, tag := s.rob.head, vj := s.source r.rs1, qj := none, vk := s.source r.rs2,
            qk := none, imm := stationImm k r.imm s.pc, pc := s.pc })
      | .mem _ => s.rsa
    rsm := match r.op with
      | .arith _ => []
      | .mem k =>
        [{ op := k, tag := s.rob.head, vj := s.source r.rs1, qj := none, vk := s.source r.rs2,
           qk := none, imm := r.imm, pc := s.pc }]
    regs := s.regs.recordProducer r.rd s.rob.head
    pc := s.fetchesAfter i
    bp := { s.bp with ras := s.stackAfter i }
    haltIssued := decide (r.op = .arith .halt)
    clkCount := s.clkCount + 1 }

/-- `i` is issued into the idle machine `s`, and `n` cycles later, whatever the machine has fetched and
issued behind it, `post` holds of the state it has reached, unless a fatal condition has stopped it. -/
def completes (i : Instr) (s : State) (n : Nat) (post : State → Prop) : Prop :=
  exec i s = .next (s.issued i) ∧
    ∃ w, Host.Core.run Sys2Proof.core n (s.issued i) = .next w ∧ (w.fatal = false → post w)

/-- The registers after `x[rd] <- v`, `x0` excepted, and no other write (R23, R298). -/
def State.onlyWrites (s w : State) (rd : RegIdx) (v : Word) : Prop :=
  ∀ r, w.regs.value r = if r = rd ∧ r ≠ 0 then v else s.regs.value r

/-- No register changes. -/
def State.sameRegs (s w : State) : Prop := ∀ r, w.regs.value r = s.regs.value r

/-- Every byte of the backing store is as before, and no store is owed to it (R461). -/
def State.sameMemory (s w : State) : Prop :=
  ∀ a, w.mem.read a = s.mem.read a ∧ (pendingApplied w.lsb.q w.mem).read a = s.mem.read a

/-- The instruction has written the value `v` to `rd` and nothing else, the next one to commit is at
`target`, and the machine goes on. -/
def State.wrote (s w : State) (rd : RegIdx) (v target : Word) : Prop :=
  s.onlyWrites w rd v ∧ w.archPc = target ∧ s.sameMemory w ∧ w.halted = false

/-- An instruction that writes a register and goes on to the next word completes with the value `v` in
two more cycles (R147, R298). -/
def writesNext (i : Instr) (s : State) (rd : RegIdx) (v : Word) : Prop :=
  completes i s 2 fun w => s.wrote w rd v (s.pc + 4)

/-- A branch completes in two more cycles: no register and no byte changes, and the next instruction to
commit is at its resolved target (R169, R342 to R347). -/
def branchesTo (i : Instr) (s : State) (target : Word) : Prop :=
  completes i s 2 fun w =>
    s.sameRegs w ∧ w.archPc = target ∧ s.sameMemory w ∧ w.halted = false

/-- The `n` bytes at `a` as a store of `n` bytes leaves them: byte `j` of `v` at `a + j`, every other
byte as before (R61). -/
def Memory.stored (m m' : Memory) (a n : Nat) (v : Word) : Prop :=
  (∀ j, j < n → m'.read (a + j) = v.extractLsb' (8 * j) 8) ∧
  ∀ b, (b < a ∨ a + n ≤ b) → m'.read b = m.read b

end Sys2Proof.Machine
end

