-- ==== Sys2Proof/Certificates/Slice0/Obligations.lean ====
section
/-! DEFINITION. The statements for the provers, in the order of OBLIGATIONS.json. A step is one clock
cycle, so an instruction is issued in one step and has its effect some steps later: the statements
about an instruction's effect are about an idle machine, those about the phases are about any state. -/

section

open Sys2Proof Sys2Proof.Machine

/-! ## Encoding -/

/-- Decoding the word of a well-formed instruction gives it back (R94, R95, R99, R101). The model's
choice, after the spec's: encodings: the spec supplies them from general knowledge,
notes/assumptions/12.md. -/
def Obligations.DecodeOfEncode : Prop :=
  ∀ i : Instr, i.wellFormed = true → decodeWord (encode i) = .ok i

/-- A word that decodes is the word of the instruction it decodes to, and that one is well-formed (R94,
R95, R99, R101). The model's choice, after the spec's: encodings: the spec supplies them from general
knowledge, notes/assumptions/12.md. -/
def Obligations.EncodeOfDecode : Prop :=
  ∀ (w : Word) (i : Instr), decodeWord w = .ok i → i.wellFormed = true ∧ encode i = w

/-- R101: only the halt marker's row overlaps another row, and only on the marker's word, which is a
well-formed ADDI word. The model's choice, after the spec's: encodings: the spec supplies them from
general knowledge, notes/assumptions/12.md. -/
def Obligations.OpcodeRowsExclusive : Prop :=
  ∀ (w : Word) (j k : Nat) (p q : OpcodeRow), j < k → opcodeMap[j]? = some p → opcodeMap[k]? = some q →
    p.selects w = true → q.selects w = true →
    w = 0x0ff00513#32 ∧ p.build w = .halt ∧ q.build w = .addi 10 0 255#12

/-- R102: the marker's word is HALT, with its record; every other word of ADDI's opcode and funct3 is
ADDI. -/
def Obligations.HaltMarkerPrecedence : Prop :=
  decodeWord 0x0ff00513#32 = .ok .halt ∧
  recordOf .halt = { op := .arith .halt, fmt := .i, rd := none, rs1 := some 0, rs2 := none, imm := 255 } ∧
  ∀ w : Word, w ≠ 0x0ff00513#32 → w.extractLsb' 0 7 = 0b0010011#7 → w.extractLsb' 12 3 = 0b000#3 →
    ∃ rd rs1 imm, decodeWord w = .ok (.addi rd rs1 imm)

/-- Words of every family, the halt marker's among them, written out from R94 with the fields that R99,
R101 and the examples of files 45 to 47 give them. The model's choice, after the spec's: the encodings,
supplied from general knowledge (notes/assumptions/12.md). -/
def Obligations.SampleWordsDecode : Prop :=
  decodeWord (0xabcde#20 ++ 5#5 ++ 0b0110111#7) = .ok (.lui 5 0xabcde#20) ∧
  decodeWord (0x00001#20 ++ 5#5 ++ 0b0010111#7) = .ok (.auipc 5 0x00001#20) ∧
  decodeWord (0b1#1 ++ 0b1111111110#10 ++ 0b1#1 ++ 0b11111111#8 ++ 0#5 ++ 0b1101111#7) =
    .ok (.jal 0 (-4)) ∧
  decodeWord (0xffe#12 ++ 5#5 ++ 0b000#3 ++ 1#5 ++ 0b1100111#7) = .ok (.jalr 1 5 (-2)) ∧
  decodeWord (0b1#1 ++ 0b000000#6 ++ 0#5 ++ 0#5 ++ 0b000#3 ++ 0b0000#4 ++ 0b0#1 ++ 0b1100011#7) =
    .ok (.beq 0 0 (-4096)) ∧
  decodeWord (0b0#1 ++ 0b111111#6 ++ 0#5 ++ 0#5 ++ 0b000#3 ++ 0b1111#4 ++ 0b1#1 ++ 0b1100011#7) =
    .ok (.beq 0 0 4094) ∧
  decodeWord (0b1111111#7 ++ 2#5 ++ 1#5 ++ 0b001#3 ++ 0b11110#5 ++ 0b0100011#7) = .ok (.sh 1 2 (-2)) ∧
  decodeWord (0xffc#12 ++ 1#5 ++ 0b010#3 ++ 7#5 ++ 0b0000011#7) = .ok (.lw 7 1 (-4)) ∧
  decodeWord (0x0ff#12 ++ 0#5 ++ 0b000#3 ++ 10#5 ++ 0b0010011#7) = .ok .halt ∧
  decodeWord (0xfff#12 ++ 6#5 ++ 0b000#3 ++ 5#5 ++ 0b0010011#7) = .ok (.addi 5 6 (-1)) ∧
  decodeWord (0b0100000#7 ++ 4#5 ++ 6#5 ++ 0b101#3 ++ 5#5 ++ 0b0010011#7) = .ok (.srai 5 6 4) ∧
  decodeWord (0b0100000#7 ++ 7#5 ++ 6#5 ++ 0b000#3 ++ 5#5 ++ 0b0110011#7) = .ok (.sub 5 6 7)

/-- The unrecognized words are exactly the spaces R108 lists: another opcode than the nine, an unused
funct3 value, an unused funct7 value. The model's choice, after the spec's: the names of the spaces and
the absence of others rest on the spec's decision D1 and general knowledge, notes/assumptions/12.md and
13. -/
def Obligations.UnrecognizedWords : Prop :=
  ∀ w : Word,
    let opcode := w.extractLsb' 0 7
    let funct3 := w.extractLsb' 12 3
    let funct7 := w.extractLsb' 25 7
    decodeWord w = .error (.unrecognized w) ↔
      (opcode ∉ [0b0110111#7, 0b0010111#7, 0b1101111#7, 0b1100111#7, 0b1100011#7, 0b0000011#7,
          0b0100011#7, 0b0010011#7, 0b0110011#7] ∨
        (opcode = 0b1100111#7 ∧ funct3 ≠ 0b000#3) ∨
        (opcode = 0b1100011#7 ∧ funct3 ∈ [0b010#3, 0b011#3]) ∨
        (opcode = 0b0000011#7 ∧ funct3 ∈ [0b011#3, 0b110#3, 0b111#3]) ∨
        (opcode = 0b0100011#7 ∧ funct3 ∉ [0b000#3, 0b001#3, 0b010#3]) ∨
        (opcode = 0b0010011#7 ∧ funct3 = 0b001#3 ∧ funct7 ≠ 0b0000000#7) ∨
        (opcode = 0b0010011#7 ∧ funct3 = 0b101#3 ∧ funct7 ∉ [0b0000000#7, 0b0100000#7]) ∨
        (opcode = 0b0110011#7 ∧ funct7 ≠ 0b0000000#7 ∧
          ¬ (funct7 = 0b0100000#7 ∧ funct3 ∈ [0b000#3, 0b101#3])))

/-- R92, R95, R99: every register field and every immediate of a decoded record is read from the bits
the rules name. The model's choice, after the spec's: the encodings, supplied from general knowledge
(notes/assumptions/12.md). -/
def Obligations.FieldsAreRead : Prop :=
  ∀ (w : Word) (i : Instr), decodeWord w = .ok i →
    let r := recordOf i
    r.rd.map Fin.val =
      (if i = .halt then none
        else
          match r.fmt with
          | .s => none
          | .b => none
          | _ => some (w.extractLsb' 7 5).toNat) ∧
    r.rs1.map Fin.val =
      (match r.fmt with
        | .u => none
        | .j => none
        | _ => some (w.extractLsb' 15 5).toNat) ∧
    r.rs2.map Fin.val =
      (match r.fmt with
        | .r => some (w.extractLsb' 20 5).toNat
        | .s => some (w.extractLsb' 20 5).toNat
        | .b => some (w.extractLsb' 20 5).toNat
        | _ => none) ∧
    r.imm =
      (match r.fmt with
        | .i =>
          if w.extractLsb' 0 7 = 0b0010011#7 ∧ w.extractLsb' 12 2 = 0b01#2 then
            (w.extractLsb' 20 5).setWidth 32
          else (w.extractLsb' 20 12).signExtend 32
        | .s => (w.extractLsb' 25 7 ++ w.extractLsb' 7 5).signExtend 32
        | .b =>
          (w.extractLsb' 31 1 ++ w.extractLsb' 7 1 ++ w.extractLsb' 25 6 ++ w.extractLsb' 8 4 ++
            0#1).signExtend 32
        | .u => w.extractLsb' 12 20 ++ 0#12
        | .j =>
          (w.extractLsb' 31 1 ++ w.extractLsb' 12 8 ++ w.extractLsb' 20 1 ++ w.extractLsb' 21 10 ++
            0#1).signExtend 32
        | .r => 0)

/-! ## A step -/

/-- A step runs the decoded instruction: when Issue is not blocked and the four bytes at the pc decode
to `i`, the step is `exec i` (R62, R124). The model's choice, after the spec's: little-endian fetch is
the spec's decision D25 (notes/assumptions/13.md). -/
def Obligations.StepRunsDecoded : Prop :=
  ∀ (s : State) (i : Instr), s.haltIssued = false → s.rob.count < s.cfg.nRob →
    s.pc.toNat + 4 ≤ s.cfg.memSize →
    decodeBytes [s.mem.read s.pc.toNat, s.mem.read (s.pc.toNat + 1), s.mem.read (s.pc.toNat + 2),
      s.mem.read (s.pc.toNat + 3)] = .ok (i, []) →
    step s = exec i s

/-- A word stored where the machine fetches is the instruction that the very next step runs (R62, R124).
The model's choice, after the spec's: `withFetchWord` stands for the loader (notes/assumptions/3.md), the
encodings are the spec's from general knowledge (notes/assumptions/12.md), and the little-endian fetch is
its decision D25 (notes/assumptions/13.md). -/
def Obligations.FetchWordIsRun : Prop :=
  ∀ (s : State) (i : Instr), i.wellFormed = true → s.mem.wf = true → s.haltIssued = false →
    s.rob.count < s.cfg.nRob → s.pc.toNat + 4 ≤ s.cfg.memSize →
    let s' := s.withFetchWord 32 (encode i).toNat
    step s' = exec i s' ∧ s' = { s with mem := s'.mem } ∧
      ∀ a, (a < s.pc.toNat ∨ s.pc.toNat + 4 ≤ a) → s'.mem.read a = s.mem.read a

/-- R121: after a halt or a fatal stop no state changes any more; until then every step is a cycle. -/
def Obligations.StoppedStateStays : Prop :=
  (∀ s : State, s.halted = true ∨ s.fatal = true →
    step s = .next s ∧ ∀ i : Instr, exec i s = .next s) ∧
  ∀ s : State, s.running →
    ∃ t, step s = .next t ∧ (t.fatal = true ∨ t.clkCount = s.clkCount + 1)

/-- A running cycle has a next state whatever stands at the fetch address, keeps the configuration, and
advances the clock unless a fatal condition stops it (R11, R144, R145). While it runs the status outputs
show neither flag, and afterwards they do exactly when one is set (R15). The model's choice: the clock
counter stays in a fatal cycle (DEDUCED, notes/assumptions/14.md). -/
def Obligations.RunningCycleAnswers : Prop :=
  ∀ s : State, s.running →
    s.outputs = .running ∧
    (∃ t, step s = .next t ∧ t.cfg = s.cfg ∧
      t.clkCount = (if t.fatal then s.clkCount else s.clkCount + 1) ∧
      (t.outputs = .running ↔ t.halted = false ∧ t.fatal = false)) ∧
    ∀ i : Instr, ∃ t, exec i s = .next t ∧ t.cfg = s.cfg ∧
      t.clkCount = (if t.fatal then s.clkCount else s.clkCount + 1)

/-- R144, R400: a fatal condition sets the flag and a cause and leaves everything else, the backing
store included, as it was at the start of the cycle; the outputs show the cause and no exit value (R15).
The model's choice, after the spec's: the codes are the spec's decision D23 (notes/assumptions/13.md), and
the clock counter stays too (DEDUCED, against the letter of the vector F1: notes/assumptions/14.md). -/
def Obligations.FatalKeepsState : Prop :=
  ∀ s t : State, s.running → step s = .next t → t.fatal = true →
    t = { s with fatal := true, fatalCause := t.fatalCause } ∧
      (t.fatalCause = 1 ∨ t.fatalCause = 2 ∨ t.fatalCause = 3) ∧ t.outputs = .fatal t.fatalCause

/-- R401: DECODE is raised exactly when a fetch is made, in range, and the word is unrecognized. The
model's choice, after the spec's: raised at the fetch: the spec's decision D23
(notes/assumptions/13.md). -/
def Obligations.FatalDecodeExactly : Prop :=
  ∀ s t : State, s.running → step s = .next t →
    ((t.fatal = true ∧ t.fatalCause = 1) ↔
      (s.haltIssued = false ∧ s.rob.count < s.cfg.nRob ∧ s.pc.toNat + 4 ≤ s.cfg.memSize ∧
        ∃ e, decodeWord (s.mem.readLE s.pc.toNat 4) = .error e))

/-- R403, R404: with a result bus of three slots, MEM is raised exactly when a fetch is made out of
range, or no fatal condition arises in Issue and the access performed in this cycle is out of range. The
model's choice, after the spec's: the spec's decisions D13 and D23 (notes/assumptions/13.md). -/
def Obligations.FatalMemExactly : Prop :=
  ∀ s t : State, s.running → 3 ≤ s.cfg.rbCap → step s = .next t →
    let fetches := s.haltIssued = false ∧ s.rob.count < s.cfg.nRob
    ((t.fatal = true ∧ t.fatalCause = 3) ↔
      ((fetches ∧ s.cfg.memSize < s.pc.toNat + 4) ∨
        ((fetches → s.pc.toNat + 4 ≤ s.cfg.memSize ∧
            ∃ i, decodeWord (s.mem.readLE s.pc.toNat 4) = .ok i) ∧
          ∃ h ∈ s.performing, s.cfg.memSize < h.addr.toNat + h.op.width)))

/-- R255, R402: with `RB_CAP >= 3` and `CB_CAP >= 1` no cycle, from any state, overflows a bus. -/
def Obligations.BusNeverOverflows : Prop :=
  ∀ s t : State, s.running → 3 ≤ s.cfg.rbCap → 1 ≤ s.cfg.cbCap → step s = .next t →
    ¬ (t.fatal = true ∧ t.fatalCause = 2)

/-! ## Issue -/

/-- The issue of any instruction into an idle machine, whole: one reorder-buffer entry, one station
entry with its operands, the producer tag, the next fetch address and stack, the mark behind the halt
marker, and nothing else but the clock (R126, R128, R129, R149, R161, R191, R192, R193). The model's
choice, after the spec's: JAL's next fetch address, the halt mark, a branch's prediction and the use of
the stack, the spec's decisions D6, D9, D17 and D18 (notes/assumptions/13.md); slot 0 of the arithmetic
station, its decision D15 (notes/assumptions/8.md); a new entry's value and target 0
(notes/assumptions/7.md). -/
def Obligations.IssueIntoIdle : Prop :=
  ∀ (i : Instr) (s : State), s.idle → exec i s = .next (s.issued i)

/-- Issue into a busy machine: the tail slot was free and holds the new entry, the destination register
names it, and the fetch path, the stack and the halt mark follow (R126, R128, R129, R149, R161). The
model's choice, after the spec's: the spec's decisions D6, D9, D17, D18 (notes/assumptions/13.md). -/
def Obligations.IssueAllocates : Prop :=
  ∀ (i : Instr) (s t : State), s.running → s.sound → s.consistent → s.issues i →
    exec i s = .next t → t.fatal = false → s.mispredicts = none →
    let tail := (s.rob.head + s.rob.count) % s.cfg.nRob
    s.rob.entry tail = none ∧
    (∃ e ∈ t.rob.entry tail,
      e.pc = s.pc ∧ e.tag = tail ∧ e.op = (recordOf i).op ∧ e.dest = (recordOf i).rd) ∧
    (∀ r ∈ (recordOf i).rd, r ≠ 0 → t.regs.producer r = some tail) ∧
    t.pc = s.fetchesAfter i ∧ t.bp.ras = s.stackAfter i ∧
    t.haltIssued = decide ((recordOf i).op = .arith .halt)

/-- The station entry of an instruction issued into a busy machine: in the lowest-numbered free slot of
the arithmetic station or at the young end of the memory station, with the committed value of a
source register that has no producer, zero for `x0` and for an absent source, and otherwise the value
that this cycle's buses broadcast for the producer, or its tag if they broadcast none (R135, R191, R192,
R193, R200). The model's choice, after the spec's: placement, the spec's decision D15
(notes/assumptions/8.md), and the entry of this cycle hearing its buses, D5 (notes/assumptions/13.md). -/
def Obligations.IssueCapturesOperands : Prop :=
  ∀ (i : Instr) (s t : State), s.running → s.inv → s.issues i →
    exec i s = .next t → t.fatal = false → s.mispredicts = none →
    match (recordOf i).op with
    | .arith k =>
      ∃ (n : Nat) (e : RsEntry ArithKind), s.rsa[n]? = some none ∧ (∀ m, m < n → s.rsa[m]? ≠ some none) ∧
        t.rsa[n]? = some (some e) ∧ e.op = k ∧ e.tag = (s.rob.head + s.rob.count) % s.cfg.nRob ∧
        e.pc = s.pc ∧ e.imm = stationImm k (recordOf i).imm s.pc ∧
        s.captures (recordOf i).rs1 e.vj e.qj ∧ s.captures (recordOf i).rs2 e.vk e.qk
    | .mem k =>
      ∃ e, t.rsm.getLast? = some e ∧ e.op = k ∧
        e.tag = (s.rob.head + s.rob.count) % s.cfg.nRob ∧ e.imm = (recordOf i).imm ∧
        s.captures (recordOf i).rs1 e.vj e.qj ∧ s.captures (recordOf i).rs2 e.vk e.qk

/-- R124, R125: behind the halt marker, with a full reorder buffer, or without room in the station,
nothing is issued: the pc, the stack and the halt mark stay, no tag is recorded, no reorder-buffer entry
allocated, and neither station gains an entry. The
model's choice, after the spec's: spec's decision D9 for the halt mark (notes/assumptions/13.md). -/
def Obligations.IssueWaits : Prop :=
  ∀ s t : State, s.advancesUnflushed t →
    (s.haltIssued = true ∨ s.rob.count = s.cfg.nRob ∨
      ∃ i, decodeWord (s.mem.readLE s.pc.toNat 4) = .ok i ∧ s.hasRoom (recordOf i).op = false) →
    t.pc = s.pc ∧ t.bp.ras = s.bp.ras ∧ t.haltIssued = s.haltIssued ∧
    (∀ r p, t.regs.producer r = some p → s.regs.producer r = some p) ∧
    t.rob.count = s.rob.count - (if s.retires then 1 else 0) ∧
    (∀ n, s.rob.entry n = none → t.rob.entry n = none) ∧
    (∀ (n : Nat) (e : RsEntry ArithKind), t.rsa[n]? = some (some e) →
      ∃ e' : RsEntry ArithKind, s.rsa[n]? = some (some e') ∧ e'.tag = e.tag ∧ e'.op = e.op) ∧
    (t.rsm.map fun e => (e.tag, e.op)).Sublist (s.rsm.map fun e => (e.tag, e.op))

/-! ## Completion: the effect of every instruction, issued into an idle machine -/

/-- The nine register-immediate kinds (R303 to R311). The model's choice, after the spec's: SLTIU
sign-extends its immediate before the unsigned comparison, the spec's general knowledge G7
(notes/assumptions/12.md). -/
def Obligations.RegisterImmediateCompletes : Prop :=
  ∀ (s : State) (rd rs1 : RegIdx) (imm : BitVec 12) (sh : BitVec 5), s.idle →
    let a := s.x rs1
    let b : Word := imm.signExtend 32
    writesNext (.addi rd rs1 imm) s rd (a + b) ∧
    writesNext (.slti rd rs1 imm) s rd (if a.toInt < b.toInt then 1 else 0) ∧
    writesNext (.sltiu rd rs1 imm) s rd (if a.toNat < b.toNat then 1 else 0) ∧
    writesNext (.xori rd rs1 imm) s rd (a ^^^ b) ∧
    writesNext (.ori rd rs1 imm) s rd (a ||| b) ∧
    writesNext (.andi rd rs1 imm) s rd (a &&& b) ∧
    writesNext (.slli rd rs1 sh) s rd (a <<< sh.toNat) ∧
    writesNext (.srli rd rs1 sh) s rd (a >>> sh.toNat) ∧
    writesNext (.srai rd rs1 sh) s rd (a.sshiftRight sh.toNat)

/-- The ten register-register kinds (R312 to R321). The model's choice, after the spec's: SLL, SRL and SRA
use the low five bits of the second operand, the spec's general knowledge G6 (notes/assumptions/12.md). -/
def Obligations.RegisterRegisterCompletes : Prop :=
  ∀ (s : State) (rd rs1 rs2 : RegIdx), s.idle →
    let a := s.x rs1
    let b := s.x rs2
    writesNext (.add rd rs1 rs2) s rd (a + b) ∧
    writesNext (.sub rd rs1 rs2) s rd (a - b) ∧
    writesNext (.sll rd rs1 rs2) s rd (a <<< (b.toNat % 32)) ∧
    writesNext (.slt rd rs1 rs2) s rd (if a.toInt < b.toInt then 1 else 0) ∧
    writesNext (.sltu rd rs1 rs2) s rd (if a.toNat < b.toNat then 1 else 0) ∧
    writesNext (.xor rd rs1 rs2) s rd (a ^^^ b) ∧
    writesNext (.srl rd rs1 rs2) s rd (a >>> (b.toNat % 32)) ∧
    writesNext (.sra rd rs1 rs2) s rd (a.sshiftRight (b.toNat % 32)) ∧
    writesNext (.or rd rs1 rs2) s rd (a ||| b) ∧
    writesNext (.and rd rs1 rs2) s rd (a &&& b)

/-- LUI and AUIPC (R301, R302). -/
def Obligations.UpperImmediateCompletes : Prop :=
  ∀ (s : State) (rd : RegIdx) (imm20 : BitVec 20), s.idle →
    writesNext (.lui rd imm20) s rd (imm20 ++ 0#12) ∧
    writesNext (.auipc rd imm20) s rd (s.pc + (imm20 ++ 0#12))

/-- JAL (R340): the link register is written and the next instruction to commit is at the target. -/
def Obligations.JumpAndLinkCompletes : Prop :=
  ∀ (s : State) (rd : RegIdx) (off : BitVec 21), s.idle →
    completes (.jal rd off) s 2 fun w => s.wrote w rd (s.pc + 4) (s.pc + off.signExtend 32)

/-- JALR (R341): the target is the sum with bit 0 cleared, of the old value of `rs1` even when `rd =
rs1`. The model's choice, after the spec's: clearing bit 0: general knowledge G5,
notes/assumptions/12.md. -/
def Obligations.IndirectJumpCompletes : Prop :=
  ∀ (s : State) (rd rs1 : RegIdx) (imm : BitVec 12), s.idle →
    completes (.jalr rd rs1 imm) s 2 fun w =>
      s.wrote w rd (s.pc + 4) ((s.x rs1 + imm.signExtend 32) &&& ~~~1#32)

/-- The six branches (R339, R342 to R347): the resolved target, and no register. The model's choice,
after the spec's: the six conditions: general knowledge G1, notes/assumptions/12.md. -/
def Obligations.BranchCompletes : Prop :=
  ∀ (s : State) (rs1 rs2 : RegIdx) (off : BitVec 13), s.idle →
    let a := s.x rs1
    let b := s.x rs2
    let yes : Word := s.pc + off.signExtend 32
    let no : Word := s.pc + 4
    branchesTo (.beq rs1 rs2 off) s (if a = b then yes else no) ∧
    branchesTo (.bne rs1 rs2 off) s (if a ≠ b then yes else no) ∧
    branchesTo (.blt rs1 rs2 off) s (if a.toInt < b.toInt then yes else no) ∧
    branchesTo (.bge rs1 rs2 off) s (if a.toInt ≥ b.toInt then yes else no) ∧
    branchesTo (.bltu rs1 rs2 off) s (if a.toNat < b.toNat then yes else no) ∧
    branchesTo (.bgeu rs1 rs2 off) s (if a.toNat ≥ b.toNat then yes else no)

/-- The five loads, in range, from an empty load-store buffer (R64, R65, R360 to R364): three more
cycles (R147). -/
def Obligations.LoadCompletes : Prop :=
  ∀ (s : State) (rd rs1 : RegIdx) (imm : BitVec 12), s.idle →
    let addr := s.x rs1 + imm.signExtend 32
    let a := addr.toNat
    let byte (k : Nat) : Byte := s.mem.read (a + k)
    let gives (i : Instr) (v : Word) := completes i s 3 fun w => s.wrote w rd v (s.pc + 4)
    (a + 1 ≤ s.cfg.memSize →
      gives (.lb rd rs1 imm) ((byte 0).signExtend 32) ∧
      gives (.lbu rd rs1 imm) ((byte 0).setWidth 32)) ∧
    (a + 2 ≤ s.cfg.memSize →
      gives (.lh rd rs1 imm) ((byte 1 ++ byte 0 : BitVec 16).signExtend 32) ∧
      gives (.lhu rd rs1 imm) ((byte 1 ++ byte 0 : BitVec 16).setWidth 32)) ∧
    (a + 4 ≤ s.cfg.memSize →
      gives (.lw rd rs1 imm) (byte 3 ++ byte 2 ++ byte 1 ++ byte 0))

/-- The three stores, in range (R65, R359, R365 to R367): committed after two more cycles, when the
bytes are owed to memory and no byte and no register has changed, and written after three. -/
def Obligations.StoreCompletes : Prop :=
  ∀ (s : State) (rs1 rs2 : RegIdx) (imm : BitVec 12), s.idle → s.mem.wf = true →
    let a := (s.x rs1 + imm.signExtend 32).toNat
    let v := s.x rs2
    let leaves (i : Instr) (n : Nat) : Prop :=
      completes i s 2 (fun w =>
        s.sameRegs w ∧ w.archPc = s.pc + 4 ∧ w.halted = false ∧ w.mem = s.mem ∧
        s.mem.stored (pendingApplied w.lsb.q w.mem) a n v) ∧
      completes i s 3 (fun w => s.mem.stored w.mem a n v)
    (a + 1 ≤ s.cfg.memSize → leaves (.sb rs1 rs2 imm) 1) ∧
    (a + 2 ≤ s.cfg.memSize → leaves (.sh rs1 rs2 imm) 2) ∧
    (a + 4 ≤ s.cfg.memSize → leaves (.sw rs1 rs2 imm) 4)

/-- A load or a store whose address is out of range is issued, and the machine stops fatally when the
access is performed, if not before: with no register and no byte changed (R68, R403). The model's
choice, after the spec's: the spec's decision D13 (notes/assumptions/13.md). -/
def Obligations.OutOfRangeAccessIsFatal : Prop :=
  ∀ (s : State) (r rs1 : RegIdx) (imm : BitVec 12), s.idle →
    let a := (s.x rs1 + imm.signExtend 32).toNat
    let stops (i : Instr) (n : Nat) : Prop :=
      exec i s = .next (s.issued i) ∧
        ∃ w, Host.Core.run Sys2Proof.core n (s.issued i) = .next w ∧ w.fatal = true ∧
          s.sameRegs w ∧ w.mem = s.mem
    (s.cfg.memSize < a + 1 →
      stops (.lb r rs1 imm) 2 ∧ stops (.lbu r rs1 imm) 2 ∧ stops (.sb rs1 r imm) 3) ∧
    (s.cfg.memSize < a + 2 →
      stops (.lh r rs1 imm) 2 ∧ stops (.lhu r rs1 imm) 2 ∧ stops (.sh rs1 r imm) 3) ∧
    (s.cfg.memSize < a + 4 → stops (.lw r rs1 imm) 2 ∧ stops (.sw rs1 r imm) 3)

/-- HALT (R143, R349): two cycles after its issue the machine has halted with the low byte of `x10`, and
no register and no byte has changed; nothing is fetched behind it (R149). The model's choice, after the
spec's: decisions D9, D24, D29 (notes/assumptions/13.md). -/
def Obligations.HaltCompletes : Prop :=
  ∀ s : State, s.idle →
    exec .halt s = .next (s.issued .halt) ∧
    ∃ w, Host.Core.run Sys2Proof.core 2 (s.issued .halt) = .next w ∧
      w.halted = true ∧ w.fatal = false ∧ w.exitValue = (s.x 10).extractLsb' 0 8 ∧
      w.outputs = .halted ((s.x 10).extractLsb' 0 8) ∧
      s.sameRegs w ∧ w.mem = s.mem ∧ w.pc = s.pc + 4

/-- The block agrees with the sequential machine of R450 on one instruction that goes on (every kind but
HALT, and no access out of range): issued into an idle machine it leaves, when it has committed, the
architectural state the sequential machine steps to, whatever has been fetched behind it (R298, R358,
R359, R451, R452). The model's choice: what stands for the sequential machine and for the block's
architectural state (DEDUCED, notes/assumptions/15.md). -/
def Obligations.AgreesWithSequentialMachine : Prop :=
  ∀ (s : State) (i : Instr) (q : Seq), s.idle → seqExec i s.view = .running q →
    let n := match (recordOf i).op with
      | .mem (.load _) => 3
      | _ => 2
    completes i s n fun w => w.view = q

/-- The premise "unless a fatal condition has stopped it" of the statements above is met: with the halt
marker fetched behind it, three slots on the result bus and its access in range, no instruction issued
into an idle machine is overtaken by a fatal condition before it has completed (R149, R255, R404). The
model's choice, after the spec's: one fetch behind HALT: the spec's decision D9
(notes/assumptions/13.md). -/
def Obligations.CompletionIsReached : Prop :=
  ∀ (s : State) (i : Instr), s.idle → 3 ≤ s.cfg.rbCap →
    (s.fetchesAfter i).toNat + 4 ≤ s.cfg.memSize →
    s.mem.readLE (s.fetchesAfter i).toNat 4 = 0x0ff00513#32 →
    (∀ k, (recordOf i).op = .mem k →
      (s.source (recordOf i).rs1 + (recordOf i).imm).toNat + k.width ≤ s.cfg.memSize) →
    let n := match (recordOf i).op with
      | .mem _ => 3
      | _ => 2
    exec i s = .next (s.issued i) ∧
      ∃ w, Host.Core.run Sys2Proof.core n (s.issued i) = .next w ∧ w.fatal = false

/-! ## Execution and wake-up in a busy machine -/

/-- The arithmetic station's execution (R194 to R196, R172): the selected slot is free afterwards, and
the owning reorder-buffer entry is ready with the result, which the branches and JALR record as their
target too. The model's choice, after the spec's: selection: the spec's decision D14; target: D8
(notes/assumptions/13.md). -/
def Obligations.ArithmeticExecutes : Prop :=
  ∀ (s t : State) (n : Nat) (e : RsEntry ArithKind) (x : RobEntry),
    s.inv → s.advancesUnflushed t → s.executesArith n e → s.rob.entry e.tag = some x →
    t.rsa[n]? = some none ∧
    t.rob.entry e.tag = some
      { x with
        ready := true, value := (arithResult e).1,
        target := if x.op.checked then (arithResult e).1 else x.target }

/-- R200, R201: in both stations, an operand that waits for the instruction executed, for the load
forwarded or for the load performed in this cycle takes its value from the result bus; one whose
producer is on neither bus waits on, for a JALR that executes too; a resolved one keeps its value. Every
entry that is neither executed nor dispatched stays, with its other fields. The model's choice, after
the spec's: the wake bit, the spec's decision D7 (notes/assumptions/13.md). -/
def Obligations.ResultWakesOperands : Prop :=
  ∀ s t : State, s.inv → s.advancesUnflushed t →
    (∀ m c, s.rsa[m]? = some (some c) → ¬ s.executesArith m c →
      ∃ c', t.rsa[m]? = some (some c') ∧ c.sameBut c' ∧ c.takes s.resultBroadcast c' ∧
        c.keeps s.broadcast c') ∧
    (∀ c ∈ s.rsm, ¬ s.dispatches c →
      ∃ c' ∈ t.rsm, c.sameBut c' ∧ c.takes s.resultBroadcast c' ∧ c.keeps s.broadcast c')

/-- R200: in both stations, an operand that waits for the instruction that commits takes the value the
commit writes, a JALR's link included. -/
def Obligations.CommitWakesOperands : Prop :=
  ∀ s t : State, s.inv → s.advancesUnflushed t →
    (∀ m c, s.rsa[m]? = some (some c) → ¬ s.executesArith m c →
      ∃ c', t.rsa[m]? = some (some c') ∧ c.sameBut c' ∧ c.takes s.commitBroadcast c') ∧
    (∀ c ∈ s.rsm, ¬ s.dispatches c → ∃ c' ∈ t.rsm, c.sameBut c' ∧ c.takes s.commitBroadcast c')

/-! ## Memory -/

/-- R197, R199, R222: the dispatched store leaves the memory station, the others keep their order, its
entry stands unready at the young end of the load-store buffer with its address and truncated data, and
its reorder-buffer entry is ready with value 0. The model's choice, after the spec's: value 0: D30
(notes/assumptions/13.md). -/
def Obligations.StoreDispatches : Prop :=
  ∀ (s t : State) (k : StoreKind) (e : RsEntry MemKind) (x : RobEntry),
    s.inv → s.advancesUnflushed t → s.dispatchesStore k e → s.rob.entry e.tag = some x →
    (t.rsm.map (·.tag)).take (s.rsm.length - 1) = (s.rsm.drop 1).map (·.tag) ∧
    (∃ y ∈ t.lsb.q.getLast?,
      y.op = .store k ∧ y.addr = e.vj + e.imm ∧ y.value.toNat = e.vk.toNat % 2 ^ (8 * k.width) ∧
      y.tag = e.tag ∧ y.ready = false) ∧
    t.lsb.q.length = s.queueAfterAccess.length + 1 ∧
    t.rob.entry e.tag = some { x with ready := true, value := 0 }

/-- R224, R225: a dispatched load that the nearest overlapping store covers completes with the
extended sub-field of that store's data and does not enter the load-store buffer. -/
def Obligations.LoadForwards : Prop :=
  ∀ (s t : State) (k : LoadKind) (e : RsEntry MemKind) (y : LsbEntry) (x : RobEntry),
    s.inv → s.advancesUnflushed t → s.dispatchesLoad k e → s.forwards k (e.vj + e.imm) y →
    s.rob.entry e.tag = some x →
    let raw := y.value >>> (8 * ((e.vj + e.imm).toNat - y.addr.toNat))
    let v : Word :=
      match k with
      | .lb => (raw.extractLsb' 0 8).signExtend 32
      | .lh => (raw.extractLsb' 0 16).signExtend 32
      | .lw => raw
      | .lbu => (raw.extractLsb' 0 8).setWidth 32
      | .lhu => (raw.extractLsb' 0 16).setWidth 32
    t.rob.entry e.tag = some { x with ready := true, value := v } ∧
    t.lsb.q.length = s.queueAfterAccess.length

/-- R224, R226: a dispatched load that no store overlaps, or whose nearest overlapping store does not
cover it, stands ready at the young end of the load-store buffer. The model's choice, after the spec's:
partial overlap: the spec's decision D11 (notes/assumptions/13.md). -/
def Obligations.LoadQueues : Prop :=
  ∀ (s t : State) (k : LoadKind) (e : RsEntry MemKind),
    s.inv → s.advancesUnflushed t → s.dispatchesLoad k e →
    (∀ y, ¬ s.forwards k (e.vj + e.imm) y) →
    t.lsb.q.getLast? =
      some { op := .load k, addr := e.vj + e.imm, value := 0, tag := e.tag, ready := true } ∧
    t.lsb.q.length = s.queueAfterAccess.length + 1

/-- R232, R233: the performed load reads the backing store, and its reorder-buffer entry is ready with
the extended value. -/
def Obligations.LoadPerforms : Prop :=
  ∀ (s t : State) (k : LoadKind) (h : LsbEntry) (x : RobEntry),
    s.inv → s.advancesUnflushed t → s.performing = some h → h.op = .load k →
    s.rob.entry h.tag = some x →
    let byte (j : Nat) : Byte := s.mem.read (h.addr.toNat + j)
    let v : Word :=
      match k with
      | .lb => (byte 0).signExtend 32
      | .lh => (byte 1 ++ byte 0 : BitVec 16).signExtend 32
      | .lw => byte 3 ++ byte 2 ++ byte 1 ++ byte 0
      | .lbu => (byte 0).setWidth 32
      | .lhu => (byte 1 ++ byte 0 : BitVec 16).setWidth 32
    t.rob.entry h.tag = some { x with ready := true, value := v }

/-- R72, R238: whatever a cycle does, and from any state, a byte of the backing store changes only if
the head of the load-store buffer is a ready store whose range holds the byte, and the port is idle. -/
def Obligations.OnlyReadyHeadStoreWrites : Prop :=
  ∀ (s t : State) (a : Nat), step s = .next t → t.mem.read a ≠ s.mem.read a →
    ∃ h k, s.performing = some h ∧ h.op = .store k ∧
      h.addr.toNat ≤ a ∧ a < h.addr.toNat + k.width

/-- R232: the performed store writes its bytes, which are in range, and no other byte changes. -/
def Obligations.StorePerforms : Prop :=
  ∀ (s t : State) (k : StoreKind) (h : LsbEntry),
    s.advances t → s.mem.wf = true → s.performing = some h → h.op = .store k →
    s.mem.stored t.mem h.addr.toNat k.width h.value ∧
    h.addr.toNat + k.width ≤ s.cfg.memSize

/-- R167, R222, R226, R228, R230, R238, R239: the load-store buffer after a cycle, whole. The performed
entry has left it, every other entry is in it, in the old order, with nothing changed but the readiness of
the store that commits, and behind them stands at most one new entry, none unless the memory station
dispatches. Of a single unready entry: the commit of its store makes it ready, and no other commit
changes it. -/
def Obligations.StoreCommitMarksReady : Prop :=
  ∀ s t : State, s.inv → s.advancesUnflushed t →
    (∃ new, t.lsb.q = s.queueAfterAccess.map (fun x =>
          if x.ready = false ∧ s.committing.map (·.tag) = some x.tag then { x with ready := true } else x) ++
        new ∧
      new.length ≤ 1 ∧ ((∀ e ∈ s.rsm, ¬ s.dispatches e) → new = [])) ∧
    ∀ x ∈ s.lsb.q, x.ready = false →
      (∀ e k, s.committing = some e → e.op = .mem (.store k) → e.tag = x.tag →
        { x with ready := true } ∈ t.lsb.q) ∧
      ((∀ e ∈ s.committing, e.tag ≠ x.tag) → x ∈ t.lsb.q)

/-- R230: the countdown. The model's choice, after the spec's: taken literally: the spec's decision D31
(notes/assumptions/13.md). -/
def Obligations.CountdownMachine : Prop :=
  ∀ s t : State, s.advances t →
    t.lsb.c =
      if 0 < s.lsb.c then s.lsb.c - 1
      else if s.performing.isSome ∧ ∃ x ∈ s.lsb.q[1]?, x.ready = true then s.cfg.memLatency
      else 0

/-! ## Commit and flush -/

/-- R262: a cycle changes a register's value only by the commit of an entry with that destination, and
to the value that entry writes. -/
def Obligations.OnlyCommitWritesRegisters : Prop :=
  ∀ (s t : State) (r : RegIdx), s.running → s.sound → s.consistent → step s = .next t →
    t.regs.value r ≠ s.regs.value r →
    r ≠ 0 ∧ ∃ e, s.committing = some e ∧ e.dest = some r ∧ t.regs.value r = e.committed

/-- R168, R170, R171, R262: the commit of an entry with a destination other than `x0` writes it, flush
or not, and no register names the entry as its producer afterwards, while a register with another
producer keeps one; with destination `x0` nothing is written. -/
def Obligations.CommitWritesDestination : Prop :=
  ∀ (s t : State) (e : RobEntry) (rd : RegIdx), s.sound → s.consistent → s.advances t →
    s.committing = some e → e.dest = some rd →
    (rd ≠ 0 → t.regs.value rd = e.committed) ∧
    (∀ r, r ≠ rd ∨ r = 0 → t.regs.value r = s.regs.value r) ∧
    (∀ r, t.regs.producer r ≠ some e.tag) ∧
    (s.mispredicts = none → ∀ r p, s.regs.producer r = some p → p ≠ e.tag →
      (t.regs.producer r).isSome = true)

/-- R141, R173, R202, R236, R237, R264, R277: the flush of a mispredicted branch or JALR empties the reorder
buffer and both stations, clears the producer tags and the halt mark, keeps exactly the committed stores
that have not been performed, fetches at the resolved target, and leaves the return stack as this
cycle's Issue has left it (R277). The model's choice, after the spec's: unready stores discarded, D12; the
stack kept, D18; head 0, D27 (notes/assumptions/13.md). -/
def Obligations.MispredictionFlushes : Prop :=
  ∀ (s t : State) (target : Word), s.inv → s.advances t → s.mispredicts = some target →
    t.pc = target ∧ t.rob.count = 0 ∧ t.rob.head = 0 ∧ (∀ x ∈ t.rob.slots, x = none) ∧
    (∀ x ∈ t.rsa, x = none) ∧ t.rsm = [] ∧ (∀ r, t.regs.producer r = none) ∧
    t.haltIssued = false ∧ t.lsb.q = s.queueAfterAccess.filter LsbEntry.committedStore ∧
    (∀ i, decodeWord (s.mem.readLE s.pc.toNat 4) = .ok i → s.issues i → t.bp.ras = s.stackAfter i) ∧
    ((∀ i, decodeWord (s.mem.readLE s.pc.toNat 4) = .ok i → ¬ s.issues i) → t.bp.ras = s.bp.ras)

/-- R169, R272: the commit of a branch trains the counter of its address, flush or not; no other cycle
and no other counter changes. The model's choice, after the spec's: the walk and its time: the spec's
decision D17 (notes/assumptions/13.md). -/
def Obligations.BranchTrainsCounter : Prop :=
  ∀ (s t : State) (n : Nat), s.advances t →
    t.bp.ctr[n]? =
      (match s.committing with
        | some e =>
          match e.op with
          | .arith (.branch _) =>
            if e.pc.toNat % s.cfg.nBp = n then
              (s.bp.ctr[n]?).map fun c =>
                if e.target ≠ e.pc + 4 then (if c = 3 then 3 else c + 1)
                else (if c = 0 then 0 else c - 1)
            else s.bp.ctr[n]?
          | _ => s.bp.ctr[n]?
        | none => s.bp.ctr[n]?)

/-- R143, R165: a cycle halts the machine exactly when the halt marker commits, with the low byte of
`x10`; the marker is not popped and no register is written. -/
def Obligations.HaltExactlyAtMarker : Prop :=
  ∀ s t : State, s.advances t →
    (t.halted = true ↔ ∃ e, s.committing = some e ∧ e.op = .arith .halt) ∧
    (t.halted = true → t.exitValue = (s.regs.value 10).extractLsb' 0 8 ∧
      t.rob.head = s.rob.head ∧ ∀ r, r ≠ 0 → t.regs.value r = s.regs.value r)

/-- R163, R166, R175: without a flush the buffer moves on by one entry exactly when the oldest entry
is ready and not the halt marker; every other entry stays in its slot with its pc, kind and
destination. -/
def Obligations.RetiresOldestOnly : Prop :=
  ∀ s t : State, s.sound → s.consistent → s.advancesUnflushed t →
    t.rob.head = (if s.retires then (s.rob.head + 1) % s.cfg.nRob else s.rob.head) ∧
    ∀ n e, s.rob.entry n = some e → (s.retires = false ∨ n ≠ s.rob.head) →
      ∃ e' ∈ t.rob.entry n, e'.pc = e.pc ∧ e'.tag = e.tag ∧ e'.op = e.op ∧ e'.dest = e.dest ∧
        (e.ready = true → e' = e)

/-! ## Reset -/

/-- R50, R441: a clock edge with `rst = 1` loads the reset state from every state; the values of R50, and
the backing store as LoadedImage describes it.
The model's choice, after the spec's: all but the pc: the spec's decisions D17 and D21
(notes/assumptions/13.md). -/
def Obligations.ResetValues : Prop :=
  ∀ (s : State) (image : List Host.Cell) (entryPc : Word),
    ∃ t, clockEdge (some (image, entryPc)) s = .next t ∧ t.cfg = s.cfg ∧
      t.pc = entryPc ∧ (∀ r, t.regs.value r = 0 ∧ t.regs.producer r = none) ∧
      t.halted = false ∧ t.fatal = false ∧ t.haltIssued = false ∧ t.clkCount = 0 ∧
      t.rob.head = 0 ∧ t.rob.count = 0 ∧ t.rsa = List.replicate s.cfg.nRsa none ∧ t.rsm = [] ∧
      t.lsb.q = [] ∧ t.lsb.c = 0 ∧ t.bp.ctr = List.replicate s.cfg.nBp s.cfg.bpInit ∧ t.bp.ras = [] ∧
      t.rob.slots = List.replicate s.cfg.nRob none ∧ t.mem = loadImage s.cfg.memSize image ∧
      t.outputs = .running

/-- R50, R441: after loading, a byte holds the last value the image names for it, and `0x00` where it
names none. The model's choice, after the spec's: the spec's decision D22 (notes/assumptions/13.md). -/
def Obligations.LoadedImage : Prop :=
  ∀ (size : Nat) (image : List Host.Cell) (a : Nat), a < size →
    (loadImage size image).read a =
      ((image.reverse.find? (fun b => decide (b.1 = a))).map (·.2)).getD 0

/-- The reset state of every legal configuration meets all the invariants, and `State.reset` is one of
them. The model's choice: the reference configuration, the empty image and entry address 0
(notes/assumptions/2.md, 3.md). -/
def Obligations.ResetMeetsInvariants : Prop :=
  (∀ (cfg : Config) (image : List Host.Cell) (entryPc : Word), cfg.legal = true →
    (resetWith cfg image entryPc).inv ∧ (resetWith cfg image entryPc).operandsOlder ∧
    (resetWith cfg image entryPc).inOrder ∧
    (resetWith cfg image entryPc).idle) ∧
  State.reset = resetWith Config.ref [] 0

/-! ## Invariants that every step keeps (R44) -/

/-- R23, R36, R44 (f): sizes, the canonical memory, register 0 and the entries of the load-store
buffer. -/
def Obligations.SoundKept : Prop :=
  ∀ s t : State, s.sound → step s = .next t → t.sound

/-- R29, R30, R31, R44 (a), (c): the window of the reorder buffer, its tags, and the producer tags, each
naming the youngest entry with that destination. -/
def Obligations.ConsistentKept : Prop :=
  ∀ s t : State, s.sound → s.consistent → step s = .next t → t.consistent

/-- R31, R44 (b): every tag has one holder, in step with its reorder-buffer entry. -/
def Obligations.OwnedKept : Prop :=
  ∀ s t : State, s.inv → step s = .next t → t.owned

/-- R44 (d), (e): an operand waits only for an older instruction in flight; RS_M stays in issue order,
and committed stores stay before all other stores of the load-store buffer. -/
def Obligations.OperandsOlderKept : Prop :=
  ∀ s t : State, s.inv → step s = .next t →
    (s.operandsOlder → t.operandsOlder) ∧ (s.inOrder → t.inOrder)

/-! ## Units -/

/-- R61: `MemRead` assembles and `MemWrite` writes the bytes little-endian, and no other byte changes. -/
def Obligations.LittleEndianMemory : Prop :=
  ∀ (m : Memory) (a n : Nat) (v : Word), m.wf = true → n ∈ [1, 2, 4] →
    (∀ k, k < n → (m.readLE a n).extractLsb' (8 * k) 8 = m.read (a + k)) ∧
    (m.readLE a n).toNat < 2 ^ (8 * n) ∧
    m.stored (m.writeLE a n v) a n v ∧ (m.writeLE a n v).wf = true

/-- R75, R225: the value a load forwards from a store that covers it is the value it would read from
memory after that store. -/
def Obligations.ForwardingReadsTheStore : Prop :=
  ∀ (m : Memory) (k : LoadKind) (ks : StoreKind) (addr : Word) (x : LsbEntry),
    m.wf = true → x.shaped = true → x.op = .store ks →
    rangeCovers x.addr.toNat ks.width addr.toNat k.width = true →
    forwardValue k addr x =
      loadExtend k ((m.writeLE x.addr.toNat ks.width x.value).readLE addr.toNat k.width)

/-- R274, R275: a push puts the address at the young end, of all addresses before it, or, of a full
stack, of all but the oldest; a pop gives the address pushed last, and below the bound the stack before
the push; a pop of an empty stack gives none. The model's choice, after the spec's: the stack's
use: the spec's decision D18 (notes/assumptions/13.md). -/
def Obligations.StackPushPop : Prop :=
  ∀ (bp : Predictor) (cfg : Config) (a : Word), 1 ≤ cfg.nRas → bp.ras.length ≤ cfg.nRas →
    (bp.push cfg a).ras.length ≤ cfg.nRas ∧ (bp.push cfg a).pop.1 = some a ∧
    (bp.ras.length < cfg.nRas → (bp.push cfg a).pop.2 = bp) ∧
    (bp.push cfg a).ras <:+ bp.ras ++ [a] ∧
    (bp.ras.length < cfg.nRas → (bp.push cfg a).ras = bp.ras ++ [a]) ∧
    (bp.ras.length = cfg.nRas → (bp.push cfg a).ras = bp.ras.tail ++ [a]) ∧
    (bp.ras = [] → bp.pop = (none, bp))

/-- R300: the arithmetic unit in integers. The model's choice, after the spec's: five-bit amounts:
general knowledge G6, notes/assumptions/12.md. -/
def Obligations.ArithmeticUnit : Prop :=
  ∀ a b : Word,
    (aluAdd a b).toNat = (a.toNat + b.toNat) % 2 ^ 32 ∧
    (aluSub a b).toInt = (a.toInt - b.toInt).bmod (2 ^ 32) ∧
    aluSlt a b = (if a.toInt < b.toInt then 1 else 0) ∧
    aluSltu a b = (if a.toNat < b.toNat then 1 else 0) ∧
    (∀ n, n < 32 →
      (aluXor a b).getLsbD n = (a.getLsbD n ^^ b.getLsbD n) ∧
      (aluOr a b).getLsbD n = (a.getLsbD n || b.getLsbD n) ∧
      (aluAnd a b).getLsbD n = (a.getLsbD n && b.getLsbD n)) ∧
    (aluSll a b).toNat = a.toNat * 2 ^ (b.toNat % 32) % 2 ^ 32 ∧
    (aluSrl a b).toNat = a.toNat / 2 ^ (b.toNat % 32) ∧
    (aluSra a b).toInt = a.toInt / 2 ^ (b.toNat % 32)

/-- R112: the loader reads back a text of segments, in which blanks separate the tokens, as the bytes of
each segment at consecutive addresses, in the order of the text, with the first segment's address as
the entry address. The model's choice: the marker, both cases of the digits and the four blank characters
(notes/assumptions/9.md, 12.md). -/
def Obligations.LoaderReadsSegments : Prop :=
  ∀ (lower : Bool) (w : Nat) (sep : List Char) (g : Nat × List Byte) (rest : List (Nat × List Byte)),
    1 ≤ w → w ≤ 8 → sep ≠ [] → (∀ c ∈ sep, c = ' ' ∨ c = '\t' ∨ c = '\n' ∨ c = '\r') →
    (∀ x ∈ g :: rest, x.1 < 16 ^ w) →
    loadText (imageText lower w sep (g :: rest)) =
      some ((g :: rest).flatMap segmentCells, BitVec.ofNat 32 g.1)

end
end

