-- ==== Sys2Proof/Laws/State.lean ====
section
/-! SUPPORT. One lemma per field per update of State and of Cycle, each true by unfolding, so that no
proof unfolds a record update. -/

namespace Sys2Proof.Laws

-- One proof after the other, on one thread: each thread costs the check 256 MB of stack.
set_option Elab.async false

open Sys2Proof.Machine

@[simp] theorem raiseFatal_cfg (f : FatalStop) (s : State) : (raiseFatal f s).cfg = s.cfg := rfl
@[simp] theorem raiseFatal_pc (f : FatalStop) (s : State) : (raiseFatal f s).pc = s.pc := rfl
@[simp] theorem raiseFatal_regs (f : FatalStop) (s : State) : (raiseFatal f s).regs = s.regs := rfl
@[simp] theorem raiseFatal_rob (f : FatalStop) (s : State) : (raiseFatal f s).rob = s.rob := rfl
@[simp] theorem raiseFatal_rsa (f : FatalStop) (s : State) : (raiseFatal f s).rsa = s.rsa := rfl
@[simp] theorem raiseFatal_rsm (f : FatalStop) (s : State) : (raiseFatal f s).rsm = s.rsm := rfl
@[simp] theorem raiseFatal_lsb (f : FatalStop) (s : State) : (raiseFatal f s).lsb = s.lsb := rfl
@[simp] theorem raiseFatal_bp (f : FatalStop) (s : State) : (raiseFatal f s).bp = s.bp := rfl
@[simp] theorem raiseFatal_mem (f : FatalStop) (s : State) : (raiseFatal f s).mem = f.mem := rfl
@[simp] theorem raiseFatal_haltIssued (f : FatalStop) (s : State) : (raiseFatal f s).haltIssued = s.haltIssued := rfl
@[simp] theorem raiseFatal_halted (f : FatalStop) (s : State) : (raiseFatal f s).halted = s.halted := rfl
@[simp] theorem raiseFatal_exitValue (f : FatalStop) (s : State) : (raiseFatal f s).exitValue = s.exitValue := rfl
@[simp] theorem raiseFatal_fatal (f : FatalStop) (s : State) : (raiseFatal f s).fatal = true := rfl
@[simp] theorem raiseFatal_fatalCause (f : FatalStop) (s : State) : (raiseFatal f s).fatalCause = f.cause.code := rfl
@[simp] theorem raiseFatal_clkCount (f : FatalStop) (s : State) : (raiseFatal f s).clkCount = s.clkCount := rfl

@[simp] theorem raiseHalt_cfg (v : BitVec 8) (n : State) : (raiseHalt v n).cfg = n.cfg := rfl
@[simp] theorem raiseHalt_pc (v : BitVec 8) (n : State) : (raiseHalt v n).pc = n.pc := rfl
@[simp] theorem raiseHalt_regs (v : BitVec 8) (n : State) : (raiseHalt v n).regs = n.regs := rfl
@[simp] theorem raiseHalt_rob (v : BitVec 8) (n : State) : (raiseHalt v n).rob = n.rob := rfl
@[simp] theorem raiseHalt_rsa (v : BitVec 8) (n : State) : (raiseHalt v n).rsa = n.rsa := rfl
@[simp] theorem raiseHalt_rsm (v : BitVec 8) (n : State) : (raiseHalt v n).rsm = n.rsm := rfl
@[simp] theorem raiseHalt_lsb (v : BitVec 8) (n : State) : (raiseHalt v n).lsb = n.lsb := rfl
@[simp] theorem raiseHalt_bp (v : BitVec 8) (n : State) : (raiseHalt v n).bp = n.bp := rfl
@[simp] theorem raiseHalt_mem (v : BitVec 8) (n : State) : (raiseHalt v n).mem = n.mem := rfl
@[simp] theorem raiseHalt_haltIssued (v : BitVec 8) (n : State) : (raiseHalt v n).haltIssued = n.haltIssued := rfl
@[simp] theorem raiseHalt_halted (v : BitVec 8) (n : State) : (raiseHalt v n).halted = true := rfl
@[simp] theorem raiseHalt_exitValue (v : BitVec 8) (n : State) : (raiseHalt v n).exitValue = v := rfl
@[simp] theorem raiseHalt_fatal (v : BitVec 8) (n : State) : (raiseHalt v n).fatal = n.fatal := rfl
@[simp] theorem raiseHalt_fatalCause (v : BitVec 8) (n : State) : (raiseHalt v n).fatalCause = n.fatalCause := rfl
@[simp] theorem raiseHalt_clkCount (v : BitVec 8) (n : State) : (raiseHalt v n).clkCount = n.clkCount := rfl

@[simp] theorem stateCommit_cfg (s n : State) : (stateCommit s n).cfg = n.cfg := rfl
@[simp] theorem stateCommit_pc (s n : State) : (stateCommit s n).pc = n.pc := rfl
@[simp] theorem stateCommit_regs (s n : State) : (stateCommit s n).regs = n.regs.forceZero := rfl
@[simp] theorem stateCommit_rob (s n : State) : (stateCommit s n).rob = n.rob := rfl
@[simp] theorem stateCommit_rsa (s n : State) : (stateCommit s n).rsa = n.rsa := rfl
@[simp] theorem stateCommit_rsm (s n : State) : (stateCommit s n).rsm = n.rsm := rfl
@[simp] theorem stateCommit_lsb (s n : State) : (stateCommit s n).lsb = n.lsb := rfl
@[simp] theorem stateCommit_bp (s n : State) : (stateCommit s n).bp = n.bp := rfl
@[simp] theorem stateCommit_mem (s n : State) : (stateCommit s n).mem = n.mem := rfl
@[simp] theorem stateCommit_haltIssued (s n : State) : (stateCommit s n).haltIssued = n.haltIssued := rfl
@[simp] theorem stateCommit_halted (s n : State) : (stateCommit s n).halted = n.halted := rfl
@[simp] theorem stateCommit_exitValue (s n : State) : (stateCommit s n).exitValue = n.exitValue := rfl
@[simp] theorem stateCommit_fatal (s n : State) : (stateCommit s n).fatal = n.fatal := rfl
@[simp] theorem stateCommit_fatalCause (s n : State) : (stateCommit s n).fatalCause = n.fatalCause := rfl
@[simp] theorem stateCommit_clkCount (s n : State) : (stateCommit s n).clkCount = s.clkCount + 1 := rfl

@[simp] theorem flushTo_cfg (t : Word) (n : State) : (flushTo t n).cfg = n.cfg := rfl
@[simp] theorem flushTo_pc (t : Word) (n : State) : (flushTo t n).pc = t := rfl
@[simp] theorem flushTo_regs (t : Word) (n : State) : (flushTo t n).regs = n.regs.clearTags := rfl
@[simp] theorem flushTo_rob (t : Word) (n : State) : (flushTo t n).rob = n.rob.clear := rfl
@[simp] theorem flushTo_rsa (t : Word) (n : State) : (flushTo t n).rsa = rsaClear n.rsa := rfl
@[simp] theorem flushTo_rsm (t : Word) (n : State) : (flushTo t n).rsm = [] := rfl
@[simp] theorem flushTo_lsb (t : Word) (n : State) : (flushTo t n).lsb = n.lsb.clear := rfl
@[simp] theorem flushTo_bp (t : Word) (n : State) : (flushTo t n).bp = n.bp := rfl
@[simp] theorem flushTo_mem (t : Word) (n : State) : (flushTo t n).mem = n.mem := rfl
@[simp] theorem flushTo_haltIssued (t : Word) (n : State) : (flushTo t n).haltIssued = false := rfl
@[simp] theorem flushTo_halted (t : Word) (n : State) : (flushTo t n).halted = n.halted := rfl
@[simp] theorem flushTo_exitValue (t : Word) (n : State) : (flushTo t n).exitValue = n.exitValue := rfl
@[simp] theorem flushTo_fatal (t : Word) (n : State) : (flushTo t n).fatal = n.fatal := rfl
@[simp] theorem flushTo_fatalCause (t : Word) (n : State) : (flushTo t n).fatalCause = n.fatalCause := rfl
@[simp] theorem flushTo_clkCount (t : Word) (n : State) : (flushTo t n).clkCount = n.clkCount := rfl

@[simp] theorem storeFetchWord_cfg (s : State) (w : Word) : (storeFetchWord s w).cfg = s.cfg := rfl
@[simp] theorem storeFetchWord_pc (s : State) (w : Word) : (storeFetchWord s w).pc = s.pc := rfl
@[simp] theorem storeFetchWord_regs (s : State) (w : Word) : (storeFetchWord s w).regs = s.regs := rfl
@[simp] theorem storeFetchWord_rob (s : State) (w : Word) : (storeFetchWord s w).rob = s.rob := rfl
@[simp] theorem storeFetchWord_rsa (s : State) (w : Word) : (storeFetchWord s w).rsa = s.rsa := rfl
@[simp] theorem storeFetchWord_rsm (s : State) (w : Word) : (storeFetchWord s w).rsm = s.rsm := rfl
@[simp] theorem storeFetchWord_lsb (s : State) (w : Word) : (storeFetchWord s w).lsb = s.lsb := rfl
@[simp] theorem storeFetchWord_bp (s : State) (w : Word) : (storeFetchWord s w).bp = s.bp := rfl
@[simp] theorem storeFetchWord_mem (s : State) (w : Word) : (storeFetchWord s w).mem = s.mem.writeLE s.pc.toNat 4 w := rfl
@[simp] theorem storeFetchWord_haltIssued (s : State) (w : Word) : (storeFetchWord s w).haltIssued = s.haltIssued := rfl
@[simp] theorem storeFetchWord_halted (s : State) (w : Word) : (storeFetchWord s w).halted = s.halted := rfl
@[simp] theorem storeFetchWord_exitValue (s : State) (w : Word) : (storeFetchWord s w).exitValue = s.exitValue := rfl
@[simp] theorem storeFetchWord_fatal (s : State) (w : Word) : (storeFetchWord s w).fatal = s.fatal := rfl
@[simp] theorem storeFetchWord_fatalCause (s : State) (w : Word) : (storeFetchWord s w).fatalCause = s.fatalCause := rfl
@[simp] theorem storeFetchWord_clkCount (s : State) (w : Word) : (storeFetchWord s w).clkCount = s.clkCount := rfl

@[simp] theorem busPropagate_rob (c : Cycle) : (busPropagate c).rob = c.next.rob.checkBus c.rb := rfl
@[simp] theorem busPropagate_rsa (c : Cycle) : (busPropagate c).rsa = rsaCheckBus c.rb c.cb c.next.rsa := rfl
@[simp] theorem busPropagate_rsm (c : Cycle) : (busPropagate c).rsm = rsmCheckBus c.rb c.cb c.next.rsm := rfl
@[simp] theorem busPropagate_lsb (c : Cycle) : (busPropagate c).lsb = c.next.lsb.checkBus c.cb := rfl
@[simp] theorem busPropagate_regs (c : Cycle) : (busPropagate c).regs = regsCheckBus c.cb c.next.regs := rfl
@[simp] theorem busPropagate_cfg (c : Cycle) : (busPropagate c).cfg = c.next.cfg := rfl
@[simp] theorem busPropagate_pc (c : Cycle) : (busPropagate c).pc = c.next.pc := rfl
@[simp] theorem busPropagate_bp (c : Cycle) : (busPropagate c).bp = c.next.bp := rfl
@[simp] theorem busPropagate_mem (c : Cycle) : (busPropagate c).mem = c.next.mem := rfl
@[simp] theorem busPropagate_haltIssued (c : Cycle) : (busPropagate c).haltIssued = c.next.haltIssued := rfl
@[simp] theorem busPropagate_halted (c : Cycle) : (busPropagate c).halted = c.next.halted := rfl
@[simp] theorem busPropagate_exitValue (c : Cycle) : (busPropagate c).exitValue = c.next.exitValue := rfl
@[simp] theorem busPropagate_fatal (c : Cycle) : (busPropagate c).fatal = c.next.fatal := rfl
@[simp] theorem busPropagate_fatalCause (c : Cycle) : (busPropagate c).fatalCause = c.next.fatalCause := rfl
@[simp] theorem busPropagate_clkCount (c : Cycle) : (busPropagate c).clkCount = c.next.clkCount := rfl

@[simp] theorem issueInto_cfg (s : State) (r : Record) (n : State) :
    (issueInto s r n).cfg = n.cfg := by
  unfold issueInto stationIssue; cases r.op <;> rfl
@[simp] theorem issueInto_pc (s : State) (r : Record) (n : State) :
    (issueInto s r n).pc = (nextFetch s.cfg s.bp r s.pc).1 := by
  unfold issueInto stationIssue; cases r.op <;> rfl
@[simp] theorem issueInto_regs (s : State) (r : Record) (n : State) :
    (issueInto s r n).regs = n.regs.recordProducer r.rd (s.rob.tail s.cfg) := by
  unfold issueInto stationIssue; cases r.op <;> rfl
@[simp] theorem issueInto_rob (s : State) (r : Record) (n : State) :
    (issueInto s r n).rob = s.rob.issue n.rob s.cfg r s.pc := by
  unfold issueInto stationIssue; cases r.op <;> rfl
@[simp] theorem issueInto_lsb (s : State) (r : Record) (n : State) :
    (issueInto s r n).lsb = n.lsb := by
  unfold issueInto stationIssue; cases r.op <;> rfl
@[simp] theorem issueInto_bp (s : State) (r : Record) (n : State) :
    (issueInto s r n).bp = (nextFetch s.cfg s.bp r s.pc).2 := by
  unfold issueInto stationIssue; cases r.op <;> rfl
@[simp] theorem issueInto_mem (s : State) (r : Record) (n : State) :
    (issueInto s r n).mem = n.mem := by
  unfold issueInto stationIssue; cases r.op <;> rfl
@[simp] theorem issueInto_haltIssued (s : State) (r : Record) (n : State) :
    (issueInto s r n).haltIssued = (n.haltIssued || decide (r.op = .arith .halt)) := by
  unfold issueInto stationIssue; cases r.op <;> rfl
@[simp] theorem issueInto_halted (s : State) (r : Record) (n : State) :
    (issueInto s r n).halted = n.halted := by
  unfold issueInto stationIssue; cases r.op <;> rfl
@[simp] theorem issueInto_exitValue (s : State) (r : Record) (n : State) :
    (issueInto s r n).exitValue = n.exitValue := by
  unfold issueInto stationIssue; cases r.op <;> rfl
@[simp] theorem issueInto_fatal (s : State) (r : Record) (n : State) :
    (issueInto s r n).fatal = n.fatal := by
  unfold issueInto stationIssue; cases r.op <;> rfl
@[simp] theorem issueInto_fatalCause (s : State) (r : Record) (n : State) :
    (issueInto s r n).fatalCause = n.fatalCause := by
  unfold issueInto stationIssue; cases r.op <;> rfl
@[simp] theorem issueInto_clkCount (s : State) (r : Record) (n : State) :
    (issueInto s r n).clkCount = n.clkCount := by
  unfold issueInto stationIssue; cases r.op <;> rfl
@[simp] theorem issueInto_rsa (s : State) (r : Record) (n : State) :
    (issueInto s r n).rsa = (stationIssue s r n).rsa := rfl
@[simp] theorem issueInto_rsm (s : State) (r : Record) (n : State) :
    (issueInto s r n).rsm = (stationIssue s r n).rsm := rfl

@[simp] theorem lsbAppend_next_cfg (x : LsbEntry) (c : Cycle) : (lsbAppend x c).next.cfg = c.next.cfg := rfl
@[simp] theorem lsbAppend_next_pc (x : LsbEntry) (c : Cycle) : (lsbAppend x c).next.pc = c.next.pc := rfl
@[simp] theorem lsbAppend_next_regs (x : LsbEntry) (c : Cycle) : (lsbAppend x c).next.regs = c.next.regs := rfl
@[simp] theorem lsbAppend_next_rob (x : LsbEntry) (c : Cycle) : (lsbAppend x c).next.rob = c.next.rob := rfl
@[simp] theorem lsbAppend_next_rsa (x : LsbEntry) (c : Cycle) : (lsbAppend x c).next.rsa = c.next.rsa := rfl
@[simp] theorem lsbAppend_next_rsm (x : LsbEntry) (c : Cycle) : (lsbAppend x c).next.rsm = c.next.rsm := rfl
@[simp] theorem lsbAppend_next_lsb (x : LsbEntry) (c : Cycle) : (lsbAppend x c).next.lsb = { c.next.lsb with q := c.next.lsb.q ++ [x] } := rfl
@[simp] theorem lsbAppend_next_bp (x : LsbEntry) (c : Cycle) : (lsbAppend x c).next.bp = c.next.bp := rfl
@[simp] theorem lsbAppend_next_mem (x : LsbEntry) (c : Cycle) : (lsbAppend x c).next.mem = c.next.mem := rfl
@[simp] theorem lsbAppend_next_haltIssued (x : LsbEntry) (c : Cycle) : (lsbAppend x c).next.haltIssued = c.next.haltIssued := rfl
@[simp] theorem lsbAppend_next_halted (x : LsbEntry) (c : Cycle) : (lsbAppend x c).next.halted = c.next.halted := rfl
@[simp] theorem lsbAppend_next_exitValue (x : LsbEntry) (c : Cycle) : (lsbAppend x c).next.exitValue = c.next.exitValue := rfl
@[simp] theorem lsbAppend_next_fatal (x : LsbEntry) (c : Cycle) : (lsbAppend x c).next.fatal = c.next.fatal := rfl
@[simp] theorem lsbAppend_next_fatalCause (x : LsbEntry) (c : Cycle) : (lsbAppend x c).next.fatalCause = c.next.fatalCause := rfl
@[simp] theorem lsbAppend_next_clkCount (x : LsbEntry) (c : Cycle) : (lsbAppend x c).next.clkCount = c.next.clkCount := rfl
@[simp] theorem lsbAppend_rb (x : LsbEntry) (c : Cycle) : (lsbAppend x c).rb = c.rb := rfl
@[simp] theorem lsbAppend_cb (x : LsbEntry) (c : Cycle) : (lsbAppend x c).cb = c.cb := rfl
@[simp] theorem lsbAppend_flushReq (x : LsbEntry) (c : Cycle) : (lsbAppend x c).flushReq = c.flushReq := rfl

@[simp] theorem setCountdown_next_cfg (n : Nat) (c : Cycle) : (setCountdown n c).next.cfg = c.next.cfg := rfl
@[simp] theorem setCountdown_next_pc (n : Nat) (c : Cycle) : (setCountdown n c).next.pc = c.next.pc := rfl
@[simp] theorem setCountdown_next_regs (n : Nat) (c : Cycle) : (setCountdown n c).next.regs = c.next.regs := rfl
@[simp] theorem setCountdown_next_rob (n : Nat) (c : Cycle) : (setCountdown n c).next.rob = c.next.rob := rfl
@[simp] theorem setCountdown_next_rsa (n : Nat) (c : Cycle) : (setCountdown n c).next.rsa = c.next.rsa := rfl
@[simp] theorem setCountdown_next_rsm (n : Nat) (c : Cycle) : (setCountdown n c).next.rsm = c.next.rsm := rfl
@[simp] theorem setCountdown_next_lsb (n : Nat) (c : Cycle) : (setCountdown n c).next.lsb = { c.next.lsb with c := n } := rfl
@[simp] theorem setCountdown_next_bp (n : Nat) (c : Cycle) : (setCountdown n c).next.bp = c.next.bp := rfl
@[simp] theorem setCountdown_next_mem (n : Nat) (c : Cycle) : (setCountdown n c).next.mem = c.next.mem := rfl
@[simp] theorem setCountdown_next_haltIssued (n : Nat) (c : Cycle) : (setCountdown n c).next.haltIssued = c.next.haltIssued := rfl
@[simp] theorem setCountdown_next_halted (n : Nat) (c : Cycle) : (setCountdown n c).next.halted = c.next.halted := rfl
@[simp] theorem setCountdown_next_exitValue (n : Nat) (c : Cycle) : (setCountdown n c).next.exitValue = c.next.exitValue := rfl
@[simp] theorem setCountdown_next_fatal (n : Nat) (c : Cycle) : (setCountdown n c).next.fatal = c.next.fatal := rfl
@[simp] theorem setCountdown_next_fatalCause (n : Nat) (c : Cycle) : (setCountdown n c).next.fatalCause = c.next.fatalCause := rfl
@[simp] theorem setCountdown_next_clkCount (n : Nat) (c : Cycle) : (setCountdown n c).next.clkCount = c.next.clkCount := rfl
@[simp] theorem setCountdown_rb (n : Nat) (c : Cycle) : (setCountdown n c).rb = c.rb := rfl
@[simp] theorem setCountdown_cb (n : Nat) (c : Cycle) : (setCountdown n c).cb = c.cb := rfl
@[simp] theorem setCountdown_flushReq (n : Nat) (c : Cycle) : (setCountdown n c).flushReq = c.flushReq := rfl

@[simp] theorem lsbPop_next_cfg (c : Cycle) : (lsbPop c).next.cfg = c.next.cfg := rfl
@[simp] theorem lsbPop_next_pc (c : Cycle) : (lsbPop c).next.pc = c.next.pc := rfl
@[simp] theorem lsbPop_next_regs (c : Cycle) : (lsbPop c).next.regs = c.next.regs := rfl
@[simp] theorem lsbPop_next_rob (c : Cycle) : (lsbPop c).next.rob = c.next.rob := rfl
@[simp] theorem lsbPop_next_rsa (c : Cycle) : (lsbPop c).next.rsa = c.next.rsa := rfl
@[simp] theorem lsbPop_next_rsm (c : Cycle) : (lsbPop c).next.rsm = c.next.rsm := rfl
@[simp] theorem lsbPop_next_lsb (c : Cycle) : (lsbPop c).next.lsb = { c.next.lsb with q := c.next.lsb.q.drop 1 } := rfl
@[simp] theorem lsbPop_next_bp (c : Cycle) : (lsbPop c).next.bp = c.next.bp := rfl
@[simp] theorem lsbPop_next_mem (c : Cycle) : (lsbPop c).next.mem = c.next.mem := rfl
@[simp] theorem lsbPop_next_haltIssued (c : Cycle) : (lsbPop c).next.haltIssued = c.next.haltIssued := rfl
@[simp] theorem lsbPop_next_halted (c : Cycle) : (lsbPop c).next.halted = c.next.halted := rfl
@[simp] theorem lsbPop_next_exitValue (c : Cycle) : (lsbPop c).next.exitValue = c.next.exitValue := rfl
@[simp] theorem lsbPop_next_fatal (c : Cycle) : (lsbPop c).next.fatal = c.next.fatal := rfl
@[simp] theorem lsbPop_next_fatalCause (c : Cycle) : (lsbPop c).next.fatalCause = c.next.fatalCause := rfl
@[simp] theorem lsbPop_next_clkCount (c : Cycle) : (lsbPop c).next.clkCount = c.next.clkCount := rfl
@[simp] theorem lsbPop_rb (c : Cycle) : (lsbPop c).rb = c.rb := rfl
@[simp] theorem lsbPop_cb (c : Cycle) : (lsbPop c).cb = c.cb := rfl
@[simp] theorem lsbPop_flushReq (c : Cycle) : (lsbPop c).flushReq = c.flushReq := rfl

@[simp] theorem popHead_next_cfg (s : State) (c : Cycle) : (popHead s c).next.cfg = c.next.cfg := rfl
@[simp] theorem popHead_next_pc (s : State) (c : Cycle) : (popHead s c).next.pc = c.next.pc := rfl
@[simp] theorem popHead_next_regs (s : State) (c : Cycle) : (popHead s c).next.regs = c.next.regs := rfl
@[simp] theorem popHead_next_rob (s : State) (c : Cycle) : (popHead s c).next.rob = s.rob.pop c.next.rob s.cfg := rfl
@[simp] theorem popHead_next_rsa (s : State) (c : Cycle) : (popHead s c).next.rsa = c.next.rsa := rfl
@[simp] theorem popHead_next_rsm (s : State) (c : Cycle) : (popHead s c).next.rsm = c.next.rsm := rfl
@[simp] theorem popHead_next_lsb (s : State) (c : Cycle) : (popHead s c).next.lsb = c.next.lsb := rfl
@[simp] theorem popHead_next_bp (s : State) (c : Cycle) : (popHead s c).next.bp = c.next.bp := rfl
@[simp] theorem popHead_next_mem (s : State) (c : Cycle) : (popHead s c).next.mem = c.next.mem := rfl
@[simp] theorem popHead_next_haltIssued (s : State) (c : Cycle) : (popHead s c).next.haltIssued = c.next.haltIssued := rfl
@[simp] theorem popHead_next_halted (s : State) (c : Cycle) : (popHead s c).next.halted = c.next.halted := rfl
@[simp] theorem popHead_next_exitValue (s : State) (c : Cycle) : (popHead s c).next.exitValue = c.next.exitValue := rfl
@[simp] theorem popHead_next_fatal (s : State) (c : Cycle) : (popHead s c).next.fatal = c.next.fatal := rfl
@[simp] theorem popHead_next_fatalCause (s : State) (c : Cycle) : (popHead s c).next.fatalCause = c.next.fatalCause := rfl
@[simp] theorem popHead_next_clkCount (s : State) (c : Cycle) : (popHead s c).next.clkCount = c.next.clkCount := rfl
@[simp] theorem popHead_rb (s : State) (c : Cycle) : (popHead s c).rb = c.rb := rfl
@[simp] theorem popHead_cb (s : State) (c : Cycle) : (popHead s c).cb = c.cb := rfl
@[simp] theorem popHead_flushReq (s : State) (c : Cycle) : (popHead s c).flushReq = c.flushReq := rfl

@[simp] theorem Cycle_start_next (s : State) : (Cycle.start s).next = s := rfl
@[simp] theorem Cycle_start_rb (s : State) : (Cycle.start s).rb = [] := rfl
@[simp] theorem Cycle_start_cb (s : State) : (Cycle.start s).cb = [] := rfl
@[simp] theorem Cycle_start_flushReq (s : State) : (Cycle.start s).flushReq = none := rfl

end Sys2Proof.Laws
end

