-- ==== Sys2Proof/Laws/Phases.lean ====
section
/-! SUPPORT. Inversion lemmas: for each operation of the cycle that can stop, everything it can do when
it goes on. Later proofs cite these and do not unfold the operations. -/

namespace Sys2Proof.Laws

-- One proof after the other, on one thread: each thread costs the check 256 MB of stack.
set_option Elab.async false

open Sys2Proof.Machine

/-! ## The buses -/

/-- A `put` on the result bus goes on exactly when there is room, and appends its entry (R251). -/
theorem rbPut_ok {t : Tag} {v : Word} {wake : Bool} {c c' : Cycle} (h : rbPut t v wake c = .ok c') :
    c.rb.length < c.next.cfg.rbCap ∧ c' = { c with rb := c.rb ++ [⟨t, v, wake⟩] } := by
  unfold rbPut at h
  split at h
  · exact ⟨‹_›, (Except.ok.inj h).symm⟩
  · cases h

theorem rbPut_error {t : Tag} {v : Word} {wake : Bool} {c : Cycle} {f : FatalStop}
    (h : rbPut t v wake c = .error f) : c.next.cfg.rbCap ≤ c.rb.length ∧ f = ⟨.bus, c.next.mem⟩ := by
  unfold rbPut at h
  split at h
  · cases h
  · exact ⟨by omega, (Except.error.inj h).symm⟩

theorem rbPut_of_room {t : Tag} {v : Word} {wake : Bool} {c : Cycle}
    (h : c.rb.length < c.next.cfg.rbCap) :
    rbPut t v wake c = .ok { c with rb := c.rb ++ [⟨t, v, wake⟩] } := if_pos h

/-- A `put` on the commit bus goes on exactly when there is room, and appends its entry (R252). -/
theorem cbPut_ok {t : Tag} {v : Word} {d : Option RegIdx} {c c' : Cycle} (h : cbPut t v d c = .ok c') :
    c.cb.length < c.next.cfg.cbCap ∧ c' = { c with cb := c.cb ++ [⟨t, v, d⟩] } := by
  unfold cbPut at h
  split at h
  · exact ⟨‹_›, (Except.ok.inj h).symm⟩
  · cases h

theorem cbPut_error {t : Tag} {v : Word} {d : Option RegIdx} {c : Cycle} {f : FatalStop}
    (h : cbPut t v d c = .error f) : c.next.cfg.cbCap ≤ c.cb.length ∧ f = ⟨.bus, c.next.mem⟩ := by
  unfold cbPut at h
  split at h
  · cases h
  · exact ⟨by omega, (Except.error.inj h).symm⟩

theorem cbPut_of_room {t : Tag} {v : Word} {d : Option RegIdx} {c : Cycle}
    (h : c.cb.length < c.next.cfg.cbCap) :
    cbPut t v d c = .ok { c with cb := c.cb ++ [⟨t, v, d⟩] } := if_pos h

/-! ## Issue -/

/-- What Issue leaves behind when it goes on: nothing, or the allocation of one instruction (R124,
R125). -/
theorem issuePhase_ok {o : Offer} {s : State} {c c' : Cycle} (h : issuePhase o s c = .ok c') :
    ((s.issueBlocked = true ∨ o = .none ∨ ∃ r, o = .instr r ∧ s.hasRoom r.op = false) ∧ c' = c) ∨
      ∃ r, o = .instr r ∧ s.issueBlocked = false ∧ s.hasRoom r.op = true ∧
        c' = { c with next := issueInto s r c.next } := by
  unfold issuePhase at h
  split at h
  · exact .inl ⟨.inl ‹_›, (Except.ok.inj h).symm⟩
  · rename_i hb
    have hb : s.issueBlocked = false := by simpa using hb
    split at h
    · exact .inl ⟨.inr (.inl rfl), (Except.ok.inj h).symm⟩
    · cases h
    · rename_i r
      split at h
      · exact .inr ⟨r, rfl, hb, ‹_›, (Except.ok.inj h).symm⟩
      · rename_i hr
        exact .inl ⟨.inr (.inr ⟨r, rfl, by simpa using hr⟩), (Except.ok.inj h).symm⟩

/-- Issue stops a cycle exactly on a fatal offer, when it is not blocked (R124, R401, R403). -/
theorem issuePhase_error {o : Offer} {s : State} {c : Cycle} {f : FatalStop}
    (h : issuePhase o s c = .error f) :
    ∃ cause, o = .fatal cause ∧ s.issueBlocked = false ∧ f = ⟨cause, c.next.mem⟩ := by
  unfold issuePhase at h
  split at h
  · cases h
  · rename_i hb
    split at h
    · cases h
    · exact ⟨_, rfl, by simpa using hb, (Except.error.inj h).symm⟩
    · split at h <;> cases h

/-! ## Execute -/

/-- What the arithmetic station's execute does when it goes on (R194, R195). -/
theorem rsaExecute_ok {s : State} {c c' : Cycle} (h : rsaExecute s c = .ok c') :
    (rsaSelect s.rsa = none ∧ c' = c) ∨
      ∃ i e, rsaSelect s.rsa = some (i, e) ∧ c.rb.length < c.next.cfg.rbCap ∧
        c' = { c with
          rb := c.rb ++ [⟨e.tag, (arithResult e).1, (arithResult e).2⟩]
          next := { c.next with rsa := c.next.rsa.set i none } } := by
  unfold rsaExecute at h
  split at h
  · exact .inl ⟨‹_›, (Except.ok.inj h).symm⟩
  · rename_i i e hsel
    split at h
    · cases h
    · rename_i c1 h1
      obtain ⟨hlt, rfl⟩ := rbPut_ok h1
      exact .inr ⟨i, e, hsel, hlt, (Except.ok.inj h).symm⟩

theorem rsaExecute_error {s : State} {c : Cycle} {f : FatalStop} (h : rsaExecute s c = .error f) :
    c.next.cfg.rbCap ≤ c.rb.length ∧ f = ⟨.bus, c.next.mem⟩ := by
  unfold rsaExecute at h
  split at h
  · cases h
  · split at h
    · rename_i h1
      cases h
      exact rbPut_error h1
    · cases h

/-- The queue entry of a dispatched load (R226). -/
def queuedLoad (k : LoadKind) (e : RsEntry MemKind) : LsbEntry :=
  { op := .load k, addr := effectiveAddress e.vj e.imm, value := 0, tag := e.tag, ready := true }

/-- The queue entry of a dispatched store (R222). -/
def queuedStore (k : StoreKind) (e : RsEntry MemKind) : LsbEntry :=
  { op := .store k, addr := effectiveAddress e.vj e.imm, value := storeData k e.vk, tag := e.tag,
    ready := false }

/-- The store a dispatched load forwards from: the nearest overlapping one, if it covers the load
(R224). -/
def forwardsFrom (q : List LsbEntry) (k : LoadKind) (addr : Word) (x : LsbEntry) : Prop :=
  nearestStore q addr k.width = some x ∧
    rangeCovers x.addr.toNat x.op.width addr.toNat k.width = true

/-- What a load's `LSB.execute` does when it goes on (R224 to R226). -/
theorem lsbExecuteLoad_ok {s : State} {k : LoadKind} {addr : Word} {t : Tag} {c c' : Cycle}
    (h : lsbExecuteLoad s k addr t c = .ok c') :
    (∃ x, forwardsFrom s.lsb.q k addr x ∧
        c' = { c with rb := c.rb ++ [⟨t, forwardValue k addr x, true⟩] }) ∨
      ((∀ x, ¬ forwardsFrom s.lsb.q k addr x) ∧
        c' = lsbAppend { op := .load k, addr := addr, value := 0, tag := t, ready := true } c) := by
  unfold lsbExecuteLoad at h
  split at h
  · rename_i x hx
    split at h
    · rename_i hcov
      exact .inl ⟨x, ⟨hx, hcov⟩, (rbPut_ok h).2⟩
    · rename_i hcov
      refine .inr ⟨fun y hy => ?_, (Except.ok.inj h).symm⟩
      obtain ⟨hxy, hc⟩ := hy
      obtain rfl := Option.some.inj (hx.symm.trans hxy)
      exact hcov hc
  · rename_i hx
    refine .inr ⟨fun y hy => ?_, (Except.ok.inj h).symm⟩
    cases hx.symm.trans hy.1

/-- What the memory station's execute does when it goes on (R197 to R199, R222 to R226). -/
theorem rsmExecute_ok {s : State} {c c' : Cycle} (h : rsmExecute s c = .ok c') :
    ((s.cfg.nLsb ≤ s.lsb.q.length ∨ rsmSelect s.rsm = none) ∧ c' = c) ∨
      ∃ e, rsmSelect s.rsm = some e ∧ s.lsb.q.length < s.cfg.nLsb ∧
        ((∃ k, e.op = .store k ∧
            c' = { c with
              rb := c.rb ++ [⟨e.tag, 0, false⟩]
              next := { c.next with
                rsm := rsmRemove c.next.rsm e.tag
                lsb := { c.next.lsb with q := c.next.lsb.q ++ [queuedStore k e] } } }) ∨
          (∃ k x, e.op = .load k ∧ forwardsFrom s.lsb.q k (effectiveAddress e.vj e.imm) x ∧
            c' = { c with
              rb := c.rb ++ [⟨e.tag, forwardValue k (effectiveAddress e.vj e.imm) x, true⟩]
              next := { c.next with rsm := rsmRemove c.next.rsm e.tag } }) ∨
          (∃ k, e.op = .load k ∧ (∀ x, ¬ forwardsFrom s.lsb.q k (effectiveAddress e.vj e.imm) x) ∧
            c' = { c with
              next := { c.next with
                rsm := rsmRemove c.next.rsm e.tag
                lsb := { c.next.lsb with q := c.next.lsb.q ++ [queuedLoad k e] } } })) := by
  unfold rsmExecute at h
  split at h
  · rename_i hroom
    split at h
    · exact .inl ⟨.inr ‹_›, (Except.ok.inj h).symm⟩
    · rename_i e hsel
      refine .inr ⟨e, hsel, hroom, ?_⟩
      unfold dispatch at h
      simp only at h
      split at h
      · rename_i k hk
        exact .inl ⟨k, hk, (rbPut_ok h).2⟩
      · rename_i k hk
        rcases lsbExecuteLoad_ok h with ⟨x, hx, rfl⟩ | ⟨hx, rfl⟩
        · exact .inr (.inl ⟨k, x, hk, hx, rfl⟩)
        · exact .inr (.inr ⟨k, hk, hx, rfl⟩)
  · exact .inl ⟨.inl (by omega), (Except.ok.inj h).symm⟩

/-- The memory station's execute stops a cycle only on a full result bus (R251). -/
theorem rsmExecute_error {s : State} {c : Cycle} {f : FatalStop} (h : rsmExecute s c = .error f) :
    c.next.cfg.rbCap ≤ c.rb.length ∧ f = ⟨.bus, c.next.mem⟩ := by
  unfold rsmExecute at h
  split at h
  · split at h
    · cases h
    · unfold dispatch at h
      simp only at h
      split at h
      · have h1 := rbPut_error h
        exact h1
      · unfold lsbExecuteLoad at h
        split at h
        · split at h
          · have h1 := rbPut_error h
            exact h1
          · cases h
        · cases h
  · cases h

/-! ## MemoryAccess -/

/-- What `tryLoadStore` does when it goes on (R230, R232). -/
theorem tryLoadStore_ok {s : State} {c c' : Cycle} (h : tryLoadStore s c = .ok c') :
    (0 < s.lsb.c ∧ c' = setCountdown (s.lsb.c - 1) c) ∨
      (s.lsb.c = 0 ∧ s.lsb.q = [] ∧ c' = c) ∨
      (∃ x rest, s.lsb.c = 0 ∧ s.lsb.q = x :: rest ∧ x.ready = false ∧ c' = c) ∨
      (∃ x rest, s.lsb.c = 0 ∧ s.lsb.q = x :: rest ∧ x.ready = true ∧
        inRange c.next.cfg x.addr x.op.width = true ∧
        ((∃ k, x.op = .store k ∧
            c' = { c with
              next := { c.next with
                mem := c.next.mem.writeLE x.addr.toNat k.width x.value
                lsb := { q := c.next.lsb.q.drop 1, c := countdownAfter s } } }) ∨
          (∃ k, x.op = .load k ∧
            c' = { c with
              rb := c.rb ++ [⟨x.tag, loadExtend k (c.next.mem.readLE x.addr.toNat k.width), true⟩]
              next := { c.next with
                lsb := { q := c.next.lsb.q.drop 1, c := countdownAfter s } } }))) := by
  unfold tryLoadStore at h
  split at h
  · exact .inl ⟨‹_›, (Except.ok.inj h).symm⟩
  · have hc : s.lsb.c = 0 := by omega
    split at h
    · exact .inr (.inl ⟨hc, ‹_›, (Except.ok.inj h).symm⟩)
    · rename_i x rest hq
      split at h
      · rename_i hr
        refine .inr (.inr (.inr ⟨x, rest, hc, hq, hr, ?_⟩))
        split at h
        · cases h
        · rename_i c1 h1
          unfold lsbPerform at h1
          split at h1
          · rename_i hin
            refine ⟨hin, ?_⟩
            split at h1
            · rename_i k hk
              cases h1
              exact .inl ⟨k, hk, (Except.ok.inj h).symm⟩
            · rename_i k hk
              obtain ⟨-, rfl⟩ := rbPut_ok h1
              exact .inr ⟨k, hk, (Except.ok.inj h).symm⟩
          · cases h1
      · rename_i hr
        exact .inr (.inr (.inl ⟨x, rest, hc, hq, by simpa using hr, (Except.ok.inj h).symm⟩))

/-- `tryLoadStore` stops a cycle on an access out of range, or on a full result bus (R232, R404). -/
theorem tryLoadStore_error {s : State} {c : Cycle} {f : FatalStop} (h : tryLoadStore s c = .error f) :
    ∃ x rest, s.lsb.c = 0 ∧ s.lsb.q = x :: rest ∧ x.ready = true ∧
      ((inRange c.next.cfg x.addr x.op.width = false ∧ f = ⟨.mem, c.next.mem⟩) ∨
        (inRange c.next.cfg x.addr x.op.width = true ∧ c.next.cfg.rbCap ≤ c.rb.length ∧
          (∃ k, x.op = .load k) ∧ f = ⟨.bus, c.next.mem⟩)) := by
  unfold tryLoadStore at h
  split at h
  · cases h
  · have hc : s.lsb.c = 0 := by omega
    split at h
    · cases h
    · rename_i x rest hq
      split at h
      · rename_i hr
        refine ⟨x, rest, hc, hq, hr, ?_⟩
        split at h
        · rename_i h1
          cases h
          unfold lsbPerform at h1
          split at h1
          · rename_i hin
            split at h1
            · cases h1
            · rename_i k hk
              obtain ⟨hle, rfl⟩ := rbPut_error h1
              exact .inr ⟨hin, hle, ⟨k, hk⟩, rfl⟩
          · rename_i hin
            cases h1
            exact .inl ⟨by simpa using hin, rfl⟩
        · cases h
      · cases h

/-! ## Commit -/

/-- What the commit of a ready oldest entry does when it goes on (R165 to R171). -/
theorem commitEntry_ok {s : State} {e : RobEntry} {c c' : Cycle} {out : CommitOutcome}
    (h : commitEntry s e c = .ok (c', out)) :
    (e.op.group = .halt ∧ c' = c ∧ out = .halt ((s.regs.value 10).setWidth 8)) ∨
      (e.op.group = .store ∧ c' = popHead s { c with cb := c.cb ++ [⟨e.tag, 0, none⟩] } ∧
        out = .nothing) ∨
      (e.op.group = .pcValue ∧ out = .nothing ∧
        c' = popHead s { c with
          cb := c.cb ++ [⟨e.tag, if e.op = .arith .jal then e.pc + 4 else e.value, e.dest⟩] }) ∨
      (e.op.group = .branch ∧ out = targetCheck s e ∧
        c' = popHead s { c with next := { c.next with
          bp := Predictor.update s.bp c.next.bp s.cfg e.pc (decide (e.target ≠ e.pc + 4)) } }) ∨
      (e.op.group = .indirectJump ∧ out = targetCheck s e ∧
        c' = popHead s { c with cb := c.cb ++ [⟨e.tag, e.pc + 4, e.dest⟩] }) ∨
      (e.op.group = .other ∧ out = .nothing ∧
        c' = popHead s { c with cb := c.cb ++ [⟨e.tag, e.value, e.dest⟩] }) := by
  unfold commitEntry at h
  split at h
  · rename_i hg
    cases h
    exact .inl ⟨hg, rfl, rfl⟩
  · rename_i hg
    unfold commitStore at h
    split at h
    · cases h
    · rename_i c1 h1
      obtain ⟨-, rfl⟩ := cbPut_ok h1
      cases h
      exact .inr (.inl ⟨hg, rfl, rfl⟩)
  · rename_i hg
    unfold commitPcValue at h
    split at h
    · cases h
    · rename_i c1 h1
      obtain ⟨-, rfl⟩ := cbPut_ok h1
      cases h
      exact .inr (.inr (.inl ⟨hg, rfl, rfl⟩))
  · rename_i hg
    cases h
    exact .inr (.inr (.inr (.inl ⟨hg, rfl, rfl⟩)))
  · rename_i hg
    unfold commitIndirectJump at h
    split at h
    · cases h
    · rename_i c1 h1
      obtain ⟨-, rfl⟩ := cbPut_ok h1
      cases h
      exact .inr (.inr (.inr (.inr (.inl ⟨hg, rfl, rfl⟩))))
  · rename_i hg
    unfold commitOther at h
    split at h
    · cases h
    · rename_i c1 h1
      obtain ⟨-, rfl⟩ := cbPut_ok h1
      cases h
      exact .inr (.inr (.inr (.inr (.inr ⟨hg, rfl, rfl⟩))))

/-- A commit stops a cycle only on a full commit bus (R252). -/
theorem robCommit_error {s : State} {c : Cycle} {f : FatalStop} (h : robCommit s c = .error f) :
    c.next.cfg.cbCap ≤ c.cb.length ∧ f = ⟨.bus, c.next.mem⟩ := by
  unfold robCommit at h
  split at h
  · cases h
  · split at h
    · unfold commitEntry at h
      split at h
      · cases h
      · unfold commitStore at h
        split at h
        · rename_i h1; cases h; exact cbPut_error h1
        · cases h
      · unfold commitPcValue at h
        split at h
        · rename_i h1; cases h; exact cbPut_error h1
        · cases h
      · cases h
      · unfold commitIndirectJump at h
        split at h
        · rename_i h1; cases h; exact cbPut_error h1
        · cases h
      · unfold commitOther at h
        split at h
        · rename_i h1; cases h; exact cbPut_error h1
        · cases h
    · cases h

/-- A commit that goes on either finds no ready oldest entry and changes nothing, or commits it
(R163). -/
theorem robCommit_ok {s : State} {c c' : Cycle} {out : CommitOutcome}
    (h : robCommit s c = .ok (c', out)) :
    ((∀ e ∈ s.rob.oldest, e.ready = false) ∧ c' = c ∧ out = .nothing) ∨
      ∃ e, s.rob.oldest = some e ∧ e.ready = true ∧ commitEntry s e c = .ok (c', out) := by
  unfold robCommit at h
  split at h
  · rename_i h0
    cases h
    exact .inl ⟨by simp [h0], rfl, rfl⟩
  · rename_i e h0
    split at h
    · exact .inr ⟨e, h0, ‹_›, h⟩
    · rename_i hr
      cases h
      exact .inl ⟨by simpa [h0] using hr, rfl, rfl⟩

/-- What the Commit phase makes of the outcome (R132, R143). -/
theorem commitPhase_ok {s : State} {c c' : Cycle} (h : commitPhase s c = .ok c') :
    ∃ c1 out, robCommit s c = .ok (c1, out) ∧
      ((out = .nothing ∧ c' = c1) ∨
        (∃ v, out = .halt v ∧ c' = { c1 with next := raiseHalt v c1.next }) ∨
        (∃ t, out = .flush t ∧ c' = { c1 with flushReq := some t })) := by
  unfold commitPhase at h
  split at h
  · cases h
  · exact ⟨_, _, ‹_›, .inl ⟨rfl, (Except.ok.inj h).symm⟩⟩
  · exact ⟨_, _, ‹_›, .inr (.inl ⟨_, rfl, (Except.ok.inj h).symm⟩)⟩
  · exact ⟨_, _, ‹_›, .inr (.inr ⟨_, rfl, (Except.ok.inj h).symm⟩)⟩

theorem commitPhase_error {s : State} {c : Cycle} {f : FatalStop} (h : commitPhase s c = .error f) :
    c.next.cfg.cbCap ≤ c.cb.length ∧ f = ⟨.bus, c.next.mem⟩ := by
  unfold commitPhase at h
  split at h
  · rename_i h1
    cases h
    exact robCommit_error h1
  · cases h
  · cases h
  · cases h

/-! ## The phases together -/

theorem executePhase_ok {s : State} {c c' : Cycle} (h : executePhase s c = .ok c') :
    ∃ c1, rsaExecute s c = .ok c1 ∧ rsmExecute s c1 = .ok c' := by
  unfold executePhase at h
  split at h
  · cases h
  · exact ⟨_, ‹_›, h⟩

theorem executePhase_error {s : State} {c : Cycle} {f : FatalStop} (h : executePhase s c = .error f) :
    rsaExecute s c = .error f ∨ ∃ c1, rsaExecute s c = .ok c1 ∧ rsmExecute s c1 = .error f := by
  unfold executePhase at h
  split at h
  · rename_i h1
    cases h
    exact .inl h1
  · exact .inr ⟨_, ‹_›, h⟩

/-- A cycle that is not stopped by a fatal condition went through the four phases (R120). -/
theorem phases_ok {o : Offer} {s : State} {c : Cycle} (h : phases o s = .ok c) :
    ∃ c1 c2 c3, issuePhase o s (Cycle.start s) = .ok c1 ∧ executePhase s c1 = .ok c2 ∧
      tryLoadStore s c2 = .ok c3 ∧ commitPhase s c3 = .ok c := by
  unfold phases at h
  split at h
  · cases h
  · split at h
    · cases h
    · split at h
      · cases h
      · exact ⟨_, _, _, ‹_›, ‹_›, ‹_›, h⟩

/-- A fatal condition is the first one met in phase order (R144, R404). -/
theorem phases_error {o : Offer} {s : State} {f : FatalStop} (h : phases o s = .error f) :
    issuePhase o s (Cycle.start s) = .error f ∨
      ∃ c1, issuePhase o s (Cycle.start s) = .ok c1 ∧
        (executePhase s c1 = .error f ∨
          ∃ c2, executePhase s c1 = .ok c2 ∧
            (tryLoadStore s c2 = .error f ∨
              ∃ c3, tryLoadStore s c2 = .ok c3 ∧ commitPhase s c3 = .error f)) := by
  unfold phases at h
  split at h
  · rename_i h1
    cases h
    exact .inl h1
  · rename_i c1 h1
    refine .inr ⟨c1, h1, ?_⟩
    split at h
    · rename_i h2
      cases h
      exact .inl h2
    · rename_i c2 h2
      refine .inr ⟨c2, h2, ?_⟩
      split at h
      · rename_i h3
        cases h
        exact .inl h3
      · rename_i c3 h3
        exact .inr ⟨c3, h3, h⟩

end Sys2Proof.Laws
end

