-- ==== Sys2Proof/Laws/Exec.lean ====
section
/-! SUPPORT. Inversion of `exec`, `step` and `cycle`: a step is a cycle with one offer to Issue, and a
cycle either changes nothing, or stops at a fatal condition, or goes through all its phases. -/

namespace Sys2Proof.Laws

-- One proof after the other, on one thread: each thread costs the check 256 MB of stack.
set_option Elab.async false

open Sys2Proof.Machine

/-- Every meaning is the cycle that offers the instruction's record to Issue. -/
theorem exec_eq (i : Instr) (s : State) : exec i s = cycle (.instr (recordOf i)) s := by
  cases i <;> rfl

/-! ## What a step offers to Issue -/

theorem issueBlocked_iff (s : State) :
    s.issueBlocked = true ↔ s.haltIssued = true ∨ s.rob.count = s.cfg.nRob := by
  simp [State.issueBlocked, Rob.full]

theorem step_blocked {s : State} (h : s.issueBlocked = true) : step s = cycle .none s := by
  simp [step, h]

theorem step_outOfRange {s : State} (h : s.issueBlocked = false)
    (hr : inRange s.cfg s.pc 4 = false) : step s = cycle (.fatal .mem) s := by
  simp [step, h, fetchWord, hr]

theorem step_unrecognized {s : State} {e : DecodeError} (h : s.issueBlocked = false)
    (hr : inRange s.cfg s.pc 4 = true) (hd : decodeWord (s.mem.readLE s.pc.toNat 4) = .error e) :
    step s = cycle (.fatal .decode) s := by
  simp [step, h, fetchWord, hr, hd]

theorem step_decoded {s : State} {i : Instr} (h : s.issueBlocked = false)
    (hr : inRange s.cfg s.pc 4 = true) (hd : decodeWord (s.mem.readLE s.pc.toNat 4) = .ok i) :
    step s = cycle (.instr (recordOf i)) s := by
  simp [step, h, fetchWord, hr, hd, exec_eq]

/-- A step is a cycle with one of four offers (R124). -/
theorem step_cases (s : State) :
    (s.issueBlocked = true ∧ step s = cycle .none s) ∨
    (s.issueBlocked = false ∧ inRange s.cfg s.pc 4 = false ∧ step s = cycle (.fatal .mem) s) ∨
    (s.issueBlocked = false ∧ inRange s.cfg s.pc 4 = true ∧
      (∃ e, decodeWord (s.mem.readLE s.pc.toNat 4) = .error e) ∧ step s = cycle (.fatal .decode) s) ∨
    (s.issueBlocked = false ∧ inRange s.cfg s.pc 4 = true ∧
      ∃ i, decodeWord (s.mem.readLE s.pc.toNat 4) = .ok i ∧ step s = cycle (.instr (recordOf i)) s) := by
  cases hb : s.issueBlocked with
  | true => exact .inl ⟨rfl, step_blocked hb⟩
  | false =>
    cases hr : inRange s.cfg s.pc 4 with
    | false => exact .inr (.inl ⟨rfl, rfl, step_outOfRange hb hr⟩)
    | true =>
      cases hd : decodeWord (s.mem.readLE s.pc.toNat 4) with
      | error e => exact .inr (.inr (.inl ⟨rfl, rfl, ⟨e, rfl⟩, step_unrecognized hb hr hd⟩))
      | ok i => exact .inr (.inr (.inr ⟨rfl, rfl, i, rfl, step_decoded hb hr hd⟩))

/-- A step is a cycle whose offer, where it is an instruction, is some instruction's record. -/
theorem step_offer (s : State) :
    ∃ o, step s = cycle o s ∧ ∀ r, o = .instr r → ∃ i, r = recordOf i := by
  rcases step_cases s with ⟨-, h⟩ | ⟨-, -, h⟩ | ⟨-, -, -, h⟩ | ⟨-, -, i, -, h⟩
  · exact ⟨_, h, by simp⟩
  · exact ⟨_, h, by simp⟩
  · exact ⟨_, h, by simp⟩
  · exact ⟨_, h, fun r hr => ⟨i, by simpa using hr.symm⟩⟩

/-! ## What a cycle does -/

theorem cycle_stopped {o : Offer} {s : State} (h : s.stopped = true) : cycle o s = .next s := by
  simp [cycle, h]

theorem cycle_running {o : Offer} {s : State} (hh : s.halted = false) (hf : s.fatal = false)
    (hl : s.cfg.legal = true) (hw : s.wellSized = true) : cycle o s = .next (afterCycle o s) := by
  simp [cycle, State.stopped, hh, hf, hl, hw]

/-- A cycle that answers a next state has stopped before, or ran. -/
theorem cycle_next {o : Offer} {s t : State} (h : cycle o s = .next t) :
    (s.stopped = true ∧ t = s) ∨
      (s.halted = false ∧ s.fatal = false ∧ s.cfg.legal = true ∧ s.wellSized = true ∧
        t = afterCycle o s) := by
  unfold cycle at h
  split at h
  · exact .inl ⟨‹_›, by simpa using h.symm⟩
  · rename_i hs
    split at h
    · cases h
    · rename_i hl
      split at h
      · cases h
      · rename_i hw
        simp only [State.stopped, Bool.or_eq_true, not_or, Bool.not_eq_true] at hs
        exact .inr ⟨hs.1, hs.2, by simpa using hl, by simpa using hw, by simpa using h.symm⟩

/-- A cycle that ran was stopped by a fatal condition, or went through its phases (R144, R146). -/
theorem afterCycle_cases (o : Offer) (s : State) :
    (∃ f, phases o s = .error f ∧ afterCycle o s = raiseFatal f s) ∨
      ∃ c, phases o s = .ok c ∧ afterCycle o s = endOfCycle s c := by
  unfold afterCycle
  split
  · exact .inl ⟨_, ‹_›, rfl⟩
  · exact .inr ⟨_, ‹_›, rfl⟩

/-- The end of the cycle leaves the fatal flag as the next view has it (R139, R141). -/
theorem endOfCycle_fatal (s : State) (c : Cycle) : (endOfCycle s c).fatal = c.next.fatal := by
  unfold endOfCycle
  split <;> rfl

theorem endOfCycle_none {s : State} {c : Cycle} (h : c.flushReq = none) :
    endOfCycle s c = stateCommit s (busPropagate c) := by simp [endOfCycle, h]

theorem endOfCycle_some {s : State} {c : Cycle} {t : Word} (h : c.flushReq = some t) :
    endOfCycle s c = flushTo t (stateCommit s (busPropagate c)) := by simp [endOfCycle, h]

end Sys2Proof.Laws
end

