-- ==== Sys2Proof/Laws/Acts.lean ====
section
/-! SUPPORT. A cycle that no fatal condition stops, as the composition of five acts, one per writer of
the next view: what Issue, the two stations, the memory port and Commit each did. `phases_acts` says
that every such cycle has this shape; the field lemmas say which act touches which structure. -/

namespace Sys2Proof.Laws

-- One proof after the other, on one thread: each thread costs the check 256 MB of stack.
set_option Elab.async false

open Sys2Proof.Machine

/-- What the memory station did (R197 to R199, R222 to R226). -/
inductive MemAct where
  | none
  | store (k : StoreKind) (e : RsEntry MemKind)
  | forward (k : LoadKind) (e : RsEntry MemKind) (x : LsbEntry)
  | queue (k : LoadKind) (e : RsEntry MemKind)

/-- What the memory port did (R230, R232). -/
inductive AccessAct where
  | countdown
  | idle
  | write (k : StoreKind) (x : LsbEntry)
  | read (k : LoadKind) (x : LsbEntry)

/-- What Commit did (R163 to R171). -/
inductive CommitAct where
  | none
  | halt
  | retire (e : RobEntry)

/-- The acts of a cycle. -/
structure Acts where
  issue : Option Record
  arith : Option (Nat × RsEntry ArithKind)
  mem : MemAct
  access : AccessAct
  commit : CommitAct

/-! ## The effect of each act on the cycle's signals -/

def applyIssue (s : State) (a : Option Record) (c : Cycle) : Cycle :=
  match a with
  | none => c
  | some r => { c with next := issueInto s r c.next }

def applyArith (a : Option (Nat × RsEntry ArithKind)) (c : Cycle) : Cycle :=
  match a with
  | none => c
  | some (i, e) =>
    { c with
      rb := c.rb ++ [⟨e.tag, (arithResult e).1, (arithResult e).2⟩]
      next := { c.next with rsa := c.next.rsa.set i none } }

def applyMem (a : MemAct) (c : Cycle) : Cycle :=
  match a with
  | .none => c
  | .store k e =>
    { c with
      rb := c.rb ++ [⟨e.tag, 0, false⟩]
      next := { c.next with
        rsm := rsmRemove c.next.rsm e.tag
        lsb := { c.next.lsb with q := c.next.lsb.q ++ [queuedStore k e] } } }
  | .forward k e x =>
    { c with
      rb := c.rb ++ [⟨e.tag, forwardValue k (effectiveAddress e.vj e.imm) x, true⟩]
      next := { c.next with rsm := rsmRemove c.next.rsm e.tag } }
  | .queue k e =>
    { c with
      next := { c.next with
        rsm := rsmRemove c.next.rsm e.tag
        lsb := { c.next.lsb with q := c.next.lsb.q ++ [queuedLoad k e] } } }

def applyAccess (s : State) (a : AccessAct) (c : Cycle) : Cycle :=
  match a with
  | .countdown => setCountdown (s.lsb.c - 1) c
  | .idle => c
  | .write k x =>
    { c with
      next := { c.next with
        mem := c.next.mem.writeLE x.addr.toNat k.width x.value
        lsb := { q := c.next.lsb.q.drop 1, c := countdownAfter s } } }
  | .read k x =>
    { c with
      rb := c.rb ++ [⟨x.tag, loadExtend k (c.next.mem.readLE x.addr.toNat k.width), true⟩]
      next := { c.next with lsb := { q := c.next.lsb.q.drop 1, c := countdownAfter s } } }

/-- The commit-bus entry of a retired entry (R167 to R171). -/
def retireBus (e : RobEntry) : List CommitEntry :=
  match e.op.group with
  | .halt => []
  | .store => [⟨e.tag, 0, none⟩]
  | .pcValue => [⟨e.tag, if e.op = .arith .jal then e.pc + 4 else e.value, e.dest⟩]
  | .branch => []
  | .indirectJump => [⟨e.tag, e.pc + 4, e.dest⟩]
  | .other => [⟨e.tag, e.value, e.dest⟩]

/-- The predictor after the retirement of an entry: a branch trains its counter (R169). -/
def retirePredictor (s : State) (e : RobEntry) (bp : Predictor) : Predictor :=
  if e.op.group = .branch then
    Predictor.update s.bp bp s.cfg e.pc (decide (e.target ≠ e.pc + 4))
  else bp

/-- The flush request of a retired entry (R169, R170). -/
def retireFlush (s : State) (e : RobEntry) : Option Word :=
  if e.op.group = .branch ∨ e.op.group = .indirectJump then
    if e.target = fetchedAfter s then none else some e.target
  else none

def applyCommit (s : State) (a : CommitAct) (c : Cycle) : Cycle :=
  match a with
  | .none => c
  | .halt => { c with next := raiseHalt ((s.regs.value 10).setWidth 8) c.next }
  | .retire e =>
    { c with
      cb := c.cb ++ retireBus e
      next := { c.next with
        rob := s.rob.pop c.next.rob s.cfg
        bp := retirePredictor s e c.next.bp }
      flushReq := match retireFlush s e with
        | some t => some t
        | none => c.flushReq }

/-- The signals the acts leave behind. -/
def Acts.run (a : Acts) (s : State) : Cycle :=
  applyCommit s a.commit (applyAccess s a.access (applyMem a.mem (applyArith a.arith
    (applyIssue s a.issue (Cycle.start s)))))

/-! ## When each act happens -/

def validIssue (o : Offer) (s : State) (a : Option Record) : Prop :=
  match a with
  | none => s.issueBlocked = true ∨ o = .none ∨ ∃ r, o = .instr r ∧ s.hasRoom r.op = false
  | some r => o = .instr r ∧ s.issueBlocked = false ∧ s.hasRoom r.op = true

def validMem (s : State) (a : MemAct) : Prop :=
  match a with
  | .none => s.cfg.nLsb ≤ s.lsb.q.length ∨ rsmSelect s.rsm = none
  | .store k e => rsmSelect s.rsm = some e ∧ s.lsb.q.length < s.cfg.nLsb ∧ e.op = .store k
  | .forward k e x =>
    rsmSelect s.rsm = some e ∧ s.lsb.q.length < s.cfg.nLsb ∧ e.op = .load k ∧
      forwardsFrom s.lsb.q k (effectiveAddress e.vj e.imm) x
  | .queue k e =>
    rsmSelect s.rsm = some e ∧ s.lsb.q.length < s.cfg.nLsb ∧ e.op = .load k ∧
      ∀ x, ¬ forwardsFrom s.lsb.q k (effectiveAddress e.vj e.imm) x

def validAccess (s : State) (a : AccessAct) : Prop :=
  match a with
  | .countdown => 0 < s.lsb.c
  | .idle => s.lsb.c = 0 ∧ (s.lsb.q = [] ∨ ∃ x rest, s.lsb.q = x :: rest ∧ x.ready = false)
  | .write k x =>
    s.lsb.c = 0 ∧ x.op = .store k ∧ x.ready = true ∧ inRange s.cfg x.addr k.width = true ∧
      ∃ rest, s.lsb.q = x :: rest
  | .read k x =>
    s.lsb.c = 0 ∧ x.op = .load k ∧ x.ready = true ∧ inRange s.cfg x.addr k.width = true ∧
      ∃ rest, s.lsb.q = x :: rest

def validCommit (s : State) (a : CommitAct) : Prop :=
  match a with
  | .none => ∀ e ∈ s.rob.oldest, e.ready = false
  | .halt => ∃ e, s.rob.oldest = some e ∧ e.ready = true ∧ e.op.group = .halt
  | .retire e => s.rob.oldest = some e ∧ e.ready = true ∧ e.op.group ≠ .halt

structure Acts.valid (a : Acts) (o : Offer) (s : State) : Prop where
  issue : validIssue o s a.issue
  arith : rsaSelect s.rsa = a.arith
  mem : validMem s a.mem
  access : validAccess s a.access
  commit : validCommit s a.commit

/-! ## Which act touches which structure -/

@[simp] theorem applyIssue_next_cfg (s : State) (a : Option Record) (c : Cycle) :
    (applyIssue s a c).next.cfg = c.next.cfg := by
  unfold applyIssue; split
  · rfl
  · simp

@[simp] theorem applyIssue_next_lsb (s : State) (a : Option Record) (c : Cycle) :
    (applyIssue s a c).next.lsb = c.next.lsb := by
  unfold applyIssue; split
  · rfl
  · simp

@[simp] theorem applyIssue_next_mem (s : State) (a : Option Record) (c : Cycle) :
    (applyIssue s a c).next.mem = c.next.mem := by
  unfold applyIssue; split
  · rfl
  · simp

@[simp] theorem applyIssue_next_halted (s : State) (a : Option Record) (c : Cycle) :
    (applyIssue s a c).next.halted = c.next.halted := by
  unfold applyIssue; split
  · rfl
  · simp

@[simp] theorem applyIssue_next_exitValue (s : State) (a : Option Record) (c : Cycle) :
    (applyIssue s a c).next.exitValue = c.next.exitValue := by
  unfold applyIssue; split
  · rfl
  · simp

@[simp] theorem applyIssue_next_fatal (s : State) (a : Option Record) (c : Cycle) :
    (applyIssue s a c).next.fatal = c.next.fatal := by
  unfold applyIssue; split
  · rfl
  · simp

@[simp] theorem applyIssue_next_fatalCause (s : State) (a : Option Record) (c : Cycle) :
    (applyIssue s a c).next.fatalCause = c.next.fatalCause := by
  unfold applyIssue; split
  · rfl
  · simp

@[simp] theorem applyIssue_next_clkCount (s : State) (a : Option Record) (c : Cycle) :
    (applyIssue s a c).next.clkCount = c.next.clkCount := by
  unfold applyIssue; split
  · rfl
  · simp

@[simp] theorem applyIssue_rb (s : State) (a : Option Record) (c : Cycle) :
    (applyIssue s a c).rb = c.rb := by
  unfold applyIssue; split <;> rfl

@[simp] theorem applyIssue_cb (s : State) (a : Option Record) (c : Cycle) :
    (applyIssue s a c).cb = c.cb := by
  unfold applyIssue; split <;> rfl

@[simp] theorem applyIssue_flushReq (s : State) (a : Option Record) (c : Cycle) :
    (applyIssue s a c).flushReq = c.flushReq := by
  unfold applyIssue; split <;> rfl

@[simp] theorem applyArith_next_cfg (a : Option (Nat × RsEntry ArithKind)) (c : Cycle) :
    (applyArith a c).next.cfg = c.next.cfg := by
  unfold applyArith; split <;> rfl

@[simp] theorem applyArith_next_pc (a : Option (Nat × RsEntry ArithKind)) (c : Cycle) :
    (applyArith a c).next.pc = c.next.pc := by
  unfold applyArith; split <;> rfl

@[simp] theorem applyArith_next_regs (a : Option (Nat × RsEntry ArithKind)) (c : Cycle) :
    (applyArith a c).next.regs = c.next.regs := by
  unfold applyArith; split <;> rfl

@[simp] theorem applyArith_next_rob (a : Option (Nat × RsEntry ArithKind)) (c : Cycle) :
    (applyArith a c).next.rob = c.next.rob := by
  unfold applyArith; split <;> rfl

@[simp] theorem applyArith_next_rsm (a : Option (Nat × RsEntry ArithKind)) (c : Cycle) :
    (applyArith a c).next.rsm = c.next.rsm := by
  unfold applyArith; split <;> rfl

@[simp] theorem applyArith_next_lsb (a : Option (Nat × RsEntry ArithKind)) (c : Cycle) :
    (applyArith a c).next.lsb = c.next.lsb := by
  unfold applyArith; split <;> rfl

@[simp] theorem applyArith_next_bp (a : Option (Nat × RsEntry ArithKind)) (c : Cycle) :
    (applyArith a c).next.bp = c.next.bp := by
  unfold applyArith; split <;> rfl

@[simp] theorem applyArith_next_mem (a : Option (Nat × RsEntry ArithKind)) (c : Cycle) :
    (applyArith a c).next.mem = c.next.mem := by
  unfold applyArith; split <;> rfl

@[simp] theorem applyArith_next_haltIssued (a : Option (Nat × RsEntry ArithKind)) (c : Cycle) :
    (applyArith a c).next.haltIssued = c.next.haltIssued := by
  unfold applyArith; split <;> rfl

@[simp] theorem applyArith_next_halted (a : Option (Nat × RsEntry ArithKind)) (c : Cycle) :
    (applyArith a c).next.halted = c.next.halted := by
  unfold applyArith; split <;> rfl

@[simp] theorem applyArith_next_exitValue (a : Option (Nat × RsEntry ArithKind)) (c : Cycle) :
    (applyArith a c).next.exitValue = c.next.exitValue := by
  unfold applyArith; split <;> rfl

@[simp] theorem applyArith_next_fatal (a : Option (Nat × RsEntry ArithKind)) (c : Cycle) :
    (applyArith a c).next.fatal = c.next.fatal := by
  unfold applyArith; split <;> rfl

@[simp] theorem applyArith_next_fatalCause (a : Option (Nat × RsEntry ArithKind)) (c : Cycle) :
    (applyArith a c).next.fatalCause = c.next.fatalCause := by
  unfold applyArith; split <;> rfl

@[simp] theorem applyArith_next_clkCount (a : Option (Nat × RsEntry ArithKind)) (c : Cycle) :
    (applyArith a c).next.clkCount = c.next.clkCount := by
  unfold applyArith; split <;> rfl

@[simp] theorem applyArith_cb (a : Option (Nat × RsEntry ArithKind)) (c : Cycle) :
    (applyArith a c).cb = c.cb := by
  unfold applyArith; split <;> rfl

@[simp] theorem applyArith_flushReq (a : Option (Nat × RsEntry ArithKind)) (c : Cycle) :
    (applyArith a c).flushReq = c.flushReq := by
  unfold applyArith; split <;> rfl

@[simp] theorem applyMem_next_cfg (a : MemAct) (c : Cycle) :
    (applyMem a c).next.cfg = c.next.cfg := by
  unfold applyMem; split <;> rfl

@[simp] theorem applyMem_next_pc (a : MemAct) (c : Cycle) :
    (applyMem a c).next.pc = c.next.pc := by
  unfold applyMem; split <;> rfl

@[simp] theorem applyMem_next_regs (a : MemAct) (c : Cycle) :
    (applyMem a c).next.regs = c.next.regs := by
  unfold applyMem; split <;> rfl

@[simp] theorem applyMem_next_rob (a : MemAct) (c : Cycle) :
    (applyMem a c).next.rob = c.next.rob := by
  unfold applyMem; split <;> rfl

@[simp] theorem applyMem_next_rsa (a : MemAct) (c : Cycle) :
    (applyMem a c).next.rsa = c.next.rsa := by
  unfold applyMem; split <;> rfl

@[simp] theorem applyMem_next_bp (a : MemAct) (c : Cycle) :
    (applyMem a c).next.bp = c.next.bp := by
  unfold applyMem; split <;> rfl

@[simp] theorem applyMem_next_mem (a : MemAct) (c : Cycle) :
    (applyMem a c).next.mem = c.next.mem := by
  unfold applyMem; split <;> rfl

@[simp] theorem applyMem_next_haltIssued (a : MemAct) (c : Cycle) :
    (applyMem a c).next.haltIssued = c.next.haltIssued := by
  unfold applyMem; split <;> rfl

@[simp] theorem applyMem_next_halted (a : MemAct) (c : Cycle) :
    (applyMem a c).next.halted = c.next.halted := by
  unfold applyMem; split <;> rfl

@[simp] theorem applyMem_next_exitValue (a : MemAct) (c : Cycle) :
    (applyMem a c).next.exitValue = c.next.exitValue := by
  unfold applyMem; split <;> rfl

@[simp] theorem applyMem_next_fatal (a : MemAct) (c : Cycle) :
    (applyMem a c).next.fatal = c.next.fatal := by
  unfold applyMem; split <;> rfl

@[simp] theorem applyMem_next_fatalCause (a : MemAct) (c : Cycle) :
    (applyMem a c).next.fatalCause = c.next.fatalCause := by
  unfold applyMem; split <;> rfl

@[simp] theorem applyMem_next_clkCount (a : MemAct) (c : Cycle) :
    (applyMem a c).next.clkCount = c.next.clkCount := by
  unfold applyMem; split <;> rfl

@[simp] theorem applyMem_cb (a : MemAct) (c : Cycle) :
    (applyMem a c).cb = c.cb := by
  unfold applyMem; split <;> rfl

@[simp] theorem applyMem_flushReq (a : MemAct) (c : Cycle) :
    (applyMem a c).flushReq = c.flushReq := by
  unfold applyMem; split <;> rfl

@[simp] theorem applyAccess_next_cfg (s : State) (a : AccessAct) (c : Cycle) :
    (applyAccess s a c).next.cfg = c.next.cfg := by
  unfold applyAccess; split <;> rfl

@[simp] theorem applyAccess_next_pc (s : State) (a : AccessAct) (c : Cycle) :
    (applyAccess s a c).next.pc = c.next.pc := by
  unfold applyAccess; split <;> rfl

@[simp] theorem applyAccess_next_regs (s : State) (a : AccessAct) (c : Cycle) :
    (applyAccess s a c).next.regs = c.next.regs := by
  unfold applyAccess; split <;> rfl

@[simp] theorem applyAccess_next_rob (s : State) (a : AccessAct) (c : Cycle) :
    (applyAccess s a c).next.rob = c.next.rob := by
  unfold applyAccess; split <;> rfl

@[simp] theorem applyAccess_next_rsa (s : State) (a : AccessAct) (c : Cycle) :
    (applyAccess s a c).next.rsa = c.next.rsa := by
  unfold applyAccess; split <;> rfl

@[simp] theorem applyAccess_next_rsm (s : State) (a : AccessAct) (c : Cycle) :
    (applyAccess s a c).next.rsm = c.next.rsm := by
  unfold applyAccess; split <;> rfl

@[simp] theorem applyAccess_next_bp (s : State) (a : AccessAct) (c : Cycle) :
    (applyAccess s a c).next.bp = c.next.bp := by
  unfold applyAccess; split <;> rfl

@[simp] theorem applyAccess_next_haltIssued (s : State) (a : AccessAct) (c : Cycle) :
    (applyAccess s a c).next.haltIssued = c.next.haltIssued := by
  unfold applyAccess; split <;> rfl

@[simp] theorem applyAccess_next_halted (s : State) (a : AccessAct) (c : Cycle) :
    (applyAccess s a c).next.halted = c.next.halted := by
  unfold applyAccess; split <;> rfl

@[simp] theorem applyAccess_next_exitValue (s : State) (a : AccessAct) (c : Cycle) :
    (applyAccess s a c).next.exitValue = c.next.exitValue := by
  unfold applyAccess; split <;> rfl

@[simp] theorem applyAccess_next_fatal (s : State) (a : AccessAct) (c : Cycle) :
    (applyAccess s a c).next.fatal = c.next.fatal := by
  unfold applyAccess; split <;> rfl

@[simp] theorem applyAccess_next_fatalCause (s : State) (a : AccessAct) (c : Cycle) :
    (applyAccess s a c).next.fatalCause = c.next.fatalCause := by
  unfold applyAccess; split <;> rfl

@[simp] theorem applyAccess_next_clkCount (s : State) (a : AccessAct) (c : Cycle) :
    (applyAccess s a c).next.clkCount = c.next.clkCount := by
  unfold applyAccess; split <;> rfl

@[simp] theorem applyAccess_cb (s : State) (a : AccessAct) (c : Cycle) :
    (applyAccess s a c).cb = c.cb := by
  unfold applyAccess; split <;> rfl

@[simp] theorem applyAccess_flushReq (s : State) (a : AccessAct) (c : Cycle) :
    (applyAccess s a c).flushReq = c.flushReq := by
  unfold applyAccess; split <;> rfl

@[simp] theorem applyCommit_next_cfg (s : State) (a : CommitAct) (c : Cycle) :
    (applyCommit s a c).next.cfg = c.next.cfg := by
  unfold applyCommit; split <;> rfl

@[simp] theorem applyCommit_next_pc (s : State) (a : CommitAct) (c : Cycle) :
    (applyCommit s a c).next.pc = c.next.pc := by
  unfold applyCommit; split <;> rfl

@[simp] theorem applyCommit_next_regs (s : State) (a : CommitAct) (c : Cycle) :
    (applyCommit s a c).next.regs = c.next.regs := by
  unfold applyCommit; split <;> rfl

@[simp] theorem applyCommit_next_rsa (s : State) (a : CommitAct) (c : Cycle) :
    (applyCommit s a c).next.rsa = c.next.rsa := by
  unfold applyCommit; split <;> rfl

@[simp] theorem applyCommit_next_rsm (s : State) (a : CommitAct) (c : Cycle) :
    (applyCommit s a c).next.rsm = c.next.rsm := by
  unfold applyCommit; split <;> rfl

@[simp] theorem applyCommit_next_lsb (s : State) (a : CommitAct) (c : Cycle) :
    (applyCommit s a c).next.lsb = c.next.lsb := by
  unfold applyCommit; split <;> rfl

@[simp] theorem applyCommit_next_mem (s : State) (a : CommitAct) (c : Cycle) :
    (applyCommit s a c).next.mem = c.next.mem := by
  unfold applyCommit; split <;> rfl

@[simp] theorem applyCommit_next_haltIssued (s : State) (a : CommitAct) (c : Cycle) :
    (applyCommit s a c).next.haltIssued = c.next.haltIssued := by
  unfold applyCommit; split <;> rfl

@[simp] theorem applyCommit_next_fatal (s : State) (a : CommitAct) (c : Cycle) :
    (applyCommit s a c).next.fatal = c.next.fatal := by
  unfold applyCommit; split <;> rfl

@[simp] theorem applyCommit_next_fatalCause (s : State) (a : CommitAct) (c : Cycle) :
    (applyCommit s a c).next.fatalCause = c.next.fatalCause := by
  unfold applyCommit; split <;> rfl

@[simp] theorem applyCommit_next_clkCount (s : State) (a : CommitAct) (c : Cycle) :
    (applyCommit s a c).next.clkCount = c.next.clkCount := by
  unfold applyCommit; split <;> rfl

@[simp] theorem applyCommit_rb (s : State) (a : CommitAct) (c : Cycle) :
    (applyCommit s a c).rb = c.rb := by
  unfold applyCommit; split <;> rfl

/-! ## Every cycle that goes on is a composition of acts -/

theorem retire_ok {s : State} {e : RobEntry} {c c' : Cycle} {out : CommitOutcome}
    (h : commitEntry s e c = .ok (c', out)) (hg : e.op.group ≠ .halt) :
    c' = { c with
        cb := c.cb ++ retireBus e
        next := { c.next with
          rob := s.rob.pop c.next.rob s.cfg
          bp := retirePredictor s e c.next.bp } } ∧
      (out = .nothing ∧ retireFlush s e = none ∨ ∃ t, out = .flush t ∧ retireFlush s e = some t) := by
  rcases commitEntry_ok h with ⟨h1, -⟩ | ⟨h1, h2, h3⟩ | ⟨h1, h3, h2⟩ | ⟨h1, h3, h2⟩ | ⟨h1, h3, h2⟩ |
    ⟨h1, h3, h2⟩
  · exact absurd h1 hg
  all_goals
    refine ⟨?_, ?_⟩
    · simp [h2, retireBus, retirePredictor, h1, popHead]
    · simp only [h3, retireFlush, h1, targetCheck]
      split <;> simp_all

theorem commitPhase_acts {s : State} {c c' : Cycle} (h : commitPhase s c = .ok c') :
    ∃ a, validCommit s a ∧ c' = applyCommit s a c := by
  obtain ⟨c1, out, h1, h2⟩ := commitPhase_ok h
  rcases robCommit_ok h1 with ⟨hn, rfl, rfl⟩ | ⟨e, he, hr, hc⟩
  · refine ⟨.none, hn, ?_⟩
    rcases h2 with ⟨-, rfl⟩ | ⟨v, hv, -⟩ | ⟨t, ht, -⟩
    · rfl
    · cases hv
    · cases ht
  · by_cases hg : e.op.group = .halt
    · refine ⟨.halt, ⟨e, he, hr, hg⟩, ?_⟩
      rcases commitEntry_ok hc with ⟨-, rfl, rfl⟩ | ⟨h3, -⟩ | ⟨h3, -⟩ | ⟨h3, -⟩ | ⟨h3, -⟩ | ⟨h3, -⟩
      · rcases h2 with ⟨h3, -⟩ | ⟨v, hv, rfl⟩ | ⟨t, ht, -⟩
        · cases h3
        · cases hv; rfl
        · cases ht
      all_goals rw [hg] at h3; cases h3
    · refine ⟨.retire e, ⟨he, hr, hg⟩, ?_⟩
      obtain ⟨rfl, h4⟩ := retire_ok hc hg
      rcases h4 with ⟨rfl, h4⟩ | ⟨t, rfl, h4⟩
      · rcases h2 with ⟨-, rfl⟩ | ⟨v, hv, -⟩ | ⟨t, ht, -⟩
        · simp [applyCommit, h4]
        · cases hv
        · cases ht
      · rcases h2 with ⟨h3, -⟩ | ⟨v, hv, -⟩ | ⟨t', ht, rfl⟩
        · cases h3
        · cases hv
        · cases ht; simp [applyCommit, h4]

theorem tryLoadStore_acts {s : State} {c c' : Cycle} (hc : c.next.cfg = s.cfg)
    (h : tryLoadStore s c = .ok c') : ∃ a, validAccess s a ∧ c' = applyAccess s a c := by
  rcases tryLoadStore_ok h with ⟨h1, rfl⟩ | ⟨h1, h2, rfl⟩ | ⟨x, rest, h1, h2, h3, rfl⟩ |
    ⟨x, rest, h1, h2, h3, h4, ⟨k, hk, rfl⟩ | ⟨k, hk, rfl⟩⟩
  · exact ⟨.countdown, h1, rfl⟩
  · exact ⟨.idle, ⟨h1, .inl h2⟩, rfl⟩
  · exact ⟨.idle, ⟨h1, .inr ⟨x, rest, h2, h3⟩⟩, rfl⟩
  · exact ⟨.write k x, ⟨h1, hk, h3, by simpa [hk, hc, MemKind.width] using h4, rest, h2⟩, rfl⟩
  · exact ⟨.read k x, ⟨h1, hk, h3, by simpa [hk, hc, MemKind.width] using h4, rest, h2⟩, rfl⟩

theorem rsmExecute_acts {s : State} {c c' : Cycle} (h : rsmExecute s c = .ok c') :
    ∃ a, validMem s a ∧ c' = applyMem a c := by
  rcases rsmExecute_ok h with ⟨h1, rfl⟩ | ⟨e, h1, h2, ⟨k, hk, rfl⟩ | ⟨k, x, hk, hx, rfl⟩ | ⟨k, hk, hx, rfl⟩⟩
  · exact ⟨.none, h1, rfl⟩
  · exact ⟨.store k e, ⟨h1, h2, hk⟩, rfl⟩
  · exact ⟨.forward k e x, ⟨h1, h2, hk, hx⟩, rfl⟩
  · exact ⟨.queue k e, ⟨h1, h2, hk, hx⟩, rfl⟩

theorem rsaExecute_acts {s : State} {c c' : Cycle} (h : rsaExecute s c = .ok c') :
    c' = applyArith (rsaSelect s.rsa) c := by
  rcases rsaExecute_ok h with ⟨h1, rfl⟩ | ⟨i, e, h1, -, rfl⟩ <;> simp [h1, applyArith]

theorem issuePhase_acts {o : Offer} {s : State} {c c' : Cycle} (h : issuePhase o s c = .ok c') :
    ∃ a, validIssue o s a ∧ c' = applyIssue s a c := by
  rcases issuePhase_ok h with ⟨h1, rfl⟩ | ⟨r, h1, h2, h3, rfl⟩
  · exact ⟨none, h1, rfl⟩
  · exact ⟨some r, ⟨h1, h2, h3⟩, rfl⟩

/-- A cycle that no fatal condition stops is the composition of its acts (R120, R146). -/
theorem phases_acts {o : Offer} {s : State} {c : Cycle} (h : phases o s = .ok c) :
    ∃ a : Acts, a.valid o s ∧ c = a.run s := by
  obtain ⟨c1, c2, c3, h1, h2, h3, h4⟩ := phases_ok h
  obtain ⟨ai, vi, rfl⟩ := issuePhase_acts h1
  obtain ⟨c2', h2, h2'⟩ := executePhase_ok h2
  obtain rfl := rsaExecute_acts h2
  obtain ⟨am, vm, rfl⟩ := rsmExecute_acts h2'
  obtain ⟨aa, va, rfl⟩ := tryLoadStore_acts (by simp) h3
  obtain ⟨ac, vc, rfl⟩ := commitPhase_acts h4
  exact ⟨⟨ai, rsaSelect s.rsa, am, aa, ac⟩, ⟨vi, rfl, vm, va, vc⟩, rfl⟩

/-- What a step that answers a next state has done: nothing, because the machine had stopped; a fatal
stop; or the acts of one cycle, then bus propagation, state commit and the flush (R121, R144, R146). -/
theorem cycle_acts {o : Offer} {s t : State} (h : cycle o s = .next t) :
    (s.stopped = true ∧ t = s) ∨
      (s.halted = false ∧ s.fatal = false ∧ s.cfg.legal = true ∧ s.wellSized = true ∧
        ((∃ f, phases o s = .error f ∧ t = raiseFatal f s) ∨
          ∃ a : Acts, a.valid o s ∧ t = endOfCycle s (a.run s))) := by
  rcases cycle_next h with h | ⟨h1, h2, h3, h4, rfl⟩
  · exact .inl h
  · refine .inr ⟨h1, h2, h3, h4, ?_⟩
    rcases afterCycle_cases o s with ⟨f, hf, ht⟩ | ⟨c, hc, ht⟩
    · exact .inl ⟨f, hf, ht⟩
    · obtain ⟨a, va, rfl⟩ := phases_acts hc
      exact .inr ⟨a, va, ht⟩

end Sys2Proof.Laws
end

