-- ==== Sys2Proof/Laws/Decode.lean ====
section
/-! SUPPORT. The fields of an encoded word, and the masks of the opcode map in terms of fields
(30_encoding.md R94, R95, R99, R101). -/

namespace Sys2Proof.Laws

-- One proof after the other, on one thread: each thread costs the check 256 MB of stack.
set_option Elab.async false

/-! ## The masks of the opcode map -/

/-- The mask of the U and J rows keeps the opcode. -/
theorem and_opcode (w : Word) : w &&& 0x7f#32 = (w.extractLsb' 0 7).setWidth 32 := by
  apply BitVec.eq_of_getLsbD_eq
  intro i hi
  simp only [BitVec.getLsbD_and, BitVec.getLsbD_setWidth, BitVec.getLsbD_extractLsb']
  interval_cases i <;> simp

/-- The mask of the I, S and B rows keeps funct3 and the opcode. -/
theorem and_funct3 (w : Word) :
    w &&& 0x707f#32 = 0#17 ++ w.extractLsb' 12 3 ++ 0#5 ++ w.extractLsb' 0 7 := by
  apply BitVec.eq_of_getLsbD_eq
  intro i hi
  simp only [BitVec.getLsbD_and, BitVec.getLsbD_append, BitVec.getLsbD_extractLsb']
  interval_cases i <;> simp

/-- The mask of the R and shift rows keeps funct7, funct3 and the opcode. -/
theorem and_funct7 (w : Word) :
    w &&& 0xfe00707f#32 =
      w.extractLsb' 25 7 ++ 0#10 ++ w.extractLsb' 12 3 ++ 0#5 ++ w.extractLsb' 0 7 := by
  apply BitVec.eq_of_getLsbD_eq
  intro i hi
  simp only [BitVec.getLsbD_and, BitVec.getLsbD_append, BitVec.getLsbD_extractLsb']
  interval_cases i <;> simp

/-- The mask of the halt marker keeps every bit. -/
theorem and_allOnes (w : Word) : w &&& 0xffffffff#32 = w := by
  apply BitVec.eq_of_getLsbD_eq
  intro i hi
  simp only [BitVec.getLsbD_and]
  interval_cases i <;> simp

/-- A word with another opcode is not the halt marker. -/
theorem ne_marker_of_opcode {w : Word} (h : w.extractLsb' 0 7 ≠ 0b0010011#7) :
    (w == 0x0ff00513#32) = false := by
  simp only [beq_eq_false_iff_ne]
  rintro rfl
  exact h (by decide)

/-- A word with another funct3 is not the halt marker. -/
theorem ne_marker_of_funct3 {w : Word} (h : w.extractLsb' 12 3 ≠ 0#3) :
    (w == 0x0ff00513#32) = false := by
  simp only [beq_eq_false_iff_ne]
  rintro rfl
  exact h (by decide)

/-- A register number survives its 5-bit field. -/
@[simp] theorem regBits_back (r : RegIdx) : Fin.ofNat 32 (regBits r).toNat = r := by
  apply Fin.ext
  have := r.isLt
  simp [regBits]

/-! ## The fields of each format -/

@[simp] theorem encodeR_opcode (f7 : BitVec 7) (f3 : BitVec 3) (op : BitVec 7) (rd rs1 rs2 : RegIdx) :
    (encodeR f7 f3 op rd rs1 rs2).extractLsb' 0 7 = op := by
  apply BitVec.eq_of_getLsbD_eq
  intro i hi
  simp only [encodeR, BitVec.getLsbD_append, BitVec.getLsbD_extractLsb']
  interval_cases i <;> simp

@[simp] theorem encodeR_funct3 (f7 : BitVec 7) (f3 : BitVec 3) (op : BitVec 7) (rd rs1 rs2 : RegIdx) :
    (encodeR f7 f3 op rd rs1 rs2).extractLsb' 12 3 = f3 := by
  apply BitVec.eq_of_getLsbD_eq
  intro i hi
  simp only [encodeR, BitVec.getLsbD_append, BitVec.getLsbD_extractLsb']
  interval_cases i <;> simp

@[simp] theorem encodeR_funct7 (f7 : BitVec 7) (f3 : BitVec 3) (op : BitVec 7) (rd rs1 rs2 : RegIdx) :
    (encodeR f7 f3 op rd rs1 rs2).extractLsb' 25 7 = f7 := by
  apply BitVec.eq_of_getLsbD_eq
  intro i hi
  simp only [encodeR, BitVec.getLsbD_append, BitVec.getLsbD_extractLsb']
  interval_cases i <;> simp

@[simp] theorem encodeR_rd_bits (f7 : BitVec 7) (f3 : BitVec 3) (op : BitVec 7) (rd rs1 rs2 : RegIdx) :
    (encodeR f7 f3 op rd rs1 rs2).extractLsb' 7 5 = regBits rd := by
  apply BitVec.eq_of_getLsbD_eq
  intro i hi
  simp only [encodeR, BitVec.getLsbD_append, BitVec.getLsbD_extractLsb']
  interval_cases i <;> simp

@[simp] theorem encodeR_rd (f7 : BitVec 7) (f3 : BitVec 3) (op : BitVec 7) (rd rs1 rs2 : RegIdx) : fieldRd (encodeR f7 f3 op rd rs1 rs2) = rd := by
  rw [fieldRd, encodeR_rd_bits, regBits_back]

@[simp] theorem encodeR_rs1_bits (f7 : BitVec 7) (f3 : BitVec 3) (op : BitVec 7) (rd rs1 rs2 : RegIdx) :
    (encodeR f7 f3 op rd rs1 rs2).extractLsb' 15 5 = regBits rs1 := by
  apply BitVec.eq_of_getLsbD_eq
  intro i hi
  simp only [encodeR, BitVec.getLsbD_append, BitVec.getLsbD_extractLsb']
  interval_cases i <;> simp

@[simp] theorem encodeR_rs1 (f7 : BitVec 7) (f3 : BitVec 3) (op : BitVec 7) (rd rs1 rs2 : RegIdx) : fieldRs1 (encodeR f7 f3 op rd rs1 rs2) = rs1 := by
  rw [fieldRs1, encodeR_rs1_bits, regBits_back]

@[simp] theorem encodeR_rs2_bits (f7 : BitVec 7) (f3 : BitVec 3) (op : BitVec 7) (rd rs1 rs2 : RegIdx) :
    (encodeR f7 f3 op rd rs1 rs2).extractLsb' 20 5 = regBits rs2 := by
  apply BitVec.eq_of_getLsbD_eq
  intro i hi
  simp only [encodeR, BitVec.getLsbD_append, BitVec.getLsbD_extractLsb']
  interval_cases i <;> simp

@[simp] theorem encodeR_rs2 (f7 : BitVec 7) (f3 : BitVec 3) (op : BitVec 7) (rd rs1 rs2 : RegIdx) : fieldRs2 (encodeR f7 f3 op rd rs1 rs2) = rs2 := by
  rw [fieldRs2, encodeR_rs2_bits, regBits_back]

@[simp] theorem encodeI_opcode (f3 : BitVec 3) (op : BitVec 7) (rd rs1 : RegIdx) (imm : BitVec 12) :
    (encodeI f3 op rd rs1 imm).extractLsb' 0 7 = op := by
  apply BitVec.eq_of_getLsbD_eq
  intro i hi
  simp only [encodeI, BitVec.getLsbD_append, BitVec.getLsbD_extractLsb']
  interval_cases i <;> simp

@[simp] theorem encodeI_funct3 (f3 : BitVec 3) (op : BitVec 7) (rd rs1 : RegIdx) (imm : BitVec 12) :
    (encodeI f3 op rd rs1 imm).extractLsb' 12 3 = f3 := by
  apply BitVec.eq_of_getLsbD_eq
  intro i hi
  simp only [encodeI, BitVec.getLsbD_append, BitVec.getLsbD_extractLsb']
  interval_cases i <;> simp

@[simp] theorem encodeI_rd_bits (f3 : BitVec 3) (op : BitVec 7) (rd rs1 : RegIdx) (imm : BitVec 12) :
    (encodeI f3 op rd rs1 imm).extractLsb' 7 5 = regBits rd := by
  apply BitVec.eq_of_getLsbD_eq
  intro i hi
  simp only [encodeI, BitVec.getLsbD_append, BitVec.getLsbD_extractLsb']
  interval_cases i <;> simp

@[simp] theorem encodeI_rd (f3 : BitVec 3) (op : BitVec 7) (rd rs1 : RegIdx) (imm : BitVec 12) : fieldRd (encodeI f3 op rd rs1 imm) = rd := by
  rw [fieldRd, encodeI_rd_bits, regBits_back]

@[simp] theorem encodeI_rs1_bits (f3 : BitVec 3) (op : BitVec 7) (rd rs1 : RegIdx) (imm : BitVec 12) :
    (encodeI f3 op rd rs1 imm).extractLsb' 15 5 = regBits rs1 := by
  apply BitVec.eq_of_getLsbD_eq
  intro i hi
  simp only [encodeI, BitVec.getLsbD_append, BitVec.getLsbD_extractLsb']
  interval_cases i <;> simp

@[simp] theorem encodeI_rs1 (f3 : BitVec 3) (op : BitVec 7) (rd rs1 : RegIdx) (imm : BitVec 12) : fieldRs1 (encodeI f3 op rd rs1 imm) = rs1 := by
  rw [fieldRs1, encodeI_rs1_bits, regBits_back]

@[simp] theorem encodeS_opcode (f3 : BitVec 3) (rs1 rs2 : RegIdx) (imm : BitVec 12) :
    (encodeS f3 rs1 rs2 imm).extractLsb' 0 7 = 0b0100011#7 := by
  apply BitVec.eq_of_getLsbD_eq
  intro i hi
  simp only [encodeS, BitVec.getLsbD_append, BitVec.getLsbD_extractLsb']
  interval_cases i <;> simp

@[simp] theorem encodeS_funct3 (f3 : BitVec 3) (rs1 rs2 : RegIdx) (imm : BitVec 12) :
    (encodeS f3 rs1 rs2 imm).extractLsb' 12 3 = f3 := by
  apply BitVec.eq_of_getLsbD_eq
  intro i hi
  simp only [encodeS, BitVec.getLsbD_append, BitVec.getLsbD_extractLsb']
  interval_cases i <;> simp

@[simp] theorem encodeS_rs1_bits (f3 : BitVec 3) (rs1 rs2 : RegIdx) (imm : BitVec 12) :
    (encodeS f3 rs1 rs2 imm).extractLsb' 15 5 = regBits rs1 := by
  apply BitVec.eq_of_getLsbD_eq
  intro i hi
  simp only [encodeS, BitVec.getLsbD_append, BitVec.getLsbD_extractLsb']
  interval_cases i <;> simp

@[simp] theorem encodeS_rs1 (f3 : BitVec 3) (rs1 rs2 : RegIdx) (imm : BitVec 12) : fieldRs1 (encodeS f3 rs1 rs2 imm) = rs1 := by
  rw [fieldRs1, encodeS_rs1_bits, regBits_back]

@[simp] theorem encodeS_rs2_bits (f3 : BitVec 3) (rs1 rs2 : RegIdx) (imm : BitVec 12) :
    (encodeS f3 rs1 rs2 imm).extractLsb' 20 5 = regBits rs2 := by
  apply BitVec.eq_of_getLsbD_eq
  intro i hi
  simp only [encodeS, BitVec.getLsbD_append, BitVec.getLsbD_extractLsb']
  interval_cases i <;> simp

@[simp] theorem encodeS_rs2 (f3 : BitVec 3) (rs1 rs2 : RegIdx) (imm : BitVec 12) : fieldRs2 (encodeS f3 rs1 rs2 imm) = rs2 := by
  rw [fieldRs2, encodeS_rs2_bits, regBits_back]

@[simp] theorem encodeB_opcode (f3 : BitVec 3) (rs1 rs2 : RegIdx) (off : BitVec 13) :
    (encodeB f3 rs1 rs2 off).extractLsb' 0 7 = 0b1100011#7 := by
  apply BitVec.eq_of_getLsbD_eq
  intro i hi
  simp only [encodeB, BitVec.getLsbD_append, BitVec.getLsbD_extractLsb']
  interval_cases i <;> simp

@[simp] theorem encodeB_funct3 (f3 : BitVec 3) (rs1 rs2 : RegIdx) (off : BitVec 13) :
    (encodeB f3 rs1 rs2 off).extractLsb' 12 3 = f3 := by
  apply BitVec.eq_of_getLsbD_eq
  intro i hi
  simp only [encodeB, BitVec.getLsbD_append, BitVec.getLsbD_extractLsb']
  interval_cases i <;> simp

@[simp] theorem encodeB_rs1_bits (f3 : BitVec 3) (rs1 rs2 : RegIdx) (off : BitVec 13) :
    (encodeB f3 rs1 rs2 off).extractLsb' 15 5 = regBits rs1 := by
  apply BitVec.eq_of_getLsbD_eq
  intro i hi
  simp only [encodeB, BitVec.getLsbD_append, BitVec.getLsbD_extractLsb']
  interval_cases i <;> simp

@[simp] theorem encodeB_rs1 (f3 : BitVec 3) (rs1 rs2 : RegIdx) (off : BitVec 13) : fieldRs1 (encodeB f3 rs1 rs2 off) = rs1 := by
  rw [fieldRs1, encodeB_rs1_bits, regBits_back]

@[simp] theorem encodeB_rs2_bits (f3 : BitVec 3) (rs1 rs2 : RegIdx) (off : BitVec 13) :
    (encodeB f3 rs1 rs2 off).extractLsb' 20 5 = regBits rs2 := by
  apply BitVec.eq_of_getLsbD_eq
  intro i hi
  simp only [encodeB, BitVec.getLsbD_append, BitVec.getLsbD_extractLsb']
  interval_cases i <;> simp

@[simp] theorem encodeB_rs2 (f3 : BitVec 3) (rs1 rs2 : RegIdx) (off : BitVec 13) : fieldRs2 (encodeB f3 rs1 rs2 off) = rs2 := by
  rw [fieldRs2, encodeB_rs2_bits, regBits_back]

@[simp] theorem encodeU_opcode (op : BitVec 7) (rd : RegIdx) (imm20 : BitVec 20) :
    (encodeU op rd imm20).extractLsb' 0 7 = op := by
  apply BitVec.eq_of_getLsbD_eq
  intro i hi
  simp only [encodeU, BitVec.getLsbD_append, BitVec.getLsbD_extractLsb']
  interval_cases i <;> simp

@[simp] theorem encodeU_rd_bits (op : BitVec 7) (rd : RegIdx) (imm20 : BitVec 20) :
    (encodeU op rd imm20).extractLsb' 7 5 = regBits rd := by
  apply BitVec.eq_of_getLsbD_eq
  intro i hi
  simp only [encodeU, BitVec.getLsbD_append, BitVec.getLsbD_extractLsb']
  interval_cases i <;> simp

@[simp] theorem encodeU_rd (op : BitVec 7) (rd : RegIdx) (imm20 : BitVec 20) : fieldRd (encodeU op rd imm20) = rd := by
  rw [fieldRd, encodeU_rd_bits, regBits_back]

@[simp] theorem encodeJ_opcode (rd : RegIdx) (off : BitVec 21) :
    (encodeJ rd off).extractLsb' 0 7 = 0b1101111#7 := by
  apply BitVec.eq_of_getLsbD_eq
  intro i hi
  simp only [encodeJ, BitVec.getLsbD_append, BitVec.getLsbD_extractLsb']
  interval_cases i <;> simp

@[simp] theorem encodeJ_rd_bits (rd : RegIdx) (off : BitVec 21) :
    (encodeJ rd off).extractLsb' 7 5 = regBits rd := by
  apply BitVec.eq_of_getLsbD_eq
  intro i hi
  simp only [encodeJ, BitVec.getLsbD_append, BitVec.getLsbD_extractLsb']
  interval_cases i <;> simp

@[simp] theorem encodeJ_rd (rd : RegIdx) (off : BitVec 21) : fieldRd (encodeJ rd off) = rd := by
  rw [fieldRd, encodeJ_rd_bits, regBits_back]

@[simp] theorem encodeI_imm (f3 : BitVec 3) (op : BitVec 7) (rd rs1 : RegIdx) (imm : BitVec 12) :
    fieldImmI (encodeI f3 op rd rs1 imm) = imm := by
  apply BitVec.eq_of_getLsbD_eq
  intro i hi
  simp only [fieldImmI, encodeI, BitVec.getLsbD_append, BitVec.getLsbD_extractLsb']
  interval_cases i <;> simp

@[simp] theorem encodeI_funct7 (f3 : BitVec 3) (op : BitVec 7) (rd rs1 : RegIdx) (imm : BitVec 12) :
    (encodeI f3 op rd rs1 imm).extractLsb' 25 7 = imm.extractLsb' 5 7 := by
  apply BitVec.eq_of_getLsbD_eq
  intro i hi
  simp only [encodeI, BitVec.getLsbD_append, BitVec.getLsbD_extractLsb']
  interval_cases i <;> simp

@[simp] theorem encodeI_shamt (f3 : BitVec 3) (op : BitVec 7) (rd rs1 : RegIdx) (imm : BitVec 12) :
    fieldShamt (encodeI f3 op rd rs1 imm) = imm.extractLsb' 0 5 := by
  apply BitVec.eq_of_getLsbD_eq
  intro i hi
  simp only [fieldShamt, encodeI, BitVec.getLsbD_append, BitVec.getLsbD_extractLsb']
  interval_cases i <;> simp

@[simp] theorem encodeS_imm (f3 : BitVec 3) (rs1 rs2 : RegIdx) (imm : BitVec 12) :
    fieldImmS (encodeS f3 rs1 rs2 imm) = imm := by
  apply BitVec.eq_of_getLsbD_eq
  intro i hi
  simp only [fieldImmS, encodeS, BitVec.getLsbD_append, BitVec.getLsbD_extractLsb']
  interval_cases i <;> simp

@[simp] theorem encodeU_imm (op : BitVec 7) (rd : RegIdx) (imm20 : BitVec 20) :
    fieldImmU (encodeU op rd imm20) = imm20 := by
  apply BitVec.eq_of_getLsbD_eq
  intro i hi
  simp only [fieldImmU, encodeU, BitVec.getLsbD_append, BitVec.getLsbD_extractLsb']
  interval_cases i <;> simp

/-- An even offset survives the B format. -/
theorem encodeB_imm (f3 : BitVec 3) (rs1 rs2 : RegIdx) (off : BitVec 13) (h : evenOffset off = true) :
    fieldImmB (encodeB f3 rs1 rs2 off) = off := by
  have h0 : off[0] = false := by simpa [evenOffset] using h
  apply BitVec.eq_of_getLsbD_eq
  intro i hi
  simp only [fieldImmB, encodeB, BitVec.getLsbD_append, BitVec.getLsbD_extractLsb']
  interval_cases i <;> simp [h0]

/-- An even offset survives the J format. -/
theorem encodeJ_imm (rd : RegIdx) (off : BitVec 21) (h : evenOffset off = true) :
    fieldImmJ (encodeJ rd off) = off := by
  have h0 : off[0] = false := by simpa [evenOffset] using h
  apply BitVec.eq_of_getLsbD_eq
  intro i hi
  simp only [fieldImmJ, encodeJ, BitVec.getLsbD_append, BitVec.getLsbD_extractLsb']
  interval_cases i <;> simp [h0]

/-! ## The bytes of a word -/

/-- The four bytes of a word, little-endian, are the word again (R62). -/
theorem wordOfBytes_bytesOfWord (w : Word) :
    wordOfBytes (w.extractLsb' 0 8) (w.extractLsb' 8 8) (w.extractLsb' 16 8) (w.extractLsb' 24 8) = w := by
  apply BitVec.eq_of_getLsbD_eq
  intro i hi
  simp only [wordOfBytes, BitVec.getLsbD_append, BitVec.getLsbD_extractLsb']
  interval_cases i <;> simp

/-- The decoder reads a word from its bytes (R62, R93). -/
theorem decodeBytes_bytesOfWord (w : Word) :
    decodeBytes (bytesOfWord w) =
      match decodeWord w with
      | .ok i => .ok (i, [])
      | .error e => .error e := by
  cases h : decodeWord w <;> simp [decodeBytes, bytesOfWord, wordOfBytes_bytesOfWord, h]

end Sys2Proof.Laws
end

