-- ==== Sys2Proof/Laws/Memory.lean ====
section
/-! SUPPORT. The laws of the backing store: every operation keeps the canonical form, a read after a
write gives the value written, and a write leaves every other byte alone (20_memory.md R61). -/

namespace Sys2Proof.Laws

-- One proof after the other, on one thread: each thread costs the check 256 MB of stack.
set_option Elab.async false

open Sys2Proof.Machine

/-- An address below every listed one reads as unlisted. -/
theorem read_of_wfAbove {m : Memory} {b : Nat} (h : Memory.wfAbove (some b) m = true) {a : Nat}
    (ha : a ≤ b) : Memory.read m a = Memory.unlisted := by
  induction m generalizing b with
  | nil => rfl
  | cons x m ih =>
    obtain ⟨c, v⟩ := x
    simp only [Memory.wfAbove, Bool.and_eq_true, decide_eq_true_eq] at h
    have hac : a ≠ c := by omega
    simpa [Memory.read, hac] using ih h.2 (by omega)

/-- Weakening the bound of the canonical form. -/
theorem wfAbove_mono {m : Memory} {b : Nat} (h : Memory.wfAbove (some b) m = true) (a : Option Nat)
    (hab : ∀ x ∈ a, x ≤ b) : Memory.wfAbove a m = true := by
  cases m with
  | nil => rfl
  | cons x m =>
    obtain ⟨c, v⟩ := x
    simp only [Memory.wfAbove, Bool.and_eq_true, decide_eq_true_eq] at h ⊢
    refine ⟨⟨?_, h.1.2⟩, h.2⟩
    cases a with
    | none => rfl
    | some a => have := hab a rfl; simp only [decide_eq_true_eq]; omega

/-- A write above the bound keeps the canonical form above the bound. -/
theorem wfAbove_write {m : Memory} {b : Option Nat} (h : Memory.wfAbove b m = true) {a : Nat}
    (ha : ∀ x ∈ b, x < a) (v : Byte) : Memory.wfAbove b (Memory.write m a v) = true := by
  induction m generalizing b with
  | nil =>
    unfold Memory.write
    split
    · rfl
    · rename_i hv
      cases b with
      | none => simp [Memory.wfAbove, hv]
      | some b => simp [Memory.wfAbove, hv, ha b rfl]
  | cons x m ih =>
    obtain ⟨c, w⟩ := x
    have h' := h
    simp only [Memory.wfAbove, Bool.and_eq_true, decide_eq_true_eq] at h
    unfold Memory.write
    split
    · rename_i hac
      split
      · exact h'
      · rename_i hv
        simp only [Memory.wfAbove, Bool.and_eq_true, decide_eq_true_eq]
        refine ⟨⟨?_, hv⟩, ⟨hac, h.1.2⟩, h.2⟩
        cases b with
        | none => rfl
        | some b => simpa using ha b rfl
    · split
      · rename_i hac
        subst hac
        split
        · refine wfAbove_mono h.2 b fun x hx => ?_
          exact Nat.le_of_lt (ha x hx)
        · rename_i hv
          simp only [Memory.wfAbove, Bool.and_eq_true, decide_eq_true_eq]
          exact ⟨⟨h.1.1, hv⟩, h.2⟩
      · rename_i h1 h2
        simp only [Memory.wfAbove, Bool.and_eq_true, decide_eq_true_eq]
        exact ⟨h.1, ih h.2 (fun x hx => by simp at hx; omega)⟩

/-- A write keeps the canonical form. -/
theorem wf_write {m : Memory} (h : m.wf = true) (a : Nat) (v : Byte) : (Memory.write m a v).wf = true :=
  wfAbove_write h (fun _ hx => by simp at hx) v

/-- A multi-byte write keeps the canonical form. -/
theorem wf_writeLE {m : Memory} (h : m.wf = true) (a n : Nat) (v : Word) :
    (m.writeLE a n v).wf = true := by
  induction n generalizing m a v with
  | zero => exact h
  | succ n ih => exact ih (wf_write h _ _) _ _

/-- Loading an image gives a canonical memory. -/
theorem wf_loadImage (size : Nat) (image : List Host.Cell) : (loadImage size image).wf = true := by
  suffices ∀ m : Memory, m.wf = true →
      (image.foldl (fun m b => if b.1 < size then Memory.write m b.1 b.2 else m) m).wf = true from
    this [] rfl
  induction image with
  | nil => exact fun m h => h
  | cons b image ih =>
    intro m h
    refine ih _ ?_
    show (if b.1 < size then Memory.write m b.1 b.2 else m).wf = true
    split
    · exact wf_write h _ _
    · exact h

/-- A read of a byte just written gives the value written. -/
theorem read_write_same_above {m : Memory} {b : Option Nat} (h : Memory.wfAbove b m = true) (a : Nat)
    (v : Byte) : Memory.read (Memory.write m a v) a = v := by
  induction m generalizing b with
  | nil => unfold Memory.write; split <;> simp_all [Memory.read]
  | cons x m ih =>
    obtain ⟨c, w⟩ := x
    simp only [Memory.wfAbove, Bool.and_eq_true, decide_eq_true_eq] at h
    unfold Memory.write
    split
    · rename_i hac
      split
      · rename_i hv
        have hne : a ≠ c := by omega
        simp [Memory.read, hne, hv, read_of_wfAbove h.2 (Nat.le_of_lt hac)]
      · simp [Memory.read]
    · split
      · rename_i hac
        subst hac
        split
        · rename_i hv; rw [hv, read_of_wfAbove h.2 (Nat.le_refl _)]
        · simp [Memory.read]
      · rename_i hac
        simpa [Memory.read, hac] using ih h.2

theorem read_write_same {m : Memory} (h : m.wf = true) (a : Nat) (v : Byte) :
    Memory.read (Memory.write m a v) a = v := read_write_same_above h a v

/-- A write leaves every other byte alone. -/
theorem read_write_other (m : Memory) {a a' : Nat} (hne : a' ≠ a) (v : Byte) :
    Memory.read (Memory.write m a v) a' = Memory.read m a' := by
  induction m with
  | nil => unfold Memory.write; split <;> simp [Memory.read, hne]
  | cons x m ih =>
    obtain ⟨c, w⟩ := x
    unfold Memory.write
    split
    · split
      · rfl
      · simp [Memory.read, hne]
    · split
      · rename_i hac
        subst hac
        split <;> simp [Memory.read, hne]
      · simp [Memory.read, ih]

/-- A multi-byte write leaves every byte outside its range alone. -/
theorem read_writeLE_outside (m : Memory) (a n : Nat) (v : Word) {a' : Nat} (h : a' < a ∨ a + n ≤ a') :
    Memory.read (m.writeLE a n v) a' = Memory.read m a' := by
  induction n generalizing m a v with
  | zero => rfl
  | succ n ih =>
    unfold Memory.writeLE
    rw [ih _ _ _ (by omega), read_write_other _ (by omega)]

/-- A multi-byte write puts the byte `k` of the value at offset `k`. -/
theorem read_writeLE_inside {m : Memory} (h : m.wf = true) (a n : Nat) (v : Word) (k : Nat) (hk : k < n) :
    Memory.read (m.writeLE a n v) (a + k) = (v >>> (8 * k)).setWidth 8 := by
  induction n generalizing m a v k with
  | zero => omega
  | succ n ih =>
    unfold Memory.writeLE
    cases k with
    | zero => rw [read_writeLE_outside _ _ _ _ (by omega)]; simp [read_write_same h]
    | succ k =>
      have : a + (k + 1) = a + 1 + k := by omega
      rw [this, ih (wf_write h _ _) _ _ k (by omega), ← BitVec.shiftRight_add]
      congr 2
      omega

/-- A listed address of a write is the one written or was listed before. -/
theorem mem_write {m : Memory} {a : Nat} {v : Byte} {x : Host.Cell} (h : x ∈ Memory.write m a v) :
    x = (a, v) ∨ x ∈ m := by
  induction m with
  | nil => unfold Memory.write at h; split at h <;> simp_all
  | cons y m ih =>
    obtain ⟨c, w⟩ := y
    unfold Memory.write at h
    split at h
    · split at h
      · exact .inr h
      · rcases List.mem_cons.mp h with h | h
        · exact .inl h
        · exact .inr h
    · split at h
      · split at h
        · exact .inr (List.mem_cons_of_mem _ h)
        · rcases List.mem_cons.mp h with h | h
          · exact .inl h
          · exact .inr (List.mem_cons_of_mem _ h)
      · rcases List.mem_cons.mp h with h | h
        · exact .inr (h ▸ List.mem_cons_self)
        · rcases ih h with h | h
          · exact .inl h
          · exact .inr (List.mem_cons_of_mem _ h)

/-- Two memories that agree on every byte read alike. -/
theorem readLE_congr {m m' : Memory} (a n : Nat)
    (h : ∀ k, k < n → Memory.read m (a + k) = Memory.read m' (a + k)) :
    m.readLE a n = m'.readLE a n := by
  induction n generalizing a with
  | zero => rfl
  | succ n ih =>
    unfold Memory.readLE
    have h0 : Memory.read m a = Memory.read m' a := h 0 (by omega)
    rw [h0, ih (a + 1) fun k hk => ?_]
    have := h (k + 1) (by omega)
    rwa [show a + (k + 1) = a + 1 + k by omega] at this

/-- A multi-byte write lists no address outside its range that was not listed before. -/
theorem mem_writeLE {m : Memory} {a n : Nat} {v : Word} {x : Host.Cell} (h : x ∈ m.writeLE a n v) :
    (a ≤ x.1 ∧ x.1 < a + n) ∨ x ∈ m := by
  induction n generalizing m a v with
  | zero => exact .inr h
  | succ n ih =>
    rcases ih h with h | h
    · exact .inl ⟨by omega, by omega⟩
    · rcases mem_write h with h | h
      · subst h
        exact .inl ⟨Nat.le_refl a, by simp⟩
      · exact .inr h

end Sys2Proof.Laws
end

