-- ==== Sys2Proof/Laws/PerInstr.lean ====
section
/-! SUPPORT. Statements about every instruction as syntax, one lemma per constructor. `LowBits`: the word
of an instruction has the low two bits of a 32-bit word (30_encoding.md R93). `Destination`: which
records carry no destination (R92). -/

namespace Sys2Proof.Laws

-- One proof after the other, on one thread: each thread costs the check 256 MB of stack.
set_option Elab.async false

open Sys2Proof.Machine

/-- R93: "Words whose low two bits are not `11` (the RV32C space) are unrecognized", so an instruction's
word has them. -/
def LowBits.Statement (i : Instr) : Prop := (encode i).extractLsb' 0 2 = 0b11#2

/-- R92: `rd` is NONE for formats S and B and for HALT, and for no other record. -/
def Destination.Statement (i : Instr) : Prop :=
  (recordOf i).rd = none ↔ (recordOf i).fmt = .s ∨ (recordOf i).fmt = .b ∨ i = .halt

theorem lowBits_of_opcode {w : Word} {op : BitVec 7} (h : w.extractLsb' 0 7 = op)
    (ho : op.extractLsb' 0 2 = 0b11#2) : w.extractLsb' 0 2 = 0b11#2 := by
  subst h
  rw [← ho]
  apply BitVec.eq_of_getLsbD_eq
  intro i hi
  simp only [BitVec.getLsbD_extractLsb']
  interval_cases i <;> simp

/-! ## LowBits -/

theorem LowBits.halt : LowBits.Statement (.halt) :=
  rfl

theorem LowBits.lui (rd : RegIdx) (imm20 : BitVec 20) : LowBits.Statement (.lui rd imm20) :=
  lowBits_of_opcode (encodeU_opcode _ _ _) rfl

theorem LowBits.auipc (rd : RegIdx) (imm20 : BitVec 20) : LowBits.Statement (.auipc rd imm20) :=
  lowBits_of_opcode (encodeU_opcode _ _ _) rfl

theorem LowBits.jal (rd : RegIdx) (off : BitVec 21) : LowBits.Statement (.jal rd off) :=
  lowBits_of_opcode (encodeJ_opcode _ _) rfl

theorem LowBits.jalr (rd : RegIdx) (rs1 : RegIdx) (imm : BitVec 12) : LowBits.Statement (.jalr rd rs1 imm) :=
  lowBits_of_opcode (encodeI_opcode _ _ _ _ _) rfl

theorem LowBits.beq (rs1 : RegIdx) (rs2 : RegIdx) (off : BitVec 13) : LowBits.Statement (.beq rs1 rs2 off) :=
  lowBits_of_opcode (encodeB_opcode _ _ _ _) rfl

theorem LowBits.bne (rs1 : RegIdx) (rs2 : RegIdx) (off : BitVec 13) : LowBits.Statement (.bne rs1 rs2 off) :=
  lowBits_of_opcode (encodeB_opcode _ _ _ _) rfl

theorem LowBits.blt (rs1 : RegIdx) (rs2 : RegIdx) (off : BitVec 13) : LowBits.Statement (.blt rs1 rs2 off) :=
  lowBits_of_opcode (encodeB_opcode _ _ _ _) rfl

theorem LowBits.bge (rs1 : RegIdx) (rs2 : RegIdx) (off : BitVec 13) : LowBits.Statement (.bge rs1 rs2 off) :=
  lowBits_of_opcode (encodeB_opcode _ _ _ _) rfl

theorem LowBits.bltu (rs1 : RegIdx) (rs2 : RegIdx) (off : BitVec 13) : LowBits.Statement (.bltu rs1 rs2 off) :=
  lowBits_of_opcode (encodeB_opcode _ _ _ _) rfl

theorem LowBits.bgeu (rs1 : RegIdx) (rs2 : RegIdx) (off : BitVec 13) : LowBits.Statement (.bgeu rs1 rs2 off) :=
  lowBits_of_opcode (encodeB_opcode _ _ _ _) rfl

theorem LowBits.lb (rd : RegIdx) (rs1 : RegIdx) (imm : BitVec 12) : LowBits.Statement (.lb rd rs1 imm) :=
  lowBits_of_opcode (encodeI_opcode _ _ _ _ _) rfl

theorem LowBits.lh (rd : RegIdx) (rs1 : RegIdx) (imm : BitVec 12) : LowBits.Statement (.lh rd rs1 imm) :=
  lowBits_of_opcode (encodeI_opcode _ _ _ _ _) rfl

theorem LowBits.lw (rd : RegIdx) (rs1 : RegIdx) (imm : BitVec 12) : LowBits.Statement (.lw rd rs1 imm) :=
  lowBits_of_opcode (encodeI_opcode _ _ _ _ _) rfl

theorem LowBits.lbu (rd : RegIdx) (rs1 : RegIdx) (imm : BitVec 12) : LowBits.Statement (.lbu rd rs1 imm) :=
  lowBits_of_opcode (encodeI_opcode _ _ _ _ _) rfl

theorem LowBits.lhu (rd : RegIdx) (rs1 : RegIdx) (imm : BitVec 12) : LowBits.Statement (.lhu rd rs1 imm) :=
  lowBits_of_opcode (encodeI_opcode _ _ _ _ _) rfl

theorem LowBits.sb (rs1 : RegIdx) (rs2 : RegIdx) (imm : BitVec 12) : LowBits.Statement (.sb rs1 rs2 imm) :=
  lowBits_of_opcode (encodeS_opcode _ _ _ _) rfl

theorem LowBits.sh (rs1 : RegIdx) (rs2 : RegIdx) (imm : BitVec 12) : LowBits.Statement (.sh rs1 rs2 imm) :=
  lowBits_of_opcode (encodeS_opcode _ _ _ _) rfl

theorem LowBits.sw (rs1 : RegIdx) (rs2 : RegIdx) (imm : BitVec 12) : LowBits.Statement (.sw rs1 rs2 imm) :=
  lowBits_of_opcode (encodeS_opcode _ _ _ _) rfl

theorem LowBits.addi (rd : RegIdx) (rs1 : RegIdx) (imm : BitVec 12) : LowBits.Statement (.addi rd rs1 imm) :=
  lowBits_of_opcode (encodeI_opcode _ _ _ _ _) rfl

theorem LowBits.slti (rd : RegIdx) (rs1 : RegIdx) (imm : BitVec 12) : LowBits.Statement (.slti rd rs1 imm) :=
  lowBits_of_opcode (encodeI_opcode _ _ _ _ _) rfl

theorem LowBits.sltiu (rd : RegIdx) (rs1 : RegIdx) (imm : BitVec 12) : LowBits.Statement (.sltiu rd rs1 imm) :=
  lowBits_of_opcode (encodeI_opcode _ _ _ _ _) rfl

theorem LowBits.xori (rd : RegIdx) (rs1 : RegIdx) (imm : BitVec 12) : LowBits.Statement (.xori rd rs1 imm) :=
  lowBits_of_opcode (encodeI_opcode _ _ _ _ _) rfl

theorem LowBits.ori (rd : RegIdx) (rs1 : RegIdx) (imm : BitVec 12) : LowBits.Statement (.ori rd rs1 imm) :=
  lowBits_of_opcode (encodeI_opcode _ _ _ _ _) rfl

theorem LowBits.andi (rd : RegIdx) (rs1 : RegIdx) (imm : BitVec 12) : LowBits.Statement (.andi rd rs1 imm) :=
  lowBits_of_opcode (encodeI_opcode _ _ _ _ _) rfl

theorem LowBits.slli (rd : RegIdx) (rs1 : RegIdx) (shamt : BitVec 5) : LowBits.Statement (.slli rd rs1 shamt) :=
  lowBits_of_opcode (encodeI_opcode _ _ _ _ _) rfl

theorem LowBits.srli (rd : RegIdx) (rs1 : RegIdx) (shamt : BitVec 5) : LowBits.Statement (.srli rd rs1 shamt) :=
  lowBits_of_opcode (encodeI_opcode _ _ _ _ _) rfl

theorem LowBits.srai (rd : RegIdx) (rs1 : RegIdx) (shamt : BitVec 5) : LowBits.Statement (.srai rd rs1 shamt) :=
  lowBits_of_opcode (encodeI_opcode _ _ _ _ _) rfl

theorem LowBits.add (rd : RegIdx) (rs1 : RegIdx) (rs2 : RegIdx) : LowBits.Statement (.add rd rs1 rs2) :=
  lowBits_of_opcode (encodeR_opcode _ _ _ _ _ _) rfl

theorem LowBits.sub (rd : RegIdx) (rs1 : RegIdx) (rs2 : RegIdx) : LowBits.Statement (.sub rd rs1 rs2) :=
  lowBits_of_opcode (encodeR_opcode _ _ _ _ _ _) rfl

theorem LowBits.sll (rd : RegIdx) (rs1 : RegIdx) (rs2 : RegIdx) : LowBits.Statement (.sll rd rs1 rs2) :=
  lowBits_of_opcode (encodeR_opcode _ _ _ _ _ _) rfl

theorem LowBits.slt (rd : RegIdx) (rs1 : RegIdx) (rs2 : RegIdx) : LowBits.Statement (.slt rd rs1 rs2) :=
  lowBits_of_opcode (encodeR_opcode _ _ _ _ _ _) rfl

theorem LowBits.sltu (rd : RegIdx) (rs1 : RegIdx) (rs2 : RegIdx) : LowBits.Statement (.sltu rd rs1 rs2) :=
  lowBits_of_opcode (encodeR_opcode _ _ _ _ _ _) rfl

theorem LowBits.xor (rd : RegIdx) (rs1 : RegIdx) (rs2 : RegIdx) : LowBits.Statement (.xor rd rs1 rs2) :=
  lowBits_of_opcode (encodeR_opcode _ _ _ _ _ _) rfl

theorem LowBits.srl (rd : RegIdx) (rs1 : RegIdx) (rs2 : RegIdx) : LowBits.Statement (.srl rd rs1 rs2) :=
  lowBits_of_opcode (encodeR_opcode _ _ _ _ _ _) rfl

theorem LowBits.sra (rd : RegIdx) (rs1 : RegIdx) (rs2 : RegIdx) : LowBits.Statement (.sra rd rs1 rs2) :=
  lowBits_of_opcode (encodeR_opcode _ _ _ _ _ _) rfl

theorem LowBits.or (rd : RegIdx) (rs1 : RegIdx) (rs2 : RegIdx) : LowBits.Statement (.or rd rs1 rs2) :=
  lowBits_of_opcode (encodeR_opcode _ _ _ _ _ _) rfl

theorem LowBits.and (rd : RegIdx) (rs1 : RegIdx) (rs2 : RegIdx) : LowBits.Statement (.and rd rs1 rs2) :=
  lowBits_of_opcode (encodeR_opcode _ _ _ _ _ _) rfl

/-! ## Destination -/

theorem Destination.halt :
    Destination.Statement (.halt) :=
  ⟨fun _ => .inr (.inr rfl), fun _ => rfl⟩

theorem Destination.lui (rd : RegIdx) (imm20 : BitVec 20) :
    Destination.Statement (.lui rd imm20) :=
  ⟨fun h => (nomatch h), fun h => by rcases h with h | h | h <;> cases h⟩

theorem Destination.auipc (rd : RegIdx) (imm20 : BitVec 20) :
    Destination.Statement (.auipc rd imm20) :=
  ⟨fun h => (nomatch h), fun h => by rcases h with h | h | h <;> cases h⟩

theorem Destination.jal (rd : RegIdx) (off : BitVec 21) :
    Destination.Statement (.jal rd off) :=
  ⟨fun h => (nomatch h), fun h => by rcases h with h | h | h <;> cases h⟩

theorem Destination.jalr (rd : RegIdx) (rs1 : RegIdx) (imm : BitVec 12) :
    Destination.Statement (.jalr rd rs1 imm) :=
  ⟨fun h => (nomatch h), fun h => by rcases h with h | h | h <;> cases h⟩

theorem Destination.beq (rs1 : RegIdx) (rs2 : RegIdx) (off : BitVec 13) :
    Destination.Statement (.beq rs1 rs2 off) :=
  ⟨fun _ => .inr (.inl rfl), fun _ => rfl⟩

theorem Destination.bne (rs1 : RegIdx) (rs2 : RegIdx) (off : BitVec 13) :
    Destination.Statement (.bne rs1 rs2 off) :=
  ⟨fun _ => .inr (.inl rfl), fun _ => rfl⟩

theorem Destination.blt (rs1 : RegIdx) (rs2 : RegIdx) (off : BitVec 13) :
    Destination.Statement (.blt rs1 rs2 off) :=
  ⟨fun _ => .inr (.inl rfl), fun _ => rfl⟩

theorem Destination.bge (rs1 : RegIdx) (rs2 : RegIdx) (off : BitVec 13) :
    Destination.Statement (.bge rs1 rs2 off) :=
  ⟨fun _ => .inr (.inl rfl), fun _ => rfl⟩

theorem Destination.bltu (rs1 : RegIdx) (rs2 : RegIdx) (off : BitVec 13) :
    Destination.Statement (.bltu rs1 rs2 off) :=
  ⟨fun _ => .inr (.inl rfl), fun _ => rfl⟩

theorem Destination.bgeu (rs1 : RegIdx) (rs2 : RegIdx) (off : BitVec 13) :
    Destination.Statement (.bgeu rs1 rs2 off) :=
  ⟨fun _ => .inr (.inl rfl), fun _ => rfl⟩

theorem Destination.lb (rd : RegIdx) (rs1 : RegIdx) (imm : BitVec 12) :
    Destination.Statement (.lb rd rs1 imm) :=
  ⟨fun h => (nomatch h), fun h => by rcases h with h | h | h <;> cases h⟩

theorem Destination.lh (rd : RegIdx) (rs1 : RegIdx) (imm : BitVec 12) :
    Destination.Statement (.lh rd rs1 imm) :=
  ⟨fun h => (nomatch h), fun h => by rcases h with h | h | h <;> cases h⟩

theorem Destination.lw (rd : RegIdx) (rs1 : RegIdx) (imm : BitVec 12) :
    Destination.Statement (.lw rd rs1 imm) :=
  ⟨fun h => (nomatch h), fun h => by rcases h with h | h | h <;> cases h⟩

theorem Destination.lbu (rd : RegIdx) (rs1 : RegIdx) (imm : BitVec 12) :
    Destination.Statement (.lbu rd rs1 imm) :=
  ⟨fun h => (nomatch h), fun h => by rcases h with h | h | h <;> cases h⟩

theorem Destination.lhu (rd : RegIdx) (rs1 : RegIdx) (imm : BitVec 12) :
    Destination.Statement (.lhu rd rs1 imm) :=
  ⟨fun h => (nomatch h), fun h => by rcases h with h | h | h <;> cases h⟩

theorem Destination.sb (rs1 : RegIdx) (rs2 : RegIdx) (imm : BitVec 12) :
    Destination.Statement (.sb rs1 rs2 imm) :=
  ⟨fun _ => .inl rfl, fun _ => rfl⟩

theorem Destination.sh (rs1 : RegIdx) (rs2 : RegIdx) (imm : BitVec 12) :
    Destination.Statement (.sh rs1 rs2 imm) :=
  ⟨fun _ => .inl rfl, fun _ => rfl⟩

theorem Destination.sw (rs1 : RegIdx) (rs2 : RegIdx) (imm : BitVec 12) :
    Destination.Statement (.sw rs1 rs2 imm) :=
  ⟨fun _ => .inl rfl, fun _ => rfl⟩

theorem Destination.addi (rd : RegIdx) (rs1 : RegIdx) (imm : BitVec 12) :
    Destination.Statement (.addi rd rs1 imm) :=
  ⟨fun h => (nomatch h), fun h => by rcases h with h | h | h <;> cases h⟩

theorem Destination.slti (rd : RegIdx) (rs1 : RegIdx) (imm : BitVec 12) :
    Destination.Statement (.slti rd rs1 imm) :=
  ⟨fun h => (nomatch h), fun h => by rcases h with h | h | h <;> cases h⟩

theorem Destination.sltiu (rd : RegIdx) (rs1 : RegIdx) (imm : BitVec 12) :
    Destination.Statement (.sltiu rd rs1 imm) :=
  ⟨fun h => (nomatch h), fun h => by rcases h with h | h | h <;> cases h⟩

theorem Destination.xori (rd : RegIdx) (rs1 : RegIdx) (imm : BitVec 12) :
    Destination.Statement (.xori rd rs1 imm) :=
  ⟨fun h => (nomatch h), fun h => by rcases h with h | h | h <;> cases h⟩

theorem Destination.ori (rd : RegIdx) (rs1 : RegIdx) (imm : BitVec 12) :
    Destination.Statement (.ori rd rs1 imm) :=
  ⟨fun h => (nomatch h), fun h => by rcases h with h | h | h <;> cases h⟩

theorem Destination.andi (rd : RegIdx) (rs1 : RegIdx) (imm : BitVec 12) :
    Destination.Statement (.andi rd rs1 imm) :=
  ⟨fun h => (nomatch h), fun h => by rcases h with h | h | h <;> cases h⟩

theorem Destination.slli (rd : RegIdx) (rs1 : RegIdx) (shamt : BitVec 5) :
    Destination.Statement (.slli rd rs1 shamt) :=
  ⟨fun h => (nomatch h), fun h => by rcases h with h | h | h <;> cases h⟩

theorem Destination.srli (rd : RegIdx) (rs1 : RegIdx) (shamt : BitVec 5) :
    Destination.Statement (.srli rd rs1 shamt) :=
  ⟨fun h => (nomatch h), fun h => by rcases h with h | h | h <;> cases h⟩

theorem Destination.srai (rd : RegIdx) (rs1 : RegIdx) (shamt : BitVec 5) :
    Destination.Statement (.srai rd rs1 shamt) :=
  ⟨fun h => (nomatch h), fun h => by rcases h with h | h | h <;> cases h⟩

theorem Destination.add (rd : RegIdx) (rs1 : RegIdx) (rs2 : RegIdx) :
    Destination.Statement (.add rd rs1 rs2) :=
  ⟨fun h => (nomatch h), fun h => by rcases h with h | h | h <;> cases h⟩

theorem Destination.sub (rd : RegIdx) (rs1 : RegIdx) (rs2 : RegIdx) :
    Destination.Statement (.sub rd rs1 rs2) :=
  ⟨fun h => (nomatch h), fun h => by rcases h with h | h | h <;> cases h⟩

theorem Destination.sll (rd : RegIdx) (rs1 : RegIdx) (rs2 : RegIdx) :
    Destination.Statement (.sll rd rs1 rs2) :=
  ⟨fun h => (nomatch h), fun h => by rcases h with h | h | h <;> cases h⟩

theorem Destination.slt (rd : RegIdx) (rs1 : RegIdx) (rs2 : RegIdx) :
    Destination.Statement (.slt rd rs1 rs2) :=
  ⟨fun h => (nomatch h), fun h => by rcases h with h | h | h <;> cases h⟩

theorem Destination.sltu (rd : RegIdx) (rs1 : RegIdx) (rs2 : RegIdx) :
    Destination.Statement (.sltu rd rs1 rs2) :=
  ⟨fun h => (nomatch h), fun h => by rcases h with h | h | h <;> cases h⟩

theorem Destination.xor (rd : RegIdx) (rs1 : RegIdx) (rs2 : RegIdx) :
    Destination.Statement (.xor rd rs1 rs2) :=
  ⟨fun h => (nomatch h), fun h => by rcases h with h | h | h <;> cases h⟩

theorem Destination.srl (rd : RegIdx) (rs1 : RegIdx) (rs2 : RegIdx) :
    Destination.Statement (.srl rd rs1 rs2) :=
  ⟨fun h => (nomatch h), fun h => by rcases h with h | h | h <;> cases h⟩

theorem Destination.sra (rd : RegIdx) (rs1 : RegIdx) (rs2 : RegIdx) :
    Destination.Statement (.sra rd rs1 rs2) :=
  ⟨fun h => (nomatch h), fun h => by rcases h with h | h | h <;> cases h⟩

theorem Destination.or (rd : RegIdx) (rs1 : RegIdx) (rs2 : RegIdx) :
    Destination.Statement (.or rd rs1 rs2) :=
  ⟨fun h => (nomatch h), fun h => by rcases h with h | h | h <;> cases h⟩

theorem Destination.and (rd : RegIdx) (rs1 : RegIdx) (rs2 : RegIdx) :
    Destination.Statement (.and rd rs1 rs2) :=
  ⟨fun h => (nomatch h), fun h => by rcases h with h | h | h <;> cases h⟩

end Sys2Proof.Laws
end

