-- ==== Sys2Proof/Laws/Structures.lean ====
section
/-! SUPPORT. What the shared operations of the register file, the reorder buffer, the stations and the
load-store buffer do, each said once. -/

namespace Sys2Proof.Laws

-- One proof after the other, on one thread: each thread costs the check 256 MB of stack.
set_option Elab.async false

open Sys2Proof.Machine

/-! ## Register file -/

theorem value_setValue (rf : RegFile) (r q : RegIdx) (v : Word) :
    (rf.setValue r v).value q = if q = r then v else rf.value q := by
  simp only [RegFile.value, RegFile.setValue]
  by_cases h : q = r
  · subst h; simp
  · have h' : r.val ≠ q.val := fun e => h (Fin.ext e.symm)
    simp [h, h']

@[simp] theorem producer_setValue (rf : RegFile) (r q : RegIdx) (v : Word) :
    (rf.setValue r v).producer q = rf.producer q := rfl

theorem producer_setProducer (rf : RegFile) (r q : RegIdx) (t : Option Tag) :
    (rf.setProducer r t).producer q = if q = r then t else rf.producer q := by
  simp only [RegFile.producer, RegFile.setProducer]
  by_cases h : q = r
  · subst h; simp
  · have h' : r.val ≠ q.val := fun e => h (Fin.ext e.symm)
    simp [h, h']

@[simp] theorem value_setProducer (rf : RegFile) (r q : RegIdx) (t : Option Tag) :
    (rf.setProducer r t).value q = rf.value q := rfl

/-- Recording a producer changes no value (R128). -/
@[simp] theorem value_recordProducer (rf : RegFile) (d : Option RegIdx) (t : Tag) (q : RegIdx) :
    (rf.recordProducer d t).value q = rf.value q := by
  unfold RegFile.recordProducer
  split
  · rfl
  · split <;> rfl

/-- Recording a producer: the destination other than `x0` gets the tag (R128). -/
theorem producer_recordProducer (rf : RegFile) (d : Option RegIdx) (t : Tag) (q : RegIdx) :
    (rf.recordProducer d t).producer q = if d = some q ∧ q ≠ 0 then some t else rf.producer q := by
  unfold RegFile.recordProducer
  split
  · simp
  · rename_i r
    by_cases h0 : r = 0
    · subst h0
      by_cases hq : (0 : RegIdx) = q <;> simp [hq]
    · simp only [h0, if_false, producer_setProducer]
      by_cases hq : q = r
      · subst hq; simp [h0]
      · simp [hq, Ne.symm hq]

/-- A commit-bus entry's effect on the values (R262). -/
theorem value_acceptCommit (rf : RegFile) (t : Tag) (v : Word) (d : Option RegIdx) (q : RegIdx) :
    (rf.acceptCommit t v d).value q = if d = some q ∧ q ≠ 0 then v else rf.value q := by
  unfold RegFile.acceptCommit
  split
  · simp
  · rename_i r
    by_cases h0 : r = 0
    · subst h0
      by_cases hq : (0 : RegIdx) = q
      · subst hq; simp
      · simp [hq]
    · by_cases hq : q = r
      · subst hq
        simp only [h0, if_false]
        split <;> simp [value_setValue, h0]
      · simp only [h0, if_false]
        split <;> simp [value_setValue, hq, Ne.symm hq]

/-- A commit-bus entry's effect on the producer tags (R262). -/
theorem producer_acceptCommit (rf : RegFile) (t : Tag) (v : Word) (d : Option RegIdx) (q : RegIdx) :
    (rf.acceptCommit t v d).producer q =
      if d = some q ∧ q ≠ 0 ∧ rf.producer q = some t then none else rf.producer q := by
  unfold RegFile.acceptCommit
  split
  · simp
  · rename_i r
    by_cases h0 : r = 0
    · subst h0
      by_cases hq : (0 : RegIdx) = q
      · subst hq; simp
      · simp [hq]
    · by_cases hq : q = r
      · subst hq
        simp only [h0, if_false]
        split <;> simp_all [producer_setProducer]
      · simp only [h0, if_false]
        split <;> simp [producer_setProducer, hq, Ne.symm hq]

theorem value_forceZero (rf : RegFile) (q : RegIdx) :
    rf.forceZero.value q = if q = 0 then 0 else rf.value q := value_setValue rf 0 q 0

@[simp] theorem producer_forceZero (rf : RegFile) (q : RegIdx) :
    rf.forceZero.producer q = rf.producer q := rfl

@[simp] theorem value_clearTags (rf : RegFile) (q : RegIdx) : rf.clearTags.value q = rf.value q := rfl

@[simp] theorem producer_clearTags (rf : RegFile) (q : RegIdx) : rf.clearTags.producer q = none := by
  simp [RegFile.producer, RegFile.clearTags]

/-- Two register files with the same values and the same producers are equal. -/
theorem regFile_ext {a b : RegFile} (hv : ∀ r, a.value r = b.value r)
    (hp : ∀ r, a.producer r = b.producer r) : a = b := by
  cases a; cases b
  congr 1
  · ext i hi
    exact congrArg (BitVec.getLsbD · _) (hv ⟨i, hi⟩)
  · apply Vector.ext
    intro i hi
    exact hp ⟨i, hi⟩

/-! ## Reorder buffer -/

theorem entry_of_length_le {rob : Rob} {t : Tag} (h : rob.slots.length ≤ t) : rob.entry t = none := by
  simp [Rob.entry, List.getElem?_eq_none h]

/-- The entry in a slot after a slot has been written. -/
theorem entry_set (slots : List (Option RobEntry)) (head count head' count' : Nat) (n t : Tag)
    (e : Option RobEntry) :
    Rob.entry { slots := slots.set n e, head := head, count := count } t =
      if n = t ∧ t < slots.length then e
      else Rob.entry { slots := slots, head := head', count := count' } t := by
  simp only [Rob.entry, List.getElem?_set]
  by_cases h : n = t
  · subst h
    by_cases hl : n < slots.length
    · simp [hl]
    · simp [hl]
  · simp [h]

/-- A result-bus entry completes the unready entry of its tag and touches no other (R172). -/
theorem entry_acceptResult (rob : Rob) (b : ResultEntry) (t : Tag) :
    (rob.acceptResult b).entry t =
      (rob.entry t).map fun e =>
        if t = b.tag ∧ e.ready = false then e.complete b.value else e := by
  unfold Rob.acceptResult
  split
  · rename_i h
    by_cases ht : t = b.tag
    · subst ht; simp [h]
    · cases rob.entry t <;> simp [ht]
  · rename_i e h
    split
    · rename_i hr
      by_cases ht : t = b.tag
      · subst ht; simp [h, hr]
      · cases rob.entry t <;> simp [ht]
    · rename_i hr
      rw [entry_set (head' := rob.head) (count' := rob.count)]
      have hl : b.tag < rob.slots.length := by
        by_contra hc
        rw [entry_of_length_le (Nat.le_of_not_lt hc)] at h
        cases h
      by_cases ht : t = b.tag
      · subst ht
        simp [h, hl, hr]
      · have ht' : b.tag ≠ t := fun h' => ht h'.symm
        simp only [ht', false_and, if_false]
        change rob.entry t = _
        cases rob.entry t <;> simp [ht]

@[simp] theorem acceptResult_head (rob : Rob) (b : ResultEntry) : (rob.acceptResult b).head = rob.head := by
  unfold Rob.acceptResult; split
  · rfl
  · split <;> rfl

@[simp] theorem acceptResult_count (rob : Rob) (b : ResultEntry) :
    (rob.acceptResult b).count = rob.count := by
  unfold Rob.acceptResult; split
  · rfl
  · split <;> rfl

@[simp] theorem acceptResult_length (rob : Rob) (b : ResultEntry) :
    (rob.acceptResult b).slots.length = rob.slots.length := by
  unfold Rob.acceptResult; split
  · rfl
  · split <;> simp

@[simp] theorem checkBus_head (rob : Rob) (rb : List ResultEntry) : (rob.checkBus rb).head = rob.head := by
  unfold Rob.checkBus
  induction rb generalizing rob with
  | nil => rfl
  | cons b rest ih => simp [ih]

@[simp] theorem checkBus_count (rob : Rob) (rb : List ResultEntry) :
    (rob.checkBus rb).count = rob.count := by
  unfold Rob.checkBus
  induction rb generalizing rob with
  | nil => rfl
  | cons b rest ih => simp [ih]

@[simp] theorem checkBus_length (rob : Rob) (rb : List ResultEntry) :
    (rob.checkBus rb).slots.length = rob.slots.length := by
  unfold Rob.checkBus
  induction rb generalizing rob with
  | nil => rfl
  | cons b rest ih => simp [ih]

/-- What `ROB.checkBus` makes of an entry: the first result-bus entry with its tag completes it, if it
is not ready (R172). -/
def RobEntry.afterBus (rb : List ResultEntry) (t : Tag) (e : RobEntry) : RobEntry :=
  if e.ready then e
  else
    match rb.find? (fun b => decide (b.tag = t)) with
    | none => e
    | some b => e.complete b.value

@[simp] theorem complete_ready (e : RobEntry) (v : Word) : (e.complete v).ready = true := rfl

theorem entry_checkBus (rob : Rob) (rb : List ResultEntry) (t : Tag) :
    (rob.checkBus rb).entry t = (rob.entry t).map (RobEntry.afterBus rb t) := by
  unfold Rob.checkBus
  induction rb generalizing rob with
  | nil =>
    rw [List.foldl_nil]
    cases rob.entry t with
    | none => rfl
    | some e => simp [RobEntry.afterBus]
  | cons b rest ih =>
    rw [List.foldl_cons, ih, entry_acceptResult]
    cases rob.entry t with
    | none => rfl
    | some e =>
      simp only [Option.map_some, Option.some.injEq]
      by_cases hr : e.ready
      · simp [RobEntry.afterBus, hr]
      · by_cases ht : b.tag = t
        · simp [RobEntry.afterBus, hr, ht]
        · have ht' : t ≠ b.tag := fun h => ht h.symm
          simp [RobEntry.afterBus, hr, ht, ht']

/-- `ROB.checkBus` keeps what an entry is; it only completes it (R172). -/
theorem afterBus_keeps (rb : List ResultEntry) (t : Tag) (e : RobEntry) :
    (RobEntry.afterBus rb t e).pc = e.pc ∧ (RobEntry.afterBus rb t e).tag = e.tag ∧
      (RobEntry.afterBus rb t e).op = e.op ∧ (RobEntry.afterBus rb t e).dest = e.dest := by
  unfold RobEntry.afterBus
  split
  · exact ⟨rfl, rfl, rfl, rfl⟩
  · split <;> exact ⟨rfl, rfl, rfl, rfl⟩

theorem afterBus_ready {rb : List ResultEntry} {t : Tag} {e : RobEntry} (h : e.ready = true) :
    RobEntry.afterBus rb t e = e := by simp [RobEntry.afterBus, h]

/-! ## Stations -/

/-- The slot the arithmetic station issues into is the first free one (R193). -/
theorem firstFree_some {rsa : List (Option (RsEntry ArithKind))} {n : Nat} (h : firstFree rsa = some n) :
    rsa[n]? = some none ∧ ∀ m, m < n → rsa[m]? ≠ some none := by
  induction rsa generalizing n with
  | nil => cases h
  | cons x rest ih =>
    cases x with
    | none =>
      simp only [firstFree, Option.some.injEq] at h
      subst h
      exact ⟨rfl, fun m hm => absurd hm (Nat.not_lt_zero m)⟩
    | some e =>
      simp only [firstFree, Option.map_eq_some_iff] at h
      obtain ⟨k, hk, rfl⟩ := h
      obtain ⟨h1, h2⟩ := ih hk
      refine ⟨by simpa using h1, fun m hm => ?_⟩
      cases m with
      | zero => simp
      | succ m => simpa using h2 m (by omega)

theorem firstFree_none {rsa : List (Option (RsEntry ArithKind))} (h : firstFree rsa = none) (n : Nat) :
    rsa[n]? ≠ some none := by
  induction rsa generalizing n with
  | nil => simp
  | cons x rest ih =>
    cases x with
    | none => cases h
    | some e =>
      simp only [firstFree, Option.map_eq_none_iff] at h
      cases n with
      | zero => simp
      | succ n => simpa using ih h n

/-- The entry the arithmetic station executes is the lowest-numbered resolved one (R194). -/
theorem rsaSelect_some {rsa : List (Option (RsEntry ArithKind))} {n : Nat} {e : RsEntry ArithKind}
    (h : rsaSelect rsa = some (n, e)) :
    rsa[n]? = some (some e) ∧ e.resolved = true ∧
      ∀ m, m < n → ∀ e', rsa[m]? = some (some e') → e'.resolved = false := by
  induction rsa generalizing n with
  | nil => cases h
  | cons x rest ih =>
    have step : ∀ {k : Nat}, rsaSelect rest = some (k, e) → n = k + 1 →
        (∀ e', x = some e' → e'.resolved = false) →
        (x :: rest)[n]? = some (some e) ∧ e.resolved = true ∧
          ∀ m, m < n → ∀ e', (x :: rest)[m]? = some (some e') → e'.resolved = false := by
      intro k hk hn hx
      subst hn
      obtain ⟨h1, h2, h3⟩ := ih hk
      refine ⟨by simpa using h1, h2, fun m hm e' he' => ?_⟩
      cases m with
      | zero => exact hx e' (by simpa using he')
      | succ m => exact h3 m (by omega) e' (by simpa using he')
    cases x with
    | none =>
      simp only [rsaSelect, Option.map_eq_some_iff, Prod.mk.injEq] at h
      obtain ⟨⟨k, e'⟩, hk, hn, he⟩ := h
      simp only at hn he
      subst he
      exact step hk hn.symm (by simp)
    | some y =>
      simp only [rsaSelect] at h
      split at h
      · rename_i hy
        simp only [Option.some.injEq, Prod.mk.injEq] at h
        obtain ⟨rfl, rfl⟩ := h
        exact ⟨rfl, hy, fun m hm => absurd hm (Nat.not_lt_zero m)⟩
      · rename_i hy
        simp only [Option.map_eq_some_iff, Prod.mk.injEq] at h
        obtain ⟨⟨k, e'⟩, hk, hn, he⟩ := h
        simp only at hn he
        subst he
        exact step hk hn.symm (fun e' he' => by cases he'; simpa using hy)

theorem rsaSelect_none {rsa : List (Option (RsEntry ArithKind))} (h : rsaSelect rsa = none) (n : Nat)
    (e : RsEntry ArithKind) (he : rsa[n]? = some (some e)) : e.resolved = false := by
  induction rsa generalizing n with
  | nil => simp at he
  | cons x rest ih =>
    cases x with
    | none =>
      simp only [rsaSelect, Option.map_eq_none_iff] at h
      cases n with
      | zero => simp at he
      | succ n => exact ih h n (by simpa using he)
    | some y =>
      simp only [rsaSelect] at h
      split at h
      · cases h
      · rename_i hy
        simp only [Option.map_eq_none_iff] at h
        cases n with
        | zero =>
          simp only [List.getElem?_cons_zero, Option.some.injEq] at he
          subst he
          simpa using hy
        | succ n => exact ih h n (by simpa using he)

/-- The load scan passes only loads whose base is unresolved (R198). -/
theorem loadScan_some {rsm : List (RsEntry MemKind)} {e : RsEntry MemKind} (h : loadScan rsm = some e) :
    (∃ k, e.op = .load k) ∧ e.qj = none ∧
      ∃ older younger, rsm = older ++ e :: younger ∧
        ∀ x ∈ older, (∃ l, x.op = .load l) ∧ x.qj ≠ none := by
  induction rsm with
  | nil => cases h
  | cons x rest ih =>
    unfold loadScan at h
    split at h
    · cases h
    · rename_i k hk
      split at h
      · rename_i hq
        cases h
        exact ⟨⟨k, hk⟩, by simpa using hq, [], rest, rfl, by simp⟩
      · rename_i hq
        obtain ⟨h1, h2, older, younger, rfl, h4⟩ := ih h
        refine ⟨h1, h2, x :: older, younger, rfl, ?_⟩
        simp only [List.mem_cons, forall_eq_or_imp]
        exact ⟨⟨⟨k, hk⟩, by simpa using hq⟩, h4⟩

/-- What the memory station dispatches: its oldest entry, a resolved store; or a load past older loads
whose base is unresolved (R197, R198). -/
theorem rsmSelect_some {rsm : List (RsEntry MemKind)} {e : RsEntry MemKind} (h : rsmSelect rsm = some e) :
    ((∃ k, e.op = .store k) ∧ e.resolved = true ∧ ∃ rest, rsm = e :: rest) ∨
      ((∃ k, e.op = .load k) ∧ e.qj = none ∧
        ∃ older younger, rsm = older ++ e :: younger ∧
          ∀ x ∈ older, (∃ l, x.op = .load l) ∧ x.qj ≠ none) := by
  cases rsm with
  | nil => cases h
  | cons x rest =>
    unfold rsmSelect at h
    simp only at h
    split at h
    · rename_i k hk
      split at h
      · cases h
        exact .inl ⟨⟨k, hk⟩, ‹_›, rest, rfl⟩
      · cases h
    · exact .inr (loadScan_some h)

/-- Wake-up changes only operands (R200). -/
@[simp] theorem wake_tag {κ : Type} (rb : List ResultEntry) (cb : List CommitEntry) (e : RsEntry κ) :
    (e.wake rb cb).tag = e.tag := rfl

@[simp] theorem wake_op {κ : Type} (rb : List ResultEntry) (cb : List CommitEntry) (e : RsEntry κ) :
    (e.wake rb cb).op = e.op := rfl

@[simp] theorem wake_pc {κ : Type} (rb : List ResultEntry) (cb : List CommitEntry) (e : RsEntry κ) :
    (e.wake rb cb).pc = e.pc := rfl

@[simp] theorem wake_imm {κ : Type} (rb : List ResultEntry) (cb : List CommitEntry) (e : RsEntry κ) :
    (e.wake rb cb).imm = e.imm := rfl

/-- A resolved operand stays as it is (R200). -/
@[simp] theorem wakeOperand_none (rb : List ResultEntry) (cb : List CommitEntry) (v : Word) :
    wakeOperand rb cb v none = (v, none) := rfl

/-- An operand's tag after wake-up is the old one or gone (R200). -/
theorem wakeOperand_tag (rb : List ResultEntry) (cb : List CommitEntry) (v : Word) (q : Option Tag) :
    (wakeOperand rb cb v q).2 = none ∨ (wakeOperand rb cb v q).2 = q := by
  unfold wakeOperand
  split
  · exact .inl rfl
  · split
    · exact .inl rfl
    · split
      · exact .inl rfl
      · exact .inr rfl

/-- Everything that can become of a waiting operand (R200, R201): the value of a waking result-bus entry
with its tag, else that of a commit-bus entry with its tag and a destination, else it waits on and
neither bus has such an entry. -/
theorem wakeOperand_some (rb : List ResultEntry) (cb : List CommitEntry) (v : Word) (p : Tag) :
    (∃ b ∈ rb, b.tag = p ∧ b.wake = true ∧ wakeOperand rb cb v (some p) = (b.value, none)) ∨
    ((∀ b ∈ rb, b.tag = p → b.wake = false) ∧
      ((∃ b ∈ cb, b.tag = p ∧ b.dest.isSome = true ∧
          wakeOperand rb cb v (some p) = (b.value, none)) ∨
        ((∀ b ∈ cb, b.tag = p → b.dest.isSome = false) ∧
          wakeOperand rb cb v (some p) = (v, some p)))) := by
  cases hr : rb.find? (fun b => decide (b.tag = p) && b.wake) with
  | some b =>
    have hb := List.find?_some hr
    simp only [Bool.and_eq_true, decide_eq_true_eq] at hb
    exact .inl ⟨b, List.mem_of_find?_eq_some hr, hb.1, hb.2, by simp [wakeOperand, hr]⟩
  | none =>
    refine .inr ⟨fun b hb ht => by simpa [ht] using List.find?_eq_none.1 hr b hb, ?_⟩
    cases hc : cb.find? (fun b => decide (b.tag = p) && b.dest.isSome) with
    | some b =>
      have hb := List.find?_some hc
      simp only [Bool.and_eq_true, decide_eq_true_eq] at hb
      exact .inl ⟨b, List.mem_of_find?_eq_some hc, hb.1, hb.2, by simp [wakeOperand, hr, hc]⟩
    | none =>
      exact .inr ⟨fun b hb ht => by simpa [ht] using List.find?_eq_none.1 hc b hb,
        by simp [wakeOperand, hr, hc]⟩

/-! ## Load-store buffer -/

/-- `LSB.checkBus` changes only the readiness of an entry (R228). -/
theorem markReady_keeps (cb : List CommitEntry) (x : LsbEntry) :
    (x.markReady cb).op = x.op ∧ (x.markReady cb).addr = x.addr ∧ (x.markReady cb).value = x.value ∧
      (x.markReady cb).tag = x.tag := by
  unfold LsbEntry.markReady
  split
  · exact ⟨rfl, rfl, rfl, rfl⟩
  · split <;> exact ⟨rfl, rfl, rfl, rfl⟩

theorem markReady_ready {cb : List CommitEntry} {x : LsbEntry} (h : x.ready = true) :
    x.markReady cb = x := by simp [LsbEntry.markReady, h]

/-- The nearest overlapping store: the youngest overlapping entry (R224). -/
theorem nearestStore_some {q : List LsbEntry} {a : Word} {n : Nat} {x : LsbEntry}
    (h : nearestStore q a n = some x) :
    ∃ older younger, q = older ++ x :: younger ∧ x.overlaps a n = true ∧
      ∀ y ∈ younger, y.overlaps a n = false := by
  unfold nearestStore at h
  rw [List.find?_eq_some_iff_append] at h
  obtain ⟨hx, as, bs, hq, hy⟩ := h
  refine ⟨bs.reverse, as.reverse, ?_, hx, fun y hy' => by simpa using hy y (by simpa using hy')⟩
  rw [← List.reverse_reverse q, hq]
  simp

theorem nearestStore_none {q : List LsbEntry} {a : Word} {n : Nat} (h : nearestStore q a n = none)
    (x : LsbEntry) (hx : x ∈ q) : x.overlaps a n = false := by
  unfold nearestStore at h
  rw [List.find?_eq_none] at h
  simpa using h x (by simpa using hx)

/-- The committed stores of a queue are applied oldest first, and nothing else is (R80, R461). -/
@[simp] theorem pendingApplied_nil (m : Memory) : pendingApplied [] m = m := rfl

theorem pendingApplied_cons (x : LsbEntry) (q : List LsbEntry) (m : Memory) :
    pendingApplied (x :: q) m =
      pendingApplied q
        (if x.committedStore then m.writeLE x.addr.toNat x.op.width x.value else m) := by
  cases hx : x.op <;> simp [pendingApplied, LsbEntry.committedStore, MemKind.width, hx]

/-- An entry that overlaps is a store (R224). -/
theorem overlaps_store {x : LsbEntry} {a : Word} {n : Nat} (h : x.overlaps a n = true) :
    ∃ k, x.op = .store k := by
  unfold LsbEntry.overlaps at h
  split at h
  · cases h
  · exact ⟨_, ‹_›⟩

end Sys2Proof.Laws
end

