-- ==== Sys2Proof/Tests/Slice0.lean ====
section
/-! SUPPORT. The model's own tests. The words, values and decisions are those of the spec's
95_test_vectors.md (sections 2.1 to 2.6, 4 and 5) and of the examples in its rules; the states are
small machines made by `machine` and `after`. The last part has, for every obligation with
hypotheses, a theorem `witness_<name>` with a state and operands that meet them all. -/

namespace Sys2Proof.Tests

-- One proof after the other, on one thread: each thread costs the check 256 MB of stack.
set_option Elab.async false

open Sys2Proof.Machine

/-! ## Ill-formed terms are refused -/

theorem test_beq_odd_offset_refused : (Instr.beq 5 6 9).wellFormed = false := by decide

theorem test_bne_odd_offset_refused : (Instr.bne 5 6 9).wellFormed = false := by decide

theorem test_blt_odd_offset_refused : (Instr.blt 5 6 9).wellFormed = false := by decide

theorem test_bge_odd_offset_refused : (Instr.bge 5 6 9).wellFormed = false := by decide

theorem test_bltu_odd_offset_refused : (Instr.bltu 5 6 9).wellFormed = false := by decide

theorem test_bgeu_odd_offset_refused : (Instr.bgeu 5 6 9).wellFormed = false := by decide

theorem test_jal_odd_offset_refused : (Instr.jal 1 17).wellFormed = false := by decide

theorem test_marker_is_no_addi : (Instr.addi 10 0 255).wellFormed = false := by decide

theorem test_other_addi_255_accepted : (Instr.addi 10 10 255).wellFormed = true := by decide

/-! ## Decoding (section 2.1), one theorem per instruction -/

theorem test_decode_halt :
    decodeWord 0x0ff00513#32 = .ok (.halt) := by decide

theorem test_decode_addi :
    decodeWord 0x00500513#32 = .ok (.addi 10 0 5) ∧
    decodeWord 0x0ff50513#32 = .ok (.addi 10 10 255) ∧
    decodeWord 0x00000013#32 = .ok (.addi 0 0 0) ∧
    decodeWord 0xfff30293#32 = .ok (.addi 5 6 (-1)) := by decide

theorem test_decode_lui :
    decodeWord 0xabcde2b7#32 = .ok (.lui 5 0xabcde#20) := by decide

theorem test_decode_auipc :
    decodeWord 0x00001297#32 = .ok (.auipc 5 0x00001#20) := by decide

theorem test_decode_jal :
    decodeWord 0x010000ef#32 = .ok (.jal 1 16) ∧
    decodeWord 0xffdff06f#32 = .ok (.jal 0 (-4)) := by decide

theorem test_decode_jalr :
    decodeWord 0x00008067#32 = .ok (.jalr 0 1 0) ∧
    decodeWord 0xffe280e7#32 = .ok (.jalr 1 5 (-2)) := by decide

theorem test_decode_beq :
    decodeWord 0x00628463#32 = .ok (.beq 5 6 8) ∧
    decodeWord 0x80000063#32 = .ok (.beq 0 0 (-4096)) ∧
    decodeWord 0x7e000fe3#32 = .ok (.beq 0 0 4094) := by decide

theorem test_decode_bne :
    decodeWord 0x00629463#32 = .ok (.bne 5 6 8) ∧
    decodeWord 0xfe009ce3#32 = .ok (.bne 1 0 (-8)) := by decide

theorem test_decode_blt :
    decodeWord 0x0062c463#32 = .ok (.blt 5 6 8) := by decide

theorem test_decode_bge :
    decodeWord 0x0062d463#32 = .ok (.bge 5 6 8) := by decide

theorem test_decode_bltu :
    decodeWord 0x0062e463#32 = .ok (.bltu 5 6 8) := by decide

theorem test_decode_bgeu :
    decodeWord 0x0062f463#32 = .ok (.bgeu 5 6 8) := by decide

theorem test_decode_lb :
    decodeWord 0x00008183#32 = .ok (.lb 3 1 0) := by decide

theorem test_decode_lh :
    decodeWord 0x00209283#32 = .ok (.lh 5 1 2) := by decide

theorem test_decode_lw :
    decodeWord 0x0000a383#32 = .ok (.lw 7 1 0) ∧
    decodeWord 0xffc0a383#32 = .ok (.lw 7 1 (-4)) ∧
    decodeWord 0x7ff0a383#32 = .ok (.lw 7 1 2047) := by decide

theorem test_decode_lbu :
    decodeWord 0x0000c203#32 = .ok (.lbu 4 1 0) := by decide

theorem test_decode_lhu :
    decodeWord 0x0000d303#32 = .ok (.lhu 6 1 0) := by decide

theorem test_decode_sb :
    decodeWord 0x00208023#32 = .ok (.sb 1 2 0) := by decide

theorem test_decode_sh :
    decodeWord 0x00209123#32 = .ok (.sh 1 2 2) ∧
    decodeWord 0xfe209f23#32 = .ok (.sh 1 2 (-2)) := by decide

theorem test_decode_sw :
    decodeWord 0x0020a023#32 = .ok (.sw 1 2 0) ∧
    decodeWord 0x8020a023#32 = .ok (.sw 1 2 (-2048)) := by decide

theorem test_decode_slti :
    decodeWord 0xfff32293#32 = .ok (.slti 5 6 (-1)) := by decide

theorem test_decode_sltiu :
    decodeWord 0xfff33293#32 = .ok (.sltiu 5 6 (-1)) := by decide

theorem test_decode_xori :
    decodeWord 0xfff34293#32 = .ok (.xori 5 6 (-1)) := by decide

theorem test_decode_ori :
    decodeWord 0x0f036293#32 = .ok (.ori 5 6 240) := by decide

theorem test_decode_andi :
    decodeWord 0x0f037293#32 = .ok (.andi 5 6 240) := by decide

theorem test_decode_slli :
    decodeWord 0x00431293#32 = .ok (.slli 5 6 4) ∧
    decodeWord 0x01f31293#32 = .ok (.slli 5 6 31) := by decide

theorem test_decode_srli :
    decodeWord 0x00435293#32 = .ok (.srli 5 6 4) := by decide

theorem test_decode_srai :
    decodeWord 0x40435293#32 = .ok (.srai 5 6 4) := by decide

theorem test_decode_add :
    decodeWord 0x007302b3#32 = .ok (.add 5 6 7) := by decide

theorem test_decode_sub :
    decodeWord 0x407302b3#32 = .ok (.sub 5 6 7) ∧
    decodeWord 0x40000033#32 = .ok (.sub 0 0 0) := by decide

theorem test_decode_sll :
    decodeWord 0x007312b3#32 = .ok (.sll 5 6 7) := by decide

theorem test_decode_slt :
    decodeWord 0x007322b3#32 = .ok (.slt 5 6 7) := by decide

theorem test_decode_sltu :
    decodeWord 0x007332b3#32 = .ok (.sltu 5 6 7) := by decide

theorem test_decode_xor :
    decodeWord 0x007342b3#32 = .ok (.xor 5 6 7) := by decide

theorem test_decode_srl :
    decodeWord 0x007352b3#32 = .ok (.srl 5 6 7) := by decide

theorem test_decode_sra :
    decodeWord 0x407352b3#32 = .ok (.sra 5 6 7) := by decide

theorem test_decode_or :
    decodeWord 0x007362b3#32 = .ok (.or 5 6 7) := by decide

theorem test_decode_and :
    decodeWord 0x007372b3#32 = .ok (.and 5 6 7) := by decide

/-- The decoder refuses a word. -/
def refused (w : Word) : Bool :=
  match decodeWord w with
  | .ok _ => false
  | .error _ => true

/-- The unrecognized words of section 2.1. -/
theorem test_unrecognized_words :
    List.all [0x00000000#32, 0xffffffff#32, 0x0000000f#32, 0x0000100f#32, 0x00000073#32, 0x00100073#32,
      0x30200073#32, 0x10500073#32, 0xc0002573#32, 0x02730333#32, 0x00002063#32, 0x00003063#32,
      0x00009067#32, 0x00003003#32, 0x00006003#32, 0x00007003#32, 0x00003023#32, 0x02001013#32,
      0x40001013#32, 0x20005013#32, 0x40001033#32, 0x00000001#32, 0x00004501#32, 0x0000006b#32] refused = true := by decide +kernel

/-- The encoder gives the same words back, and the host's reading of them decodes. -/
theorem test_encode_words :
    encode (.jal 0 (-4)) = 0xffdff06f#32 ∧ encode (.bne 1 0 (-8)) = 0xfe009ce3#32 ∧
    encode (.sh 1 2 (-2)) = 0xfe209f23#32 ∧ encode .halt = 0x0ff00513#32 ∧
    decodeTableWord 32 0x40435293 = some (.srai 5 6 4) ∧ decodeTableWord 32 0 = none := by decide

/-! ## Values (sections 2.2 to 2.4), one theorem per instruction -/

theorem test_value_add :
    regAlu .add 0x7fffffff#32 0x00000001#32 = 0x80000000#32 ∧
    regAlu .add 0xffffffff#32 0x00000001#32 = 0x00000000#32 ∧
    regAlu .add 0x80000000#32 0x80000000#32 = 0x00000000#32 := by decide

theorem test_value_sub :
    regAlu .sub 0x00000000#32 0x00000001#32 = 0xffffffff#32 ∧
    regAlu .sub 0x80000000#32 0x00000001#32 = 0x7fffffff#32 ∧
    regAlu .sub 0x00000005#32 0x00000005#32 = 0x00000000#32 := by decide

theorem test_value_sll :
    regAlu .sll 0x00000001#32 0x0000001f#32 = 0x80000000#32 ∧
    regAlu .sll 0x00000001#32 0x00000020#32 = 0x00000001#32 ∧
    regAlu .sll 0x00000001#32 0x00000021#32 = 0x00000002#32 ∧
    regAlu .sll 0x00000003#32 0xffffffff#32 = 0x80000000#32 := by decide

theorem test_value_srl :
    regAlu .srl 0x80000000#32 0x00000004#32 = 0x08000000#32 ∧
    regAlu .srl 0xf0000000#32 0x00000024#32 = 0x0f000000#32 ∧
    regAlu .srl 0xffffffff#32 0x0000001f#32 = 0x00000001#32 := by decide

theorem test_value_sra :
    regAlu .sra 0x80000000#32 0x00000004#32 = 0xf8000000#32 ∧
    regAlu .sra 0x80000000#32 0x0000001f#32 = 0xffffffff#32 ∧
    regAlu .sra 0xf0000000#32 0x00000024#32 = 0xff000000#32 ∧
    regAlu .sra 0x7fffffff#32 0x0000001f#32 = 0x00000000#32 := by decide

theorem test_value_slt :
    regAlu .slt 0x80000000#32 0x7fffffff#32 = 0x00000001#32 ∧
    regAlu .slt 0x7fffffff#32 0x80000000#32 = 0x00000000#32 ∧
    regAlu .slt 0x00000005#32 0x00000005#32 = 0x00000000#32 ∧
    regAlu .slt 0xffffffff#32 0x00000000#32 = 0x00000001#32 := by decide

theorem test_value_sltu :
    regAlu .sltu 0x80000000#32 0x7fffffff#32 = 0x00000000#32 ∧
    regAlu .sltu 0x00000000#32 0x00000001#32 = 0x00000001#32 ∧
    regAlu .sltu 0xffffffff#32 0x00000000#32 = 0x00000000#32 ∧
    regAlu .sltu 0x00000005#32 0x00000005#32 = 0x00000000#32 := by decide

theorem test_value_xor :
    regAlu .xor 0xff00ff00#32 0x0ff00ff0#32 = 0xf0f0f0f0#32 := by decide

theorem test_value_or :
    regAlu .or 0xff00ff00#32 0x0ff00ff0#32 = 0xfff0fff0#32 := by decide

theorem test_value_and :
    regAlu .and 0xff00ff00#32 0x0ff00ff0#32 = 0x0f000f00#32 := by decide

theorem test_value_addi :
    immAlu .addi 0x7fffffff#32 0x00000001#32 = 0x80000000#32 ∧
    immAlu .addi 0x00000000#32 0xffffffff#32 = 0xffffffff#32 ∧
    immAlu .addi 0x00000100#32 0xfffff800#32 = 0xfffff900#32 := by decide

theorem test_value_slti :
    immAlu .slti 0x80000000#32 0xffffffff#32 = 0x00000001#32 ∧
    immAlu .slti 0x00000000#32 0xffffffff#32 = 0x00000000#32 ∧
    immAlu .slti 0xfffffffe#32 0xffffffff#32 = 0x00000001#32 := by decide

theorem test_value_sltiu :
    immAlu .sltiu 0x00000005#32 0xffffffff#32 = 0x00000001#32 ∧
    immAlu .sltiu 0xffffffff#32 0xffffffff#32 = 0x00000000#32 ∧
    immAlu .sltiu 0x00000000#32 0x00000001#32 = 0x00000001#32 ∧
    immAlu .sltiu 0x00000000#32 0x00000000#32 = 0x00000000#32 := by decide

theorem test_value_xori :
    immAlu .xori 0x12345678#32 0xffffffff#32 = 0xedcba987#32 := by decide

theorem test_value_ori :
    immAlu .ori 0x12345678#32 0x000000f0#32 = 0x123456f8#32 := by decide

theorem test_value_andi :
    immAlu .andi 0x12345678#32 0x000000f0#32 = 0x00000070#32 ∧
    immAlu .andi 0x12345678#32 0xfffffff0#32 = 0x12345670#32 := by decide

theorem test_value_slli :
    immAlu .slli 0x00000001#32 0x0000001f#32 = 0x80000000#32 ∧
    immAlu .slli 0xffffffff#32 0x00000000#32 = 0xffffffff#32 := by decide

theorem test_value_srli :
    immAlu .srli 0x80000000#32 0x00000004#32 = 0x08000000#32 ∧
    immAlu .srli 0x80000000#32 0x0000001f#32 = 0x00000001#32 := by decide

theorem test_value_srai :
    immAlu .srai 0x80000000#32 0x00000004#32 = 0xf8000000#32 ∧
    immAlu .srai 0x80000000#32 0x0000001f#32 = 0xffffffff#32 ∧
    immAlu .srai 0x40000000#32 0x0000001e#32 = 0x00000001#32 := by decide

theorem test_condition_beq :
    branchCond .beq 0x00000000#32 0x00000000#32 = true ∧
    branchCond .beq 0x00000005#32 0x00000005#32 = true ∧
    branchCond .beq 0x00000005#32 0x00000006#32 = false ∧
    branchCond .beq 0x00000006#32 0x00000005#32 = false ∧
    branchCond .beq 0xffffffff#32 0x00000001#32 = false ∧
    branchCond .beq 0x00000001#32 0xffffffff#32 = false ∧
    branchCond .beq 0x80000000#32 0x7fffffff#32 = false ∧
    branchCond .beq 0x7fffffff#32 0x80000000#32 = false := by decide

theorem test_condition_bne :
    branchCond .bne 0x00000000#32 0x00000000#32 = false ∧
    branchCond .bne 0x00000005#32 0x00000005#32 = false ∧
    branchCond .bne 0x00000005#32 0x00000006#32 = true ∧
    branchCond .bne 0x00000006#32 0x00000005#32 = true ∧
    branchCond .bne 0xffffffff#32 0x00000001#32 = true ∧
    branchCond .bne 0x00000001#32 0xffffffff#32 = true ∧
    branchCond .bne 0x80000000#32 0x7fffffff#32 = true ∧
    branchCond .bne 0x7fffffff#32 0x80000000#32 = true := by decide

theorem test_condition_blt :
    branchCond .blt 0x00000000#32 0x00000000#32 = false ∧
    branchCond .blt 0x00000005#32 0x00000005#32 = false ∧
    branchCond .blt 0x00000005#32 0x00000006#32 = true ∧
    branchCond .blt 0x00000006#32 0x00000005#32 = false ∧
    branchCond .blt 0xffffffff#32 0x00000001#32 = true ∧
    branchCond .blt 0x00000001#32 0xffffffff#32 = false ∧
    branchCond .blt 0x80000000#32 0x7fffffff#32 = true ∧
    branchCond .blt 0x7fffffff#32 0x80000000#32 = false := by decide

theorem test_condition_bge :
    branchCond .bge 0x00000000#32 0x00000000#32 = true ∧
    branchCond .bge 0x00000005#32 0x00000005#32 = true ∧
    branchCond .bge 0x00000005#32 0x00000006#32 = false ∧
    branchCond .bge 0x00000006#32 0x00000005#32 = true ∧
    branchCond .bge 0xffffffff#32 0x00000001#32 = false ∧
    branchCond .bge 0x00000001#32 0xffffffff#32 = true ∧
    branchCond .bge 0x80000000#32 0x7fffffff#32 = false ∧
    branchCond .bge 0x7fffffff#32 0x80000000#32 = true := by decide

theorem test_condition_bltu :
    branchCond .bltu 0x00000000#32 0x00000000#32 = false ∧
    branchCond .bltu 0x00000005#32 0x00000005#32 = false ∧
    branchCond .bltu 0x00000005#32 0x00000006#32 = true ∧
    branchCond .bltu 0x00000006#32 0x00000005#32 = false ∧
    branchCond .bltu 0xffffffff#32 0x00000001#32 = false ∧
    branchCond .bltu 0x00000001#32 0xffffffff#32 = true ∧
    branchCond .bltu 0x80000000#32 0x7fffffff#32 = false ∧
    branchCond .bltu 0x7fffffff#32 0x80000000#32 = true := by decide

theorem test_condition_bgeu :
    branchCond .bgeu 0x00000000#32 0x00000000#32 = true ∧
    branchCond .bgeu 0x00000005#32 0x00000005#32 = true ∧
    branchCond .bgeu 0x00000005#32 0x00000006#32 = false ∧
    branchCond .bgeu 0x00000006#32 0x00000005#32 = true ∧
    branchCond .bgeu 0xffffffff#32 0x00000001#32 = true ∧
    branchCond .bgeu 0x00000001#32 0xffffffff#32 = false ∧
    branchCond .bgeu 0x80000000#32 0x7fffffff#32 = true ∧
    branchCond .bgeu 0x7fffffff#32 0x80000000#32 = false := by decide

/-- The targets of section 2.4. -/
theorem test_branch_targets :
    branchTarget .bne 4#32 0#32 0x10#32 (-8) = 0x8#32 ∧
    branchTarget .bne 0#32 0#32 0x10#32 (-8) = 0x14#32 ∧
    branchTarget .beq 0#32 0#32 0#32 8 = 8#32 ∧
    branchTarget .blt 0xffffffff#32 0#32 0x800#32 (-4096) = 0xfffff800#32 ∧
    branchTarget .beq 1#32 2#32 0x20#32 4 = 0x24#32 ∧
    branchTarget .beq 1#32 1#32 0x20#32 4 = 0x24#32 := by decide

/-- LUI and AUIPC (section 2.3). -/
theorem test_value_upper :
    stationImm .lui (recordU .lui 5 0xabcde#20).imm 0x44#32 = 0xabcde000#32 ∧
    stationImm .auipc (recordU .auipc 5 0x1#20).imm 0x100#32 = 0x1100#32 ∧
    stationImm .auipc (recordU .auipc 5 0xfffff#20).imm 0x100#32 = 0xfffff100#32 ∧
    stationImm .auipc (recordU .auipc 5 0x1#20).imm 0xfffff004#32 = 0x4#32 := by decide

/-- JALR clears bit 0 of the sum (R341, section 2.5). -/
theorem test_jalr_target :
    jalrTarget 0x103#32 (-2) = 0x100#32 ∧ jalrTarget 0x101#32 3 = 0x104#32 ∧
    jalrTarget 0x100#32 3 = 0x102#32 := by decide

/-! ## Memory (section 2.6) -/

/-- The bytes `98 ba dc fe 11` from `0x200` on. -/
def bytes : Memory := [(0x200, 0x98), (0x201, 0xba), (0x202, 0xdc), (0x203, 0xfe), (0x204, 0x11)]

theorem test_load_values :
    loadExtend .lb (bytes.readLE 0x200 1) = 0xffffff98#32 ∧
    loadExtend .lb (bytes.readLE 0x201 1) = 0xffffffba#32 ∧
    loadExtend .lbu (bytes.readLE 0x203 1) = 0x000000fe#32 ∧
    loadExtend .lh (bytes.readLE 0x200 2) = 0xffffba98#32 ∧
    loadExtend .lh (bytes.readLE 0x201 2) = 0xffffdcba#32 ∧
    loadExtend .lhu (bytes.readLE 0x202 2) = 0x0000fedc#32 ∧
    loadExtend .lw (bytes.readLE 0x200 4) = 0xfedcba98#32 ∧
    loadExtend .lw (bytes.readLE 0x201 4) = 0x11fedcba#32 ∧
    loadExtend .lw (bytes.readLE 0x1fc 4) = 0#32 := by decide

theorem test_store_bytes :
    Memory.writeLE [] 0x200 1 (storeData .sb 0xfedcba98#32) = [(0x200, 0x98)] ∧
    Memory.writeLE [] 0x202 2 (storeData .sh 0xfedcba98#32) = [(0x202, 0x98), (0x203, 0xba)] ∧
    Memory.writeLE [] 0x201 4 (storeData .sw 0xfedcba98#32) =
      [(0x201, 0x98), (0x202, 0xba), (0x203, 0xdc), (0x204, 0xfe)] ∧
    (bytes.writeLE 0x201 1 0).readLE 0x200 4 = 0xfedc0098#32 ∧ (bytes.writeLE 0x201 1 0).wf = true := by
  decide

/-- A store entry of a buffer. -/
def st (k : StoreKind) (a v : Word) : LsbEntry :=
  { op := .store k, addr := a, value := v, tag := 0, ready := false }

/-- What a load of the kind at the address forwards from the buffer, if anything (R224, R225). -/
def forwarded (q : List LsbEntry) (k : LoadKind) (a : Word) : Option Word :=
  match nearestStore q a k.width with
  | none => none
  | some x =>
    if rangeCovers x.addr.toNat x.op.width a.toNat k.width then some (forwardValue k a x) else none

/-- The decisions V-F1 to V-F14. -/
theorem test_forwarding :
    forwarded [st .sb 0x100 0xff] .lb 0x100 = some 0xffffffff#32 ∧
    forwarded [st .sb 0x100 0xff] .lbu 0x100 = some 0xff#32 ∧
    forwarded [st .sw 0x200 0xfedcba98] .lb 0x200 = some 0xffffff98#32 ∧
    forwarded [st .sw 0x200 0xfedcba98] .lbu 0x203 = some 0xfe#32 ∧
    forwarded [st .sw 0x200 0xfedcba98] .lw 0x200 = some 0xfedcba98#32 ∧
    forwarded [st .sw 0x200 0xfedcba98] .lh 0x202 = some 0xfffffedc#32 ∧
    forwarded [st .sw 0x200 0xfedcba98] .lhu 0x200 = some 0xba98#32 ∧
    forwarded [st .sb 0x201 0] .lw 0x200 = none ∧
    forwarded [st .sw 0x200 0xfedcba98, st .sb 0x201 0] .lb 0x201 = some 0#32 ∧
    forwarded [st .sw 0x200 0xfedcba98, st .sb 0x201 0] .lb 0x200 = some 0xffffff98#32 ∧
    forwarded [st .sw 0x80 1] .lw 0x40 = none ∧
    forwarded [st .sh 0x202 0x1234] .lw 0x200 = none ∧
    forwarded [st .sw 0x1fe 0xfedcba98] .lh 0x200 = some 0xfffffedc#32 ∧
    forwarded [{ st .sw 0x200 1 with op := .load .lw }] .lw 0x200 = none := by decide

/-! ## The image loader (R112) and reset -/

theorem test_load_text :
    loadText "@00000000 13 05 50 00 13 05 F0 0F".toList =
      some ([(0, 0x13), (1, 0x05), (2, 0x50), (3, 0x00), (4, 0x13), (5, 0x05), (6, 0xf0), (7, 0x0f)], 0) := by
  decide

theorem test_reset_fetches_at_entry :
    (resetWith Config.ref [(0x100, 0x13)] 0x100).pc = 0x100#32 ∧
    (resetWith Config.ref [(0x100, 0x13)] 0x100).mem.read 0x100 = 0x13 ∧
    State.reset.mem.wf = true ∧ State.reset.bp.ctr.length = 256 := by decide +kernel

/-! ## Small machines -/

/-- A configuration in which everything is small. -/
def tiny : Config where
  nRob := 4
  nRsa := 2
  nRsm := 2
  nLsb := 2
  rbCap := 3
  cbCap := 1
  nBp := 4
  bpInit := 1
  nRas := 2
  memLatency := 3
  memSize := 64

/-- Words as an image from address 0 on. -/
def image (ws : List Word) : List Host.Cell :=
  ws.zipIdx.flatMap fun p => (bytesOfWord p.1).zipIdx.map fun b => (4 * p.2 + b.2, b.1)

/-- The reset state of `tiny` with a program, its entry address and register values. -/
def machineAt (entryPc : Word) (code : List Instr) (regs : List (RegIdx × Word)) : State :=
  let s := resetWith tiny (image (code.map encode)) entryPc
  { s with regs := regs.foldl (fun rf p => rf.setValue p.1 p.2) s.regs }

/-- The same with entry address 0. -/
def machine (code : List Instr) (regs : List (RegIdx × Word)) : State := machineAt 0 code regs

/-- The next state of an outcome. -/
def reached (o : Host.Outcome State Fault Refusal) : State :=
  match o with
  | .next t => t
  | _ => State.reset

/-- The outcome is a next state. -/
def isNext (o : Host.Outcome State Fault Refusal) : Bool :=
  match o with
  | .next _ => true
  | _ => false

theorem next_reached {o : Host.Outcome State Fault Refusal} (h : isNext o = true) :
    o = .next (reached o) := by
  cases o with
  | next t => rfl
  | fault r => cases h
  | refused r => cases h

/-- The state after `n` cycles. -/
def after (n : Nat) (s : State) : State := reached (Host.Core.run Sys2Proof.core n s)

/-- The state `n` cycles after the cycle in which `i` is issued. -/
def ends (n : Nat) (i : Instr) (s : State) : State := after n (reached (exec i s))

/-- An instruction that does nothing. -/
def nop : Instr := .addi 0 0 0

/-- Seven instructions that do nothing, then whatever the machine was given. -/
def idleMachine (regs : List (RegIdx × Word)) : State := machine [nop, nop, nop, nop, nop, nop, nop] regs

/-! ## Witnesses: a state and operands that meet the hypotheses of each obligation

Where a statement has clauses over ranges, there is a witness for each clause at its boundary. The
witnesses of the completion statements also show that the machine does not stop, and what it has. -/

theorem witness_DecodeOfEncode : (Instr.jal 1 (-1048576)).wellFormed = true := by decide

theorem witness_EncodeOfDecode : decodeWord 0x800000ef#32 = .ok (.jal 1 (-1048576)) := by decide

theorem witness_OpcodeRowsExclusive :
    ∃ p q, opcodeMap[0]? = some p ∧ opcodeMap[19]? = some q ∧ p.selects 0x0ff00513#32 = true ∧
      q.selects 0x0ff00513#32 = true :=
  ⟨_, _, rfl, rfl, by decide, by decide⟩

theorem witness_HaltMarkerPrecedence :
    (0x0ff50513#32 : Word) ≠ 0x0ff00513#32 ∧ (0x0ff50513#32).extractLsb' 0 7 = 0b0010011#7 ∧
      (0x0ff50513#32).extractLsb' 12 3 = 0b000#3 := by decide

theorem witness_FieldsAreRead :
    decodeWord 0x40435293#32 = .ok (.srai 5 6 4) ∧ decodeWord 0xfe209f23#32 = .ok (.sh 1 2 (-2)) ∧
    decodeWord 0xfe009ce3#32 = .ok (.bne 1 0 (-8)) ∧ decodeWord 0xffdff06f#32 = .ok (.jal 0 (-4)) ∧
    decodeWord 0xabcde2b7#32 = .ok (.lui 5 0xabcde#20) ∧
    decodeWord 0x407302b3#32 = .ok (.sub 5 6 7) ∧ decodeWord 0xffe280e7#32 = .ok (.jalr 1 5 (-2)) := by
  decide

/-- The last word of memory: the boundary of a fetch in range. -/
def lastWord : State :=
  { machineAt 60 [] [] with mem := Memory.writeLE [] 60 4 (encode (.addi 1 0 7)) }

theorem witness_StepRunsDecoded :
    lastWord.haltIssued = false ∧ lastWord.rob.count < lastWord.cfg.nRob ∧
    lastWord.pc.toNat + 4 ≤ lastWord.cfg.memSize ∧
    decodeBytes [lastWord.mem.read lastWord.pc.toNat, lastWord.mem.read (lastWord.pc.toNat + 1),
      lastWord.mem.read (lastWord.pc.toNat + 2), lastWord.mem.read (lastWord.pc.toNat + 3)] =
      .ok (.addi 1 0 7, []) := by decide +kernel

theorem witness_FetchWordIsRun :
    (Instr.sub 5 6 7).wellFormed = true ∧ (machineAt 60 [] []).mem.wf = true ∧
    (machineAt 60 [] []).haltIssued = false ∧
    (machineAt 60 [] []).rob.count < (machineAt 60 [] []).cfg.nRob ∧
    (machineAt 60 [] []).pc.toNat + 4 ≤ (machineAt 60 [] []).cfg.memSize := by decide +kernel

theorem witness_StoppedStateStays :
    (after 3 (machine [.halt] [])).halted = true ∧ (after 1 (machine [] [])).fatal = true := by
  decide +kernel

theorem witness_RunningCycleAnswers : (idleMachine []).running := by decide +kernel

theorem witness_FatalKeepsState :
    (machine [] []).running ∧ step (machine [] []) = .next (after 1 (machine [] [])) ∧
      (after 1 (machine [] [])).fatal = true :=
  ⟨by decide +kernel, next_reached (by decide +kernel), by decide +kernel⟩

theorem witness_FatalDecodeExactly :
    (machine [] []).running ∧ step (machine [] []) = .next (after 1 (machine [] [])) ∧
      (after 1 (machine [] [])).fatalCause = 1 :=
  ⟨by decide +kernel, next_reached (by decide +kernel), by decide +kernel⟩

/-- A fetch one byte beyond the last word. -/
theorem witness_FatalMemExactly_fetch :
    (machineAt 61 [] []).running ∧ 3 ≤ (machineAt 61 [] []).cfg.rbCap ∧
      step (machineAt 61 [] []) = .next (after 1 (machineAt 61 [] [])) ∧
      (after 1 (machineAt 61 [] [])).fatalCause = 3 :=
  ⟨by decide +kernel, by decide +kernel, next_reached (by decide +kernel), by decide +kernel⟩

/-- A word load one byte beyond the last word, about to be performed. -/
def badLoad : State := after 2 (machine [.lw 1 0 61, nop, nop, nop] [])

theorem witness_FatalMemExactly_access :
    badLoad.running ∧ 3 ≤ badLoad.cfg.rbCap ∧ step badLoad = .next (after 1 badLoad) ∧
      badLoad.performing.isSome = true ∧ (after 1 badLoad).fatalCause = 3 :=
  ⟨by decide +kernel, by decide +kernel, next_reached (by decide +kernel), by decide +kernel,
    by decide +kernel⟩

theorem witness_BusNeverOverflows :
    badLoad.running ∧ 3 ≤ badLoad.cfg.rbCap ∧ 1 ≤ badLoad.cfg.cbCap ∧
      step badLoad = .next (after 1 badLoad) :=
  ⟨by decide +kernel, by decide +kernel, by decide +kernel, next_reached (by decide +kernel)⟩

theorem witness_IssueIntoIdle :
    (idleMachine []).idle ∧
      (machineAt 60 [] []).idle ∧ (resetWith Config.small [] 0).idle := by decide +kernel

/-- One instruction in flight, so that the reorder buffer is not empty. -/
def oneInFlight : State := after 1 (machine [.addi 1 0 5, nop, nop, nop] [])

theorem witness_IssueAllocates :
    oneInFlight.running ∧ oneInFlight.sound ∧ oneInFlight.consistent ∧
      oneInFlight.issues (.jal 1 8) ∧
      exec (.jal 1 8) oneInFlight = .next (reached (exec (.jal 1 8) oneInFlight)) ∧
      (reached (exec (.jal 1 8) oneInFlight)).fatal = false ∧ oneInFlight.mispredicts = none :=
  ⟨by decide +kernel, by decide +kernel, by decide +kernel, by decide +kernel,
    next_reached (by decide +kernel), by decide +kernel, by decide +kernel⟩

/-- What the statement about captured operands asks of a state and an instruction. -/
theorem capture_of {i : Instr} {s : State}
    (h : s.running ∧ s.inv ∧ s.issues i ∧ isNext (exec i s) = true ∧ (reached (exec i s)).fatal = false ∧
      s.mispredicts = none) :
    s.running ∧ s.inv ∧ s.issues i ∧ exec i s = .next (reached (exec i s)) ∧
      (reached (exec i s)).fatal = false ∧ s.mispredicts = none :=
  ⟨h.1, h.2.1, h.2.2.1, next_reached h.2.2.2.1, h.2.2.2.2⟩

/-- The producer of `x1` executes in the same cycle: its value is captured. -/
theorem witness_IssueCapturesOperands_arith :
    (oneInFlight.running ∧ oneInFlight.inv ∧ oneInFlight.issues (.add 2 1 0) ∧
      exec (.add 2 1 0) oneInFlight = .next (reached (exec (.add 2 1 0) oneInFlight)) ∧
      (reached (exec (.add 2 1 0) oneInFlight)).fatal = false ∧ oneInFlight.mispredicts = none) ∧
    oneInFlight.regs.producer 1 = some 0 ∧ oneInFlight.resultBroadcast 0 5 :=
  ⟨capture_of (by decide +kernel), by decide +kernel,
    .inl ⟨0, _, ⟨rfl, by decide +kernel, fun m hm => absurd hm (Nat.not_lt_zero m)⟩, by decide +kernel,
      by decide +kernel⟩⟩

/-- The producer, a load, is only dispatched: a memory-class instruction captures its tag. -/
theorem witness_IssueCapturesOperands_mem :
    let s := after 1 (machine [.lw 1 0 32, nop, nop, nop] [])
    (s.running ∧ s.inv ∧ s.issues (.sw 1 2 0) ∧
      exec (.sw 1 2 0) s = .next (reached (exec (.sw 1 2 0) s)) ∧
      (reached (exec (.sw 1 2 0) s)).fatal = false ∧ s.mispredicts = none) ∧
    s.regs.producer 1 = some 0 ∧
    ((reached (exec (.sw 1 2 0) s)).rsm.map (fun e => (e.qj, e.vk, e.qk))) = [(some 0, 0, none)] :=
  ⟨capture_of (by decide +kernel), by decide +kernel, by decide +kernel⟩

/-- The facts a cycle without a flush needs, at once. -/
theorem advancesUnflushed_of {s : State}
    (h : s.running ∧ isNext (step s) = true ∧ (reached (step s)).fatal = false ∧ s.mispredicts = none) :
    s.advancesUnflushed (reached (step s)) := ⟨⟨h.1, next_reached h.2.1, h.2.2.1⟩, h.2.2.2⟩

/-- Behind the halt marker. -/
def behindHalt : State := after 1 (machine [.halt] [])

theorem witness_IssueWaits_halt :
    behindHalt.advancesUnflushed (reached (step behindHalt)) ∧ behindHalt.haltIssued = true :=
  ⟨advancesUnflushed_of (by decide +kernel), by decide +kernel⟩

/-- A full reorder buffer, behind a load that waits for the port. -/
def fullBuffer : State :=
  after 5 (machine [.sw 0 1 32, .lw 1 0 36, .lw 2 0 40, .add 3 1 1, .add 4 1 1, nop] [])

theorem witness_IssueWaits_full :
    fullBuffer.advancesUnflushed (reached (step fullBuffer)) ∧
      fullBuffer.rob.count = fullBuffer.cfg.nRob :=
  ⟨advancesUnflushed_of (by decide +kernel), by decide +kernel⟩

theorem witness_IssueWaits_room :
    let s := after 3 (machine [.lw 1 0 32, .add 2 1 1, .add 3 1 1, nop, nop] [])
    s.advancesUnflushed (reached (step s)) ∧
      decodeWord (s.mem.readLE s.pc.toNat 4) = .ok nop ∧ s.hasRoom (recordOf nop).op = false :=
  ⟨advancesUnflushed_of (by decide +kernel), by decide +kernel, by decide +kernel⟩

/-! ### Completion -/

theorem witness_RegisterImmediateCompletes :
    let s := idleMachine [(2, 0x80000001#32)]
    s.idle ∧
    (∀ i ∈ [Instr.addi 1 2 (-1), .slti 1 2 (-1), .sltiu 1 2 (-1), .xori 1 2 (-1), .ori 1 2 (-16),
        .andi 1 2 (-16), .slli 1 2 31, .srli 1 2 31, .srai 1 2 31], (ends 2 i s).fatal = false) ∧
    (ends 2 (.addi 1 2 (-1)) s).regs.value 1 = 0x80000000#32 ∧
    (ends 2 (.srai 1 2 31) s).regs.value 1 = 0xffffffff#32 := by decide +kernel

theorem witness_RegisterRegisterCompletes :
    let s := idleMachine [(2, 0x80000001#32), (3, 0xffffffff#32)]
    s.idle ∧
    (∀ i ∈ [Instr.add 1 2 3, .sub 1 2 3, .sll 1 2 3, .slt 1 2 3, .sltu 1 2 3, .xor 1 2 3, .srl 1 2 3,
        .sra 1 2 3, .or 1 2 3, .and 1 2 3], (ends 2 i s).fatal = false) ∧
    (ends 2 (.sub 1 2 3) s).regs.value 1 = 0x80000002#32 ∧
    (ends 2 (.slt 2 2 3) s).regs.value 2 = 1#32 := by decide +kernel

theorem witness_UpperImmediateCompletes :
    let s := idleMachine []
    s.idle ∧ (ends 2 (.lui 1 0xabcde#20) s).fatal = false ∧ (ends 2 (.auipc 1 1#20) s).fatal = false ∧
    (ends 2 (.lui 1 0xabcde#20) s).regs.value 1 = 0xabcde000#32 ∧
    (ends 2 (.lui 0 0xabcde#20) s).regs.value 0 = 0#32 := by decide +kernel

theorem witness_JumpAndLinkCompletes :
    let s := idleMachine []
    s.idle ∧ (ends 2 (.jal 1 8) s).fatal = false ∧ (ends 2 (.jal 1 8) s).regs.value 1 = 4#32 ∧
    (ends 2 (.jal 1 8) s).archPc = 8#32 := by decide +kernel

theorem witness_IndirectJumpCompletes :
    let s := idleMachine [(1, 13#32)]
    s.idle ∧ (ends 2 (.jalr 1 1 0) s).fatal = false ∧ (ends 2 (.jalr 1 1 0) s).regs.value 1 = 4#32 ∧
    (ends 2 (.jalr 1 1 0) s).archPc = 12#32 := by decide +kernel

theorem witness_BranchCompletes :
    let s := idleMachine [(1, 0x80000000#32), (2, 0x7fffffff#32)]
    s.idle ∧
    (∀ i ∈ [Instr.beq 1 2 8, .bne 1 2 8, .blt 1 2 8, .bge 1 2 8, .bltu 1 2 8, .bgeu 1 2 8],
      (ends 2 i s).fatal = false) ∧
    (ends 2 (.blt 1 2 8) s).archPc = 8#32 ∧ (ends 2 (.bltu 1 2 8) s).archPc = 4#32 := by
  decide +kernel

/-- Every clause at the last address that its width allows. -/
theorem witness_LoadCompletes :
    let s := { idleMachine [] with mem := Memory.writeLE (idleMachine []).mem 60 4 0xfedcba98#32 }
    s.idle ∧ (s.x 0 + (63 : BitVec 12).signExtend 32).toNat + 1 = s.cfg.memSize ∧
    (∀ i ∈ [Instr.lb 1 0 63, .lbu 1 0 63, .lh 1 0 62, .lhu 1 0 62, .lw 1 0 60],
      (ends 3 i s).fatal = false) ∧
    (ends 3 (.lb 1 0 63) s).regs.value 1 = 0xfffffffe#32 ∧
    (ends 3 (.lh 1 0 62) s).regs.value 1 = 0xfffffedc#32 ∧
    (ends 3 (.lw 1 0 60) s).regs.value 1 = 0xfedcba98#32 := by decide +kernel

/-- Every clause at the last address that its width allows. -/
theorem witness_StoreCompletes :
    let s := idleMachine [(2, 0xfedcba98#32)]
    s.idle ∧ s.mem.wf = true ∧ (s.x 0 + (63 : BitVec 12).signExtend 32).toNat + 1 = s.cfg.memSize ∧
    (∀ i ∈ [Instr.sb 0 2 63, .sh 0 2 62, .sw 0 2 60],
      (ends 2 i s).fatal = false ∧ (ends 3 i s).fatal = false) ∧
    (ends 2 (.sb 0 2 63) s).mem.read 63 = 0 ∧ (ends 3 (.sb 0 2 63) s).mem.read 63 = 0x98 ∧
    (ends 3 (.sh 0 2 62) s).mem.read 63 = 0xba ∧ (ends 3 (.sw 0 2 60) s).mem.read 63 = 0xfe := by
  decide +kernel

/-- Every clause at the first address beyond what its width allows. -/
theorem witness_OutOfRangeAccessIsFatal :
    let s := idleMachine []
    s.idle ∧ s.cfg.memSize = (s.x 0 + (64 : BitVec 12).signExtend 32).toNat ∧
    (∀ i ∈ [Instr.lb 1 0 64, .lbu 1 0 64, .lh 1 0 63, .lhu 1 0 63, .lw 1 0 61],
      (ends 1 i s).fatal = false ∧ (ends 2 i s).fatalCause = 3) ∧
    (∀ i ∈ [Instr.sb 0 1 64, .sh 0 1 63, .sw 0 1 61],
      (ends 2 i s).fatal = false ∧ (ends 3 i s).fatalCause = 3) := by decide +kernel

/-- The run of a halt marker alone (program P1's last two cycles). -/
theorem witness_HaltCompletes :
    let s := idleMachine [(10, 0x1fe#32)]
    s.idle ∧ (ends 2 .halt s).halted = true ∧ (ends 2 .halt s).exitValue = 0xfe := by decide +kernel

theorem witness_AgreesWithSequentialMachine :
    let s := idleMachine [(1, 13#32)]
    s.idle ∧ (∃ q, seqExec (.jalr 1 1 0) s.view = .running q) ∧ (ends 2 (.jalr 1 1 0) s).fatal = false :=
  ⟨by decide +kernel, ⟨_, rfl⟩, by decide +kernel⟩

theorem witness_CompletionIsReached :
    let s := machine [nop, .halt] [(1, 24#32)]
    let i : Instr := .lw 2 1 0
    s.idle ∧ 3 ≤ s.cfg.rbCap ∧ (s.fetchesAfter i).toNat + 4 ≤ s.cfg.memSize ∧
    s.mem.readLE (s.fetchesAfter i).toNat 4 = 0x0ff00513#32 ∧
    (s.source (recordOf i).rs1 + (recordOf i).imm).toNat + 4 ≤ s.cfg.memSize ∧
    (ends 3 i s).regs.value 2 = s.mem.readLE 24 4 := by decide +kernel

/-! ### Execution and wake-up -/

/-- A load has been performed; an ADD is ready to execute and the next ADD waits for it. -/
def addChain : State := after 3 (machine [.lw 1 0 32, .add 2 1 1, .add 3 2 2, nop, nop, nop] [])

theorem witness_ArithmeticExecutes :
    addChain.inv ∧ addChain.advancesUnflushed (reached (step addChain)) ∧
    ∃ e x, addChain.executesArith 0 e ∧ addChain.rob.entry e.tag = some x :=
  ⟨by decide +kernel, advancesUnflushed_of (by decide +kernel), _, _,
    ⟨rfl, by decide +kernel, fun m hm => absurd hm (Nat.not_lt_zero m)⟩, rfl⟩

theorem witness_ResultWakesOperands :
    addChain.inv ∧ addChain.advancesUnflushed (reached (step addChain)) ∧
    ∃ p v c, addChain.rsa[1]? = some (some c) ∧ ¬ addChain.executesArith 1 c ∧ c.qj = some p ∧
      addChain.resultBroadcast p v :=
  ⟨by decide +kernel, advancesUnflushed_of (by decide +kernel), 1, 0, _, rfl,
    fun h => absurd h.2.1 (by decide +kernel), by decide +kernel,
    .inl ⟨0, _, ⟨rfl, by decide +kernel, fun m hm => absurd hm (Nat.not_lt_zero m)⟩, by decide +kernel,
      by decide +kernel⟩⟩

/-- A store in the memory station waits for a load that is performed. -/
theorem witness_ResultWakesOperands_performed :
    let s := after 2 (machine [.lw 1 0 32, .sw 0 1 36, nop, nop, nop] [])
    s.inv ∧ s.advancesUnflushed (reached (step s)) ∧
    ∃ p v, ∃ c ∈ s.rsm, ¬ s.dispatches c ∧ c.qk = some p ∧ s.resultBroadcast p v :=
  ⟨by decide +kernel, advancesUnflushed_of (by decide +kernel), 0, 0, _, .head _,
    fun h => by
      rcases h with ⟨k, h⟩ | ⟨k, h⟩
      · exact absurd h.2.2.1 (by decide +kernel)
      · exact absurd h.1 (by cases k <;> decide +kernel),
    by decide +kernel, .inr (.inr ⟨.lw, _, rfl, by decide +kernel, by decide +kernel, by decide +kernel⟩)⟩

/-- An ADD waits for a load that takes a waiting store's data. -/
theorem witness_ResultWakesOperands_forwarded :
    let s := after 4 (machine [.lw 1 0 32, .sw 0 1 36, .lw 2 0 36, .add 3 2 2, nop, nop, nop] [])
    s.inv ∧ s.advancesUnflushed (reached (step s)) ∧
    ∃ p v c, s.rsa[0]? = some (some c) ∧ ¬ s.executesArith 0 c ∧ c.qj = some p ∧ s.resultBroadcast p v :=
  ⟨by decide +kernel, advancesUnflushed_of (by decide +kernel), 2, _, _, rfl,
    fun h => absurd h.2.1 (by decide +kernel), by decide +kernel,
    .inr (.inl ⟨.lw, _, _, ⟨rfl, by decide +kernel, by decide +kernel, [], [], rfl, by simp⟩,
      by decide +kernel, ⟨⟨[], [], rfl, by decide +kernel, by simp⟩, by decide +kernel, by decide +kernel⟩,
      rfl⟩)⟩

/-- The same as the first with a JALR in the middle: it executes, and its consumer waits on. -/
def jalrChain : State :=
  after 3 { machine [.lw 1 0 32, .jalr 2 1 0, .add 3 2 2, nop, nop, nop] [] with
    mem := Memory.writeLE (machine [.lw 1 0 32, .jalr 2 1 0, .add 3 2 2, nop, nop, nop] []).mem 32 4 8 }

theorem witness_ResultWakesOperands_jalr :
    jalrChain.inv ∧ jalrChain.advancesUnflushed (reached (step jalrChain)) ∧
    ∃ e c, jalrChain.executesArith 0 e ∧ (arithResult e).2 = false ∧ jalrChain.rsa[1]? = some (some c) ∧
      ¬ jalrChain.executesArith 1 c ∧ c.qj = some e.tag ∧ ∀ v, ¬ jalrChain.broadcast e.tag v := by
  refine ⟨by decide +kernel, advancesUnflushed_of (by decide +kernel), _, _,
    ⟨rfl, by decide +kernel, fun m hm => absurd hm (Nat.not_lt_zero m)⟩, by decide +kernel, rfl,
    fun h => absurd h.2.1 (by decide +kernel), by decide +kernel, fun v h => ?_⟩
  rcases h with (⟨n, e, ⟨h1, h2, h3⟩, -, h⟩ | ⟨k, e, x, ⟨-, -, -, older, younger, hq, -⟩, -⟩ | ⟨k, h, hp, -⟩) |
    ⟨e, hc, ht, -⟩
  · cases n with
    | zero =>
      have hw : jalrChain.rsa[0]?.join.map (fun e => (arithResult e).2) = some false := by decide +kernel
      rw [h1] at hw
      simp [h] at hw
    | succ n => exact absurd (h3 0 (Nat.succ_pos n) _ rfl) (by decide +kernel)
  · rw [show jalrChain.rsm = [] by decide +kernel] at hq
    simp at hq
  · exact absurd hp (by rw [show jalrChain.performing = none by decide +kernel]; simp)
  · cases hc
    exact absurd ht (by decide +kernel)

/-- The JALR commits in the next cycle, correctly predicted, and its consumer still waits. -/
theorem witness_CommitWakesOperands :
    let s := after 1 jalrChain
    s.inv ∧ s.advancesUnflushed (reached (step s)) ∧
    ∃ p v c, s.rsa[1]? = some (some c) ∧ ¬ s.executesArith 1 c ∧ c.qj = some p ∧ s.commitBroadcast p v :=
  ⟨by decide +kernel, advancesUnflushed_of (by decide +kernel), 1, 8, _, rfl,
    fun h => absurd h.2.1 (by decide +kernel), by decide +kernel, _, rfl, by decide +kernel,
    by decide +kernel, by decide +kernel⟩

/-- The same with a store of the link behind the JALR. -/
def jalrStore : State :=
  after 4 { machine [.lw 1 0 32, .jalr 2 1 0, .sw 0 2 36, nop, nop, nop] [] with
    mem := Memory.writeLE (machine [.lw 1 0 32, .jalr 2 1 0, .sw 0 2 36, nop, nop, nop] []).mem 32 4 8 }

theorem witness_CommitWakesOperands_mem :
    jalrStore.inv ∧ jalrStore.advancesUnflushed (reached (step jalrStore)) ∧
    ∃ p v, ∃ c ∈ jalrStore.rsm, ¬ jalrStore.dispatches c ∧ c.qk = some p ∧ jalrStore.commitBroadcast p v :=
  ⟨by decide +kernel, advancesUnflushed_of (by decide +kernel), 1, 8, _, .head _,
    fun h => by
      rcases h with ⟨k, h⟩ | ⟨k, h⟩
      · exact absurd h.2.2.1 (by decide +kernel)
      · exact absurd h.1 (by cases k <;> decide +kernel),
    by decide +kernel, _, rfl, by decide +kernel, by decide +kernel, by decide +kernel⟩

/-! ### Memory -/

/-- A store, issued, its operands resolved. -/
def storeWaiting : State := after 1 (machine [.sw 0 1 32, .lw 2 0 32, nop, nop, nop] [(1, 0xfedcba98#32)])

theorem witness_StoreDispatches :
    storeWaiting.inv ∧ storeWaiting.advancesUnflushed (reached (step storeWaiting)) ∧
    ∃ e x, storeWaiting.dispatchesStore .sw e ∧ storeWaiting.rob.entry e.tag = some x :=
  ⟨by decide +kernel, advancesUnflushed_of (by decide +kernel), _, _,
    ⟨rfl, by decide +kernel, by decide +kernel, by decide +kernel⟩, rfl⟩

/-- The same a cycle later: the store is in the buffer and a load of its word is ready to go. -/
def loadBehindStore : State := after 1 storeWaiting

theorem witness_LoadForwards :
    loadBehindStore.inv ∧ loadBehindStore.advancesUnflushed (reached (step loadBehindStore)) ∧
    ∃ e y x, loadBehindStore.dispatchesLoad .lw e ∧
      loadBehindStore.forwards .lw (e.vj + e.imm) y ∧ loadBehindStore.rob.entry e.tag = some x :=
  ⟨by decide +kernel, advancesUnflushed_of (by decide +kernel), _, _, _,
    ⟨rfl, rfl, by decide +kernel, [], [], rfl, by simp⟩,
    ⟨⟨[], [], rfl, by decide +kernel, by simp⟩, by decide +kernel, by decide +kernel⟩, rfl⟩

/-- A load with an empty buffer. -/
def loadWaiting : State := after 1 (machine [.lw 2 0 60, nop, nop, nop] [])

theorem witness_LoadQueues :
    loadWaiting.inv ∧ loadWaiting.advancesUnflushed (reached (step loadWaiting)) ∧
    ∃ e, loadWaiting.dispatchesLoad .lw e ∧ ∀ y, ¬ loadWaiting.forwards .lw (e.vj + e.imm) y :=
  ⟨by decide +kernel, advancesUnflushed_of (by decide +kernel), _,
    ⟨rfl, rfl, by decide +kernel, [], [], rfl, by simp⟩,
    fun y hy => by
      obtain ⟨⟨older, younger, hq, -, -⟩, -⟩ := hy
      have h0 : loadWaiting.lsb.q = [] := by decide +kernel
      rw [h0] at hq
      simp at hq⟩

theorem witness_LoadPerforms :
    let s := after 1 loadWaiting
    s.inv ∧ s.advancesUnflushed (reached (step s)) ∧
    ∃ h x, s.performing = some h ∧ h.op = .load .lw ∧ s.rob.entry h.tag = some x :=
  ⟨by decide +kernel, advancesUnflushed_of (by decide +kernel), _, _, rfl, by decide +kernel, rfl⟩

/-- A committed store at the head of the buffer. -/
def storeCommitted : State := after 3 (machine [.sw 0 1 60, nop, nop, nop, nop] [(1, 0xfedcba98#32)])

/-- The last of the bytes it writes. -/
theorem witness_OnlyReadyHeadStoreWrites :
    step storeCommitted = .next (reached (step storeCommitted)) ∧
      (reached (step storeCommitted)).mem.read 63 ≠ storeCommitted.mem.read 63 :=
  ⟨next_reached (by decide +kernel), by decide +kernel⟩

theorem witness_StorePerforms :
    storeCommitted.advances (reached (step storeCommitted)) ∧ storeCommitted.mem.wf = true ∧
    ∃ h, storeCommitted.performing = some h ∧ h.op = .store .sw :=
  ⟨⟨by decide +kernel, next_reached (by decide +kernel), by decide +kernel⟩, by decide +kernel, _, rfl,
    by decide +kernel⟩

/-- The store's own commit. -/
theorem witness_StoreCommitMarksReady :
    loadBehindStore.inv ∧ loadBehindStore.advancesUnflushed (reached (step loadBehindStore)) ∧
    ∃ x e, x ∈ loadBehindStore.lsb.q ∧ x.ready = false ∧ loadBehindStore.committing = some e ∧
      e.op = .mem (.store .sw) ∧ e.tag = x.tag :=
  ⟨by decide +kernel, advancesUnflushed_of (by decide +kernel), _, _, .head _, by decide +kernel, rfl,
    by decide +kernel, by decide +kernel⟩

/-- A committed store is performed and nothing is dispatched: it leaves the buffer. -/
theorem witness_StoreCommitMarksReady_performed :
    storeCommitted.inv ∧ storeCommitted.advancesUnflushed (reached (step storeCommitted)) ∧
    storeCommitted.performing.isSome = true ∧ (∀ e ∈ storeCommitted.rsm, ¬ storeCommitted.dispatches e) ∧
    (reached (step storeCommitted)).lsb.q = [] :=
  ⟨by decide +kernel, advancesUnflushed_of (by decide +kernel), by decide +kernel,
    by rw [show storeCommitted.rsm = [] by decide +kernel]; simp, by decide +kernel⟩

/-- Another instruction's commit. -/
theorem witness_StoreCommitMarksReady_other :
    let s := after 3 (machine [.lw 1 0 32, .sw 0 0 36, nop, nop, nop] [])
    s.inv ∧ s.advancesUnflushed (reached (step s)) ∧
    ∃ x, x ∈ s.lsb.q ∧ x.ready = false ∧ s.committing.isSome = true ∧
      ∀ e ∈ s.committing, e.tag ≠ x.tag :=
  ⟨by decide +kernel, advancesUnflushed_of (by decide +kernel), _, .head _, by decide +kernel,
    by decide +kernel, by decide +kernel⟩

/-- The three cases of the countdown: it is started, it runs, and the port stays idle. -/
def storeThenLoad : State := after 3 (machine [.sw 0 1 32, .lw 2 0 36, nop, nop, nop, nop] [])

theorem witness_CountdownMachine :
    (storeThenLoad.advances (reached (step storeThenLoad)) ∧
      (reached (step storeThenLoad)).lsb.c = 3) ∧
    ((after 1 storeThenLoad).advances (reached (step (after 1 storeThenLoad))) ∧
      (reached (step (after 1 storeThenLoad))).lsb.c = 2) ∧
    ((idleMachine []).advances (reached (step (idleMachine []))) ∧
      (reached (step (idleMachine []))).lsb.c = 0) :=
  ⟨⟨⟨by decide +kernel, next_reached (by decide +kernel), by decide +kernel⟩, by decide +kernel⟩,
    ⟨⟨by decide +kernel, next_reached (by decide +kernel), by decide +kernel⟩, by decide +kernel⟩,
    ⟨by decide +kernel, next_reached (by decide +kernel), by decide +kernel⟩, by decide +kernel⟩

/-! ### Commit and flush -/

/-- An ADDI about to commit. -/
def addiCommits : State := after 2 (machine [.addi 10 0 5, nop, nop, nop] [])

theorem witness_OnlyCommitWritesRegisters :
    addiCommits.running ∧ addiCommits.sound ∧ addiCommits.consistent ∧
    step addiCommits = .next (reached (step addiCommits)) ∧
    (reached (step addiCommits)).regs.value 10 ≠ addiCommits.regs.value 10 :=
  ⟨by decide +kernel, by decide +kernel, by decide +kernel, next_reached (by decide +kernel),
    by decide +kernel⟩

theorem witness_CommitWritesDestination :
    addiCommits.sound ∧ addiCommits.consistent ∧ addiCommits.advances (reached (step addiCommits)) ∧
    ∃ e, addiCommits.committing = some e ∧ e.dest = some 10 :=
  ⟨by decide +kernel, by decide +kernel,
    ⟨by decide +kernel, next_reached (by decide +kernel), by decide +kernel⟩, _, rfl, rfl⟩

/-- The same with destination `x0`. -/
theorem witness_CommitWritesDestination_x0 :
    let s := after 2 (machine [nop, nop, nop, nop] [])
    s.sound ∧ s.consistent ∧ s.advances (reached (step s)) ∧
    ∃ e, s.committing = some e ∧ e.dest = some 0 :=
  ⟨by decide +kernel, by decide +kernel,
    ⟨by decide +kernel, next_reached (by decide +kernel), by decide +kernel⟩, _, rfl, rfl⟩

/-- A taken branch that was predicted not taken, about to commit. -/
def mispredicted : State := after 2 (machine [.beq 0 0 12, nop, nop, nop, nop] [])

theorem witness_MispredictionFlushes :
    mispredicted.inv ∧ mispredicted.advances (reached (step mispredicted)) ∧
    mispredicted.mispredicts = some 12#32 ∧
    decodeWord (mispredicted.mem.readLE mispredicted.pc.toNat 4) = .ok nop ∧ mispredicted.issues nop :=
  ⟨by decide +kernel, ⟨by decide +kernel, next_reached (by decide +kernel), by decide +kernel⟩,
    by decide +kernel, by decide +kernel, by decide +kernel⟩

/-- The same with the halt marker fetched on the wrong path: nothing is issued in the flush cycle. -/
theorem witness_MispredictionFlushes_blocked :
    let s := after 2 (machine [.beq 0 0 12, .halt, nop, nop] [])
    s.inv ∧ s.advances (reached (step s)) ∧ s.mispredicts = some 12#32 ∧ ∀ i, ¬ s.issues i :=
  ⟨by decide +kernel, ⟨by decide +kernel, next_reached (by decide +kernel), by decide +kernel⟩,
    by decide +kernel, fun i h => absurd h.1 (by decide +kernel)⟩

/-- The branch at address 0 trains counter 0; the last counter stays. -/
theorem witness_BranchTrainsCounter :
    mispredicted.advances (reached (step mispredicted)) ∧ mispredicted.committing.isSome = true ∧
    (reached (step mispredicted)).bp.ctr[0]? = some 2 ∧
    (reached (step mispredicted)).bp.ctr[3]? = some 1 :=
  ⟨⟨by decide +kernel, next_reached (by decide +kernel), by decide +kernel⟩, by decide +kernel,
    by decide +kernel, by decide +kernel⟩

theorem witness_HaltExactlyAtMarker :
    let s := after 2 (machine [.halt] [(10, 0x105#32)])
    s.advances (reached (step s)) ∧ (reached (step s)).halted = true ∧
    (reached (step s)).exitValue = 5 :=
  ⟨⟨by decide +kernel, next_reached (by decide +kernel), by decide +kernel⟩, by decide +kernel,
    by decide +kernel⟩

theorem witness_RetiresOldestOnly :
    addiCommits.sound ∧ addiCommits.consistent ∧
    addiCommits.advancesUnflushed (reached (step addiCommits)) ∧ addiCommits.retires = true ∧
    (addiCommits.rob.entry 1).isSome = true ∧ 1 ≠ addiCommits.rob.head :=
  ⟨by decide +kernel, by decide +kernel, advancesUnflushed_of (by decide +kernel), by decide +kernel,
    by decide +kernel, by decide +kernel⟩

/-! ### Reset, invariants, units -/

theorem witness_LoadedImage :
    (63 : Nat) < 64 ∧ (loadImage 64 [(63, 1), (0, 2), (63, 3), (64, 4)]).read 63 = 3 := by decide

/-- The first example of R112's format, and the largest address of eight digits. -/
theorem witness_LoaderReadsSegments :
    (∀ x ∈ [(0x1000, [0x13, 0x05]), (0xffffffff, [])], (x : Nat × List Byte).1 < 16 ^ 8) ∧
    imageText false 8 [' '] [(0x1000, [0x13, 0xf0])] = "@00001000 13 F0".toList := by decide

theorem witness_ResetMeetsInvariants : Config.ref.legal = true ∧ Config.small.legal = true := by decide

theorem witness_SoundKept :
    jalrChain.sound ∧ step jalrChain = .next (reached (step jalrChain)) :=
  ⟨by decide +kernel, next_reached (by decide +kernel)⟩

theorem witness_ConsistentKept :
    jalrChain.sound ∧ jalrChain.consistent ∧ step jalrChain = .next (reached (step jalrChain)) :=
  ⟨by decide +kernel, by decide +kernel, next_reached (by decide +kernel)⟩

theorem witness_OwnedKept :
    jalrChain.inv ∧ step jalrChain = .next (reached (step jalrChain)) :=
  ⟨by decide +kernel, next_reached (by decide +kernel)⟩

theorem witness_OperandsOlderKept :
    jalrStore.inv ∧ step jalrStore = .next (reached (step jalrStore)) ∧ jalrStore.operandsOlder ∧
    jalrStore.inOrder :=
  ⟨by decide +kernel, next_reached (by decide +kernel), by decide +kernel, by decide +kernel⟩

theorem witness_LittleEndianMemory : bytes.wf = true ∧ (4 : Nat) ∈ [1, 2, 4] := by decide

/-- A byte load of the last byte of a stored word. -/
theorem witness_ForwardingReadsTheStore :
    bytes.wf = true ∧ (st .sw 0x200 0xfedcba98).shaped = true ∧
    (st .sw 0x200 0xfedcba98).op = .store .sw ∧
    rangeCovers (st .sw 0x200 0xfedcba98).addr.toNat StoreKind.sw.width (0x203#32).toNat
      LoadKind.lb.width = true := by decide

/-- A full stack, and one below the bound. -/
theorem witness_StackPushPop :
    1 ≤ tiny.nRas ∧ ([1#32, 2#32] : List Word).length ≤ tiny.nRas ∧
    ([1#32] : List Word).length < tiny.nRas := by decide

end Sys2Proof.Tests
end

section
/-! SUPPORT. What the acts of a cycle do to each structure: what they put on the two buses, which
entries leave a station or the load-store buffer and which enter it (40_orchestrator_cycle.md R120 to
R135). -/

namespace Sys2Proof.Laws

-- One proof after the other, on one thread: each thread costs the check 256 MB of stack.
set_option Elab.async false

open Sys2Proof.Machine

/-! ## What each act takes, leaves and broadcasts -/

/-- The result-bus entry of the arithmetic station (R195). -/
def arithBus (a : Option (Nat × RsEntry ArithKind)) : List ResultEntry :=
  match a with
  | none => []
  | some (_, e) => [⟨e.tag, (arithResult e).1, (arithResult e).2⟩]

/-- The arithmetic station without the executed entry (R195). -/
def rsaAfter (a : Option (Nat × RsEntry ArithKind)) (rsa : List (Option (RsEntry ArithKind))) :
    List (Option (RsEntry ArithKind)) :=
  match a with
  | none => rsa
  | some (i, _) => rsa.set i none

/-- The entry the memory station dispatches (R197, R198). -/
def MemAct.dispatched (a : MemAct) : Option (RsEntry MemKind) :=
  match a with
  | .none => .none
  | .store _ e => some e
  | .forward _ e _ => some e
  | .queue _ e => some e

/-- The entry a dispatch appends to the load-store buffer (R222, R226). -/
def MemAct.queued (a : MemAct) : List LsbEntry :=
  match a with
  | .none => []
  | .store k e => [queuedStore k e]
  | .forward _ _ _ => []
  | .queue k e => [queuedLoad k e]

/-- The result-bus entry of a dispatch (R222, R225). -/
def MemAct.bus (a : MemAct) : List ResultEntry :=
  match a with
  | .none => []
  | .store _ e => [⟨e.tag, 0, false⟩]
  | .forward k e x => [⟨e.tag, forwardValue k (effectiveAddress e.vj e.imm) x, true⟩]
  | .queue _ _ => []

/-- The memory station without the dispatched entry (R199). -/
def MemAct.rsmAfter (a : MemAct) (rsm : List (RsEntry MemKind)) : List (RsEntry MemKind) :=
  match a.dispatched with
  | .none => rsm
  | some e => rsmRemove rsm e.tag

/-- The entries an access takes off the load-store buffer: one, or none (R230). -/
def AccessAct.performed (a : AccessAct) : Option LsbEntry :=
  match a with
  | .countdown => none
  | .idle => none
  | .write _ x => some x
  | .read _ x => some x

/-- The result-bus entry of a performed load (R232). -/
def AccessAct.bus (m : Memory) (a : AccessAct) : List ResultEntry :=
  match a with
  | .countdown => []
  | .idle => []
  | .write _ _ => []
  | .read k x => [⟨x.tag, loadExtend k (m.readLE x.addr.toNat k.width), true⟩]

/-- The backing store after an access (R232). -/
def AccessAct.memAfter (a : AccessAct) (m : Memory) : Memory :=
  match a with
  | .write k x => m.writeLE x.addr.toNat k.width x.value
  | _ => m

/-- The countdown after an access (R230). -/
def AccessAct.countAfter (s : State) (a : AccessAct) : Nat :=
  match a with
  | .countdown => s.lsb.c - 1
  | .idle => s.lsb.c
  | .write _ _ => countdownAfter s
  | .read _ _ => countdownAfter s

/-- The entry Commit pops (R166). -/
def CommitAct.retired (a : CommitAct) : Option RobEntry :=
  match a with
  | .none => .none
  | .halt => .none
  | .retire e => some e

/-- The commit bus (R167 to R171). -/
def CommitAct.bus (a : CommitAct) : List CommitEntry := a.retired.toList.flatMap retireBus

/-- The reorder buffer after Commit (R166). -/
def CommitAct.robAfter (a : CommitAct) (cfg : Config) (rob : Rob) : Rob :=
  match a.retired with
  | .none => rob
  | some _ => rob.pop rob cfg

/-- The predictor after Commit: a retired branch trains its counter (R169). -/
def CommitAct.bpAfter (s : State) (a : CommitAct) (bp : Predictor) : Predictor :=
  match a.retired with
  | .none => bp
  | some e => retirePredictor s e bp

/-! ## The view after Issue, and the cycle's buses -/

/-- The next view after the Issue phase. -/
def Acts.issued (a : Acts) (s : State) : State := (applyIssue s a.issue (Cycle.start s)).next

/-- The result bus of a cycle, in the order of the phases (R42). -/
def Acts.resultBus (a : Acts) (s : State) : List ResultEntry :=
  arithBus a.arith ++ a.mem.bus ++ a.access.bus s.mem

/-- The state a cycle leaves if it does not flush (R139). -/
def Acts.committed (a : Acts) (s : State) : State := stateCommit s (busPropagate (a.run s))

/-- The slot `p` is not the one Commit frees (R166). -/
def Acts.survives (a : Acts) (s : State) (p : Tag) : Prop :=
  a.commit.retired.isSome = true → p ≠ s.rob.head

/-- The number of entries Commit pops: one, or none (R166). -/
def Acts.pops (a : Acts) : Nat := a.commit.retired.toList.length

theorem issued_of_none {a : Acts} (s : State) (h : a.issue = none) : a.issued s = s := by
  simp [Acts.issued, h, applyIssue]

theorem issued_of_some {a : Acts} (s : State) {r : Record} (h : a.issue = some r) :
    a.issued s = issueInto s r s := by
  simp [Acts.issued, h, applyIssue]

@[simp] theorem issued_cfg (a : Acts) (s : State) : (a.issued s).cfg = s.cfg := by
  simp [Acts.issued]

@[simp] theorem issued_lsb (a : Acts) (s : State) : (a.issued s).lsb = s.lsb := by
  simp [Acts.issued]

theorem issued_rob_head (a : Acts) (s : State) : (a.issued s).rob.head = s.rob.head := by
  cases h : a.issue with
  | none => rw [issued_of_none s h]
  | some r => rw [issued_of_some s h]; simp [Rob.issue]

theorem applyArith_rsa (a : Option (Nat × RsEntry ArithKind)) (c : Cycle) :
    (applyArith a c).next.rsa = rsaAfter a c.next.rsa := by
  unfold applyArith; split <;> rfl

theorem applyArith_rb (a : Option (Nat × RsEntry ArithKind)) (c : Cycle) :
    (applyArith a c).rb = c.rb ++ arithBus a := by
  unfold applyArith; split <;> simp [arithBus]

theorem applyMem_rsm (a : MemAct) (c : Cycle) :
    (applyMem a c).next.rsm = a.rsmAfter c.next.rsm := by
  unfold applyMem; split <;> rfl

theorem applyMem_lsb (a : MemAct) (c : Cycle) :
    (applyMem a c).next.lsb = { c.next.lsb with q := c.next.lsb.q ++ a.queued } := by
  unfold applyMem; split <;> simp [MemAct.queued]

theorem applyMem_rb (a : MemAct) (c : Cycle) : (applyMem a c).rb = c.rb ++ a.bus := by
  unfold applyMem; split <;> simp [MemAct.bus]

theorem applyAccess_q (s : State) (a : AccessAct) (c : Cycle) :
    (applyAccess s a c).next.lsb.q = c.next.lsb.q.drop a.performed.toList.length := by
  unfold applyAccess; split <;> simp [AccessAct.performed]

theorem applyAccess_count (s : State) (a : AccessAct) (c : Cycle) (h : c.next.lsb.c = s.lsb.c) :
    (applyAccess s a c).next.lsb.c = a.countAfter s := by
  unfold applyAccess; split <;> simp [AccessAct.countAfter, h]

theorem applyAccess_mem (s : State) (a : AccessAct) (c : Cycle) :
    (applyAccess s a c).next.mem = a.memAfter c.next.mem := by
  unfold applyAccess; split <;> rfl

theorem applyAccess_rb (s : State) (a : AccessAct) (c : Cycle) :
    (applyAccess s a c).rb = c.rb ++ a.bus c.next.mem := by
  unfold applyAccess; split <;> simp [AccessAct.bus]

theorem applyCommit_rob (s : State) (a : CommitAct) (c : Cycle) (h : c.next.rob.head = s.rob.head) :
    (applyCommit s a c).next.rob = a.robAfter s.cfg c.next.rob := by
  unfold applyCommit; split <;> simp [CommitAct.robAfter, CommitAct.retired, Rob.pop, h]

theorem applyCommit_cb (s : State) (a : CommitAct) (c : Cycle) :
    (applyCommit s a c).cb = c.cb ++ a.bus := by
  unfold applyCommit; split <;> simp [CommitAct.bus, CommitAct.retired]

/-! ## The buses and the structures of a whole cycle -/

@[simp] theorem run_rb (a : Acts) (s : State) : (a.run s).rb = a.resultBus s := by
  simp [Acts.run, Acts.resultBus, applyAccess_rb, applyMem_rb, applyArith_rb]

@[simp] theorem run_cb (a : Acts) (s : State) : (a.run s).cb = a.commit.bus := by
  simp [Acts.run, applyCommit_cb]

@[simp] theorem committed_cfg (a : Acts) (s : State) : (a.committed s).cfg = s.cfg := by
  simp [Acts.committed, Acts.run]

/-- The reorder buffer after a cycle: what Issue made of it, popped, with the result bus taken. -/
theorem committed_rob (a : Acts) (s : State) :
    (a.committed s).rob = (a.commit.robAfter s.cfg (a.issued s).rob).checkBus (a.resultBus s) := by
  have h : (a.run s).next.rob = a.commit.robAfter s.cfg (a.issued s).rob := by
    have hh := issued_rob_head a s
    rw [Acts.run, applyCommit_rob _ _ _ (by simpa [Acts.issued] using hh)]
    simp [Acts.issued]
  simp [Acts.committed, h]

/-- The arithmetic station after a cycle. -/
theorem committed_rsa (a : Acts) (s : State) :
    (a.committed s).rsa =
      rsaCheckBus (a.resultBus s) a.commit.bus (rsaAfter a.arith (a.issued s).rsa) := by
  simp only [Acts.committed, stateCommit_rsa, busPropagate_rsa, run_rb, run_cb]
  simp [Acts.run, applyArith_rsa, Acts.issued]

/-- The memory station after a cycle. -/
theorem committed_rsm (a : Acts) (s : State) :
    (a.committed s).rsm =
      rsmCheckBus (a.resultBus s) a.commit.bus (a.mem.rsmAfter (a.issued s).rsm) := by
  simp only [Acts.committed, stateCommit_rsm, busPropagate_rsm, run_rb, run_cb]
  simp [Acts.run, applyMem_rsm, Acts.issued]

/-- The load-store buffer's queue after a cycle. -/
theorem committed_q (a : Acts) (s : State) :
    (a.committed s).lsb.q =
      ((s.lsb.q ++ a.mem.queued).drop a.access.performed.toList.length).map
        (LsbEntry.markReady a.commit.bus) := by
  simp only [Acts.committed, stateCommit_lsb, busPropagate_lsb, run_cb, Lsb.checkBus]
  simp [Acts.run, applyAccess_q, applyMem_lsb]

theorem committed_count (a : Acts) (s : State) : (a.committed s).lsb.c = a.access.countAfter s := by
  simp only [Acts.committed, stateCommit_lsb, busPropagate_lsb, Lsb.checkBus]
  simp [Acts.run, applyAccess_count, applyMem_lsb]

theorem committed_regs (a : Acts) (s : State) :
    (a.committed s).regs = (regsCheckBus a.commit.bus (a.issued s).regs).forceZero := by
  simp only [Acts.committed, stateCommit_regs, busPropagate_regs, run_cb]
  simp [Acts.run, Acts.issued]

theorem committed_mem (a : Acts) (s : State) :
    (a.committed s).mem = a.access.memAfter s.mem := by
  simp [Acts.committed, Acts.run, applyAccess_mem]

/-- The predictor after a cycle: Issue's, trained by a retired branch (R129, R169). -/
theorem committed_bp (a : Acts) (s : State) :
    (a.committed s).bp = a.commit.bpAfter s (a.issued s).bp := by
  cases h : a.commit <;>
    simp [Acts.committed, Acts.run, h, applyCommit, CommitAct.bpAfter, CommitAct.retired, Acts.issued]

end Sys2Proof.Laws
end

section
/-! SUPPORT. What a step that answers a next state has done, packaged once for the proofs that every
step keeps something; and the ages of reorder-buffer slots (10_state.md R29). -/

namespace Sys2Proof.Laws

-- One proof after the other, on one thread: each thread costs the check 256 MB of stack.
set_option Elab.async false

open Sys2Proof.Machine

/-! ## The acts of a step -/

/-- R30, R92: a record has no destination exactly for the kinds that write no register. -/
theorem recordOf_rd_none (i : Instr) :
    (recordOf i).rd = none ↔ (recordOf i).op.noDest = true := by
  cases i <;>
    simp [recordOf, recordHalt, recordU, recordJ, recordI, recordB, recordS, recordShift, recordR,
      OpKind.noDest]

/-- What the acts of a step are, seen from the state they started from. -/
structure Acts.taken (a : Acts) (s : State) : Prop where
  legal : s.cfg.legal = true
  wellSized : s.wellSized = true
  issue : ∀ r, a.issue = some r →
    s.issueBlocked = false ∧ s.hasRoom r.op = true ∧ ∃ i, r = recordOf i
  arith : rsaSelect s.rsa = a.arith
  mem : validMem s a.mem
  access : validAccess s a.access
  commit : validCommit s a.commit

/-- A fatal stop leaves the backing store as it was: the write of a cycle comes after every stop but that
of a full commit bus, and a legal commit bus has room for the one commit (R144, R255). -/
theorem phases_error_mem {o : Offer} {s : State} {f : FatalStop} (hl : s.cfg.legal = true)
    (h : phases o s = .error f) : f.mem = s.mem := by
  have hcb : 1 ≤ s.cfg.cbCap := by
    simp only [Config.legal, Bool.and_eq_true, decide_eq_true_eq] at hl
    omega
  rcases phases_error h with h | ⟨c1, h1, h⟩
  · obtain ⟨_, -, -, rfl⟩ := issuePhase_error h
    rfl
  · obtain ⟨ai, -, rfl⟩ := issuePhase_acts h1
    rcases h with h | ⟨c2, h2, h⟩
    · rcases executePhase_error h with h | ⟨c2, h2, h⟩
      · obtain ⟨-, rfl⟩ := rsaExecute_error h
        simp
      · obtain rfl := rsaExecute_acts h2
        obtain ⟨-, rfl⟩ := rsmExecute_error h
        simp
    · obtain ⟨c2', h2, h2'⟩ := executePhase_ok h2
      obtain rfl := rsaExecute_acts h2
      obtain ⟨am, -, rfl⟩ := rsmExecute_acts h2'
      rcases h with h | ⟨c3, h3, h⟩
      · obtain ⟨_, _, -, -, -, ⟨-, rfl⟩ | ⟨-, -, -, rfl⟩⟩ := tryLoadStore_error h <;> simp
      · obtain ⟨aa, -, rfl⟩ := tryLoadStore_acts (by simp) h3
        obtain ⟨hfull, -⟩ := commitPhase_error h
        simp at hfull
        omega

/-- What holds of the state a step starts from holds of the state it answers, if a fatal stop keeps it
and the acts of a cycle lead to it, without a flush and with one (R121, R139, R141, R144). -/
theorem step_induction {P : State → Prop} {s t : State} (h : step s = .next t) (same : P s)
    (fatal : ∀ cause, P { s with fatal := true, fatalCause := cause })
    (acts : ∀ a : Acts, a.taken s → P (a.committed s))
    (flush : ∀ (a : Acts) (w : Word), a.taken s → P (flushTo w (a.committed s))) : P t := by
  obtain ⟨o, ho, hi⟩ := step_offer s
  rcases cycle_acts (ho ▸ h) with ⟨-, rfl⟩ | ⟨-, -, hl, hw, ⟨f, hf, rfl⟩ | ⟨a, va, rfl⟩⟩
  · exact same
  · have hm := phases_error_mem hl hf
    have : raiseFatal f s = { s with fatal := true, fatalCause := f.cause.code } := by
      simp [raiseFatal, hm]
    exact this ▸ fatal _
  · have ht : a.taken s :=
      { legal := hl, wellSized := hw, arith := va.arith, mem := va.mem, access := va.access,
        commit := va.commit
        issue := fun r hr => by
          have hv := va.issue
          rw [hr] at hv
          obtain ⟨hor, hb, hroom⟩ := hv
          exact ⟨hb, hroom, hi r hor⟩ }
    cases hq : (a.run s).flushReq with
    | none => exact endOfCycle_none hq ▸ acts a ht
    | some w => exact endOfCycle_some hq ▸ flush a w ht

/-! ## Sizes -/

theorem wellSized_iff (s : State) :
    s.wellSized = true ↔
      s.rob.slots.length = s.cfg.nRob ∧ s.rob.head < s.cfg.nRob ∧ s.rob.count ≤ s.cfg.nRob ∧
      s.rsa.length = s.cfg.nRsa ∧ s.rsm.length ≤ s.cfg.nRsm ∧ s.lsb.q.length ≤ s.cfg.nLsb ∧
      s.lsb.c ≤ s.cfg.memLatency ∧ s.bp.ctr.length = s.cfg.nBp ∧ s.bp.ras.length ≤ s.cfg.nRas := by
  simp [State.wellSized, and_assoc]

theorem legal_nRob {cfg : Config} (h : cfg.legal = true) : 2 ≤ cfg.nRob := by
  simp only [Config.legal, Bool.and_eq_true, decide_eq_true_eq] at h
  omega

/-! ## Ages (R29) -/

section Ages

variable {rob : Rob} {cfg : Config} {t u : Nat}

theorem age_eq (hh : rob.head < cfg.nRob) (ht : t < cfg.nRob) :
    rob.age cfg t = if rob.head ≤ t then t - rob.head else t + cfg.nRob - rob.head := by
  unfold Rob.age
  split
  · rw [show t + cfg.nRob - rob.head = (t - rob.head) + cfg.nRob by omega, Nat.add_mod_right,
      Nat.mod_eq_of_lt (by omega)]
  · exact Nat.mod_eq_of_lt (by omega)

theorem age_inj (hh : rob.head < cfg.nRob) (ht : t < cfg.nRob) (hu : u < cfg.nRob)
    (h : rob.age cfg t = rob.age cfg u) : t = u := by
  rw [age_eq hh ht, age_eq hh hu] at h
  split at h <;> split at h <;> omega

theorem age_head (hh : rob.head < cfg.nRob) : rob.age cfg rob.head = 0 := by
  rw [age_eq hh hh]
  simp

theorem age_pos (hh : rob.head < cfg.nRob) (ht : t < cfg.nRob) (hne : t ≠ rob.head) :
    0 < rob.age cfg t := by
  rw [age_eq hh ht]
  split <;> omega

theorem tail_lt (hh : rob.head < cfg.nRob) : rob.tail cfg < cfg.nRob := Nat.mod_lt _ (by omega)

/-- The tail slot is `count` slots behind the head. -/
theorem age_tail (hh : rob.head < cfg.nRob) (hc : rob.count < cfg.nRob) :
    rob.age cfg (rob.tail cfg) = rob.count := by
  rw [age_eq hh (tail_lt hh)]
  unfold Rob.tail
  by_cases hw : rob.head + rob.count < cfg.nRob
  · rw [Nat.mod_eq_of_lt hw]
    split <;> omega
  · rw [Nat.mod_eq_sub_mod (by omega), Nat.mod_eq_of_lt (by omega)]
    split <;> omega

@[simp] theorem age_checkBus (rb : List ResultEntry) :
    (rob.checkBus rb).age cfg t = rob.age cfg t := by
  simp [Rob.age]

/-- A pop brings every other slot one nearer to the head (R166). -/
theorem age_pop (hh : rob.head < cfg.nRob) (ht : t < cfg.nRob) :
    (rob.pop rob cfg).age cfg t =
      if t = rob.head then cfg.nRob - 1 else rob.age cfg t - 1 := by
  have hh' : (rob.pop rob cfg).head = (rob.head + 1) % cfg.nRob := rfl
  rw [age_eq (by rw [hh']; exact Nat.mod_lt _ (by omega)) ht, age_eq hh ht, hh']
  by_cases hw : rob.head + 1 = cfg.nRob
  · rw [hw, Nat.mod_self]
    split_ifs <;> omega
  · rw [Nat.mod_eq_of_lt (show rob.head + 1 < cfg.nRob by omega)]
    split_ifs <;> omega

end Ages

/-! ## Entries of the reorder buffer -/

theorem lt_of_entry {rob : Rob} {t : Tag} {e : RobEntry} (h : rob.entry t = some e) :
    t < rob.slots.length := by
  by_contra hc
  rw [entry_of_length_le (Nat.le_of_not_lt hc)] at h
  cases h

/-- The entries after Issue has filled the tail slot (R161). -/
theorem entry_issue {rob : Rob} {cfg : Config} (r : Record) (pc : Word) (t : Tag)
    (hh : rob.head < cfg.nRob) (hl : rob.slots.length = cfg.nRob) :
    (rob.issue rob cfg r pc).entry t =
      if t = rob.tail cfg then some (newRobEntry r (rob.tail cfg) pc) else rob.entry t := by
  unfold Rob.issue
  rw [entry_set (head' := rob.head) (count' := rob.count)]
  have := tail_lt hh
  by_cases ht : t = rob.tail cfg
  · subst ht
    simp [hl, this]
  · simp [ht, Ne.symm ht]

/-- The entries after the head slot has been freed (R166). -/
theorem entry_pop (rob : Rob) (cfg : Config) (t : Tag) :
    (rob.pop rob cfg).entry t = if t = rob.head then none else rob.entry t := by
  unfold Rob.pop
  rw [entry_set (head' := rob.head) (count' := rob.count)]
  by_cases ht : t = rob.head
  · subst ht
    by_cases hl : rob.head < rob.slots.length
    · simp [hl]
    · simp [hl, entry_of_length_le (Nat.le_of_not_lt hl)]
  · simp [ht, Ne.symm ht]

theorem entry_clear (rob : Rob) (t : Tag) : rob.clear.entry t = none := by
  unfold Rob.clear Rob.entry
  rw [List.getElem?_replicate]
  split <;> rfl

@[simp] theorem afterBus_tag (rb : List ResultEntry) (t : Tag) (e : RobEntry) :
    (RobEntry.afterBus rb t e).tag = e.tag := by simp only [afterBus_keeps]

@[simp] theorem afterBus_op (rb : List ResultEntry) (t : Tag) (e : RobEntry) :
    (RobEntry.afterBus rb t e).op = e.op := by simp only [afterBus_keeps]

@[simp] theorem afterBus_dest (rb : List ResultEntry) (t : Tag) (e : RobEntry) :
    (RobEntry.afterBus rb t e).dest = e.dest := by simp only [afterBus_keeps]

/-- The oldest entry stands in the head slot (R163). -/
theorem oldest_eq_some {rob : Rob} {e : RobEntry} (h : rob.oldest = some e) :
    0 < rob.count ∧ rob.entry rob.head = some e := by
  unfold Rob.oldest at h
  split at h
  · cases h
  · exact ⟨by omega, h⟩

end Sys2Proof.Laws
end

section
/-! O52: every step keeps sizes, the canonical memory, register 0 and the shape of the load-store
buffer's entries (10_state.md R23, R36, R44 (f)). -/

namespace Sys2Proof.Proofs

-- One proof after the other, on one thread: each thread costs the check 256 MB of stack.
set_option Elab.async false

open Sys2Proof.Machine Sys2Proof.Laws

/-! ## Reorder buffer -/

theorem length_issued_slots (a : Acts) (s : State) :
    (a.issued s).rob.slots.length = s.rob.slots.length := by
  cases h : a.issue with
  | none => rw [issued_of_none s h]
  | some r => simp [issued_of_some s h, Rob.issue]

/-- Issue takes a slot only of a buffer that is not full (R124). -/
theorem issued_count_le {a : Acts} {s : State} (ha : a.taken s) :
    (a.issued s).rob.count ≤ s.cfg.nRob := by
  obtain ⟨-, -, hcount, -⟩ := (wellSized_iff s).1 ha.wellSized
  cases h : a.issue with
  | none => rwa [issued_of_none s h]
  | some r =>
    obtain ⟨hb, -, -⟩ := ha.issue r h
    have hfull : ¬ (s.haltIssued = true ∨ s.rob.count = s.cfg.nRob) := by
      rw [← issueBlocked_iff, hb]
      simp
    simp only [issued_of_some s h, issueInto_rob, Rob.issue]
    omega

theorem length_robAfter (a : CommitAct) (cfg : Config) (rob : Rob) :
    (a.robAfter cfg rob).slots.length = rob.slots.length := by
  unfold CommitAct.robAfter
  split <;> simp [Rob.pop]

theorem robAfter_head_lt (a : CommitAct) {cfg : Config} {rob : Rob} (h : rob.head < cfg.nRob) :
    (a.robAfter cfg rob).head < cfg.nRob := by
  unfold CommitAct.robAfter
  split
  · exact h
  · exact Nat.mod_lt _ (by omega)

theorem robAfter_count_le (a : CommitAct) (cfg : Config) (rob : Rob) :
    (a.robAfter cfg rob).count ≤ rob.count := by
  unfold CommitAct.robAfter
  split
  · exact Nat.le_refl _
  · exact Nat.sub_le _ _

/-! ## Stations -/

theorem length_rsaIssue (s n : List (Option (RsEntry ArithKind))) (e : RsEntry ArithKind) :
    (rsaIssue s n e).length = n.length := by
  unfold rsaIssue
  split <;> simp

theorem length_issued_rsa (a : Acts) (s : State) : (a.issued s).rsa.length = s.rsa.length := by
  cases h : a.issue with
  | none => rw [issued_of_none s h]
  | some r =>
    simp only [issued_of_some s h, issueInto_rsa, stationIssue]
    split <;> simp [length_rsaIssue]

theorem length_rsaAfter (a : Option (Nat × RsEntry ArithKind)) (rsa : List (Option (RsEntry ArithKind))) :
    (rsaAfter a rsa).length = rsa.length := by
  unfold rsaAfter
  split <;> simp

/-- Issue appends to the memory station only when there is room (R125). -/
theorem length_issued_rsm_le {a : Acts} {s : State} (ha : a.taken s) :
    (a.issued s).rsm.length ≤ s.cfg.nRsm := by
  obtain ⟨-, -, -, -, hrsm, -⟩ := (wellSized_iff s).1 ha.wellSized
  cases h : a.issue with
  | none => rwa [issued_of_none s h]
  | some r =>
    obtain ⟨-, hroom, -⟩ := ha.issue r h
    simp only [issued_of_some s h, issueInto_rsm, stationIssue]
    split
    · exact hrsm
    · rename_i k hk
      simp only [State.hasRoom, hk, decide_eq_true_eq] at hroom
      simpa [rsmIssue] using hroom

theorem rsmAfter_sublist (a : MemAct) (rsm : List (RsEntry MemKind)) :
    (a.rsmAfter rsm).Sublist rsm := by
  unfold MemAct.rsmAfter
  split
  · exact List.Sublist.refl _
  · exact List.eraseP_sublist

/-! ## Load-store buffer -/

/-- A dispatch appends at most one entry, and only when there is room (R199). -/
theorem length_queued_le {a : Acts} {s : State} (ha : a.taken s) :
    s.lsb.q.length + a.mem.queued.length ≤ s.cfg.nLsb := by
  obtain ⟨-, -, -, -, -, hq, -⟩ := (wellSized_iff s).1 ha.wellSized
  have hv := ha.mem
  cases h : a.mem with
  | none => simpa [MemAct.queued] using hq
  | store k e =>
    rw [h] at hv
    obtain ⟨-, hroom, -⟩ := hv
    exact hroom
  | forward k e x => simpa [MemAct.queued] using hq
  | queue k e =>
    rw [h] at hv
    obtain ⟨-, hroom, -⟩ := hv
    exact hroom

theorem countdownAfter_le (s : State) : countdownAfter s ≤ s.cfg.memLatency := by
  unfold countdownAfter
  split
  · split
    · exact Nat.le_refl _
    · exact Nat.zero_le _
  · exact Nat.zero_le _

theorem countAfter_le (a : AccessAct) {s : State} (h : s.lsb.c ≤ s.cfg.memLatency) :
    a.countAfter s ≤ s.cfg.memLatency := by
  cases a with
  | countdown => exact Nat.le_trans (Nat.sub_le _ _) h
  | idle => exact h
  | write k x => exact countdownAfter_le s
  | read k x => exact countdownAfter_le s

/-- A store keeps the bytes it writes and no more (R222). -/
theorem storeData_lt (k : StoreKind) (v : Word) : (storeData k v).toNat < 2 ^ (8 * k.width) := by
  cases k <;> simp only [storeData, truncateBytes, StoreKind.width, BitVec.toNat_and]
  · exact Nat.lt_of_le_of_lt Nat.and_le_right (by decide)
  · exact Nat.lt_of_le_of_lt Nat.and_le_right (by decide)
  · exact Nat.lt_of_le_of_lt Nat.and_le_right (by decide)

theorem queued_shaped (a : MemAct) : ∀ x ∈ a.queued, x.shaped = true := by
  cases a with
  | none => simp [MemAct.queued]
  | store k e => simpa [MemAct.queued, LsbEntry.shaped, queuedStore] using storeData_lt k e.vk
  | forward k e x => simp [MemAct.queued]
  | queue k e => simp [MemAct.queued, LsbEntry.shaped, queuedLoad]

/-- Becoming ready keeps the shape of an entry (R228). -/
theorem markReady_shaped (cb : List CommitEntry) {x : LsbEntry} (h : x.shaped = true) :
    (x.markReady cb).shaped = true := by
  unfold LsbEntry.markReady
  split
  · exact h
  · split
    · revert h
      unfold LsbEntry.shaped
      cases x.op <;> simp
    · exact h

/-! ## Predictor -/

theorem length_push_le (bp : Predictor) (cfg : Config) (w : Word) :
    (bp.push cfg w).ras.length ≤ cfg.nRas := by
  simp only [Predictor.push, List.length_drop, List.length_append, List.length_singleton]
  omega

theorem length_pushLink_le {bp : Predictor} {cfg : Config} (rd : Option RegIdx) (pc : Word)
    (h : bp.ras.length ≤ cfg.nRas) : (bp.pushLink cfg rd pc).ras.length ≤ cfg.nRas := by
  unfold Predictor.pushLink
  split
  · exact h
  · split
    · exact h
    · exact length_push_le bp cfg _

theorem length_pop_le (bp : Predictor) : bp.pop.2.ras.length ≤ bp.ras.length := by
  unfold Predictor.pop
  split <;> simp

/-- Issue keeps the stack within its depth (R129, R274, R275). -/
theorem length_nextFetch_ras_le {cfg : Config} {bp : Predictor} (r : Record) (pc : Word)
    (h : bp.ras.length ≤ cfg.nRas) : (nextFetch cfg bp r pc).2.ras.length ≤ cfg.nRas := by
  unfold nextFetch
  split
  case h_2 => exact length_pushLink_le _ _ (Nat.le_trans (length_pop_le bp) h)
  case h_3 => exact length_pushLink_le _ _ h
  all_goals exact h

@[simp] theorem pop_ctr (bp : Predictor) : bp.pop.2.ctr = bp.ctr := by
  unfold Predictor.pop
  split <;> rfl

@[simp] theorem pushLink_ctr (bp : Predictor) (cfg : Config) (rd : Option RegIdx) (pc : Word) :
    (bp.pushLink cfg rd pc).ctr = bp.ctr := by
  unfold Predictor.pushLink
  split
  · rfl
  · split <;> rfl

/-- Issue changes no direction counter (R129). -/
@[simp] theorem nextFetch_ctr (cfg : Config) (bp : Predictor) (r : Record) (pc : Word) :
    (nextFetch cfg bp r pc).2.ctr = bp.ctr := by
  unfold nextFetch
  split <;> simp

theorem length_issued_ras_le (a : Acts) {s : State} (h : s.bp.ras.length ≤ s.cfg.nRas) :
    (a.issued s).bp.ras.length ≤ s.cfg.nRas := by
  cases hi : a.issue with
  | none => rwa [issued_of_none s hi]
  | some r =>
    rw [issued_of_some s hi, issueInto_bp]
    exact length_nextFetch_ras_le r s.pc h

theorem length_issued_ctr (a : Acts) (s : State) :
    (a.issued s).bp.ctr.length = s.bp.ctr.length := by
  cases hi : a.issue with
  | none => rw [issued_of_none s hi]
  | some r => simp [issued_of_some s hi]

/-- Training keeps the number of counters and every address (R169, R272). -/
theorem retirePredictor_lengths (s : State) (e : RobEntry) (bp : Predictor) :
    (retirePredictor s e bp).ctr.length = bp.ctr.length ∧ (retirePredictor s e bp).ras = bp.ras := by
  unfold retirePredictor Predictor.update
  split <;> simp

theorem bpAfter_lengths (s : State) (a : CommitAct) (bp : Predictor) :
    (a.bpAfter s bp).ctr.length = bp.ctr.length ∧ (a.bpAfter s bp).ras = bp.ras := by
  unfold CommitAct.bpAfter
  split
  · exact ⟨rfl, rfl⟩
  · exact retirePredictor_lengths s _ bp

/-! ## Register file -/

theorem producer_recordProducer_zero (rf : RegFile) (d : Option RegIdx) (t : Tag) :
    (rf.recordProducer d t).producer 0 = rf.producer 0 := by
  simp [producer_recordProducer]

theorem producer_regsCheckBus_zero (cb : List CommitEntry) (rf : RegFile) :
    (regsCheckBus cb rf).producer 0 = rf.producer 0 := by
  unfold regsCheckBus
  induction cb generalizing rf with
  | nil => rfl
  | cons b rest ih => simp [ih, producer_acceptCommit]

theorem producer_issued_zero (a : Acts) (s : State) :
    (a.issued s).regs.producer 0 = s.regs.producer 0 := by
  cases h : a.issue with
  | none => rw [issued_of_none s h]
  | some r => rw [issued_of_some s h, issueInto_regs, producer_recordProducer_zero]

/-! ## Backing store -/

/-- An access in range lists no byte beyond the end of the backing store (R68). -/
theorem memAfter_within {a : AccessAct} {s : State} (ha : validAccess s a)
    (h : s.mem.within s.cfg.memSize) : (a.memAfter s.mem).within s.cfg.memSize := by
  cases a with
  | write k x =>
    obtain ⟨-, -, -, hin, -⟩ := ha
    simp only [inRange, decide_eq_true_eq] at hin
    intro b hb
    rcases mem_writeLE hb with ⟨-, hb⟩ | hb
    · omega
    · exact h b hb
  | countdown => exact h
  | idle => exact h
  | read k x => exact h

theorem memAfter_wf (a : AccessAct) {m : Memory} (h : m.wf = true) : (a.memAfter m).wf = true := by
  cases a with
  | write k x => exact wf_writeLE h _ _ _
  | countdown => exact h
  | idle => exact h
  | read k x => exact h

/-! ## The step -/

theorem committed_wellSized {a : Acts} {s : State} (ha : a.taken s) :
    (a.committed s).wellSized = true := by
  obtain ⟨hslots, hhead, hcount, hrsa, hrsm, hq, hc, hctr, hras⟩ := (wellSized_iff s).1 ha.wellSized
  have hq' := length_queued_le ha
  obtain ⟨hlen, hstack⟩ := bpAfter_lengths s a.commit (a.issued s).bp
  rw [wellSized_iff, committed_rob, committed_rsa, committed_rsm, committed_q, committed_count,
    committed_bp, committed_cfg]
  refine ⟨?_, ?_, ?_, ?_, ?_, ?_, countAfter_le _ hc, ?_, ?_⟩
  · rw [checkBus_length, length_robAfter, length_issued_slots, hslots]
  · rw [checkBus_head]
    exact robAfter_head_lt _ (by rwa [issued_rob_head])
  · rw [checkBus_count]
    exact Nat.le_trans (robAfter_count_le _ _ _) (issued_count_le ha)
  · rw [rsaCheckBus, List.length_map, length_rsaAfter, length_issued_rsa, hrsa]
  · rw [rsmCheckBus, List.length_map]
    exact Nat.le_trans (rsmAfter_sublist _ _).length_le (length_issued_rsm_le ha)
  · rw [List.length_map, List.length_drop, List.length_append]
    omega
  · rw [hlen, length_issued_ctr, hctr]
  · rw [hstack]
    exact length_issued_ras_le a hras

theorem committed_shaped {a : Acts} {s : State} (h : ∀ x ∈ s.lsb.q, x.shaped = true) :
    ∀ x ∈ (a.committed s).lsb.q, x.shaped = true := by
  intro x hx
  rw [committed_q, List.mem_map] at hx
  obtain ⟨y, hy, rfl⟩ := hx
  apply markReady_shaped
  rcases List.mem_append.1 (List.mem_of_mem_drop hy) with hy | hy
  · exact h y hy
  · exact queued_shaped _ y hy

theorem committed_sound {a : Acts} {s : State} (ha : a.taken s) (h : s.sound) :
    (a.committed s).sound := by
  obtain ⟨hl, -, hwf, hwithin, -, hp0, hshape⟩ := h
  refine ⟨by rwa [committed_cfg], committed_wellSized ha, ?_, ?_, ?_, ?_, committed_shaped hshape⟩
  · rw [committed_mem]
    exact memAfter_wf _ hwf
  · rw [committed_mem, committed_cfg]
    exact memAfter_within ha.access hwithin
  · rw [committed_regs, value_forceZero, if_pos rfl]
  · rw [committed_regs, producer_forceZero, producer_regsCheckBus_zero, producer_issued_zero, hp0]

/-- A flush empties structures and keeps committed stores, so it keeps every size (R141). -/
theorem flushTo_sound (w : Word) {s : State} (h : s.sound) : (flushTo w s).sound := by
  obtain ⟨hl, hw, hwf, hwithin, hv0, -, hshape⟩ := h
  obtain ⟨hslots, hhead, -, hrsa, -, hq, hc, hctr, hras⟩ := (wellSized_iff s).1 hw
  have hn := legal_nRob hl
  refine ⟨hl, (wellSized_iff _).2 ⟨?_, ?_, ?_, ?_, ?_, ?_, hc, hctr, hras⟩, hwf, hwithin, hv0, ?_, ?_⟩
  · simpa [Rob.clear] using hslots
  · change 0 < s.cfg.nRob
    omega
  · exact Nat.zero_le _
  · simpa [rsaClear] using hrsa
  · exact Nat.zero_le _
  · exact Nat.le_trans (List.length_filter_le _ _) hq
  · simp
  · exact fun x hx => hshape x (List.mem_of_mem_filter hx)

/-- Settles O52, by the acts of a step: each size is kept by the one act that changes the structure. -/
theorem soundKept : Obligations.SoundKept := by
  unfold Obligations.SoundKept
  intro s t hs hstep
  exact step_induction (P := State.sound) hstep hs (fun _ => hs) (fun a ha => committed_sound ha hs)
    (fun a w ha => flushTo_sound w (committed_sound ha hs))

end Sys2Proof.Proofs
end

section
/-! O53: every step keeps the window of the reorder buffer, its tags, and the producer tags
(10_state.md R29, R30, R31, R44 (a), (c)). Issue is followed first, to the view it leaves behind; then
Commit and the buses, from that view. The lemmas on slots and ages serve O54 and O55 too. -/

namespace Sys2Proof.Proofs

-- One proof after the other, on one thread: each thread costs the check 256 MB of stack.
set_option Elab.async false

open Sys2Proof.Machine Sys2Proof.Laws

/-! ## What soundness and consistency give -/

theorem sound_slots {s : State} (h : s.sound) :
    s.rob.slots.length = s.cfg.nRob ∧ s.rob.head < s.cfg.nRob := by
  obtain ⟨-, hw, -⟩ := h
  obtain ⟨hslots, hhead, -⟩ := (wellSized_iff s).1 hw
  exact ⟨hslots, hhead⟩

theorem sound_producer_zero {s : State} (h : s.sound) : s.regs.producer 0 = none := by
  obtain ⟨-, -, -, -, -, hp0, -⟩ := h
  exact hp0

theorem entry_lt {s : State} (h : s.sound) {p : Tag} {x : RobEntry} (hx : s.rob.entry p = some x) :
    p < s.cfg.nRob :=
  (sound_slots h).1 ▸ lt_of_entry hx

theorem age_lt_count {s : State} (h : s.sound) (hc : s.consistent) {p : Tag} {x : RobEntry}
    (hx : s.rob.entry p = some x) : s.rob.age s.cfg p < s.rob.count :=
  (hc.1 p (entry_lt h hx)).1 (by rw [hx]; rfl)

theorem entry_tag {s : State} (h : s.sound) (hc : s.consistent) {p : Tag} {x : RobEntry}
    (hx : s.rob.entry p = some x) : x.tag = p ∧ (x.dest = none ↔ x.op.noDest = true) := by
  obtain ⟨-, htagged, -⟩ := hc
  exact htagged p (entry_lt h hx) x hx

/-- The youngest occupied slot with the destination `q` is the one its producer tag names (R44 (c)). -/
theorem producer_entry {s : State} (hc : s.consistent) {q : RegIdx} {p : Tag}
    (hp : s.regs.producer q = some p) :
    (∃ x, s.rob.entry p = some x ∧ x.dest = some q) ∧
      ∀ p', p' < s.cfg.nRob → ∀ x' ∈ s.rob.entry p', x'.dest = some q →
        s.rob.age s.cfg p' ≤ s.rob.age s.cfg p := by
  obtain ⟨-, -, hproducers⟩ := hc
  exact hproducers q p hp

/-- The tail slot of a buffer that is not full is free (R29). -/
theorem entry_tail {s : State} (h : s.sound) (hc : s.consistent) (hn : s.rob.count < s.cfg.nRob) :
    s.rob.entry (s.rob.tail s.cfg) = none := by
  by_contra hne
  obtain ⟨x, hx⟩ := Option.ne_none_iff_exists'.1 hne
  have hlt := age_lt_count h hc hx
  rw [age_tail (sound_slots h).2 hn] at hlt
  exact Nat.lt_irrefl _ hlt

/-! ## The view after Issue -/

theorem issue_room {a : Acts} {s : State} (ha : a.taken s) {r : Record} (h : a.issue = some r) :
    s.rob.count < s.cfg.nRob := by
  have hle := issued_count_le ha
  simp only [issued_of_some s h, issueInto_rob, Rob.issue] at hle
  exact hle

@[simp] theorem issueInto_age (s : State) (r : Record) (cfg : Config) (p : Tag) :
    (issueInto s r s).rob.age cfg p = s.rob.age cfg p := by
  simp [Rob.age, Rob.issue]

@[simp] theorem issued_age (a : Acts) (s : State) (p : Tag) :
    (a.issued s).rob.age s.cfg p = s.rob.age s.cfg p := by
  simp only [Rob.age, issued_rob_head]

theorem issueInto_entry {s : State} (h : s.sound) (r : Record) (p : Tag) :
    (issueInto s r s).rob.entry p =
      if p = s.rob.tail s.cfg then some (newRobEntry r (s.rob.tail s.cfg) s.pc)
      else s.rob.entry p := by
  obtain ⟨hslots, hhead⟩ := sound_slots h
  rw [issueInto_rob, entry_issue r s.pc p hhead hslots]

/-- Issue touches no occupied slot (R161). -/
theorem issued_entry_of_some {a : Acts} {s : State} (ha : a.taken s) (h : s.sound)
    (hc : s.consistent) {p : Tag} {x : RobEntry} (hx : s.rob.entry p = some x) :
    (a.issued s).rob.entry p = some x := by
  cases hi : a.issue with
  | none => rwa [issued_of_none s hi]
  | some r =>
    have hne : p ≠ s.rob.tail s.cfg := by
      rintro rfl
      rw [entry_tail h hc (issue_room ha hi)] at hx
      cases hx
    rw [issued_of_some s hi, issueInto_entry h, if_neg hne, hx]

theorem issueInto_windowed {s : State} (h : s.sound) (hc : s.consistent)
    (hn : s.rob.count < s.cfg.nRob) (r : Record) : (issueInto s r s).windowed := by
  obtain ⟨-, hhead⟩ := sound_slots h
  intro p hp
  rw [issueInto_cfg] at hp
  have hcount : (issueInto s r s).rob.count = s.rob.count + 1 := by simp [Rob.issue]
  rw [issueInto_entry h, issueInto_age, issueInto_cfg, hcount]
  by_cases ht : p = s.rob.tail s.cfg
  · subst ht
    simp [age_tail hhead hn]
  · rw [if_neg ht, hc.1 p hp]
    have hne : s.rob.age s.cfg p ≠ s.rob.count := fun hage' =>
      ht (age_inj hhead hp (tail_lt hhead) (by rw [hage', age_tail hhead hn]))
    omega

theorem issueInto_tagged {s : State} (h : s.sound) (hc : s.consistent) {r : Record}
    (hr : r.rd = none ↔ r.op.noDest = true) : (issueInto s r s).tagged := by
  intro p hp x hx
  rw [issueInto_cfg] at hp
  rw [issueInto_entry h] at hx
  split at hx
  · rename_i ht
    cases hx
    exact ⟨ht.symm, hr⟩
  · exact entry_tag h hc hx

/-- The new entry is the youngest producer of its destination, and takes no other register's (R128). -/
theorem issueInto_producers {s : State} (h : s.sound) (hc : s.consistent)
    (hn : s.rob.count < s.cfg.nRob) (r : Record) : (issueInto s r s).producersInFlight := by
  obtain ⟨-, hhead⟩ := sound_slots h
  have htail := age_tail hhead hn
  intro q p hp
  rw [issueInto_regs, producer_recordProducer, Option.mem_def] at hp
  simp only [issueInto_age, issueInto_entry h, issueInto_cfg]
  by_cases hq : r.rd = some q ∧ q ≠ 0
  · rw [if_pos hq, Option.some.injEq] at hp
    subst hp
    refine ⟨⟨newRobEntry r (s.rob.tail s.cfg) s.pc, by simp, hq.1⟩, fun p' _ e' he' _ => ?_⟩
    rw [htail]
    split at he'
    · rename_i ht
      rw [ht, htail]
    · exact Nat.le_of_lt (age_lt_count h hc he')
  · rw [if_neg hq] at hp
    obtain ⟨⟨x, hx, hdest⟩, hyoung⟩ := producer_entry hc hp
    have hq0 : q ≠ 0 := by
      rintro rfl
      rw [sound_producer_zero h] at hp
      cases hp
    have hne : p ≠ s.rob.tail s.cfg := by
      rintro rfl
      rw [entry_tail h hc hn] at hx
      cases hx
    refine ⟨⟨x, by rw [if_neg hne]; exact hx, hdest⟩, fun p' hp' e' he' hd' => ?_⟩
    split at he'
    · cases he'
      exact absurd ⟨hd', hq0⟩ hq
    · exact hyoung p' hp' e' he' hd'

theorem issued_consistent {a : Acts} {s : State} (ha : a.taken s) (h : s.sound) (hc : s.consistent) :
    (a.issued s).consistent := by
  cases hi : a.issue with
  | none => rwa [issued_of_none s hi]
  | some r =>
    obtain ⟨-, -, i, rfl⟩ := ha.issue r hi
    have hn := issue_room ha hi
    rw [issued_of_some s hi]
    exact ⟨issueInto_windowed h hc hn _, issueInto_tagged h hc (recordOf_rd_none i),
      issueInto_producers h hc hn _⟩

/-! ## Slots and ages after the cycle -/

/-- A retired entry stands ready in the head slot, also in the view after Issue (R163). -/
theorem retired_at_head {a : Acts} {s : State} (ha : a.taken s) {e : RobEntry}
    (he : a.commit.retired = some e) :
    s.rob.entry s.rob.head = some e ∧ 0 < s.rob.count ∧ e.ready = true ∧ e.op.group ≠ .halt := by
  have hv := ha.commit
  cases hcm : a.commit with
  | none => rw [hcm] at he; cases he
  | halt => rw [hcm] at he; cases he
  | retire e' =>
    rw [hcm] at he hv
    cases he
    obtain ⟨hold, hready, hgroup⟩ := hv
    obtain ⟨hpos, hentry⟩ := oldest_eq_some hold
    exact ⟨hentry, hpos, hready, hgroup⟩

/-- What becomes of a slot in a cycle: the popped one is free, the others take the result bus (R135,
R166, R172). -/
theorem committed_entry (a : Acts) (s : State) (p : Tag) :
    (a.committed s).rob.entry p =
      if a.commit.retired.isSome = true ∧ p = s.rob.head then none
      else ((a.issued s).rob.entry p).map (RobEntry.afterBus (a.resultBus s) p) := by
  rw [committed_rob, entry_checkBus]
  unfold CommitAct.robAfter
  split
  · rename_i hr
    simp [hr]
  · rename_i e hr
    rw [entry_pop, issued_rob_head]
    by_cases hp : p = s.rob.head <;> simp [hr, hp]

theorem committed_entry_of_survives {a : Acts} {s : State} {p : Tag} (hp : a.survives s p) :
    (a.committed s).rob.entry p =
      ((a.issued s).rob.entry p).map (RobEntry.afterBus (a.resultBus s) p) := by
  rw [committed_entry, if_neg fun hpop => hp hpop.1 hpop.2]

/-- An entry of the reorder buffer after a cycle is one of the view after Issue, perhaps completed. -/
theorem of_committed_entry {a : Acts} {s : State} {p : Tag} {x : RobEntry}
    (hx : (a.committed s).rob.entry p = some x) :
    a.survives s p ∧
      ∃ x0, (a.issued s).rob.entry p = some x0 ∧ x = RobEntry.afterBus (a.resultBus s) p x0 := by
  rw [committed_entry] at hx
  split at hx
  · cases hx
  · rename_i hs
    obtain ⟨x0, hx0, rfl⟩ := Option.map_eq_some_iff.1 hx
    exact ⟨fun hr hp => hs ⟨hr, hp⟩, x0, hx0, rfl⟩

theorem committed_head (a : Acts) (s : State) :
    (a.committed s).rob.head =
      if a.commit.retired.isSome = true then (s.rob.head + 1) % s.cfg.nRob else s.rob.head := by
  rw [committed_rob, checkBus_head]
  unfold CommitAct.robAfter
  split
  · rename_i hr
    simp [hr, issued_rob_head]
  · rename_i e hr
    simp [hr, Rob.pop, issued_rob_head]

/-- Every slot that Commit does not free comes nearer to the head by the entry popped (R166). -/
theorem committed_age {a : Acts} {s : State} (h : s.sound) {p : Tag} (hp : p < s.cfg.nRob)
    (hs : a.survives s p) : (a.committed s).rob.age s.cfg p + a.pops = s.rob.age s.cfg p := by
  obtain ⟨-, hhead⟩ := sound_slots h
  cases hr : a.commit.retired with
  | none => simp [Acts.pops, hr, Rob.age, committed_head]
  | some e =>
    have hne : p ≠ s.rob.head := hs (by simp [hr])
    have hpos := age_pos hhead hp hne
    have hpop : (a.committed s).rob.age s.cfg p = (s.rob.pop s.rob s.cfg).age s.cfg p := by
      simp [Rob.age, committed_head, hr, Rob.pop]
    rw [hpop, age_pop hhead hp, if_neg hne]
    simp only [Acts.pops, hr, Option.toList_some, List.length_singleton]
    omega

/-- The freed slot is the farthest from the new head. -/
theorem committed_age_head {a : Acts} {s : State} (h : s.sound)
    (hr : a.commit.retired.isSome = true) :
    (a.committed s).rob.age s.cfg s.rob.head = s.cfg.nRob - 1 := by
  obtain ⟨-, hhead⟩ := sound_slots h
  have hpop : (a.committed s).rob.age s.cfg s.rob.head = (s.rob.pop s.rob s.cfg).age s.cfg s.rob.head := by
    simp [Rob.age, committed_head, hr, Rob.pop]
  rw [hpop, age_pop hhead hhead, if_pos rfl]

/-- The order of the slots behind one that stays is kept. -/
theorem committed_age_lt {a : Acts} {s : State} (h : s.sound) {p q : Tag} (hp : p < s.cfg.nRob)
    (hq : q < s.cfg.nRob) (hs : a.survives s p) (hlt : s.rob.age s.cfg p < s.rob.age s.cfg q) :
    (a.committed s).rob.age s.cfg p < (a.committed s).rob.age s.cfg q := by
  have hsq : a.survives s q := by
    rintro - rfl
    rw [age_head (sound_slots h).2] at hlt
    exact Nat.not_lt_zero _ hlt
  have h1 := committed_age h hp hs
  have h2 := committed_age h hq hsq
  omega

theorem committed_robCount (a : Acts) (s : State) :
    (a.committed s).rob.count = (a.issued s).rob.count - a.pops := by
  rw [committed_rob, checkBus_count]
  unfold CommitAct.robAfter Acts.pops
  split
  · rename_i hr
    simp [hr]
  · rename_i e hr
    simp [hr, Rob.pop]

/-! ## Commit and the buses -/

/-- The commit groups whose kinds write no register (R164, R30). -/
theorem noDest_of_group {op : OpKind} (h : op.group = .halt ∨ op.group = .store ∨ op.group = .branch) :
    op.noDest = true := by
  rcases op with (_ | _ | _ | _ | k | k | k | _) | (k | k) <;> simp_all [OpKind.group, OpKind.noDest]

/-- A retired entry is on the commit bus with its tag and destination, or it has no destination and is
not on it (R167 to R171). -/
theorem retireBus_cases {e : RobEntry} (hd : e.dest = none ↔ e.op.noDest = true) :
    (∃ v, retireBus e = [⟨e.tag, v, e.dest⟩]) ∨ (e.dest = none ∧ retireBus e = []) := by
  cases hg : e.op.group with
  | halt => exact .inr ⟨hd.2 (noDest_of_group (by simp [hg])), by simp [retireBus, hg]⟩
  | branch => exact .inr ⟨hd.2 (noDest_of_group (by simp [hg])), by simp [retireBus, hg]⟩
  | store => exact .inl ⟨0, by simp [retireBus, hg, hd.2 (noDest_of_group (by simp [hg]))]⟩
  | pcValue => exact .inl ⟨_, by simp [retireBus, hg]; rfl⟩
  | indirectJump => exact .inl ⟨_, by simp [retireBus, hg]; rfl⟩
  | other => exact .inl ⟨_, by simp [retireBus, hg]; rfl⟩

/-- Commit clears the producer tag that names the retired entry, and no other (R262). -/
theorem producer_retireBus {e : RobEntry} (hd : e.dest = none ↔ e.op.noDest = true) (rf : RegFile)
    (q : RegIdx) :
    (regsCheckBus (retireBus e) rf).producer q =
      if e.dest = some q ∧ q ≠ 0 ∧ rf.producer q = some e.tag then none else rf.producer q := by
  rcases retireBus_cases hd with ⟨v, hv⟩ | ⟨hnone, hv⟩
  · simp [hv, regsCheckBus, producer_acceptCommit]
  · simp [hv, regsCheckBus, hnone]

/-- The producer of a register after a cycle: as Issue left it, and not the entry that retired. -/
theorem of_committed_producer {a : Acts} {s : State} (ha : a.taken s) (h : s.sound)
    (hc : s.consistent) {q : RegIdx} {p : Tag} (hp : (a.committed s).regs.producer q = some p) :
    (a.issued s).regs.producer q = some p ∧
      ∀ e, a.commit.retired = some e → e.dest = some q → q ≠ 0 → p ≠ e.tag := by
  rw [committed_regs, producer_forceZero] at hp
  cases hr : a.commit.retired with
  | none =>
    simp only [CommitAct.bus, hr] at hp
    exact ⟨hp, fun e he => by cases he⟩
  | some e =>
    obtain ⟨hentry, -⟩ := retired_at_head ha hr
    have hbus : a.commit.bus = retireBus e := by simp [CommitAct.bus, hr]
    rw [hbus, producer_retireBus (entry_tag h hc hentry).2] at hp
    split at hp
    · cases hp
    · rename_i hno
      refine ⟨hp, fun e' he' hd hq hpe => ?_⟩
      cases he'
      exact hno ⟨hd, hq, hpe ▸ hp⟩

theorem committed_windowed {a : Acts} {s : State} (ha : a.taken s) (h : s.sound)
    (hc : s.consistent) : (a.committed s).windowed := by
  obtain ⟨hw, -, -⟩ := issued_consistent ha h hc
  have hle := issued_count_le ha
  intro p hp
  rw [committed_cfg] at hp ⊢
  rw [committed_robCount]
  have hwp := hw p (by rwa [issued_cfg])
  rw [issued_cfg, issued_age] at hwp
  by_cases hs : a.survives s p
  · have hage := committed_age h hp hs
    rw [committed_entry_of_survives hs, Option.isSome_map, hwp]
    omega
  · simp only [Acts.survives, Classical.not_imp, not_not] at hs
    obtain ⟨hr, rfl⟩ := hs
    obtain ⟨e, he⟩ := Option.isSome_iff_exists.1 hr
    have hpops : a.pops = 1 := by simp [Acts.pops, he]
    rw [committed_entry, if_pos ⟨hr, rfl⟩, committed_age_head h hr, hpops]
    simp only [Option.isSome_none, Bool.false_eq_true, false_iff]
    omega

theorem committed_tagged {a : Acts} {s : State} (ha : a.taken s) (h : s.sound)
    (hc : s.consistent) : (a.committed s).tagged := by
  obtain ⟨-, ht, -⟩ := issued_consistent ha h hc
  intro p hp x hx
  rw [committed_cfg] at hp
  obtain ⟨-, x0, hx0, rfl⟩ := of_committed_entry hx
  rw [afterBus_tag, afterBus_op, afterBus_dest]
  exact ht p (by rwa [issued_cfg]) x0 hx0

theorem committed_producers {a : Acts} {s : State} (ha : a.taken s) (h : s.sound)
    (hc : s.consistent) : (a.committed s).producersInFlight := by
  have hci := issued_consistent ha h hc
  intro q p hp
  obtain ⟨hpi, hnot⟩ := of_committed_producer ha h hc hp
  obtain ⟨⟨x, hx, hdest⟩, hyoung⟩ := producer_entry hci hpi
  have hq0 : q ≠ 0 := by
    rintro rfl
    rw [producer_issued_zero, sound_producer_zero h] at hpi
    cases hpi
  have hs : a.survives s p := by
    rintro hr rfl
    obtain ⟨e, he⟩ := Option.isSome_iff_exists.1 hr
    obtain ⟨hentry, -⟩ := retired_at_head ha he
    rw [issued_entry_of_some ha h hc hentry] at hx
    obtain rfl := Option.some.inj hx
    exact hnot e he hdest hq0 (entry_tag h hc hentry).1.symm
  have hp' : p < s.cfg.nRob := by
    have := lt_of_entry hx
    rwa [length_issued_slots, (sound_slots h).1] at this
  rw [committed_cfg]
  refine ⟨⟨RobEntry.afterBus (a.resultBus s) p x, ?_, ?_⟩, fun p' hlt e' he' hd' => ?_⟩
  · rw [committed_entry_of_survives hs, hx]
    rfl
  · rw [afterBus_dest, hdest]
  · obtain ⟨hs', x', hx', rfl⟩ := of_committed_entry he'
    rw [afterBus_dest] at hd'
    have hle := hyoung p' (by rwa [issued_cfg]) x' hx' hd'
    rw [issued_cfg, issued_age, issued_age] at hle
    have h1 := committed_age h hp' hs
    have h2 := committed_age h hlt hs'
    omega

theorem committed_consistent {a : Acts} {s : State} (ha : a.taken s) (h : s.sound)
    (hc : s.consistent) : (a.committed s).consistent :=
  ⟨committed_windowed ha h hc, committed_tagged ha h hc, committed_producers ha h hc⟩

/-- After a flush no slot is occupied and no register has a producer (R141, R173, R264). -/
theorem flushTo_consistent (w : Word) (s : State) : (flushTo w s).consistent := by
  refine ⟨fun p _ => ?_, fun p _ x hx => ?_, fun q p hp => ?_⟩
  · have hcount : (flushTo w s).rob.count = 0 := rfl
    rw [flushTo_rob, entry_clear, ← flushTo_rob w, hcount]
    simp
  · rw [flushTo_rob, entry_clear] at hx
    cases hx
  · rw [flushTo_regs, producer_clearTags] at hp
    cases hp

/-- Settles O53, by following Issue to the view it leaves and Commit and the buses from there. -/
theorem consistentKept : Obligations.ConsistentKept := by
  unfold Obligations.ConsistentKept
  intro s t hs hc hstep
  exact step_induction (P := State.consistent) hstep hc (fun _ => hc)
    (fun a ha => committed_consistent ha hs hc) (fun a w _ => flushTo_consistent w (a.committed s))

end Sys2Proof.Proofs
end

section
/-! O54: every step keeps one holder per tag, in step with its reorder-buffer entry (10_state.md R31,
R44 (b), 41_reorder_buffer.md R172). The idea is a law of conservation: the holders whose entry is not
ready gain the tag Issue allocates and lose exactly the tags of the result bus. -/

namespace Sys2Proof.Proofs

-- One proof after the other, on one thread: each thread costs the check 256 MB of stack.
set_option Elab.async false

open Sys2Proof.Machine Sys2Proof.Laws

/-! ## The holders, by the readiness of their reorder-buffer entry -/

/-- The tags held by the arithmetic station. -/
def rsaTags (rsa : List (Option (RsEntry ArithKind))) : List Tag := rsa.filterMap (·.map (·.tag))

/-- The tags held by the memory station. -/
def rsmTags (rsm : List (RsEntry MemKind)) : List Tag := rsm.map (·.tag)

/-- The tags held by the loads of a queue. -/
def loadTags (q : List LsbEntry) : List Tag := (q.filter (fun x => !x.isStore)).map (·.tag)

/-- The tags held by the unready stores of a queue. -/
def pendingTags (q : List LsbEntry) : List Tag :=
  (q.filter (fun x => x.isStore && !x.ready)).map (·.tag)

/-- The holders whose reorder-buffer entry is not ready (R44 (b)). -/
def waitingTags (s : State) : List Tag := rsaTags s.rsa ++ rsmTags s.rsm ++ loadTags s.lsb.q

theorem committedStore_eq (x : LsbEntry) : x.committedStore = (x.isStore && x.ready) := by
  unfold LsbEntry.committedStore LsbEntry.isStore
  cases x.op <;> simp

theorem isStore_iff (x : LsbEntry) : x.isStore = true ↔ ∃ k, x.op = .store k := by
  unfold LsbEntry.isStore
  cases x.op <;> simp

/-- Every holder is of the waiting ones or an unready store. -/
theorem count_holders (s : State) (p : Tag) :
    s.holders.count p = (waitingTags s).count p + (pendingTags s.lsb.q).count p := by
  have hq : ((s.lsb.q.filter (fun x => !x.committedStore)).map (·.tag)).count p =
      (loadTags s.lsb.q).count p + (pendingTags s.lsb.q).count p := by
    unfold loadTags pendingTags
    induction s.lsb.q with
    | nil => rfl
    | cons x rest ih =>
      cases hs : x.isStore <;> cases hr : x.ready <;>
        simp [committedStore_eq, hs, hr, List.count_cons] at ih ⊢ <;> omega
  simp only [State.holders, waitingTags, rsaTags, rsmTags, List.count_append, hq]
  omega

theorem owned_rsm {s : State} (ho : s.owned) {e : RsEntry MemKind} (he : e ∈ s.rsm) :
    ∃ x, s.rob.entry e.tag = some x ∧ x.ready = false ∧ x.op = .mem e.op := by
  obtain ⟨-, -, hrsm, -⟩ := ho
  exact hrsm e he

/-- The entry of an unready store in the load-store buffer. -/
theorem owned_pending {s : State} (ho : s.owned) {x : LsbEntry} (hx : x ∈ s.lsb.q)
    (hr : x.ready = false) :
    ∃ y, s.rob.entry x.tag = some y ∧ y.op = .mem x.op ∧ y.ready = x.isStore := by
  obtain ⟨-, -, -, hlsb⟩ := ho
  exact hlsb x hx (by simp [committedStore_eq, hr])

/-! ## Stations: what enters and what leaves -/

/-- Overwriting a slot exchanges the tag it held. -/
theorem count_rsaTags_set {rsa : List (Option (RsEntry ArithKind))} {n : Nat}
    {x : Option (RsEntry ArithKind)} (h : rsa[n]? = some x) (y : Option (RsEntry ArithKind)) (p : Tag) :
    (rsaTags (rsa.set n y)).count p + (rsaTags [x]).count p =
      (rsaTags rsa).count p + (rsaTags [y]).count p := by
  have happ : ∀ z rest, (rsaTags (z :: rest)).count p = (rsaTags [z]).count p + (rsaTags rest).count p := by
    intro z rest
    cases z <;> simp [rsaTags, List.count_cons, Nat.add_comm]
  induction rsa generalizing n with
  | nil => cases h
  | cons z rest ih =>
    cases n with
    | zero =>
      cases h
      rw [List.set_cons_zero, happ y rest, happ x rest]
      omega
    | succ n =>
      have := ih (n := n) (by simpa using h)
      rw [List.set_cons_succ, happ z (rest.set n y), happ z rest]
      omega

/-- Dispatch removes the one tag from the memory station (R199). -/
theorem count_rsmRemove {rsm : List (RsEntry MemKind)} {e : RsEntry MemKind} (h : e ∈ rsm) (p : Tag) :
    (rsmTags (rsmRemove rsm e.tag)).count p + [e.tag].count p = (rsmTags rsm).count p := by
  obtain ⟨b, l1, l2, -, hb, hl, hl'⟩ :=
    List.exists_of_eraseP (p := fun x => decide (x.tag = e.tag)) h (by simp)
  rw [decide_eq_true_eq] at hb
  rw [rsmRemove, hl', hl]
  simp only [rsmTags, List.map_append, List.map_cons, List.count_append, List.count_cons, hb,
    List.count_nil]
  omega

/-! ## Issue -/

/-- The slots of the arithmetic station that are occupied stay so in Issue (R193). -/
theorem issued_rsa_of_some {a : Acts} {s : State} {n : Nat} {e : RsEntry ArithKind}
    (h : s.rsa[n]? = some (some e)) : (a.issued s).rsa[n]? = some (some e) := by
  cases hi : a.issue with
  | none => rwa [issued_of_none s hi]
  | some r =>
    simp only [issued_of_some s hi, issueInto_rsa, stationIssue]
    split
    · simp only [rsaIssue]
      split
      · exact h
      · rename_i m hm
        have hfree := (firstFree_some hm).1
        have hne : m ≠ n := by
          rintro rfl
          rw [hfree] at h
          cases h
        rw [List.getElem?_set_ne hne, h]
    · exact h

/-- Issue appends to the memory station, or leaves it alone (R193). -/
theorem issued_rsm_prefix (a : Acts) (s : State) : s.rsm <+: (a.issued s).rsm := by
  cases hi : a.issue with
  | none => rw [issued_of_none s hi]
  | some r =>
    simp only [issued_of_some s hi, issueInto_rsm, stationIssue]
    split
    · exact List.prefix_rfl
    · exact List.prefix_append _ _

/-- An entry of the arithmetic station after Issue is an old one or the one Issue made (R192). -/
theorem of_mem_issueInto_rsa {s : State} {r : Record} {e : RsEntry ArithKind}
    (h : some e ∈ (issueInto s r s).rsa) :
    some e ∈ s.rsa ∨
      ∃ k, r.op = .arith k ∧ e = arithEntry k r (s.rob.tail s.cfg) s.regs s.pc := by
  simp only [issueInto_rsa, stationIssue] at h
  split at h
  · rename_i k hk
    simp only [rsaIssue] at h
    split at h
    · exact .inl h
    · rcases List.mem_or_eq_of_mem_set h with h | h
      · exact .inl h
      · exact .inr ⟨k, hk, Option.some.inj h⟩
  · exact .inl h

/-- An entry of the memory station after Issue is an old one or the one Issue made (R192). -/
theorem of_mem_issueInto_rsm {s : State} {r : Record} {e : RsEntry MemKind}
    (h : e ∈ (issueInto s r s).rsm) :
    e ∈ s.rsm ∨ ∃ k, r.op = .mem k ∧ e = memEntry k r (s.rob.tail s.cfg) s.regs s.pc := by
  simp only [issueInto_rsm, stationIssue] at h
  split at h
  · exact .inl h
  · rename_i k hk
    rcases List.mem_append.1 h with h | h
    · exact .inl h
    · exact .inr ⟨k, hk, List.mem_singleton.1 h⟩

/-- Issue adds the tail's tag to the holders, and no other (R126, R193). -/
theorem count_waitingTags_issueInto {s : State} {r : Record} (hroom : s.hasRoom r.op = true) (p : Tag) :
    (waitingTags (issueInto s r s)).count p =
      [s.rob.tail s.cfg].count p + (waitingTags s).count p := by
  simp only [waitingTags, List.count_append, issueInto_rsa, issueInto_rsm, issueInto_lsb, stationIssue]
  cases hop : r.op with
  | arith k =>
    rw [hop] at hroom
    obtain ⟨n, hn⟩ := Option.isSome_iff_exists.1 hroom
    have := count_rsaTags_set (firstFree_some hn).1
      (some (arithEntry k r (s.rob.tail s.cfg) s.regs s.pc)) p
    simp only [rsaIssue, hn]
    simp [rsaTags, arithEntry] at this ⊢
    omega
  | mem k =>
    simp only [rsmIssue, rsmTags, List.map_append, List.count_append, List.map_singleton, memEntry]
    omega

/-- Every holder's tag names an occupied slot (R44 (b)). -/
theorem entry_of_holder {s : State} (ho : s.owned) {p : Tag} (hp : p ∈ s.holders) :
    ∃ x, s.rob.entry p = some x := by
  obtain ⟨-, hrsa, hrsm, hlsb⟩ := ho
  rcases List.mem_append.1 hp with hp | hp
  · rcases List.mem_append.1 hp with hp | hp
    · obtain ⟨y, hy, hyp⟩ := List.mem_filterMap.1 hp
      obtain ⟨e, rfl, rfl⟩ := Option.map_eq_some_iff.1 hyp
      obtain ⟨x, hx, -⟩ := hrsa _ hy e rfl
      exact ⟨x, hx⟩
    · obtain ⟨e, he, rfl⟩ := List.mem_map.1 hp
      obtain ⟨x, hx, -⟩ := hrsm e he
      exact ⟨x, hx⟩
  · obtain ⟨e, he, rfl⟩ := List.mem_map.1 hp
    obtain ⟨he, hne⟩ := List.mem_filter.1 he
    obtain ⟨x, hx, -⟩ := hlsb e he (by simpa using hne)
    exact ⟨x, hx⟩

theorem issueInto_holders_nodup {s : State} (h : s.sound) (hc : s.consistent) (ho : s.owned)
    (hn : s.rob.count < s.cfg.nRob) {r : Record} (hroom : s.hasRoom r.op = true) :
    (issueInto s r s).holders.Nodup := by
  rw [List.nodup_iff_count_le_one]
  intro p
  have hold := List.nodup_iff_count_le_one.1 ho.1 p
  have hnew : p = s.rob.tail s.cfg → s.holders.count p = 0 := by
    rintro rfl
    rw [List.count_eq_zero]
    intro hmem
    obtain ⟨x, hx⟩ := entry_of_holder ho hmem
    rw [entry_tail h hc hn] at hx
    cases hx
  rw [count_holders] at hold hnew ⊢
  rw [count_waitingTags_issueInto hroom, issueInto_lsb, List.count_singleton]
  split
  · have := hnew (by simp_all)
    omega
  · omega

/-- The view after Issue has one holder per tag (R44 (b)). -/
theorem issued_owned {a : Acts} {s : State} (ha : a.taken s) (h : s.sound) (hc : s.consistent)
    (ho : s.owned) : (a.issued s).owned := by
  cases hi : a.issue with
  | none => rwa [issued_of_none s hi]
  | some r =>
    obtain ⟨-, hroom, -⟩ := ha.issue r hi
    have hn := issue_room ha hi
    have hold : ∀ {p x}, s.rob.entry p = some x → (issueInto s r s).rob.entry p = some x :=
      fun hx => issued_of_some s hi ▸ issued_entry_of_some ha h hc hx
    have hnew : (issueInto s r s).rob.entry (s.rob.tail s.cfg) =
        some (newRobEntry r (s.rob.tail s.cfg) s.pc) := by
      rw [issueInto_entry h, if_pos rfl]
    obtain ⟨-, hrsa, hrsm, hlsb⟩ := id ho
    rw [issued_of_some s hi]
    refine ⟨issueInto_holders_nodup h hc ho hn hroom, ?_, ?_, ?_⟩
    · rintro y hy e rfl
      rcases of_mem_issueInto_rsa hy with he | ⟨k, hk, rfl⟩
      · obtain ⟨x, hx, hrest⟩ := hrsa _ he e rfl
        exact ⟨x, hold hx, hrest⟩
      · exact ⟨_, hnew, rfl, hk, rfl⟩
    · intro e he
      rcases of_mem_issueInto_rsm he with he | ⟨k, hk, rfl⟩
      · obtain ⟨x, hx, hrest⟩ := hrsm e he
        exact ⟨x, hold hx, hrest⟩
      · exact ⟨_, hnew, rfl, hk⟩
    · intro e he hcs
      obtain ⟨x, hx, hrest⟩ := hlsb e (by simpa using he) hcs
      exact ⟨x, hold hx, hrest⟩

end Sys2Proof.Proofs
end

section
/-! O54, continued: from the view after Issue through the stations, the memory port and Commit. -/

namespace Sys2Proof.Proofs

-- One proof after the other, on one thread: each thread costs the check 256 MB of stack.
set_option Elab.async false

open Sys2Proof.Machine Sys2Proof.Laws

/-! ## What the acts are about -/

theorem arith_mem {a : Acts} {s : State} (ha : a.taken s) {n : Nat} {e : RsEntry ArithKind}
    (h : a.arith = some (n, e)) : (a.issued s).rsa[n]? = some (some e) :=
  issued_rsa_of_some (rsaSelect_some (ha.arith.trans h)).1

/-- A dispatched entry stands in the memory station: a store as its oldest entry (R197, R198). -/
theorem dispatched_mem {a : Acts} {s : State} (ha : a.taken s) {e : RsEntry MemKind}
    (h : a.mem.dispatched = some e) :
    e ∈ (a.issued s).rsm ∧ ((∃ k, e.op = .store k) → ∃ rest, (a.issued s).rsm = e :: rest) := by
  have hsel : rsmSelect s.rsm = some e := by
    have hv := ha.mem
    cases hm : a.mem <;> rw [hm] at h hv <;> cases h <;> exact hv.1
  obtain ⟨tail, htail⟩ := issued_rsm_prefix a s
  rcases rsmSelect_some hsel with ⟨-, -, rest, hrest⟩ | ⟨⟨k, hk⟩, -, older, younger, hrest, -⟩
  · rw [← htail, hrest]
    exact ⟨by simp, fun _ => ⟨rest ++ tail, rfl⟩⟩
  · rw [← htail, hrest]
    refine ⟨by simp, ?_⟩
    rintro ⟨k', hk'⟩
    rw [hk] at hk'
    cases hk'

/-- What a dispatch queues: the dispatched store, unready, or the dispatched load (R222, R226). -/
theorem of_mem_queued {a : Acts} {s : State} (ha : a.taken s) {x : LsbEntry} (hx : x ∈ a.mem.queued) :
    ∃ e, a.mem.dispatched = some e ∧ x.tag = e.tag ∧ x.op = e.op ∧
      ((∃ k, a.mem = .store k e ∧ x = queuedStore k e) ∨ x.isStore = false) := by
  have hv := ha.mem
  cases hm : a.mem with
  | none => rw [hm] at hx; cases hx
  | store k e =>
    rw [hm] at hx hv
    obtain rfl := List.mem_singleton.1 hx
    obtain ⟨-, -, hop⟩ := hv
    exact ⟨e, rfl, rfl, hop.symm, .inl ⟨k, rfl, rfl⟩⟩
  | forward k e y => rw [hm] at hx; cases hx
  | queue k e =>
    rw [hm] at hx hv
    obtain rfl := List.mem_singleton.1 hx
    obtain ⟨-, -, hop, -⟩ := hv
    exact ⟨e, rfl, rfl, hop.symm, .inr rfl⟩

/-- The queue after a cycle: without the performed head, with what was dispatched, and the committed
store marked (R228, R230). -/
theorem queue_split {a : Acts} {s : State} (ha : a.taken s) :
    ∃ rest, s.lsb.q = a.access.performed.toList ++ rest ∧
      (a.committed s).lsb.q = (rest ++ a.mem.queued).map (LsbEntry.markReady a.commit.bus) := by
  have hv := ha.access
  have hq := committed_q a s
  cases hacc : a.access <;> rw [hacc] at hv hq
  case countdown => exact ⟨s.lsb.q, rfl, hq⟩
  case idle => exact ⟨s.lsb.q, rfl, hq⟩
  case write k x =>
    obtain ⟨-, -, -, -, rest, hrest⟩ := hv
    rw [hrest] at hq
    exact ⟨rest, hrest, hq⟩
  case read k x =>
    obtain ⟨-, -, -, -, rest, hrest⟩ := hv
    rw [hrest] at hq
    exact ⟨rest, hrest, hq⟩

/-- An entry of the queue after a cycle was there before or was dispatched in it. -/
theorem of_mem_committed_q {a : Acts} {s : State} {x : LsbEntry} (hx : x ∈ (a.committed s).lsb.q) :
    ∃ x0, x = x0.markReady a.commit.bus ∧ (x0 ∈ s.lsb.q ∨ x0 ∈ a.mem.queued) := by
  rw [committed_q] at hx
  obtain ⟨x0, hx0, rfl⟩ := List.mem_map.1 hx
  exact ⟨x0, rfl, List.mem_append.1 (List.mem_of_mem_drop hx0)⟩

theorem of_mem_committed_rsa {a : Acts} {s : State} {e : RsEntry ArithKind}
    (he : some e ∈ (a.committed s).rsa) :
    ∃ e0, some e0 ∈ (a.issued s).rsa ∧ e = e0.wake (a.resultBus s) a.commit.bus := by
  rw [committed_rsa, rsaCheckBus] at he
  obtain ⟨y, hy, hye⟩ := List.mem_map.1 he
  obtain ⟨e0, rfl, rfl⟩ := Option.map_eq_some_iff.1 hye
  refine ⟨e0, ?_, rfl⟩
  unfold rsaAfter at hy
  split at hy
  · exact hy
  · rcases List.mem_or_eq_of_mem_set hy with hy | hy
    · exact hy
    · cases hy

theorem of_mem_committed_rsm {a : Acts} {s : State} {e : RsEntry MemKind}
    (he : e ∈ (a.committed s).rsm) :
    ∃ e0 ∈ (a.issued s).rsm, e = e0.wake (a.resultBus s) a.commit.bus := by
  rw [committed_rsm, rsmCheckBus] at he
  obtain ⟨e0, he0, rfl⟩ := List.mem_map.1 he
  exact ⟨e0, (rsmAfter_sublist _ _).subset he0, rfl⟩

/-! ## Conservation: the waiting holders and the result bus -/

@[simp] theorem markReady_tag (cb : List CommitEntry) (x : LsbEntry) : (x.markReady cb).tag = x.tag := by
  simp only [markReady_keeps]

@[simp] theorem markReady_op (cb : List CommitEntry) (x : LsbEntry) : (x.markReady cb).op = x.op := by
  simp only [markReady_keeps]

@[simp] theorem markReady_isStore (cb : List CommitEntry) (x : LsbEntry) :
    (x.markReady cb).isStore = x.isStore := by
  simp [LsbEntry.isStore]

/-- An entry is ready after `LSB.checkBus` if it was, or its tag is on the commit bus (R228). -/
theorem markReady_ready_eq (cb : List CommitEntry) (x : LsbEntry) :
    (x.markReady cb).ready = (x.ready || cb.any (fun b => decide (b.tag = x.tag))) := by
  unfold LsbEntry.markReady
  split
  · simp_all
  · split <;> simp_all

theorem loadTags_map_markReady (cb : List CommitEntry) (q : List LsbEntry) :
    loadTags (q.map (LsbEntry.markReady cb)) = loadTags q := by
  simp [loadTags, List.filter_map, Function.comp_def]

/-- Commit can only take unready stores away from the holders (R228). -/
theorem pendingTags_map_markReady (cb : List CommitEntry) (q : List LsbEntry) :
    (pendingTags (q.map (LsbEntry.markReady cb))).Sublist (pendingTags q) := by
  simp only [pendingTags, List.filter_map, List.map_map, Function.comp_def, markReady_tag,
    markReady_isStore, markReady_ready_eq]
  refine List.Sublist.map _ (List.monotone_filter_right q fun x => ?_)
  simp only [Bool.and_eq_true, Bool.not_eq_true', Bool.or_eq_false_iff]
  rintro ⟨hs, hr, -⟩
  exact ⟨hs, hr⟩

theorem count_rsaAfter {a : Acts} {s : State} (ha : a.taken s) (p : Tag) :
    (rsaTags (a.committed s).rsa).count p + ((arithBus a.arith).map (·.tag)).count p =
      (rsaTags (a.issued s).rsa).count p := by
  have hwake : rsaTags (a.committed s).rsa = rsaTags (rsaAfter a.arith (a.issued s).rsa) := by
    simp [committed_rsa, rsaCheckBus, rsaTags, List.filterMap_map, Function.comp_def, Option.map_map]
  rw [hwake]
  cases harith : a.arith with
  | none => simp [rsaAfter, arithBus]
  | some y => exact count_rsaTags_set (arith_mem ha harith) none p

theorem count_rsmAfter {a : Acts} {s : State} (ha : a.taken s) (p : Tag) :
    (rsmTags (a.committed s).rsm).count p + (a.mem.dispatched.toList.map (·.tag)).count p =
      (rsmTags (a.issued s).rsm).count p := by
  have hwake : rsmTags (a.committed s).rsm = rsmTags (a.mem.rsmAfter (a.issued s).rsm) := by
    simp [committed_rsm, rsmCheckBus, rsmTags, Function.comp_def]
  rw [hwake]
  unfold MemAct.rsmAfter
  split
  · rename_i hd
    simp [hd]
  · rename_i e hd
    simpa [hd] using count_rsmRemove (dispatched_mem ha hd).1 p

/-- A dispatched entry's tag goes to the result bus or stays with a queued load (R222, R225, R226). -/
theorem count_dispatched (a : MemAct) (p : Tag) :
    (a.dispatched.toList.map (·.tag)).count p =
      (a.bus.map (·.tag)).count p + (loadTags a.queued).count p := by
  cases a <;> simp [MemAct.dispatched, MemAct.bus, MemAct.queued, loadTags, queuedStore, queuedLoad,
    LsbEntry.isStore]

theorem count_loadTags {a : Acts} {s : State} (ha : a.taken s) (p : Tag) :
    (loadTags (a.committed s).lsb.q).count p + ((a.access.bus s.mem).map (·.tag)).count p =
      (loadTags s.lsb.q).count p + (loadTags a.mem.queued).count p := by
  have happ : ∀ l r, loadTags (l ++ r) = loadTags l ++ loadTags r := by simp [loadTags]
  obtain ⟨rest, hq, hq'⟩ := queue_split ha
  have hperf : loadTags a.access.performed.toList = (a.access.bus s.mem).map (·.tag) := by
    have hv := ha.access
    cases hacc : a.access <;> rw [hacc] at hv
    case countdown => rfl
    case idle => rfl
    case write k x =>
      obtain ⟨-, hop, -⟩ := hv
      simp [AccessAct.performed, AccessAct.bus, loadTags, LsbEntry.isStore, hop]
    case read k x =>
      obtain ⟨-, hop, -⟩ := hv
      simp [AccessAct.performed, AccessAct.bus, loadTags, LsbEntry.isStore, hop]
  rw [hq', loadTags_map_markReady, happ, hq, happ, hperf]
  simp only [List.count_append]
  omega

/-- The law of conservation: every tag that leaves the waiting holders is on the result bus (R172). -/
theorem count_waitingTags {a : Acts} {s : State} (ha : a.taken s) (p : Tag) :
    (waitingTags (a.committed s)).count p + ((a.resultBus s).map (·.tag)).count p =
      (waitingTags (a.issued s)).count p := by
  have h1 := count_rsaAfter ha p
  have h2 := count_rsmAfter ha p
  have h3 := count_dispatched a.mem p
  have h4 := count_loadTags ha p
  simp only [waitingTags, Acts.resultBus, List.map_append, List.count_append, issued_lsb]
  omega

/-- The unready stores gain at most the store whose tag a dispatch puts on the result bus (R222). -/
theorem count_pendingTags {a : Acts} {s : State} (ha : a.taken s) (p : Tag) :
    (pendingTags (a.committed s).lsb.q).count p ≤
      (pendingTags s.lsb.q).count p + ((a.resultBus s).map (·.tag)).count p := by
  have happ : ∀ l r, pendingTags (l ++ r) = pendingTags l ++ pendingTags r := by simp [pendingTags]
  obtain ⟨rest, hq, hq'⟩ := queue_split ha
  have hle := (pendingTags_map_markReady a.commit.bus (rest ++ a.mem.queued)).count_le p
  have hqueued : (pendingTags a.mem.queued).count p ≤ (a.mem.bus.map (·.tag)).count p := by
    cases a.mem <;>
      simp [MemAct.bus, MemAct.queued, pendingTags, queuedStore, queuedLoad, LsbEntry.isStore]
  rw [hq', hq, happ]
  rw [happ] at hle
  simp only [Acts.resultBus, List.map_append, List.count_append] at hle ⊢
  omega

theorem committed_holders_nodup {a : Acts} {s : State} (ha : a.taken s) (ho : (a.issued s).owned) :
    (a.committed s).holders.Nodup := by
  rw [List.nodup_iff_count_le_one]
  intro p
  have hold := List.nodup_iff_count_le_one.1 ho.1 p
  have h1 := count_waitingTags ha p
  have h2 := count_pendingTags ha p
  rw [count_holders] at hold ⊢
  rw [issued_lsb] at hold
  omega

/-- No result of the cycle is for an entry that is still held by a station or a load. -/
theorem not_mem_resultBus {a : Acts} {s : State} (ha : a.taken s) (ho : (a.issued s).owned) {p : Tag}
    (hp : p ∈ waitingTags (a.committed s)) : ∀ b ∈ a.resultBus s, b.tag ≠ p := by
  intro b hb hbp
  have hold := List.nodup_iff_count_le_one.1 ho.1 p
  have hlaw := count_waitingTags ha p
  have h1 : 0 < (waitingTags (a.committed s)).count p := List.count_pos_iff.2 hp
  have h2 : 0 < ((a.resultBus s).map (·.tag)).count p :=
    List.count_pos_iff.2 (List.mem_map.2 ⟨b, hb, hbp⟩)
  rw [count_holders] at hold
  omega

/-! ## The reorder-buffer entries of the holders -/

theorem afterBus_of_not_mem {rb : List ResultEntry} {p : Tag} (h : ∀ b ∈ rb, b.tag ≠ p) (x : RobEntry) :
    RobEntry.afterBus rb p x = x := by
  have hfind : rb.find? (fun b => decide (b.tag = p)) = none := by
    simpa [List.find?_eq_none] using h
  simp [RobEntry.afterBus, hfind]

theorem afterBus_ready_of_mem {rb : List ResultEntry} {b : ResultEntry} (h : b ∈ rb) (x : RobEntry) :
    (RobEntry.afterBus rb b.tag x).ready = true := by
  unfold RobEntry.afterBus
  split
  · assumption
  · split
    · rename_i hf
      simpa using List.find?_eq_none.1 hf b h
    · rfl

/-- Commit frees no slot whose entry is not ready (R163). -/
theorem survives_of_unready {a : Acts} {s : State} (ha : a.taken s) (h : s.sound) (hc : s.consistent)
    {p : Tag} {x : RobEntry} (hx : (a.issued s).rob.entry p = some x) (hr : x.ready = false) :
    a.survives s p := by
  rintro hret rfl
  obtain ⟨e, he⟩ := Option.isSome_iff_exists.1 hret
  obtain ⟨hentry, -, hready, -⟩ := retired_at_head ha he
  rw [issued_entry_of_some ha h hc hentry] at hx
  obtain rfl := Option.some.inj hx
  rw [hready] at hr
  cases hr

/-- The entry of a holder that still waits is as it was. -/
theorem committed_entry_of_waiting {a : Acts} {s : State} (ha : a.taken s) (h : s.sound)
    (hc : s.consistent) (ho : (a.issued s).owned) {p : Tag} {x : RobEntry}
    (hx : (a.issued s).rob.entry p = some x) (hr : x.ready = false)
    (hp : p ∈ waitingTags (a.committed s)) : (a.committed s).rob.entry p = some x := by
  rw [committed_entry_of_survives (survives_of_unready ha h hc hx hr), hx, Option.map_some,
    afterBus_of_not_mem (not_mem_resultBus ha ho hp)]

/-- A store that retires is on the commit bus, so the load-store buffer's entry with its tag is ready
afterwards (R167, R228). -/
theorem survives_of_pending {a : Acts} {s : State} (ha : a.taken s) (h : s.sound) (hc : s.consistent)
    {x0 : LsbEntry} {x : RobEntry} {k : StoreKind}
    (hx : (a.issued s).rob.entry x0.tag = some x) (hop : x.op = .mem (.store k))
    (hr : (x0.markReady a.commit.bus).ready = false) : a.survives s x0.tag := by
  rintro hret hhead
  obtain ⟨e, he⟩ := Option.isSome_iff_exists.1 hret
  obtain ⟨hentry, -⟩ := retired_at_head ha he
  rw [hhead, issued_entry_of_some ha h hc hentry] at hx
  obtain rfl := Option.some.inj hx
  have htag : e.tag = x0.tag := (entry_tag h hc hentry).1.trans hhead.symm
  have hbus : a.commit.bus = [⟨e.tag, 0, none⟩] := by
    simp [CommitAct.bus, he, retireBus, hop, OpKind.group]
  rw [markReady_ready_eq, hbus] at hr
  simp [htag] at hr

theorem mem_waitingTags_of_load {s : State} {x : LsbEntry} (hx : x ∈ s.lsb.q) (hl : x.isStore = false) :
    x.tag ∈ waitingTags s := by
  refine List.mem_append_right _ (List.mem_map.2 ⟨x, List.mem_filter.2 ⟨hx, ?_⟩, rfl⟩)
  simpa using hl

/-- R44 (b) of the load-store buffer after a cycle: a load's entry waits, an unready store's is ready. -/
theorem committed_lsb_owned {a : Acts} {s : State} (ha : a.taken s) (h : s.sound) (hc : s.consistent)
    (ho : (a.issued s).owned) {x : LsbEntry} (hx : x ∈ (a.committed s).lsb.q)
    (hcs : x.committedStore = false) :
    ∃ y ∈ (a.committed s).rob.entry x.tag, y.op = .mem x.op ∧ y.ready = x.isStore := by
  obtain ⟨-, -, -, hlsb⟩ := id ho
  obtain ⟨x0, rfl, hx0⟩ := of_mem_committed_q hx
  rw [committedStore_eq, markReady_isStore] at hcs
  rw [markReady_tag, markReady_op, markReady_isStore]
  cases hs : x0.isStore with
  | false =>
    have hwait : x0.tag ∈ waitingTags (a.committed s) := by
      simpa using mem_waitingTags_of_load hx (by simpa using hs)
    suffices ∃ y ∈ (a.issued s).rob.entry x0.tag, y.op = .mem x0.op ∧ y.ready = false by
      obtain ⟨y, hy, hop, hr⟩ := this
      exact ⟨y, committed_entry_of_waiting ha h hc ho hy hr hwait, hop, hr⟩
    rcases hx0 with hx0 | hx0
    · obtain ⟨y, hy, hop, hr⟩ := hlsb x0 (by simpa using hx0) (by simp [committedStore_eq, hs])
      exact ⟨y, hy, hop, hr.trans hs⟩
    · obtain ⟨e, he, htag, hop, -⟩ := of_mem_queued ha hx0
      obtain ⟨y, hy, hr, hop'⟩ := owned_rsm ho (dispatched_mem ha he).1
      exact ⟨y, htag ▸ hy, hop ▸ hop', hr⟩
  | true =>
    have hnr : (x0.markReady a.commit.bus).ready = false := by simpa [hs] using hcs
    rcases hx0 with hx0 | hx0
    · have hr0 : x0.ready = false := by
        rw [markReady_ready_eq, Bool.or_eq_false_iff] at hnr
        exact hnr.1
      obtain ⟨y, hy, hop, hr⟩ := owned_pending ho (by simpa using hx0) hr0
      obtain ⟨k, hk⟩ := (isStore_iff x0).1 hs
      have hsurv := survives_of_pending ha h hc hy (hop.trans (by rw [hk])) hnr
      refine ⟨y, ?_, hop, hr.trans hs⟩
      rw [Option.mem_def, committed_entry_of_survives hsurv, hy, Option.map_some,
        afterBus_ready (hr.trans hs)]
    · obtain ⟨e, he, htag, hop, ⟨k, hm, hx0'⟩ | hload⟩ := of_mem_queued ha hx0
      · obtain ⟨y, hy, hr, hop'⟩ := owned_rsm ho (dispatched_mem ha he).1
        have hbus : (⟨e.tag, 0, false⟩ : ResultEntry) ∈ a.resultBus s := by
          simp [Acts.resultBus, hm, MemAct.bus]
        refine ⟨RobEntry.afterBus (a.resultBus s) e.tag y, ?_, by rw [afterBus_op, hop', hop],
          afterBus_ready_of_mem hbus y⟩
        rw [Option.mem_def, htag, committed_entry_of_survives (survives_of_unready ha h hc hy hr),
          Option.mem_def.1 hy, Option.map_some]
      · rw [hs] at hload
        cases hload

theorem committed_owned {a : Acts} {s : State} (ha : a.taken s) (h : s.sound) (hc : s.consistent)
    (ho : s.owned) : (a.committed s).owned := by
  have hoi := issued_owned ha h hc ho
  obtain ⟨-, hrsa, -⟩ := id hoi
  refine ⟨committed_holders_nodup ha hoi, ?_, ?_, fun x hx hcs => committed_lsb_owned ha h hc hoi hx hcs⟩
  · rintro y hy e rfl
    obtain ⟨e0, he0, rfl⟩ := of_mem_committed_rsa hy
    obtain ⟨x, hx, hr, hop, hpc⟩ := hrsa _ he0 e0 rfl
    have hwait : e0.tag ∈ waitingTags (a.committed s) :=
      List.mem_append_left _ (List.mem_append_left _ (List.mem_filterMap.2 ⟨_, hy, rfl⟩))
    exact ⟨x, committed_entry_of_waiting ha h hc hoi hx hr hwait, hr, hop, hpc⟩
  · intro e he
    obtain ⟨e0, he0, rfl⟩ := of_mem_committed_rsm he
    obtain ⟨x, hx, hr, hop⟩ := owned_rsm hoi he0
    have hwait : e0.tag ∈ waitingTags (a.committed s) :=
      List.mem_append_left _ (List.mem_append_right _ (List.mem_map.2 ⟨_, he, rfl⟩))
    exact ⟨x, committed_entry_of_waiting ha h hc hoi hx hr hwait, hr, hop⟩

/-- After a flush only committed stores are left, which hold no tag (R141, R237). -/
theorem flushTo_owned (w : Word) (s : State) : (flushTo w s).owned := by
  have hkept : ∀ x ∈ (flushTo w s).lsb.q, x.committedStore = true :=
    fun x hx => (List.mem_filter.1 hx).2
  have hnone : ∀ y ∈ (flushTo w s).rsa, y = none := fun y hy => List.eq_of_mem_replicate hy
  have hrsm : (flushTo w s).rsm = [] := rfl
  have hholders : (flushTo w s).holders = [] := by
    have hrsa : (flushTo w s).rsa.filterMap (fun x => x.map (·.tag)) = [] :=
      List.filterMap_eq_nil_iff.2 fun y hy => by rw [hnone y hy]; rfl
    have hq : (flushTo w s).lsb.q.filter (fun x => !x.committedStore) = [] :=
      List.filter_eq_nil_iff.2 fun x hx => by simp [hkept x hx]
    rw [State.holders, hrsa, hrsm, hq]
    rfl
  refine ⟨hholders ▸ List.nodup_nil, fun y hy e he => ?_, fun e he => ?_, fun x hx hcs => ?_⟩
  · rw [hnone y hy] at he
    cases he
  · rw [hrsm] at he
    cases he
  · rw [hkept x hx] at hcs
    cases hcs

/-- Settles O54, by the conservation of the waiting tags (`count_waitingTags`). -/
theorem ownedKept : Obligations.OwnedKept := by
  unfold Obligations.OwnedKept
  rintro s t ⟨hs, hc, ho⟩ hstep
  exact step_induction (P := State.owned) hstep ho (fun _ => ho)
    (fun a ha => committed_owned ha hs hc ho) (fun a w _ => flushTo_owned w (a.committed s))

end Sys2Proof.Proofs
end

section
/-! O55: every step keeps operands waiting only for older instructions (10_state.md R44 (d)), RS_M in
issue order and the stores of the load-store buffer in order (R44 (e)). -/

namespace Sys2Proof.Proofs

-- One proof after the other, on one thread: each thread costs the check 256 MB of stack.
set_option Elab.async false

open Sys2Proof.Machine Sys2Proof.Laws

/-! ## Operands (R44 (d)) -/

/-- A tag read at issue is the producer of the register (R191). -/
theorem producer_of_readOperand {rf : RegFile} {d : Option RegIdx} {p : Tag}
    (h : (readOperand rf d).2 = some p) : ∃ r, rf.producer r = some p := by
  unfold readOperand at h
  split at h
  · cases h
  · split at h
    · cases h
    · split at h
      · cases h
      · rename_i r _ _ t ht
        exact ⟨r, ht.trans h⟩

/-- The operands of a new entry wait for occupied slots, all older than the tail (R191). -/
theorem waitsOnOlder_new {s : State} (h : s.sound) (hc : s.consistent)
    (hn : s.rob.count < s.cfg.nRob) (d d' : Option RegIdx) :
    s.waitsOnOlder (s.rob.tail s.cfg) (readOperand s.regs d).2 (readOperand s.regs d').2 := by
  intro p hp
  obtain ⟨q, hq⟩ : ∃ q, s.regs.producer q = some p := by
    rcases List.mem_append.1 hp with hp | hp
    · exact producer_of_readOperand (Option.mem_toList.1 hp)
    · exact producer_of_readOperand (Option.mem_toList.1 hp)
  obtain ⟨⟨x, hx, hd⟩, -⟩ := producer_entry hc hq
  refine ⟨⟨x, hx, by rw [hd]; rfl⟩, ?_⟩
  rw [age_tail (sound_slots h).2 hn]
  exact age_lt_count h hc hx

/-- The view after Issue has its operands older (R44 (d)). -/
theorem issued_operandsOlder {a : Acts} {s : State} (ha : a.taken s) (h : s.sound)
    (hc : s.consistent) (hop : s.operandsOlder) : (a.issued s).operandsOlder := by
  cases hi : a.issue with
  | none => rwa [issued_of_none s hi]
  | some r =>
    have hn := issue_room ha hi
    have hmono : ∀ {tag qj qk}, s.waitsOnOlder tag qj qk → (issueInto s r s).waitsOnOlder tag qj qk := by
      intro tag qj qk hw p hp
      obtain ⟨⟨x, hx, hd⟩, hage⟩ := hw p hp
      refine ⟨⟨x, ?_, hd⟩, by rwa [issueInto_age, issueInto_age, issueInto_cfg]⟩
      exact issued_of_some s hi ▸ issued_entry_of_some ha h hc hx
    rw [issued_of_some s hi]
    refine ⟨?_, ?_⟩
    · rintro y hy e rfl
      rcases of_mem_issueInto_rsa hy with he | ⟨k, -, rfl⟩
      · exact hmono (hop.1 _ he e rfl)
      · exact hmono (waitsOnOlder_new h hc hn _ _)
    · intro e he
      rcases of_mem_issueInto_rsm he with he | ⟨k, -, rfl⟩
      · exact hmono (hop.2 e he)
      · exact hmono (waitsOnOlder_new h hc hn _ _)

/-- An operand that still waits was not woken by the commit bus (R200). -/
theorem wakeOperand_waits {rb : List ResultEntry} {cb : List CommitEntry} {v : Word} {q : Option Tag}
    {p : Tag} (h : (wakeOperand rb cb v q).2 = some p) :
    q = some p ∧ ∀ b ∈ cb, b.tag = p → b.dest.isSome = false := by
  cases q with
  | none => cases h
  | some p' =>
    rcases wakeOperand_some rb cb v p' with ⟨b, -, -, -, hb⟩ | ⟨-, ⟨b, -, -, -, hb⟩ | ⟨hcb, hw⟩⟩
    · rw [hb] at h
      cases h
    · rw [hb] at h
      cases h
    · rw [hw] at h
      cases h
      exact ⟨rfl, hcb⟩

/-- A slot that writes a register and whose tag the commit bus does not carry stays (R166, R168). -/
theorem survives_of_not_committed {a : Acts} {s : State} (ha : a.taken s) (h : s.sound)
    (hc : s.consistent) {p : Tag} {x : RobEntry} (hx : (a.issued s).rob.entry p = some x)
    (hd : x.dest.isSome = true) (hcb : ∀ b ∈ a.commit.bus, b.tag = p → b.dest.isSome = false) :
    a.survives s p := by
  rintro hret rfl
  obtain ⟨e, he⟩ := Option.isSome_iff_exists.1 hret
  obtain ⟨hentry, -⟩ := retired_at_head ha he
  rw [issued_entry_of_some ha h hc hentry] at hx
  obtain rfl := Option.some.inj hx
  obtain ⟨htag, hdest⟩ := entry_tag h hc hentry
  rcases retireBus_cases hdest with ⟨v, hv⟩ | ⟨hnone, -⟩
  · have := hcb ⟨e.tag, v, e.dest⟩ (by simp [CommitAct.bus, he, hv]) htag
    rw [hd] at this
    cases this
  · rw [hnone] at hd
    cases hd

theorem issued_entry_lt {a : Acts} {s : State} (h : s.sound) {p : Tag} {x : RobEntry}
    (hx : (a.issued s).rob.entry p = some x) : p < s.cfg.nRob := by
  have := lt_of_entry hx
  rwa [length_issued_slots, (sound_slots h).1] at this

/-- Wake-up and Commit keep an entry's operands older than the entry (R200). -/
theorem committed_waitsOnOlder {a : Acts} {s : State} {κ : Type} (ha : a.taken s) (h : s.sound)
    (hc : s.consistent) {e : RsEntry κ} {y : RobEntry} (hy : (a.issued s).rob.entry e.tag = some y)
    (hw : (a.issued s).waitsOnOlder e.tag e.qj e.qk) :
    (a.committed s).waitsOnOlder e.tag (e.wake (a.resultBus s) a.commit.bus).qj
      (e.wake (a.resultBus s) a.commit.bus).qk := by
  intro p hp
  obtain ⟨hpq, hcb⟩ : p ∈ e.qj.toList ++ e.qk.toList ∧
      ∀ b ∈ a.commit.bus, b.tag = p → b.dest.isSome = false := by
    rcases List.mem_append.1 hp with hp | hp
    · obtain ⟨hq, hcb⟩ := wakeOperand_waits (Option.mem_toList.1 hp)
      exact ⟨by simp [hq], hcb⟩
    · obtain ⟨hq, hcb⟩ := wakeOperand_waits (Option.mem_toList.1 hp)
      exact ⟨by simp [hq], hcb⟩
  obtain ⟨⟨x, hx, hd⟩, hage⟩ := hw p hpq
  have hs := survives_of_not_committed ha h hc hx hd hcb
  rw [issued_cfg, issued_age, issued_age] at hage
  refine ⟨⟨RobEntry.afterBus (a.resultBus s) p x, ?_, by rwa [afterBus_dest]⟩, ?_⟩
  · rw [Option.mem_def, committed_entry_of_survives hs, Option.mem_def.1 hx, Option.map_some]
  · rw [committed_cfg]
    exact committed_age_lt h (issued_entry_lt h hx) (issued_entry_lt h hy) hs hage

theorem committed_operandsOlder {a : Acts} {s : State} (ha : a.taken s) (h : s.sound)
    (hc : s.consistent) (ho : s.owned) (hop : s.operandsOlder) : (a.committed s).operandsOlder := by
  obtain ⟨-, hrsa, hrsm, -⟩ := issued_owned ha h hc ho
  obtain ⟨hopA, hopM⟩ := issued_operandsOlder ha h hc hop
  refine ⟨?_, ?_⟩
  · rintro y hy e rfl
    obtain ⟨e0, he0, rfl⟩ := of_mem_committed_rsa hy
    obtain ⟨x, hx, -⟩ := hrsa _ he0 e0 rfl
    exact committed_waitsOnOlder ha h hc hx (hopA _ he0 e0 rfl)
  · intro e he
    obtain ⟨e0, he0, rfl⟩ := of_mem_committed_rsm he
    obtain ⟨x, hx, -⟩ := hrsm e0 he0
    exact committed_waitsOnOlder ha h hc hx (hopM e0 he0)

theorem flushTo_operandsOlder (w : Word) (s : State) : (flushTo w s).operandsOlder := by
  refine ⟨fun y hy e he => ?_, fun e he => ?_⟩
  · rw [show y = none from List.eq_of_mem_replicate hy] at he
    cases he
  · cases he

/-! ## Program order (R44 (e)) -/

/-- The order that the stores of the load-store buffer keep (R44 (e)). -/
def storeOrder (s : State) (x y : LsbEntry) : Prop :=
  (y.ready = true → x.ready = true) ∧
    (x.ready = false → y.ready = false → s.rob.age s.cfg x.tag < s.rob.age s.cfg y.tag)

/-- The view after Issue is in order: the new entry is the youngest (R44 (e)). -/
theorem issued_inOrder {a : Acts} {s : State} (ha : a.taken s) (h : s.sound) (hc : s.consistent)
    (ho : s.owned) (hio : s.inOrder) : (a.issued s).inOrder := by
  cases hi : a.issue with
  | none => rwa [issued_of_none s hi]
  | some r =>
    have hn := issue_room ha hi
    have htail := age_tail (sound_slots h).2 hn
    obtain ⟨hrsm, hstores, hbefore⟩ := hio
    have hold : ∀ e ∈ s.rsm, s.rob.age s.cfg e.tag < s.rob.age s.cfg (s.rob.tail s.cfg) := by
      intro e he
      obtain ⟨x, hx, -⟩ := owned_rsm ho he
      rw [htail]
      exact age_lt_count h hc hx
    have hpending : ∀ x ∈ s.lsb.q, x.isStore = true → x.ready = false →
        s.rob.age s.cfg x.tag < s.rob.age s.cfg (s.rob.tail s.cfg) := by
      intro x hx _ hr
      obtain ⟨y, hy, -⟩ := owned_pending ho hx hr
      rw [htail]
      exact age_lt_count h hc hy
    rw [issued_of_some s hi]
    simp only [State.inOrder, issueInto_age, issueInto_cfg, issueInto_lsb]
    refine ⟨?_, hstores, fun x hx hs hr e he => ?_⟩
    · simp only [issueInto_rsm, stationIssue]
      split
      · exact hrsm
      · rw [rsmIssue, List.pairwise_append]
        refine ⟨hrsm, List.pairwise_singleton _ _, fun e he e' he' => ?_⟩
        rw [List.mem_singleton.1 he']
        exact hold e he
    · rcases of_mem_issueInto_rsm he with he | ⟨k, -, rfl⟩
      · exact hbefore x hx hs hr e he
      · exact hpending x hx hs hr

/-- RS_M keeps its order: what leaves it leaves the others in place (R199). -/
theorem committed_rsm_inOrder {a : Acts} {s : State} (ha : a.taken s) (h : s.sound)
    (hc : s.consistent) (ho : (a.issued s).owned) (hio : (a.issued s).inOrder) :
    (a.committed s).rsm.Pairwise (fun x y =>
      (a.committed s).rob.age (a.committed s).cfg x.tag <
        (a.committed s).rob.age (a.committed s).cfg y.tag) := by
  rw [committed_rsm, rsmCheckBus, List.pairwise_map]
  refine (hio.1.sublist (rsmAfter_sublist a.mem _)).imp_of_mem fun {e e'} he he' hlt => ?_
  obtain ⟨x, hx, hr, -⟩ := owned_rsm ho ((rsmAfter_sublist _ _).subset he)
  obtain ⟨x', hx', -⟩ := owned_rsm ho ((rsmAfter_sublist _ _).subset he')
  rw [issued_cfg, issued_age, issued_age] at hlt
  rw [committed_cfg]
  exact committed_age_lt h (issued_entry_lt h hx) (issued_entry_lt h hx')
    (survives_of_unready ha h hc hx hr) hlt

/-- An unready store of the buffer, or one dispatched in this cycle, has its reorder-buffer entry (R31). -/
theorem entry_of_pending {a : Acts} {s : State} (ha : a.taken s) (ho : (a.issued s).owned)
    {x : LsbEntry} (hx : x ∈ s.lsb.q ∨ x ∈ a.mem.queued) (hs : x.isStore = true)
    (hr : x.ready = false) :
    ∃ y k, (a.issued s).rob.entry x.tag = some y ∧ y.op = .mem (.store k) := by
  obtain ⟨k, hk⟩ := (isStore_iff x).1 hs
  rcases hx with hx | hx
  · obtain ⟨y, hy, hop, -⟩ := owned_pending ho (by simpa using hx) hr
    exact ⟨y, k, hy, by rw [hop, hk]⟩
  · obtain ⟨e, he, htag, hop, -⟩ := of_mem_queued ha hx
    obtain ⟨y, hy, -, hop'⟩ := owned_rsm ho (dispatched_mem ha he).1
    exact ⟨y, k, htag ▸ hy, by rw [hop', ← hop, hk]⟩

/-- The commit bus carries the head's tag only (R163, R252). -/
theorem commitBus_tag {a : Acts} {s : State} (ha : a.taken s) (h : s.sound) (hc : s.consistent)
    {b : CommitEntry} (hb : b ∈ a.commit.bus) : b.tag = s.rob.head := by
  obtain ⟨e, he, hbe⟩ := List.mem_flatMap.1 hb
  obtain ⟨hentry, -⟩ := retired_at_head ha (Option.mem_toList.1 he)
  obtain ⟨htag, hdest⟩ := entry_tag h hc hentry
  rcases retireBus_cases hdest with ⟨v, hv⟩ | ⟨-, hv⟩
  · rw [hv, List.mem_singleton] at hbe
    rw [hbe]
    exact htag
  · rw [hv] at hbe
    cases hbe

/-- Commit makes ready the store at the head only (R167, R228). -/
theorem tag_of_markReady {a : Acts} {s : State} (ha : a.taken s) (h : s.sound) (hc : s.consistent)
    {x : LsbEntry} (hr : x.ready = false) (hr' : (x.markReady a.commit.bus).ready = true) :
    x.tag = s.rob.head := by
  rw [markReady_ready_eq, hr, Bool.false_or, List.any_eq_true] at hr'
  obtain ⟨b, hb, htag⟩ := hr'
  rw [← commitBus_tag ha h hc hb]
  exact (of_decide_eq_true htag).symm

/-- A store dispatched in this cycle was older than what is left of the memory station (R197). -/
theorem pending_before_rsm {a : Acts} {s : State} (ha : a.taken s) (hio : (a.issued s).inOrder)
    {x : LsbEntry} (hx : x ∈ s.lsb.q ∨ x ∈ a.mem.queued) (hs : x.isStore = true)
    (hr : x.ready = false) {e : RsEntry MemKind} (he : e ∈ a.mem.rsmAfter (a.issued s).rsm) :
    s.rob.age s.cfg x.tag < s.rob.age s.cfg e.tag := by
  obtain ⟨hrsm, -, hbefore⟩ := hio
  rcases hx with hx | hx
  · have := hbefore x (by simpa using hx) hs hr e ((rsmAfter_sublist _ _).subset he)
    rwa [issued_cfg, issued_age, issued_age] at this
  · obtain ⟨d, hd, htag, hop, -⟩ := of_mem_queued ha hx
    obtain ⟨k, hk⟩ := (isStore_iff x).1 hs
    obtain ⟨rest, hrest⟩ := (dispatched_mem ha hd).2 ⟨k, hop ▸ hk⟩
    rw [hrest] at hrsm he
    have he' : e ∈ rest := by simpa [MemAct.rsmAfter, hd, rsmRemove] using he
    have := List.rel_of_pairwise_cons hrsm he'
    rwa [issued_cfg, issued_age, issued_age, ← htag] at this

/-- The stores of the queue before the commit bus is taken are in order: the dispatched store is younger
than every other unready one (R44 (e)). -/
theorem queued_storeOrder {a : Acts} {s : State} (ha : a.taken s) (hio : (a.issued s).inOrder)
    {rest : List LsbEntry} (hrest : rest.Sublist s.lsb.q) :
    ((rest ++ a.mem.queued).filter (·.isStore)).Pairwise (storeOrder (a.issued s)) := by
  obtain ⟨-, hstores, hbefore⟩ := hio
  rw [issued_lsb] at hstores hbefore
  rw [List.filter_append, List.pairwise_append]
  refine ⟨hstores.sublist (hrest.filter _), ?_, fun x hx y hy => ?_⟩
  · cases a.mem with
    | store k e => exact List.Pairwise.filter _ (List.pairwise_singleton _ _)
    | queue k e => exact List.Pairwise.filter _ (List.pairwise_singleton _ _)
    | none => exact List.Pairwise.nil
    | forward k e z => exact List.Pairwise.nil
  · obtain ⟨hx, hxs⟩ := List.mem_filter.1 hx
    obtain ⟨hy, hys⟩ := List.mem_filter.1 hy
    obtain ⟨e, he, htag, -, ⟨k, -, rfl⟩ | hload⟩ := of_mem_queued ha hy
    · refine ⟨fun hr => (nomatch hr), fun hxr _ => ?_⟩
      exact hbefore x (hrest.subset hx) hxs hxr e (dispatched_mem ha he).1
    · rw [hys] at hload
      cases hload

/-- Taking the commit bus keeps two stores in order: the one it makes ready is the oldest (R228). -/
theorem markReady_storeOrder {a : Acts} {s : State} (ha : a.taken s) (h : s.sound)
    (hc : s.consistent) (ho : (a.issued s).owned) {x y : LsbEntry}
    (hx : x ∈ s.lsb.q ∨ x ∈ a.mem.queued) (hxs : x.isStore = true)
    (hy : y ∈ s.lsb.q ∨ y ∈ a.mem.queued) (hys : y.isStore = true)
    (hxy : storeOrder (a.issued s) x y) :
    storeOrder (a.committed s) (x.markReady a.commit.bus) (y.markReady a.commit.bus) := by
  obtain ⟨hready, hage⟩ := hxy
  rw [issued_cfg, issued_age, issued_age] at hage
  have hunready : ∀ z : LsbEntry, (z.markReady a.commit.bus).ready = false → z.ready = false := by
    intro z hz
    rw [markReady_ready_eq, Bool.or_eq_false_iff] at hz
    exact hz.1
  have hkeep : ∀ z : LsbEntry, z.ready = true → (z.markReady a.commit.bus).ready = true := by
    intro z hz
    rw [markReady_ready_eq, hz, Bool.true_or]
  refine ⟨fun hyr => ?_, fun hxr hyr => ?_⟩
  · cases hx0 : x.ready with
    | true => exact hkeep x hx0
    | false =>
      cases hy0 : y.ready with
      | true => exact hkeep x (hready hy0)
      | false =>
        have hlt := hage hx0 hy0
        rw [tag_of_markReady ha h hc hy0 hyr, age_head (sound_slots h).2] at hlt
        exact absurd hlt (Nat.not_lt_zero _)
  · obtain ⟨ex, k, hex, hop⟩ := entry_of_pending ha ho hx hxs (hunready x hxr)
    obtain ⟨ey, -, hey, -⟩ := entry_of_pending ha ho hy hys (hunready y hyr)
    rw [markReady_tag, markReady_tag, committed_cfg]
    exact committed_age_lt h (issued_entry_lt h hex) (issued_entry_lt h hey)
      (survives_of_pending ha h hc hex hop hxr) (hage (hunready x hxr) (hunready y hyr))

theorem committed_storeOrder {a : Acts} {s : State} (ha : a.taken s) (h : s.sound)
    (hc : s.consistent) (ho : (a.issued s).owned) (hio : (a.issued s).inOrder) :
    ((a.committed s).lsb.q.filter (·.isStore)).Pairwise (storeOrder (a.committed s)) := by
  obtain ⟨rest, hq, hq'⟩ := queue_split ha
  have hrest : rest.Sublist s.lsb.q := hq ▸ List.sublist_append_right _ _
  have hmem : ∀ x ∈ (rest ++ a.mem.queued).filter (·.isStore),
      (x ∈ s.lsb.q ∨ x ∈ a.mem.queued) ∧ x.isStore = true := by
    intro x hx
    obtain ⟨hx, hxs⟩ := List.mem_filter.1 hx
    exact ⟨(List.mem_append.1 hx).imp_left fun hx => hrest.subset hx, hxs⟩
  rw [hq', List.filter_map, List.pairwise_map]
  simp only [Function.comp_def, markReady_isStore]
  refine (queued_storeOrder ha hio hrest).imp_of_mem fun {x y} hx hy hxy => ?_
  exact markReady_storeOrder ha h hc ho (hmem x hx).1 (hmem x hx).2 (hmem y hy).1 (hmem y hy).2 hxy

theorem committed_inOrder {a : Acts} {s : State} (ha : a.taken s) (h : s.sound) (hc : s.consistent)
    (ho : s.owned) (hio : s.inOrder) : (a.committed s).inOrder := by
  have hoi := issued_owned ha h hc ho
  have hii := issued_inOrder ha h hc ho hio
  refine ⟨committed_rsm_inOrder ha h hc hoi hii, committed_storeOrder ha h hc hoi hii,
    fun x hx hs hr e he => ?_⟩
  obtain ⟨x0, rfl, hx0⟩ := of_mem_committed_q hx
  rw [committed_rsm, rsmCheckBus] at he
  obtain ⟨e0, he0, rfl⟩ := List.mem_map.1 he
  rw [markReady_isStore] at hs
  have hr0 : x0.ready = false := by
    rw [markReady_ready_eq, Bool.or_eq_false_iff] at hr
    exact hr.1
  obtain ⟨y, k, hy, hop⟩ := entry_of_pending ha hoi hx0 hs hr0
  obtain ⟨z, hz, -⟩ := owned_rsm hoi ((rsmAfter_sublist _ _).subset he0)
  rw [markReady_tag, wake_tag, committed_cfg]
  exact committed_age_lt h (issued_entry_lt h hy) (issued_entry_lt h hz)
    (survives_of_pending ha h hc hy hop hr) (pending_before_rsm ha hii hx0 hs hr0 he0)

/-- What a flush leaves is in order: committed stores only (R141, R237). -/
theorem flushTo_inOrder (w : Word) (s : State) : (flushTo w s).inOrder := by
  have hready : ∀ x ∈ (flushTo w s).lsb.q, x.ready = true := by
    intro x hx
    have hx := (List.mem_filter.1 hx).2
    rw [committedStore_eq, Bool.and_eq_true] at hx
    exact hx.2
  refine ⟨List.Pairwise.nil, List.pairwise_of_forall_mem_list fun x hx y _ => ⟨fun _ => ?_, fun hr => ?_⟩,
    fun x _ _ _ e he => nomatch he⟩
  · exact hready x (List.mem_filter.1 hx).1
  · rw [hready x (List.mem_filter.1 hx).1] at hr
    cases hr

/-- Settles O55: Issue adds the youngest instruction, and Commit takes the oldest, whose result the
operands that wait for it take from the commit bus in the same cycle. -/
theorem operandsOlderKept : Obligations.OperandsOlderKept := by
  unfold Obligations.OperandsOlderKept
  rintro s t ⟨hs, hc, ho⟩ hstep
  refine ⟨fun hop => ?_, fun hio => ?_⟩
  · exact step_induction (P := State.operandsOlder) hstep hop (fun _ => hop)
      (fun a ha => committed_operandsOlder ha hs hc ho hop)
      (fun a w _ => flushTo_operandsOlder w (a.committed s))
  · exact step_induction (P := State.inOrder) hstep hio (fun _ => hio)
      (fun a ha => committed_inOrder ha hs hc ho hio)
      (fun a w _ => flushTo_inOrder w (a.committed s))

end Sys2Proof.Proofs
end

section
/-! O49, O50, O51: the reset state (10_state.md R50, 70_reset_and_hazards.md R441). -/

namespace Sys2Proof.Proofs

-- One proof after the other, on one thread: each thread costs the check 256 MB of stack.
set_option Elab.async false

open Sys2Proof.Machine Sys2Proof.Laws

/-! ## The loaded image -/

/-- The byte an image names last is the last one loaded (R441). -/
theorem loadImage_concat (size : Nat) (image : List Host.Cell) (b : Host.Cell) :
    loadImage size (image ++ [b]) =
      if b.1 < size then (loadImage size image).write b.1 b.2 else loadImage size image := by
  simp [loadImage, List.foldl_append]

/-- Loading lists only addresses that exist (R60, R441). -/
theorem loadImage_within (size : Nat) (image : List Host.Cell) :
    (loadImage size image).within size := by
  induction image using List.reverseRecOn with
  | nil => intro b hb; cases hb
  | append_singleton image b ih =>
    rw [loadImage_concat]
    split
    · intro x hx
      rcases mem_write hx with rfl | hx
      · assumption
      · exact ih x hx
    · exact ih

/-- Settles O50, by induction on the image from its end. -/
theorem loadedImage : Obligations.LoadedImage := by
  unfold Obligations.LoadedImage
  intro size image a ha
  induction image using List.reverseRecOn with
  | nil => rfl
  | append_singleton image b ih =>
    rw [loadImage_concat, List.reverse_append, List.reverse_singleton, List.singleton_append,
      List.find?_cons]
    by_cases hb : b.1 = a
    · subst hb
      simp [ha, read_write_same (wf_loadImage size image)]
    · have hread : ((if b.1 < size then (loadImage size image).write b.1 b.2
          else loadImage size image).read a) = (loadImage size image).read a := by
        split
        · exact read_write_other _ (Ne.symm hb) _
        · rfl
      rw [hread, ih]
      simp [hb]

/-! ## The reset values -/

theorem resetWith_value (cfg : Config) (image : List Host.Cell) (entryPc : Word) (r : RegIdx) :
    (resetWith cfg image entryPc).regs.value r = 0 := by
  simp [RegFile.value, resetWith]

theorem resetWith_producer (cfg : Config) (image : List Host.Cell) (entryPc : Word) (r : RegIdx) :
    (resetWith cfg image entryPc).regs.producer r = none := by
  simp [RegFile.producer, resetWith]

theorem resetWith_entry (cfg : Config) (image : List Host.Cell) (entryPc : Word) (t : Tag) :
    (resetWith cfg image entryPc).rob.entry t = none := by
  unfold Rob.entry
  cases h : (resetWith cfg image entryPc).rob.slots[t]? with
  | none => rfl
  | some x => exact List.eq_of_mem_replicate (List.mem_of_getElem? h)

theorem resetWith_rsa (cfg : Config) (image : List Host.Cell) (entryPc : Word) :
    ∀ x ∈ (resetWith cfg image entryPc).rsa, x = none :=
  fun _ hx => List.eq_of_mem_replicate hx

/-- Settles O49, field by field. -/
theorem resetValues : Obligations.ResetValues := by
  unfold Obligations.ResetValues
  intro s image entryPc
  exact ⟨resetWith s.cfg image entryPc, rfl, rfl, rfl,
    fun r => ⟨resetWith_value _ _ _ r, resetWith_producer _ _ _ r⟩,
    rfl, rfl, rfl, rfl, rfl, rfl, rfl, rfl, rfl, rfl, rfl, rfl, rfl, rfl, rfl⟩

/-! ## The invariants at reset -/

section Invariants

variable (cfg : Config) (image : List Host.Cell) (entryPc : Word)

theorem resetWith_sound (hl : cfg.legal = true) : (resetWith cfg image entryPc).sound := by
  have hn := legal_nRob hl
  have hw : (resetWith cfg image entryPc).wellSized = true := by
    rw [wellSized_iff]
    simp [resetWith]
    omega
  exact ⟨hl, hw, wf_loadImage _ _, loadImage_within _ _, resetWith_value _ _ _ 0,
    resetWith_producer _ _ _ 0, fun _ hx => nomatch hx⟩

theorem resetWith_consistent : (resetWith cfg image entryPc).consistent := by
  refine ⟨fun t _ => ?_, fun t _ e he => ?_, fun r t ht => ?_⟩
  · have hcount : (resetWith cfg image entryPc).rob.count = 0 := rfl
    rw [resetWith_entry, hcount]
    simp
  · rw [resetWith_entry] at he
    cases he
  · rw [resetWith_producer] at ht
    cases ht

theorem resetWith_owned : (resetWith cfg image entryPc).owned := by
  have hrsa := resetWith_rsa cfg image entryPc
  have hholders : (resetWith cfg image entryPc).holders = [] := by
    have htags : (resetWith cfg image entryPc).rsa.filterMap (fun x => x.map (·.tag)) = [] :=
      List.filterMap_eq_nil_iff.2 fun y hy => by rw [hrsa y hy]; rfl
    rw [State.holders, htags]
    rfl
  refine ⟨hholders ▸ List.nodup_nil, fun y hy e he => ?_, fun _ he => (nomatch he),
    fun _ he => (nomatch he)⟩
  rw [hrsa y hy] at he
  cases he

theorem resetWith_operandsOlder : (resetWith cfg image entryPc).operandsOlder := by
  refine ⟨fun y hy e he => ?_, fun _ he => nomatch he⟩
  rw [resetWith_rsa cfg image entryPc y hy] at he
  cases he

theorem resetWith_inOrder : (resetWith cfg image entryPc).inOrder :=
  ⟨List.Pairwise.nil, List.Pairwise.nil, fun _ hx => nomatch hx⟩

theorem resetWith_idle (hl : cfg.legal = true) : (resetWith cfg image entryPc).idle := by
  obtain ⟨-, hw, -⟩ := resetWith_sound cfg image entryPc hl
  exact ⟨⟨rfl, rfl, hl, hw⟩, rfl, rfl, fun _ hx => List.eq_of_mem_replicate hx,
    resetWith_rsa cfg image entryPc, rfl, rfl, rfl, resetWith_producer _ _ _, resetWith_value _ _ _ 0⟩

end Invariants

/-- Settles O51: at reset every structure is empty. -/
theorem resetMeetsInvariants : Obligations.ResetMeetsInvariants := by
  unfold Obligations.ResetMeetsInvariants
  refine ⟨fun cfg image entryPc hl => ⟨⟨?_, ?_, ?_⟩, ?_, ?_, ?_⟩, rfl⟩
  · exact resetWith_sound cfg image entryPc hl
  · exact resetWith_consistent cfg image entryPc
  · exact resetWith_owned cfg image entryPc
  · exact resetWith_operandsOlder cfg image entryPc
  · exact resetWith_inOrder cfg image entryPc
  · exact resetWith_idle cfg image entryPc hl

end Sys2Proof.Proofs
end

section
/-! O56, O39: the bytes of a multi-byte access, and the one act of a cycle that writes the backing store
(20_memory.md R61, R72, 43_load_store_buffer.md R230, R238). -/

namespace Sys2Proof.Proofs

-- One proof after the other, on one thread: each thread costs the check 256 MB of stack.
set_option Elab.async false

open Sys2Proof.Machine Sys2Proof.Laws

/-! ## Bytes of a word (R61) -/

/-- The lowest byte of a little-endian read is the byte at its address. -/
theorem readLE_succ_byte_zero (m : Memory) (a n : Nat) :
    (m.readLE a (n + 1)).extractLsb' 0 8 = m.read a := by
  unfold Memory.readLE
  ext i hi
  simp [BitVec.getElem_extractLsb', hi, show i < 32 by omega]

/-- The other bytes of a little-endian read are those of the read one address on. -/
theorem readLE_succ_byte_succ (m : Memory) (a n k : Nat) (hk : k < 3) :
    (m.readLE a (n + 1)).extractLsb' (8 * (k + 1)) 8 = (m.readLE (a + 1) n).extractLsb' (8 * k) 8 := by
  conv_lhs => unfold Memory.readLE
  ext i hi
  simp only [BitVec.getElem_extractLsb', BitVec.getLsbD_or, BitVec.getLsbD_setWidth,
    BitVec.getLsbD_shiftLeft]
  have hhigh : (m.read a).getLsbD (8 * (k + 1) + i) = false := BitVec.getLsbD_of_ge _ _ (by omega)
  have hlt : 8 * (k + 1) + i < 32 := by omega
  have hlow : ¬ 8 * (k + 1) + i < 8 := by omega
  have hsub : 8 * (k + 1) + i - 8 = 8 * k + i := by omega
  simp [hhigh, hlt, hlow, hsub]

theorem readLE_byte (m : Memory) {a n k : Nat} (hk : k < n) (hn : n ≤ 4) :
    (m.readLE a n).extractLsb' (8 * k) 8 = m.read (a + k) := by
  induction n generalizing a k with
  | zero => omega
  | succ n ih =>
    cases k with
    | zero => exact readLE_succ_byte_zero m a n
    | succ k =>
      rw [readLE_succ_byte_succ m a n k (by omega), ih (by omega) (by omega),
        show a + 1 + k = a + (k + 1) by omega]

/-- A read of `n` bytes is zero-extended. -/
theorem readLE_lt (m : Memory) (a n : Nat) : (m.readLE a n).toNat < 2 ^ (8 * n) := by
  induction n generalizing a with
  | zero => simp [Memory.readLE]
  | succ n ih =>
    unfold Memory.readLE
    rw [BitVec.toNat_or]
    have hpow : 2 ^ (8 * (n + 1)) = 2 ^ (8 * n) * 2 ^ 8 := by rw [← Nat.pow_add]; rfl
    refine Nat.or_lt_two_pow ?_ ?_
    · have hbyte : ((m.read a).setWidth 32).toNat < 2 ^ 8 := by
        rw [BitVec.toNat_setWidth]
        exact Nat.lt_of_le_of_lt (Nat.mod_le _ _) (m.read a).isLt
      exact Nat.lt_of_lt_of_le hbyte (Nat.pow_le_pow_right (by decide) (by omega))
    · rw [BitVec.toNat_shiftLeft, Nat.shiftLeft_eq, hpow]
      exact Nat.lt_of_le_of_lt (Nat.mod_le _ _) (Nat.mul_lt_mul_of_pos_right (ih _) (by decide))

theorem writeLE_stored {m : Memory} (h : m.wf = true) (a n : Nat) (v : Word) :
    m.stored (m.writeLE a n v) a n v := by
  refine ⟨fun j hj => ?_, fun b hb => read_writeLE_outside m a n v hb⟩
  rw [read_writeLE_inside h a n v j hj]
  ext i hi
  simp [BitVec.getElem_extractLsb']

/-- Settles O56, by induction on the number of bytes. -/
theorem littleEndianMemory : Obligations.LittleEndianMemory := by
  unfold Obligations.LittleEndianMemory
  intro m a n v hwf hn
  have hn4 : n ≤ 4 := by
    simp only [List.mem_cons, List.not_mem_nil, or_false] at hn
    omega
  exact ⟨fun k hk => readLE_byte m hk hn4, readLE_lt m a n, writeLE_stored hwf a n v,
    wf_writeLE hwf a n v⟩

/-! ## The act that writes the backing store (R72, R230) -/

theorem performing_of_head {s : State} {x : LsbEntry} {rest : List LsbEntry} (hc : s.lsb.c = 0)
    (hq : s.lsb.q = x :: rest) (hr : x.ready = true) : s.performing = some x := by
  simp [State.performing, hc, hq, hr]

/-- What the memory port performs is the ready head of the buffer, and an idle port performs nothing
(R230). -/
theorem performed_eq_performing {s : State} {a : AccessAct} (ha : validAccess s a) :
    a.performed = s.performing := by
  cases a with
  | countdown => exact (if_pos ha).symm
  | idle =>
    obtain ⟨hc, hq | ⟨x, rest, hq, hr⟩⟩ := ha
    · simp [AccessAct.performed, State.performing, hc, hq]
    · simp [AccessAct.performed, State.performing, hc, hq, hr]
  | write k x =>
    obtain ⟨hc, -, hr, -, rest, hq⟩ := ha
    exact (performing_of_head hc hq hr).symm
  | read k x =>
    obtain ⟨hc, -, hr, -, rest, hq⟩ := ha
    exact (performing_of_head hc hq hr).symm

/-- If the byte at `b` is not in `m` what it is in `s`, the store performed in `s` has it in its range
(R72). -/
def changedByStore (s : State) (b : Nat) (m : Memory) : Prop :=
  m.read b ≠ s.mem.read b →
    ∃ h k, s.performing = some h ∧ h.op = .store k ∧ h.addr.toNat ≤ b ∧ b < h.addr.toNat + k.width

theorem changedByStore_same (s : State) (b : Nat) : changedByStore s b s.mem :=
  fun hne => absurd rfl hne

/-- Of the accesses only a store's changes a byte, and only in its range (R232). -/
theorem memAfter_changedByStore {s : State} {a : AccessAct} (ha : validAccess s a) (b : Nat) :
    changedByStore s b (a.memAfter s.mem) := by
  cases a with
  | countdown => exact changedByStore_same s b
  | idle => exact changedByStore_same s b
  | read k x => exact changedByStore_same s b
  | write k x =>
    intro hne
    have hperf := performed_eq_performing ha
    obtain ⟨-, hop, -⟩ := ha
    have hin : ¬ (b < x.addr.toNat ∨ x.addr.toNat + k.width ≤ b) := fun hout =>
      hne (read_writeLE_outside s.mem _ _ _ hout)
    exact ⟨x, k, hperf.symm, hop, by omega, by omega⟩

/-- Settles O39: of the acts of a step only a performed store writes the backing store. -/
theorem onlyReadyHeadStoreWrites : Obligations.OnlyReadyHeadStoreWrites := by
  unfold Obligations.OnlyReadyHeadStoreWrites
  intro s t b hstep
  have hacts : ∀ a : Acts, a.taken s → changedByStore s b (a.committed s).mem := fun a ha =>
    committed_mem a s ▸ memAfter_changedByStore ha.access b
  exact step_induction (P := fun t => changedByStore s b t.mem) hstep (changedByStore_same s b)
    (fun _ => changedByStore_same s b) hacts (fun a _ ha => hacts a ha)

end Sys2Proof.Proofs
end

section
/-! The cycle that issues an instruction into an idle machine (10_state.md R24, 40_orchestrator_cycle.md
R124 to R129): only Issue acts in it, and it leaves `State.issued`. -/

namespace Sys2Proof.Proofs

-- One proof after the other, on one thread: each thread costs the check 256 MB of stack.
set_option Elab.async false

open Sys2Proof.Machine Sys2Proof.Laws

/-! ## Issue's choices -/

/-- Both stations and the load-store buffer of a machine of R9 have room for one entry. -/
theorem legal_room {cfg : Config} (h : cfg.legal = true) :
    1 ≤ cfg.nRsa ∧ 1 ≤ cfg.nRsm ∧ 1 ≤ cfg.nLsb := by
  simp only [Config.legal, Bool.and_eq_true, decide_eq_true_eq] at h
  omega

theorem firstFree_of_empty {rsa : List (Option (RsEntry ArithKind))} (hl : 1 ≤ rsa.length)
    (h : ∀ x ∈ rsa, x = none) : firstFree rsa = some 0 := by
  cases rsa with
  | nil => simp at hl
  | cons x rest =>
    obtain rfl := h x List.mem_cons_self
    rfl

theorem rsaSelect_of_empty {rsa : List (Option (RsEntry ArithKind))} (h : ∀ x ∈ rsa, x = none) :
    rsaSelect rsa = none := by
  induction rsa with
  | nil => rfl
  | cons x rest ih =>
    obtain rfl := h x List.mem_cons_self
    simp [rsaSelect, ih fun y hy => h y (List.mem_cons_of_mem _ hy)]

/-- The fetch address after issue is the one the statements name (R129). -/
theorem nextFetch_pc (i : Instr) (s : State) :
    (nextFetch s.cfg s.bp (recordOf i) s.pc).1 = s.fetchesAfter i := by
  unfold nextFetch State.fetchesAfter
  cases hop : (recordOf i).op with
  | mem k => rfl
  | arith k =>
    cases k with
    | branch k => simp [Predictor.direction, Predictor.counter, counterIndex]
    | jalr =>
      cases hlast : s.bp.ras.getLast? <;> simp [Predictor.pop, hlast]
    | _ => rfl

theorem pop_ras (bp : Predictor) : bp.pop.2.ras = bp.ras.dropLast := by
  unfold Predictor.pop
  split
  · rename_i h
    rw [List.getLast?_eq_none_iff.1 h]
    rfl
  · rfl

/-- A link is pushed unless the destination is `x0` (R274). -/
theorem pushLink_ras (bp : Predictor) (cfg : Config) {rd : Option RegIdx} (pc : Word) (h : rd ≠ none) :
    (bp.pushLink cfg rd pc).ras =
      if rd ≠ some 0 then (bp.ras ++ [pc + 4]).drop (bp.ras.length + 1 - cfg.nRas) else bp.ras := by
  obtain ⟨r, rfl⟩ := Option.ne_none_iff_exists'.1 h
  by_cases hr : r = 0 <;> simp [Predictor.pushLink, Predictor.push, hr]

/-- The stack after issue is the one the statements name (R129, R274, R275). -/
theorem nextFetch_ras (i : Instr) (s : State) :
    (nextFetch s.cfg s.bp (recordOf i) s.pc).2.ras = s.stackAfter i := by
  have hdest := recordOf_rd_none i
  unfold nextFetch State.stackAfter
  cases hop : (recordOf i).op with
  | mem k => simp
  | arith k =>
    cases k with
    | jal =>
      have hrd : (recordOf i).rd ≠ none := by simp [hdest, hop, OpKind.noDest]
      simp [pushLink_ras _ _ _ hrd]
    | jalr =>
      have hrd : (recordOf i).rd ≠ none := by simp [hdest, hop, OpKind.noDest]
      simp [pushLink_ras _ _ _ hrd, pop_ras]
    | _ => simp

theorem nextFetch_bp (i : Instr) (s : State) :
    (nextFetch s.cfg s.bp (recordOf i) s.pc).2 = { s.bp with ras := s.stackAfter i } := by
  have hctr := nextFetch_ctr s.cfg s.bp (recordOf i) s.pc
  rw [← nextFetch_ras i s]
  cases h : (nextFetch s.cfg s.bp (recordOf i) s.pc).2
  simpa [h] using hctr

/-! ## An idle machine -/

theorem readOperand_idle {s : State} (h : ∀ r : RegIdx, s.regs.producer r = none)
    (r : Option RegIdx) : readOperand s.regs r = (s.source r, none) := by
  cases r with
  | none => rfl
  | some r =>
    by_cases hr : r = 0 <;> simp [readOperand, State.source, State.x, hr, h]

/-- The acts of the cycle that issues `i` into an idle machine. -/
def issueActs (i : Instr) : Acts :=
  { issue := some (recordOf i), arith := none, mem := .none, access := .idle, commit := .none }

theorem idle_oldest {s : State} (hs : s.idle) : s.rob.oldest = none := by
  obtain ⟨-, -, hcount, -⟩ := hs
  simp [Rob.oldest, hcount]

theorem issueActs_taken {s : State} (hs : s.idle) (i : Instr) : (issueActs i).taken s := by
  have hold := idle_oldest hs
  obtain ⟨⟨-, -, hl, hw⟩, hhi, hcount, -, hrsa, hrsm, hq, hc, -⟩ := hs
  obtain ⟨-, hhead, -, hlen, -⟩ := (wellSized_iff s).1 hw
  have hblocked : s.issueBlocked = false := by
    simp [State.issueBlocked, Rob.full, hhi, hcount]
    omega
  obtain ⟨hrsa1, hrsm1, -⟩ := legal_room hl
  have hroom : s.hasRoom (recordOf i).op = true := by
    unfold State.hasRoom
    split
    · simp [firstFree_of_empty (by omega) hrsa]
    · simp [hrsm]
      omega
  exact
    { legal := hl
      wellSized := hw
      issue := fun r hr => by cases hr; exact ⟨hblocked, hroom, i, rfl⟩
      arith := rsaSelect_of_empty hrsa
      mem := .inr (by rw [hrsm]; rfl)
      access := ⟨hc, .inl hq⟩
      commit := by simp [issueActs, validCommit, hold] }

theorem phases_idle {s : State} (hs : s.idle) (i : Instr) :
    phases (.instr (recordOf i)) s = .ok ((issueActs i).run s) := by
  have ha := issueActs_taken hs i
  obtain ⟨hblocked, hroom, -⟩ := ha.issue _ rfl
  have hold := idle_oldest hs
  obtain ⟨-, -, -, -, hrsa, hrsm, hq, hc, -⟩ := hs
  simp [phases, issuePhase, hblocked, hroom, executePhase, rsaExecute, rsaSelect_of_empty hrsa,
    rsmExecute, hrsm, rsmSelect, memoryAccessPhase, tryLoadStore, hc, hq, commitPhase, robCommit, hold,
    issueActs, Acts.run, applyCommit, applyAccess, applyMem, applyArith, applyIssue]

/-! ## What the cycle leaves -/

theorem wake_nil {κ : Type} (e : RsEntry κ) : e.wake [] [] = e := by
  cases e with
  | mk op tag vj qj vk qk imm pc => cases qj <;> cases qk <;> rfl

theorem rsaCheckBus_nil (rsa : List (Option (RsEntry ArithKind))) : rsaCheckBus [] [] rsa = rsa := by
  have hwake : (fun e : RsEntry ArithKind => e.wake [] []) = id := funext wake_nil
  simp [rsaCheckBus, hwake]

theorem rsmCheckBus_nil (rsm : List (RsEntry MemKind)) : rsmCheckBus [] [] rsm = rsm := by
  have hwake : (fun e : RsEntry MemKind => e.wake [] []) = id := funext wake_nil
  simp [rsmCheckBus, hwake]

theorem markReady_nil : LsbEntry.markReady [] = id := by
  funext x
  simp [LsbEntry.markReady]

theorem lsb_checkBus_nil (l : Lsb) : l.checkBus [] = l := by
  simp [Lsb.checkBus, markReady_nil]

theorem forceZero_of_zero {rf : RegFile} (h : rf.value 0 = 0) : rf.forceZero = rf := by
  refine regFile_ext (fun r => ?_) (producer_forceZero rf)
  rw [value_forceZero]
  split
  · subst r; exact h.symm
  · rfl

/-- With nothing on the buses the end of a cycle only advances the clock (R135, R139, R145). -/
theorem stateCommit_quiet (s : State) {c : Cycle} (hrb : c.rb = []) (hcb : c.cb = [])
    (hv0 : c.next.regs.value 0 = 0) :
    stateCommit s (busPropagate c) = { c.next with clkCount := s.clkCount + 1 } := by
  simp [stateCommit, busPropagate, hrb, hcb, Rob.checkBus, rsaCheckBus_nil, rsmCheckBus_nil,
    lsb_checkBus_nil, regsCheckBus, forceZero_of_zero hv0]

theorem issueInto_idle {s : State} (hs : s.idle) (i : Instr) :
    { issueInto s (recordOf i) s with clkCount := s.clkCount + 1 } = s.issued i := by
  obtain ⟨⟨-, -, hl, hw⟩, hhi, hcount, -, hrsa, hrsm, -, -, hprod, -⟩ := hs
  obtain ⟨-, hhead, -, hlen, -⟩ := (wellSized_iff s).1 hw
  obtain ⟨hrsa1, -⟩ := legal_room hl
  have htail : s.rob.tail s.cfg = s.rob.head := by
    simp [Rob.tail, hcount, Nat.mod_eq_of_lt hhead]
  have hrob : s.rob.issue s.rob s.cfg (recordOf i) s.pc = (s.issued i).rob := by
    simp [Rob.issue, newRobEntry, htail, hcount, State.issued]
  have hfree := firstFree_of_empty (by omega) hrsa
  cases hop : (recordOf i).op with
  | arith k =>
    simp [issueInto, stationIssue, hop, hrob, htail, nextFetch_pc, nextFetch_bp, rsaIssue, hfree,
      arithEntry, readOperand_idle hprod, hhi, hrsm, State.issued]
  | mem k =>
    simp [issueInto, stationIssue, hop, hrob, htail, nextFetch_pc, nextFetch_bp, rsmIssue, memEntry,
      readOperand_idle hprod, hhi, hrsm, State.issued]

theorem committed_issueActs {s : State} (hs : s.idle) (i : Instr) :
    (issueActs i).committed s = s.issued i := by
  have hissued := issueInto_idle hs i
  obtain ⟨-, -, -, -, -, -, -, -, -, hv0⟩ := hs
  rw [← hissued]
  exact stateCommit_quiet s rfl rfl (by simp [Acts.run, issueActs, applyCommit, applyAccess, applyMem,
    applyArith, applyIssue, hv0])

/-- Any instruction issued into an idle machine leaves `State.issued` (R126, R128, R129, R149). -/
theorem exec_idle {s : State} (hs : s.idle) (i : Instr) : exec i s = .next (s.issued i) := by
  have hphases := phases_idle hs i
  have hleft := committed_issueActs hs i
  obtain ⟨⟨hh, hf, hl, hw⟩, -⟩ := hs
  rw [exec_eq, cycle_running hh hf hl hw, afterCycle, hphases, ← hleft]
  rfl

end Sys2Proof.Proofs
end

section
/-! O28: a load or a store out of range, followed from the cycle that issues it into an idle machine to
the cycle that performs it, whatever is fetched behind it (20_memory.md R68, 60_exceptions.md R403,
43_load_store_buffer.md R232). -/

namespace Sys2Proof.Proofs

-- One proof after the other, on one thread: each thread costs the check 256 MB of stack.
set_option Elab.async false

open Sys2Proof.Machine Sys2Proof.Laws

/-! ## Runs that stop -/

/-- Within `n` cycles `u` has stopped fatally, with the registers and the bytes of `s`. -/
def stopsUnchanged (s : State) (n : Nat) (u : State) : Prop :=
  ∃ w, Host.Core.run Sys2Proof.core n u = .next w ∧ w.fatal = true ∧ s.sameRegs w ∧ w.mem = s.mem

theorem step_stopped {s : State} (h : s.stopped = true) : step s = .next s := by
  obtain ⟨o, ho, -⟩ := step_offer s
  rw [ho, cycle_stopped h]

theorem run_succ {u t : State} (h : step u = .next t) (n : Nat) :
    Host.Core.run Sys2Proof.core (n + 1) u = Host.Core.run Sys2Proof.core n t := by
  have hstep : Sys2Proof.core.step u = .next t := h
  simp [Host.Core.run, hstep]

theorem run_stopped {u : State} (h : u.stopped = true) (n : Nat) :
    Host.Core.run Sys2Proof.core n u = .next u := by
  induction n with
  | zero => rfl
  | succ n ih => rw [run_succ (step_stopped h), ih]

/-- A running machine's step stops fatally and keeps all else, or is the acts of one cycle. -/
theorem step_running {u : State} (hu : u.running) :
    ∃ t, step u = .next t ∧
      ((∃ cause, t = { u with fatal := true, fatalCause := cause }) ∨
        ∃ a : Acts, a.taken u ∧ t = endOfCycle u (a.run u)) := by
  obtain ⟨hh, hf, hl, hw⟩ := hu
  obtain ⟨o, ho, hi⟩ := step_offer u
  refine ⟨afterCycle o u, ho.trans (cycle_running hh hf hl hw), ?_⟩
  rcases afterCycle_cases o u with ⟨f, hfail, ht⟩ | ⟨c, hok, ht⟩
  · refine .inl ⟨f.cause.code, ?_⟩
    rw [ht, raiseFatal, phases_error_mem hl hfail]
  · obtain ⟨a, va, rfl⟩ := phases_acts hok
    refine .inr ⟨a, ⟨hl, hw, fun r hr => ?_, va.arith, va.mem, va.access, va.commit⟩, ht⟩
    have hv := va.issue
    rw [hr] at hv
    obtain ⟨hor, hblocked, hroom⟩ := hv
    exact ⟨hblocked, hroom, hi r hor⟩

/-! ## A machine under way to the access -/

/-- The machine `u` runs, its memory port is free, and it has the registers and the bytes of `s`. -/
structure Underway (s u : State) : Prop where
  running : u.running
  cfg : u.cfg = s.cfg
  countdown : u.lsb.c = 0
  zero : s.regs.value 0 = 0
  regs : s.sameRegs u
  mem : u.mem = s.mem

/-- It is enough to follow the cycles that no fatal condition stops. -/
theorem Underway.stops_succ {s u : State} {n : Nat} (hu : Underway s u)
    (h : ∀ a : Acts, a.taken u → stopsUnchanged s n (endOfCycle u (a.run u))) :
    stopsUnchanged s (n + 1) u := by
  obtain ⟨t, hstep, ⟨cause, rfl⟩ | ⟨a, ha, rfl⟩⟩ := step_running hu.running
  · have hstopped : State.stopped { u with fatal := true, fatalCause := cause } = true := by
      simp [State.stopped]
    exact ⟨_, (run_succ hstep n).trans (run_stopped hstopped n), rfl, hu.regs, hu.mem⟩
  · obtain ⟨w, hw, hpost⟩ := h a ha
    exact ⟨w, (run_succ hstep n).trans hw, hpost⟩

/-- An entry is performed only in range (R232). -/
theorem performed_inRange {s : State} {a : AccessAct} (ha : validAccess s a) {x : LsbEntry}
    (hx : a.performed = some x) : inRange s.cfg x.addr x.op.width = true := by
  cases a with
  | countdown => cases hx
  | idle => cases hx
  | write k y =>
    cases hx
    obtain ⟨-, hop, -, hin, -⟩ := ha
    rwa [hop]
  | read k y =>
    cases hx
    obtain ⟨-, hop, -, hin, -⟩ := ha
    rwa [hop]

/-- The access out of range is fatal in the cycle that performs it (R232, R403). -/
theorem Underway.stops_of_outOfRange {s u : State} (hu : Underway s u) {x : LsbEntry}
    {rest : List LsbEntry} (hq : u.lsb.q = x :: rest) (hr : x.ready = true)
    (hout : inRange s.cfg x.addr x.op.width = false) (n : Nat) : stopsUnchanged s (n + 1) u := by
  refine hu.stops_succ fun a ha => ?_
  have hperf : a.access.performed = some x :=
    (performed_eq_performing ha.access).trans (performing_of_head hu.countdown hq hr)
  have hin := performed_inRange ha.access hperf
  rw [hu.cfg, hout] at hin
  cases hin

/-! ## What the acts of a cycle under way are -/

theorem access_idle {u : State} {a : Acts} (ha : a.taken u) (hc : u.lsb.c = 0)
    (hp : u.performing = none) : a.access = .idle := by
  have hva := ha.access
  have hperf := (performed_eq_performing hva).trans hp
  cases hacc : a.access with
  | countdown =>
    rw [hacc] at hva
    exact absurd hc (Nat.pos_iff_ne_zero.1 hva)
  | idle => rfl
  | write k x => rw [hacc] at hperf; cases hperf
  | read k x => rw [hacc] at hperf; cases hperf

/-- Commit acts only on a ready oldest entry (R163). -/
theorem oldest_ready_of_commit {u : State} {a : CommitAct} (ha : validCommit u a) (hne : a ≠ .none) :
    ∃ x, u.rob.oldest = some x ∧ x.ready = true := by
  cases a with
  | none => exact absurd rfl hne
  | halt =>
    obtain ⟨x, hx, hr, -⟩ := ha
    exact ⟨x, hx, hr⟩
  | retire x =>
    obtain ⟨hx, hr, -⟩ := ha
    exact ⟨x, hx, hr⟩

theorem commit_none {u : State} {a : Acts} (ha : a.taken u) {x : RobEntry}
    (hold : u.rob.oldest = some x) (hr : x.ready = false) : a.commit = .none := by
  by_contra hne
  obtain ⟨y, hy, hready⟩ := oldest_ready_of_commit ha.commit hne
  rw [hold] at hy
  cases hy
  rw [hr] at hready
  cases hready

theorem commit_retire {u : State} {a : Acts} (ha : a.taken u) {x : RobEntry}
    (hold : u.rob.oldest = some x) (hr : x.ready = true) (hg : x.op.group ≠ .halt) :
    a.commit = .retire x := by
  have hvc := ha.commit
  cases hcm : a.commit with
  | none =>
    rw [hcm] at hvc
    exact absurd (hvc x hold) (by simp [hr])
  | halt =>
    rw [hcm] at hvc
    obtain ⟨y, hy, -, hgroup⟩ := hvc
    rw [hold] at hy
    cases hy
    exact absurd hgroup hg
  | retire y =>
    rw [hcm] at hvc
    obtain ⟨hy, -⟩ := hvc
    rw [hold] at hy
    cases hy
    rfl

/-- Commit does nothing, or retires a store. -/
def quietCommit (c : CommitAct) : Prop :=
  c = .none ∨ ∃ x, c = .retire x ∧ x.op.group = .store

theorem endOfCycle_of_quiet {u : State} {a : Acts} (hc : quietCommit a.commit) :
    endOfCycle u (a.run u) = a.committed u := by
  refine endOfCycle_none ?_
  rcases hc with hc | ⟨x, hc, hg⟩
  · simp [Acts.run, hc, applyCommit]
  · simp [Acts.run, hc, applyCommit, retireFlush, hg]

/-- A store retires without writing a register (R167). -/
theorem regsCheckBus_of_quiet {c : CommitAct} (hc : quietCommit c) (rf : RegFile) :
    regsCheckBus c.bus rf = rf := by
  rcases hc with rfl | ⟨x, rfl, hg⟩
  · rfl
  · simp [CommitAct.bus, CommitAct.retired, retireBus, hg, regsCheckBus, RegFile.acceptCommit]

theorem issued_value (a : Acts) (s : State) (r : RegIdx) :
    (a.issued s).regs.value r = s.regs.value r := by
  cases h : a.issue with
  | none => rw [issued_of_none s h]
  | some i => simp [issued_of_some s h]

/-- A cycle without an access, in which no register is written, leaves the machine under way. -/
theorem Underway.next {s u : State} (hu : Underway s u) {a : Acts} (ha : a.taken u)
    (hacc : a.access = .idle) (hc : quietCommit a.commit) : Underway s (a.committed u) := by
  obtain ⟨hh, hf, hl, -⟩ := hu.running
  refine ⟨⟨?_, ?_, ?_, committed_wellSized ha⟩, ?_, ?_, hu.zero, fun r => ?_, ?_⟩
  · rcases hc with hc | ⟨x, hc, -⟩ <;> simpa [Acts.committed, Acts.run, hc, applyCommit] using hh
  · simpa [Acts.committed, Acts.run] using hf
  · rwa [committed_cfg]
  · rw [committed_cfg, hu.cfg]
  · rw [committed_count, hacc]
    exact hu.countdown
  · rw [committed_regs, regsCheckBus_of_quiet hc, value_forceZero, issued_value, hu.regs r]
    split
    · subst r; exact hu.zero.symm
    · rfl
  · rw [committed_mem, hacc]
    exact hu.mem

/-! ## Dispatch into an empty load-store buffer -/

/-- With room in the load-store buffer the selected entry is dispatched (R199). -/
theorem dispatched_of_select {u : State} {a : MemAct} (ha : validMem u a) {e : RsEntry MemKind}
    (hsel : rsmSelect u.rsm = some e) (hroom : u.lsb.q.length < u.cfg.nLsb) :
    a.dispatched = some e := by
  cases a with
  | none =>
    rcases ha with hfull | hnone
    · omega
    · rw [hsel] at hnone
      cases hnone
  | store k e' => exact ha.1.symm.trans hsel
  | forward k e' x => exact ha.1.symm.trans hsel
  | queue k e' => exact ha.1.symm.trans hsel

/-- From an empty load-store buffer nothing is forwarded: a store and a load are both queued (R222,
R226). -/
theorem act_of_dispatched {u : State} {a : MemAct} (ha : validMem u a) (hq : u.lsb.q = [])
    {e : RsEntry MemKind} (hd : a.dispatched = some e) :
    (∃ k, e.op = .store k ∧ a = .store k e) ∨ ∃ k, e.op = .load k ∧ a = .queue k e := by
  cases a with
  | none => cases hd
  | store k e' =>
    cases hd
    obtain ⟨-, -, hop⟩ := ha
    exact .inl ⟨k, hop, rfl⟩
  | forward k e' x =>
    obtain ⟨-, -, -, hnear, -⟩ := ha
    rw [hq] at hnear
    cases hnear
  | queue k e' =>
    cases hd
    obtain ⟨-, -, hop, -⟩ := ha
    exact .inr ⟨k, hop, rfl⟩

theorem room_of_empty {u : State} (hl : u.cfg.legal = true) (hq : u.lsb.q = []) :
    u.lsb.q.length < u.cfg.nLsb := by
  obtain ⟨-, -, hroom⟩ := legal_room hl
  rwa [hq]

theorem mem_queue {u : State} {a : Acts} (ha : a.taken u) {e : RsEntry MemKind} {k : LoadKind}
    (hrsm : u.rsm = [e]) (hq : u.lsb.q = []) (hop : e.op = .load k) (hj : e.qj = none) :
    a.mem = .queue k e := by
  have hsel : rsmSelect u.rsm = some e := by simp [hrsm, rsmSelect, hop, loadScan, hj]
  have hd := dispatched_of_select ha.mem hsel (room_of_empty ha.legal hq)
  rcases act_of_dispatched ha.mem hq hd with ⟨k', hop', -⟩ | ⟨k', hop', hact⟩
  · cases hop.symm.trans hop'
  · cases hop.symm.trans hop'
    exact hact

theorem mem_store {u : State} {a : Acts} (ha : a.taken u) {e : RsEntry MemKind} {k : StoreKind}
    (hrsm : u.rsm = [e]) (hq : u.lsb.q = []) (hop : e.op = .store k) (hres : e.resolved = true) :
    a.mem = .store k e := by
  have hsel : rsmSelect u.rsm = some e := by simp [hrsm, rsmSelect, hop, hres]
  have hd := dispatched_of_select ha.mem hsel (room_of_empty ha.legal hq)
  rcases act_of_dispatched ha.mem hq hd with ⟨k', hop', hact⟩ | ⟨k', hop', -⟩
  · cases hop.symm.trans hop'
    exact hact
  · cases hop.symm.trans hop'

/-! ## The one instruction in flight, as the cycle that issues it leaves it -/

/-- The memory instruction `e` is the only one in flight, in the memory station (R126, R193). -/
structure OnlyInStation (u : State) (e : RsEntry MemKind) : Prop where
  station : u.rsm = [e]
  resolved : e.qj = none ∧ e.qk = none
  buffer : u.lsb.q = []
  head : u.rob.head = e.tag
  count : u.rob.count = 1
  entry : ∃ x, u.rob.entry e.tag = some x ∧ x.ready = false ∧ x.op = .mem e.op ∧ x.tag = e.tag

theorem OnlyInStation.isResolved {u : State} {e : RsEntry MemKind} (h : OnlyInStation u e) :
    e.resolved = true := by
  simp [RsEntry.resolved, h.resolved]

theorem OnlyInStation.oldest {u : State} {e : RsEntry MemKind} (h : OnlyInStation u e) :
    ∃ x, u.rob.oldest = some x ∧ x.ready = false := by
  obtain ⟨x, hx, hr, -⟩ := h.entry
  exact ⟨x, by simp [Rob.oldest, h.count, h.head, hx], hr⟩

theorem OnlyInStation.acts {u : State} {e : RsEntry MemKind} (h : OnlyInStation u e)
    (hc : u.lsb.c = 0) {a : Acts} (ha : a.taken u) : a.access = .idle ∧ a.commit = .none := by
  obtain ⟨x, hold, hr⟩ := h.oldest
  exact ⟨access_idle ha hc (by simp [State.performing, hc, h.buffer]), commit_none ha hold hr⟩

theorem OnlyInStation.committed_queue {u : State} {e : RsEntry MemKind} (h : OnlyInStation u e)
    (hc : u.lsb.c = 0) {a : Acts} (ha : a.taken u) : (a.committed u).lsb.q = a.mem.queued := by
  obtain ⟨hacc, hcm⟩ := h.acts hc ha
  rw [committed_q, h.buffer, hacc, hcm]
  simp [AccessAct.performed, CommitAct.bus, CommitAct.retired, markReady_nil]

/-! ## Loads -/

/-- A load is queued ready in one cycle and performed in the next (R226, R230). -/
theorem OnlyInStation.load_stops {s u : State} {e : RsEntry MemKind} {k : LoadKind}
    (h : OnlyInStation u e) (hu : Underway s u) (hop : e.op = .load k)
    (hout : inRange s.cfg (effectiveAddress e.vj e.imm) k.width = false) :
    stopsUnchanged s 2 u := by
  refine hu.stops_succ fun a ha => ?_
  obtain ⟨hacc, hcm⟩ := h.acts hu.countdown ha
  have hquiet : quietCommit a.commit := .inl hcm
  have hq := h.committed_queue hu.countdown ha
  rw [mem_queue ha h.station h.buffer hop h.resolved.1] at hq
  rw [endOfCycle_of_quiet hquiet]
  exact (hu.next ha hacc hquiet).stops_of_outOfRange hq rfl hout 0

/-! ## Stores -/

/-- A store at the head of both buffers becomes ready in one cycle and is performed in the next (R167,
R228, R230). -/
theorem committing_store_stops {s u : State} (hu : Underway s u) {x : LsbEntry} {y : RobEntry}
    (hq : u.lsb.q = [x]) (hunready : x.ready = false) (hold : u.rob.oldest = some y)
    (hready : y.ready = true) (hg : y.op.group = .store) (htag : y.tag = x.tag)
    (hout : inRange s.cfg x.addr x.op.width = false) : stopsUnchanged s 2 u := by
  refine hu.stops_succ fun a ha => ?_
  have hacc := access_idle ha hu.countdown (by simp [State.performing, hu.countdown, hq, hunready])
  have hcm := commit_retire ha hold hready (by simp [hg])
  have hquiet : quietCommit a.commit := .inr ⟨y, hcm, hg⟩
  have hq' : (a.committed u).lsb.q =
      { x with ready := true } :: a.mem.queued.map (LsbEntry.markReady a.commit.bus) := by
    simp [committed_q, hq, hacc, AccessAct.performed, hcm, CommitAct.bus, CommitAct.retired,
      retireBus, hg, LsbEntry.markReady, hunready, htag]
  rw [endOfCycle_of_quiet hquiet]
  exact (hu.next ha hacc hquiet).stops_of_outOfRange hq' rfl hout 0

/-- The slot behind the only occupied one is another. -/
theorem head_ne_tail {rob : Rob} {cfg : Config} (hh : rob.head < cfg.nRob) (h1 : 0 < rob.count)
    (hn : rob.count < cfg.nRob) : rob.head ≠ rob.tail cfg := by
  intro heq
  have htail := age_tail hh hn
  rw [← heq, age_head hh] at htail
  omega

/-- Issue leaves the oldest entry of a buffer that is not empty (R161). -/
theorem issued_entry_head {a : Acts} {u : State} (ha : a.taken u) (h1 : 0 < u.rob.count) :
    (a.issued u).rob.entry u.rob.head = u.rob.entry u.rob.head := by
  obtain ⟨hslots, hhead, -⟩ := (wellSized_iff u).1 ha.wellSized
  cases hi : a.issue with
  | none => rw [issued_of_none u hi]
  | some r =>
    rw [issued_of_some u hi, issueInto_rob, entry_issue r u.pc _ hhead hslots,
      if_neg (head_ne_tail hhead h1 (issue_room ha hi))]

/-- The dispatch of the store makes its reorder-buffer entry ready (R172, R222). -/
theorem OnlyInStation.committed_oldest {u : State} {e : RsEntry MemKind} {k : StoreKind}
    (h : OnlyInStation u e) (hc : u.lsb.c = 0) (hop : e.op = .store k) {a : Acts} (ha : a.taken u) :
    ∃ y, (a.committed u).rob.oldest = some y ∧ y.ready = true ∧ y.op.group = .store ∧
      y.tag = e.tag := by
  obtain ⟨-, hcm⟩ := h.acts hc ha
  obtain ⟨x, hx, -, hxop, hxtag⟩ := h.entry
  have hissued : (a.issued u).rob.entry e.tag = some x := by
    rw [← h.head, issued_entry_head ha (by simp [h.count]), h.head, hx]
  have hbus : (⟨e.tag, 0, false⟩ : ResultEntry) ∈ a.resultBus u := by
    simp [Acts.resultBus, mem_store ha h.station h.buffer hop h.isResolved, MemAct.bus]
  have hentry : (a.committed u).rob.entry e.tag =
      some (RobEntry.afterBus (a.resultBus u) e.tag x) := by
    rw [committed_entry, hissued]
    simp [hcm, CommitAct.retired]
  have hhead : (a.committed u).rob.head = e.tag := by
    simp [committed_head, hcm, CommitAct.retired, h.head]
  have hcount : (a.committed u).rob.count ≠ 0 := by
    rw [committed_robCount]
    cases hi : a.issue with
    | none => simp [issued_of_none u hi, Acts.pops, hcm, CommitAct.retired, h.count]
    | some r => simp [issued_of_some u hi, Acts.pops, hcm, CommitAct.retired, Rob.issue]
  refine ⟨_, ?_, afterBus_ready_of_mem hbus x, ?_, ?_⟩
  · rw [Rob.oldest, if_neg hcount, hhead, hentry]
  · rw [afterBus_op, hxop, hop]
    rfl
  · rw [afterBus_tag, hxtag]

/-- A store is dispatched in one cycle, committed in the next, and then performed (R167, R222, R230). -/
theorem OnlyInStation.store_stops {s u : State} {e : RsEntry MemKind} {k : StoreKind}
    (h : OnlyInStation u e) (hu : Underway s u) (hop : e.op = .store k)
    (hout : inRange s.cfg (effectiveAddress e.vj e.imm) k.width = false) :
    stopsUnchanged s 3 u := by
  refine hu.stops_succ fun a ha => ?_
  obtain ⟨hacc, hcm⟩ := h.acts hu.countdown ha
  have hquiet : quietCommit a.commit := .inl hcm
  obtain ⟨y, hold, hready, hg, htag⟩ := h.committed_oldest hu.countdown hop ha
  have hq := h.committed_queue hu.countdown ha
  rw [mem_store ha h.station h.buffer hop h.isResolved] at hq
  rw [endOfCycle_of_quiet hquiet]
  exact committing_store_stops (hu.next ha hacc hquiet) hq rfl hold hready hg htag hout

/-! ## From the idle machine -/

/-- The station entry of a memory instruction issued into an idle machine (R192). -/
def issuedMem (s : State) (i : Instr) (k : MemKind) : RsEntry MemKind :=
  { op := k, tag := s.rob.head, vj := s.source (recordOf i).rs1, qj := none,
    vk := s.source (recordOf i).rs2, qk := none, imm := (recordOf i).imm, pc := s.pc }

theorem issued_onlyInStation {s : State} (hs : s.idle) {i : Instr} {k : MemKind}
    (hop : (recordOf i).op = .mem k) : OnlyInStation (s.issued i) (issuedMem s i k) := by
  obtain ⟨⟨-, -, -, hw⟩, -, -, -, -, -, hq, -⟩ := hs
  obtain ⟨hslots, hhead, -⟩ := (wellSized_iff s).1 hw
  exact
    { station := by simp [State.issued, hop, issuedMem]
      resolved := ⟨rfl, rfl⟩
      buffer := hq
      head := rfl
      count := rfl
      entry := ⟨newRobEntry (recordOf i) s.rob.head s.pc,
        by simp [State.issued, issuedMem, Rob.entry, hslots, hhead, newRobEntry], rfl, hop, rfl⟩ }

theorem issued_underway {s : State} (hs : s.idle) (i : Instr) : Underway s (s.issued i) := by
  have hw := committed_wellSized (issueActs_taken hs i)
  rw [committed_issueActs hs i] at hw
  obtain ⟨⟨hh, hf, hl, -⟩, -, -, -, -, -, -, hc, -, hv0⟩ := hs
  exact ⟨⟨hh, hf, hl, hw⟩, rfl, hc, hv0, fun r => value_recordProducer _ _ _ r, rfl⟩

theorem inRange_eq_false {cfg : Config} {a : Word} {n : Nat} (h : cfg.memSize < a.toNat + n) :
    inRange cfg a n = false := by
  simpa [inRange] using h

theorem load_outOfRange {s : State} (hs : s.idle) {i : Instr} {k : LoadKind}
    (hop : (recordOf i).op = .mem (.load k))
    (hout : s.cfg.memSize < (s.source (recordOf i).rs1 + (recordOf i).imm).toNat + k.width) :
    exec i s = .next (s.issued i) ∧ stopsUnchanged s 2 (s.issued i) :=
  ⟨exec_idle hs i, (issued_onlyInStation hs hop).load_stops (issued_underway hs i) rfl
    (inRange_eq_false hout)⟩

theorem store_outOfRange {s : State} (hs : s.idle) {i : Instr} {k : StoreKind}
    (hop : (recordOf i).op = .mem (.store k))
    (hout : s.cfg.memSize < (s.source (recordOf i).rs1 + (recordOf i).imm).toNat + k.width) :
    exec i s = .next (s.issued i) ∧ stopsUnchanged s 3 (s.issued i) :=
  ⟨exec_idle hs i, (issued_onlyInStation hs hop).store_stops (issued_underway hs i) rfl
    (inRange_eq_false hout)⟩

/-- Settles O28: the access is followed to the cycle that performs it, which a fatal condition stops. -/
theorem outOfRangeAccessIsFatal : Obligations.OutOfRangeAccessIsFatal := by
  unfold Obligations.OutOfRangeAccessIsFatal
  intro s r rs1 imm hs
  refine ⟨fun hout => ⟨?_, ?_, ?_⟩, fun hout => ⟨?_, ?_, ?_⟩, fun hout => ⟨?_, ?_⟩⟩
  · exact load_outOfRange hs (i := .lb r rs1 imm) rfl hout
  · exact load_outOfRange hs (i := .lbu r rs1 imm) rfl hout
  · exact store_outOfRange hs (i := .sb rs1 r imm) rfl hout
  · exact load_outOfRange hs (i := .lh r rs1 imm) rfl hout
  · exact load_outOfRange hs (i := .lhu r rs1 imm) rfl hout
  · exact store_outOfRange hs (i := .sh rs1 r imm) rfl hout
  · exact load_outOfRange hs (i := .lw r rs1 imm) rfl hout
  · exact store_outOfRange hs (i := .sw rs1 r imm) rfl hout

end Sys2Proof.Proofs
end

section
/-! The opcode map by format (30_encoding.md R94, R101): what each row of a format selects and builds, and
that two rows exclude each other but for the halt marker's word. O3, O5. -/

namespace Sys2Proof.Proofs

-- One proof after the other, on one thread: each thread costs the check 256 MB of stack.
set_option Elab.async false

open Sys2Proof.Machine Sys2Proof.Laws

/-! ## Rows by format -/

/-- The halt marker's row (R102). -/
def rowHalt : OpcodeRow := ⟨0xffffffff#32, 0x0ff00513#32, fun _ => .halt⟩

/-- A row of the U format. -/
def rowU (op : BitVec 7) (mk : RegIdx → BitVec 20 → Instr) : OpcodeRow :=
  ⟨0x7f#32, op.setWidth 32, fun w => mk (fieldRd w) (fieldImmU w)⟩

/-- A row of the J format. -/
def rowJ (mk : RegIdx → BitVec 21 → Instr) : OpcodeRow :=
  ⟨0x7f#32, 0x6f#32, fun w => mk (fieldRd w) (fieldImmJ w)⟩

/-- A row of the I format. -/
def rowI (f3 : BitVec 3) (op : BitVec 7) (mk : RegIdx → RegIdx → BitVec 12 → Instr) : OpcodeRow :=
  ⟨0x707f#32, 0#17 ++ f3 ++ 0#5 ++ op, fun w => mk (fieldRd w) (fieldRs1 w) (fieldImmI w)⟩

/-- A row of the B format. -/
def rowB (f3 : BitVec 3) (mk : RegIdx → RegIdx → BitVec 13 → Instr) : OpcodeRow :=
  ⟨0x707f#32, 0#17 ++ f3 ++ 0#5 ++ 0b1100011#7, fun w => mk (fieldRs1 w) (fieldRs2 w) (fieldImmB w)⟩

/-- A row of the S format. -/
def rowS (f3 : BitVec 3) (mk : RegIdx → RegIdx → BitVec 12 → Instr) : OpcodeRow :=
  ⟨0x707f#32, 0#17 ++ f3 ++ 0#5 ++ 0b0100011#7, fun w => mk (fieldRs1 w) (fieldRs2 w) (fieldImmS w)⟩

/-- A row of the immediate shifts. -/
def rowShift (f7 : BitVec 7) (f3 : BitVec 3) (mk : RegIdx → RegIdx → BitVec 5 → Instr) : OpcodeRow :=
  ⟨0xfe00707f#32, f7 ++ 0#10 ++ f3 ++ 0#5 ++ 0b0010011#7,
    fun w => mk (fieldRd w) (fieldRs1 w) (fieldShamt w)⟩

/-- A row of the R format. -/
def rowR (f7 : BitVec 7) (f3 : BitVec 3) (mk : RegIdx → RegIdx → RegIdx → Instr) : OpcodeRow :=
  ⟨0xfe00707f#32, f7 ++ 0#10 ++ f3 ++ 0#5 ++ 0b0110011#7,
    fun w => mk (fieldRd w) (fieldRs1 w) (fieldRs2 w)⟩

/-- The opcode map, with each row's fields in place of its mask and pattern. -/
theorem opcodeMap_eq : opcodeMap =
    [rowHalt, rowU 0b0110111#7 .lui, rowU 0b0010111#7 .auipc, rowJ .jal, rowI 0b000#3 0b1100111#7 .jalr,
      rowB 0b000#3 .beq, rowB 0b001#3 .bne, rowB 0b100#3 .blt, rowB 0b101#3 .bge, rowB 0b110#3 .bltu,
      rowB 0b111#3 .bgeu,
      rowI 0b000#3 0b0000011#7 .lb, rowI 0b001#3 0b0000011#7 .lh, rowI 0b010#3 0b0000011#7 .lw,
      rowI 0b100#3 0b0000011#7 .lbu, rowI 0b101#3 0b0000011#7 .lhu,
      rowS 0b000#3 .sb, rowS 0b001#3 .sh, rowS 0b010#3 .sw,
      rowI 0b000#3 0b0010011#7 .addi, rowI 0b010#3 0b0010011#7 .slti, rowI 0b011#3 0b0010011#7 .sltiu,
      rowI 0b100#3 0b0010011#7 .xori, rowI 0b110#3 0b0010011#7 .ori, rowI 0b111#3 0b0010011#7 .andi,
      rowShift 0b0000000#7 0b001#3 .slli, rowShift 0b0000000#7 0b101#3 .srli,
      rowShift 0b0100000#7 0b101#3 .srai,
      rowR 0b0000000#7 0b000#3 .add, rowR 0b0100000#7 0b000#3 .sub, rowR 0b0000000#7 0b001#3 .sll,
      rowR 0b0000000#7 0b010#3 .slt, rowR 0b0000000#7 0b011#3 .sltu, rowR 0b0000000#7 0b100#3 .xor,
      rowR 0b0000000#7 0b101#3 .srl, rowR 0b0100000#7 0b101#3 .sra, rowR 0b0000000#7 0b110#3 .or,
      rowR 0b0000000#7 0b111#3 .and] := rfl

/-! ## The fields a row selects by -/

theorem append_inj {m n : Nat} {x x' : BitVec m} {y y' : BitVec n} :
    x ++ y = x' ++ y' ↔ x = x' ∧ y = y' := by
  refine ⟨fun h => ⟨?_, ?_⟩, fun ⟨hx, hy⟩ => by rw [hx, hy]⟩
  · simpa only [BitVec.extractLsb'_append_eq_left] using congrArg (·.extractLsb' n m) h
  · simpa only [BitVec.extractLsb'_append_eq_right] using congrArg (·.extractLsb' 0 n) h

theorem funct3_opcode_inj {x x' : BitVec 3} {y y' : BitVec 7} :
    (0#17 ++ x ++ 0#5 ++ y : Word) = 0#17 ++ x' ++ 0#5 ++ y' ↔ x = x' ∧ y = y' :=
  (append_inj (m := 17 + 3 + 5)).trans (by simp only [append_inj, true_and, and_true])

theorem funct7_funct3_opcode_inj {z z' : BitVec 7} {x x' : BitVec 3} {y y' : BitVec 7} :
    (z ++ 0#10 ++ x ++ 0#5 ++ y : Word) = z' ++ 0#10 ++ x' ++ 0#5 ++ y' ↔ (z = z' ∧ x = x') ∧ y = y' :=
  (append_inj (m := 7 + 10 + 3 + 5)).trans (by simp only [append_inj, and_true])

theorem setWidth_opcode_inj {x y : BitVec 7} : x.setWidth 32 = y.setWidth 32 ↔ x = y := by
  simp only [← BitVec.toNat_inj, BitVec.toNat_setWidth]
  omega

theorem selects_iff (r : OpcodeRow) (w : Word) : r.selects w = true ↔ w &&& r.mask = r.pattern := by
  rw [OpcodeRow.selects, beq_iff_eq]

@[simp] theorem rowHalt_selects (w : Word) : rowHalt.selects w = true ↔ w = 0x0ff00513#32 := by
  rw [selects_iff, rowHalt, and_allOnes]

@[simp] theorem rowU_selects (op : BitVec 7) (mk : RegIdx → BitVec 20 → Instr) (w : Word) :
    (rowU op mk).selects w = true ↔ w.extractLsb' 0 7 = op := by
  rw [selects_iff, rowU, and_opcode, setWidth_opcode_inj]

@[simp] theorem rowJ_selects (mk : RegIdx → BitVec 21 → Instr) (w : Word) :
    (rowJ mk).selects w = true ↔ w.extractLsb' 0 7 = 0b1101111#7 := by
  rw [selects_iff, rowJ, and_opcode]
  exact setWidth_opcode_inj (y := 0b1101111#7)

@[simp] theorem rowI_selects (f3 : BitVec 3) (op : BitVec 7) (mk : RegIdx → RegIdx → BitVec 12 → Instr)
    (w : Word) :
    (rowI f3 op mk).selects w = true ↔ w.extractLsb' 12 3 = f3 ∧ w.extractLsb' 0 7 = op := by
  rw [selects_iff, rowI, and_funct3, funct3_opcode_inj]

@[simp] theorem rowB_selects (f3 : BitVec 3) (mk : RegIdx → RegIdx → BitVec 13 → Instr) (w : Word) :
    (rowB f3 mk).selects w = true ↔ w.extractLsb' 12 3 = f3 ∧ w.extractLsb' 0 7 = 0b1100011#7 := by
  rw [selects_iff, rowB, and_funct3, funct3_opcode_inj]

@[simp] theorem rowS_selects (f3 : BitVec 3) (mk : RegIdx → RegIdx → BitVec 12 → Instr) (w : Word) :
    (rowS f3 mk).selects w = true ↔ w.extractLsb' 12 3 = f3 ∧ w.extractLsb' 0 7 = 0b0100011#7 := by
  rw [selects_iff, rowS, and_funct3, funct3_opcode_inj]

@[simp] theorem rowShift_selects (f7 : BitVec 7) (f3 : BitVec 3) (mk : RegIdx → RegIdx → BitVec 5 → Instr)
    (w : Word) :
    (rowShift f7 f3 mk).selects w = true ↔
      (w.extractLsb' 25 7 = f7 ∧ w.extractLsb' 12 3 = f3) ∧ w.extractLsb' 0 7 = 0b0010011#7 := by
  rw [selects_iff, rowShift, and_funct7, funct7_funct3_opcode_inj]

@[simp] theorem rowR_selects (f7 : BitVec 7) (f3 : BitVec 3) (mk : RegIdx → RegIdx → RegIdx → Instr)
    (w : Word) :
    (rowR f7 f3 mk).selects w = true ↔
      (w.extractLsb' 25 7 = f7 ∧ w.extractLsb' 12 3 = f3) ∧ w.extractLsb' 0 7 = 0b0110011#7 := by
  rw [selects_iff, rowR, and_funct7, funct7_funct3_opcode_inj]

/-! ## Exclusivity -/

/-- No word has the pattern of both rows under their masks. -/
def disjointRows (p q : OpcodeRow) : Prop := p.pattern &&& q.mask ≠ q.pattern &&& p.mask

theorem not_selects_of_disjointRows {p q : OpcodeRow} (h : disjointRows p q) {w : Word}
    (hp : p.selects w = true) : ¬ q.selects w = true := by
  rw [selects_iff] at hp ⊢
  intro hq
  apply h
  rw [← hp, ← hq, BitVec.and_assoc, BitVec.and_assoc, BitVec.and_comm p.mask]

/-- Two rows are disjoint, unless they are the halt marker's and ADDI's, the first and the twentieth. -/
theorem rows_disjoint (j k : Fin opcodeMap.length) (hjk : j < k) (hne : ¬ (j.val = 0 ∧ k.val = 19)) :
    disjointRows opcodeMap[j] opcodeMap[k] := by
  revert j k
  unfold disjointRows
  decide +kernel

/-- Settles O3: the masks and patterns of any two other rows exclude each other. -/
theorem opcodeRowsExclusive : Obligations.OpcodeRowsExclusive := by
  unfold Obligations.OpcodeRowsExclusive
  intro w j k p q hjk hp hq hpw hqw
  obtain ⟨hj, rfl⟩ := List.getElem?_eq_some_iff.1 hp
  obtain ⟨hk, rfl⟩ := List.getElem?_eq_some_iff.1 hq
  by_cases h : j = 0 ∧ k = 19
  · obtain ⟨rfl, rfl⟩ := h
    obtain rfl := (rowHalt_selects w).1 hpw
    exact ⟨rfl, rfl, rfl⟩
  · exact absurd hqw
      (not_selects_of_disjointRows (rows_disjoint ⟨j, hj⟩ ⟨k, hk⟩ hjk h) hpw)

/-- Settles O5: the decoder is run on each of the twelve words. -/
theorem sampleWordsDecode : Obligations.SampleWordsDecode := by
  unfold Obligations.SampleWordsDecode
  decide

end Sys2Proof.Proofs
end

section
/-! O1, O2, O4, O6, O7: the decoder and the encoder are inverse to each other, what the decoder refuses,
and the bits it reads the record's fields from (30_encoding.md R94, R95, R99, R101, R108). -/

namespace Sys2Proof.Proofs

-- One proof after the other, on one thread: each thread costs the check 256 MB of stack.
set_option Elab.async false

open Sys2Proof.Machine Sys2Proof.Laws

/-! ## What the decoder answers -/

/-- A word that decodes is selected by a row that builds the instruction (R101). -/
theorem row_of_decodeWord {w : Word} {i : Instr} (h : decodeWord w = .ok i) :
    ∃ r ∈ opcodeMap, r.selects w = true ∧ r.build w = i := by
  unfold decodeWord at h
  split at h
  next r hr =>
    have hs := List.find?_some hr
    exact ⟨r, List.mem_of_find?_eq_some hr, hs, Except.ok.inj h⟩
  next => cases h

/-- A row that selects a word decodes it, unless it is ADDI's row at the halt marker's word (R101,
R102). -/
theorem decodeWord_of_selects {w : Word} {r : OpcodeRow} (hr : r ∈ opcodeMap) (hs : r.selects w = true) :
    decodeWord w = .ok (r.build w) ∨ w = 0x0ff00513#32 ∧ r.build w = .addi 10 0 255#12 := by
  unfold decodeWord
  cases hf : opcodeMap.find? (fun r => r.selects w) with
  | none => exact absurd hs (List.find?_eq_none.1 hf r hr)
  | some p =>
    obtain ⟨hp, j, hj, rfl, hfirst⟩ := List.find?_eq_some_iff_getElem.1 hf
    obtain ⟨k, hk, rfl⟩ := List.getElem_of_mem hr
    rcases Nat.lt_trichotomy j k with hjk | rfl | hkj
    · obtain ⟨hw, -, hadd⟩ := opcodeRowsExclusive w j k _ _ hjk
        (List.getElem?_eq_getElem hj) (List.getElem?_eq_getElem hk) hp hs
      exact .inr ⟨hw, hadd⟩
    · exact .inl rfl
    · exact absurd hs (by simpa using hfirst k hkj)

theorem decodeWord_of_selects_wellFormed {w : Word} {r : OpcodeRow} {i : Instr} (hr : r ∈ opcodeMap)
    (hs : r.selects w = true) (hb : r.build w = i) (hi : i.wellFormed = true) : decodeWord w = .ok i := by
  subst hb
  rcases decodeWord_of_selects hr hs with h | ⟨-, hadd⟩
  · exact h
  · rw [hadd] at hi
    exact absurd hi (by decide)

theorem decodeWord_eq_error_iff (w : Word) :
    decodeWord w = .error (.unrecognized w) ↔ ∀ r ∈ opcodeMap, ¬ r.selects w = true := by
  rw [← List.find?_eq_none, decodeWord]
  cases opcodeMap.find? (fun r => r.selects w) <;> simp

/-! ## Decoding an encoded instruction, by format -/

section Decode

variable {op : BitVec 7} {f3 : BitVec 3} {f7 : BitVec 7} {rd rs1 rs2 : RegIdx}

theorem decode_encodeU {mk : RegIdx → BitVec 20 → Instr} {imm : BitVec 20} (hr : rowU op mk ∈ opcodeMap)
    (hi : (mk rd imm).wellFormed = true) : decodeWord (encodeU op rd imm) = .ok (mk rd imm) :=
  decodeWord_of_selects_wellFormed hr (by simp) (by simp [rowU]) hi

theorem decode_encodeJ {mk : RegIdx → BitVec 21 → Instr} {off : BitVec 21} (hr : rowJ mk ∈ opcodeMap)
    (he : evenOffset off = true) (hi : (mk rd off).wellFormed = true) :
    decodeWord (encodeJ rd off) = .ok (mk rd off) :=
  decodeWord_of_selects_wellFormed hr (by simp) (by simp [rowJ, encodeJ_imm, he]) hi

theorem decode_encodeI {mk : RegIdx → RegIdx → BitVec 12 → Instr} {imm : BitVec 12}
    (hr : rowI f3 op mk ∈ opcodeMap) (hi : (mk rd rs1 imm).wellFormed = true) :
    decodeWord (encodeI f3 op rd rs1 imm) = .ok (mk rd rs1 imm) :=
  decodeWord_of_selects_wellFormed hr (by simp) (by simp [rowI]) hi

theorem decode_encodeB {mk : RegIdx → RegIdx → BitVec 13 → Instr} {off : BitVec 13}
    (hr : rowB f3 mk ∈ opcodeMap) (he : evenOffset off = true) (hi : (mk rs1 rs2 off).wellFormed = true) :
    decodeWord (encodeB f3 rs1 rs2 off) = .ok (mk rs1 rs2 off) :=
  decodeWord_of_selects_wellFormed hr (by simp) (by simp [rowB, encodeB_imm, he]) hi

theorem decode_encodeS {mk : RegIdx → RegIdx → BitVec 12 → Instr} {imm : BitVec 12}
    (hr : rowS f3 mk ∈ opcodeMap) (hi : (mk rs1 rs2 imm).wellFormed = true) :
    decodeWord (encodeS f3 rs1 rs2 imm) = .ok (mk rs1 rs2 imm) :=
  decodeWord_of_selects_wellFormed hr (by simp) (by simp [rowS]) hi

theorem decode_encodeShift {mk : RegIdx → RegIdx → BitVec 5 → Instr} {sh : BitVec 5}
    (hr : rowShift f7 f3 mk ∈ opcodeMap) (hi : (mk rd rs1 sh).wellFormed = true) :
    decodeWord (encodeShift f7 f3 rd rs1 sh) = .ok (mk rd rs1 sh) := by
  have hf7 : (f7 ++ sh).extractLsb' 5 7 = f7 := BitVec.extractLsb'_append_eq_left
  have hsh : (f7 ++ sh).extractLsb' 0 5 = sh := BitVec.extractLsb'_append_eq_right
  exact decodeWord_of_selects_wellFormed hr (by simp [encodeShift, hf7])
    (by simp [rowShift, encodeShift, hsh]) hi

theorem decode_encodeR {mk : RegIdx → RegIdx → RegIdx → Instr} (hr : rowR f7 f3 mk ∈ opcodeMap)
    (hi : (mk rd rs1 rs2).wellFormed = true) :
    decodeWord (encodeR f7 f3 0b0110011#7 rd rs1 rs2) = .ok (mk rd rs1 rs2) :=
  decodeWord_of_selects_wellFormed hr (by simp) (by simp [rowR]) hi

end Decode

theorem mem_opcodeMap {r : OpcodeRow} (k : Nat) (h : opcodeMap[k]? = some r) : r ∈ opcodeMap :=
  List.mem_of_getElem? h

/-- Settles O1: each instruction's row of the opcode map selects its word, and builds it again from the
fields of its format. -/
theorem decodeOfEncode : Obligations.DecodeOfEncode := by
  unfold Obligations.DecodeOfEncode
  intro i hi
  cases i with
  | halt => rfl
  | lui => exact decode_encodeU (mem_opcodeMap 1 rfl) hi
  | auipc => exact decode_encodeU (mem_opcodeMap 2 rfl) hi
  | jal => exact decode_encodeJ (mem_opcodeMap 3 rfl) hi hi
  | jalr => exact decode_encodeI (mem_opcodeMap 4 rfl) hi
  | beq => exact decode_encodeB (mem_opcodeMap 5 rfl) hi hi
  | bne => exact decode_encodeB (mem_opcodeMap 6 rfl) hi hi
  | blt => exact decode_encodeB (mem_opcodeMap 7 rfl) hi hi
  | bge => exact decode_encodeB (mem_opcodeMap 8 rfl) hi hi
  | bltu => exact decode_encodeB (mem_opcodeMap 9 rfl) hi hi
  | bgeu => exact decode_encodeB (mem_opcodeMap 10 rfl) hi hi
  | lb => exact decode_encodeI (mem_opcodeMap 11 rfl) hi
  | lh => exact decode_encodeI (mem_opcodeMap 12 rfl) hi
  | lw => exact decode_encodeI (mem_opcodeMap 13 rfl) hi
  | lbu => exact decode_encodeI (mem_opcodeMap 14 rfl) hi
  | lhu => exact decode_encodeI (mem_opcodeMap 15 rfl) hi
  | sb => exact decode_encodeS (mem_opcodeMap 16 rfl) hi
  | sh => exact decode_encodeS (mem_opcodeMap 17 rfl) hi
  | sw => exact decode_encodeS (mem_opcodeMap 18 rfl) hi
  | addi => exact decode_encodeI (mem_opcodeMap 19 rfl) hi
  | slti => exact decode_encodeI (mem_opcodeMap 20 rfl) hi
  | sltiu => exact decode_encodeI (mem_opcodeMap 21 rfl) hi
  | xori => exact decode_encodeI (mem_opcodeMap 22 rfl) hi
  | ori => exact decode_encodeI (mem_opcodeMap 23 rfl) hi
  | andi => exact decode_encodeI (mem_opcodeMap 24 rfl) hi
  | slli => exact decode_encodeShift (mem_opcodeMap 25 rfl) hi
  | srli => exact decode_encodeShift (mem_opcodeMap 26 rfl) hi
  | srai => exact decode_encodeShift (mem_opcodeMap 27 rfl) hi
  | add => exact decode_encodeR (mem_opcodeMap 28 rfl) hi
  | sub => exact decode_encodeR (mem_opcodeMap 29 rfl) hi
  | sll => exact decode_encodeR (mem_opcodeMap 30 rfl) hi
  | slt => exact decode_encodeR (mem_opcodeMap 31 rfl) hi
  | sltu => exact decode_encodeR (mem_opcodeMap 32 rfl) hi
  | xor => exact decode_encodeR (mem_opcodeMap 33 rfl) hi
  | srl => exact decode_encodeR (mem_opcodeMap 34 rfl) hi
  | sra => exact decode_encodeR (mem_opcodeMap 35 rfl) hi
  | or => exact decode_encodeR (mem_opcodeMap 36 rfl) hi
  | and => exact decode_encodeR (mem_opcodeMap 37 rfl) hi

/-! ## The instruction a row builds, by format -/

/-- A row of the opcode map with what its instruction is: its word by the encoder of the row's format, its
record by the form of that format, and when it is well-formed (R91, R94, R99). -/
inductive RowForm : OpcodeRow → Prop where
  | halt : RowForm rowHalt
  | u {op mk k} (h : ∀ rd imm, encode (mk rd imm) = encodeU op rd imm ∧
      recordOf (mk rd imm) = recordU k rd imm ∧ (mk rd imm).wellFormed = true) : RowForm (rowU op mk)
  | j {mk} (h : ∀ rd off, encode (mk rd off) = encodeJ rd off ∧
      recordOf (mk rd off) = recordJ rd off ∧ (mk rd off).wellFormed = evenOffset off) : RowForm (rowJ mk)
  | i {f3 op mk k} (hop : ¬ (op = 0b0010011#7 ∧ f3.extractLsb' 0 2 = 0b01#2))
      (h : ∀ rd rs1 imm, encode (mk rd rs1 imm) = encodeI f3 op rd rs1 imm ∧
        recordOf (mk rd rs1 imm) = recordI k rd rs1 imm ∧
        ((mk rd rs1 imm).wellFormed = true ∨ encodeI f3 op rd rs1 imm = 0x0ff00513#32)) :
      RowForm (rowI f3 op mk)
  | b {f3 mk k} (h : ∀ rs1 rs2 off, encode (mk rs1 rs2 off) = encodeB f3 rs1 rs2 off ∧
      recordOf (mk rs1 rs2 off) = recordB k rs1 rs2 off ∧
      (mk rs1 rs2 off).wellFormed = evenOffset off) : RowForm (rowB f3 mk)
  | s {f3 mk k} (h : ∀ rs1 rs2 imm, encode (mk rs1 rs2 imm) = encodeS f3 rs1 rs2 imm ∧
      recordOf (mk rs1 rs2 imm) = recordS k rs1 rs2 imm ∧
      (mk rs1 rs2 imm).wellFormed = true) : RowForm (rowS f3 mk)
  | shift {f7 f3 mk k} (hf3 : f3.extractLsb' 0 2 = 0b01#2)
      (h : ∀ rd rs1 sh, encode (mk rd rs1 sh) = encodeShift f7 f3 rd rs1 sh ∧
        recordOf (mk rd rs1 sh) = recordShift k rd rs1 sh ∧
        (mk rd rs1 sh).wellFormed = true) : RowForm (rowShift f7 f3 mk)
  | r {f7 f3 mk k} (h : ∀ rd rs1 rs2, encode (mk rd rs1 rs2) = encodeR f7 f3 0b0110011#7 rd rs1 rs2 ∧
      recordOf (mk rd rs1 rs2) = recordR k rd rs1 rs2 ∧
      (mk rd rs1 rs2).wellFormed = true) : RowForm (rowR f7 f3 mk)

/-- The ADDI that is not well-formed has the halt marker's word (R102). -/
theorem notMarker_or_marker (rd rs1 : RegIdx) (imm : BitVec 12) :
    notMarker rd rs1 imm = true ∨ encodeI 0b000#3 0b0010011#7 rd rs1 imm = 0x0ff00513#32 := by
  by_cases h : (rd = 10 ∧ rs1 = 0) ∧ imm = 255#12
  · obtain ⟨⟨rfl, rfl⟩, rfl⟩ := h
    exact .inr (by decide)
  · exact .inl (by simpa [notMarker, -not_and, Classical.not_and_iff_not_or_not] using h)

theorem rowForm_of_mem : ∀ r ∈ opcodeMap, RowForm r := by
  rw [opcodeMap_eq]
  simp only [List.forall_mem_cons]
  exact ⟨.halt, .u fun _ _ => ⟨rfl, rfl, rfl⟩, .u fun _ _ => ⟨rfl, rfl, rfl⟩, .j fun _ _ => ⟨rfl, rfl, rfl⟩,
    .i (by decide) fun _ _ _ => ⟨rfl, rfl, .inl rfl⟩,
    .b fun _ _ _ => ⟨rfl, rfl, rfl⟩, .b fun _ _ _ => ⟨rfl, rfl, rfl⟩, .b fun _ _ _ => ⟨rfl, rfl, rfl⟩,
    .b fun _ _ _ => ⟨rfl, rfl, rfl⟩, .b fun _ _ _ => ⟨rfl, rfl, rfl⟩, .b fun _ _ _ => ⟨rfl, rfl, rfl⟩,
    .i (by decide) fun _ _ _ => ⟨rfl, rfl, .inl rfl⟩, .i (by decide) fun _ _ _ => ⟨rfl, rfl, .inl rfl⟩,
    .i (by decide) fun _ _ _ => ⟨rfl, rfl, .inl rfl⟩, .i (by decide) fun _ _ _ => ⟨rfl, rfl, .inl rfl⟩,
    .i (by decide) fun _ _ _ => ⟨rfl, rfl, .inl rfl⟩,
    .s fun _ _ _ => ⟨rfl, rfl, rfl⟩, .s fun _ _ _ => ⟨rfl, rfl, rfl⟩, .s fun _ _ _ => ⟨rfl, rfl, rfl⟩,
    .i (by decide) fun _ _ _ => ⟨rfl, rfl, notMarker_or_marker _ _ _⟩,
    .i (by decide) fun _ _ _ => ⟨rfl, rfl, .inl rfl⟩, .i (by decide) fun _ _ _ => ⟨rfl, rfl, .inl rfl⟩,
    .i (by decide) fun _ _ _ => ⟨rfl, rfl, .inl rfl⟩, .i (by decide) fun _ _ _ => ⟨rfl, rfl, .inl rfl⟩,
    .i (by decide) fun _ _ _ => ⟨rfl, rfl, .inl rfl⟩,
    .shift (by decide) fun _ _ _ => ⟨rfl, rfl, rfl⟩, .shift (by decide) fun _ _ _ => ⟨rfl, rfl, rfl⟩,
    .shift (by decide) fun _ _ _ => ⟨rfl, rfl, rfl⟩,
    .r fun _ _ _ => ⟨rfl, rfl, rfl⟩, .r fun _ _ _ => ⟨rfl, rfl, rfl⟩, .r fun _ _ _ => ⟨rfl, rfl, rfl⟩,
    .r fun _ _ _ => ⟨rfl, rfl, rfl⟩, .r fun _ _ _ => ⟨rfl, rfl, rfl⟩, .r fun _ _ _ => ⟨rfl, rfl, rfl⟩,
    .r fun _ _ _ => ⟨rfl, rfl, rfl⟩, .r fun _ _ _ => ⟨rfl, rfl, rfl⟩, .r fun _ _ _ => ⟨rfl, rfl, rfl⟩,
    .r fun _ _ _ => ⟨rfl, rfl, rfl⟩, by simp⟩

/-! ## Encoding the fields of a word, by format -/

theorem regBits_ofNat (b : BitVec 5) : regBits (Fin.ofNat 32 b.toNat) = b := by
  apply BitVec.eq_of_toNat_eq
  have := b.isLt
  simpa [regBits] using this

@[simp] theorem regBits_fieldRd (w : Word) : regBits (fieldRd w) = w.extractLsb' 7 5 := regBits_ofNat _

@[simp] theorem regBits_fieldRs1 (w : Word) : regBits (fieldRs1 w) = w.extractLsb' 15 5 := regBits_ofNat _

@[simp] theorem regBits_fieldRs2 (w : Word) : regBits (fieldRs2 w) = w.extractLsb' 20 5 := regBits_ofNat _

theorem encodeU_fields (w : Word) : encodeU (w.extractLsb' 0 7) (fieldRd w) (fieldImmU w) = w := by
  apply BitVec.eq_of_getLsbD_eq
  intro i hi
  simp only [encodeU, fieldImmU, regBits_fieldRd, BitVec.getLsbD_append, BitVec.getLsbD_extractLsb']
  interval_cases i <;> simp

theorem encodeJ_fields {w : Word} (h : w.extractLsb' 0 7 = 0b1101111#7) :
    encodeJ (fieldRd w) (fieldImmJ w) = w := by
  apply BitVec.eq_of_getLsbD_eq
  intro i hi
  simp only [encodeJ, ← h, fieldImmJ, regBits_fieldRd, BitVec.getLsbD_append, BitVec.getLsbD_extractLsb']
  interval_cases i <;> simp

theorem encodeI_fields (w : Word) :
    encodeI (w.extractLsb' 12 3) (w.extractLsb' 0 7) (fieldRd w) (fieldRs1 w) (fieldImmI w) = w := by
  apply BitVec.eq_of_getLsbD_eq
  intro i hi
  simp only [encodeI, fieldImmI, regBits_fieldRd, regBits_fieldRs1, BitVec.getLsbD_append,
    BitVec.getLsbD_extractLsb']
  interval_cases i <;> simp

theorem encodeB_fields {w : Word} (h : w.extractLsb' 0 7 = 0b1100011#7) :
    encodeB (w.extractLsb' 12 3) (fieldRs1 w) (fieldRs2 w) (fieldImmB w) = w := by
  apply BitVec.eq_of_getLsbD_eq
  intro i hi
  simp only [encodeB, ← h, fieldImmB, regBits_fieldRs1, regBits_fieldRs2, BitVec.getLsbD_append,
    BitVec.getLsbD_extractLsb']
  interval_cases i <;> simp

theorem encodeS_fields {w : Word} (h : w.extractLsb' 0 7 = 0b0100011#7) :
    encodeS (w.extractLsb' 12 3) (fieldRs1 w) (fieldRs2 w) (fieldImmS w) = w := by
  apply BitVec.eq_of_getLsbD_eq
  intro i hi
  simp only [encodeS, ← h, fieldImmS, regBits_fieldRs1, regBits_fieldRs2, BitVec.getLsbD_append,
    BitVec.getLsbD_extractLsb']
  interval_cases i <;> simp

theorem funct7_append_shamt (w : Word) : w.extractLsb' 25 7 ++ fieldShamt w = fieldImmI w :=
  BitVec.extractLsb'_append_extractLsb'_eq_extractLsb' rfl

theorem encodeR_fields (w : Word) :
    encodeR (w.extractLsb' 25 7) (w.extractLsb' 12 3) (w.extractLsb' 0 7) (fieldRd w) (fieldRs1 w)
      (fieldRs2 w) = w := by
  apply BitVec.eq_of_getLsbD_eq
  intro i hi
  simp only [encodeR, regBits_fieldRd, regBits_fieldRs1, regBits_fieldRs2, BitVec.getLsbD_append,
    BitVec.getLsbD_extractLsb']
  interval_cases i <;> simp

theorem evenOffset_fieldImmJ (w : Word) : evenOffset (fieldImmJ w) = true := by
  simp only [evenOffset, fieldImmJ, BitVec.getLsbD_append]
  rfl

theorem evenOffset_fieldImmB (w : Word) : evenOffset (fieldImmB w) = true := by
  simp only [evenOffset, fieldImmB, BitVec.getLsbD_append]
  rfl

/-- The instruction a selected row builds has the word's encoding, and is well-formed but for the ADDI of
the halt marker's word. -/
theorem RowForm.encode_build {r : OpcodeRow} (h : RowForm r) {w : Word} (hs : r.selects w = true) :
    encode (r.build w) = w ∧ ((r.build w).wellFormed = true ∨ w = 0x0ff00513#32) := by
  cases h with
  | halt => exact ⟨((rowHalt_selects w).1 hs).symm, .inl rfl⟩
  | u h =>
    obtain rfl := (rowU_selects _ _ w).1 hs
    obtain ⟨henc, -, hwf⟩ := h (fieldRd w) (fieldImmU w)
    exact ⟨henc.trans (encodeU_fields w), .inl hwf⟩
  | j h =>
    obtain ⟨henc, -, hwf⟩ := h (fieldRd w) (fieldImmJ w)
    exact ⟨henc.trans (encodeJ_fields ((rowJ_selects _ w).1 hs)),
      .inl (hwf.trans (evenOffset_fieldImmJ w))⟩
  | i hop h =>
    obtain ⟨rfl, rfl⟩ := (rowI_selects _ _ _ w).1 hs
    obtain ⟨henc, -, hwf⟩ := h (fieldRd w) (fieldRs1 w) (fieldImmI w)
    rw [encodeI_fields] at henc hwf
    exact ⟨henc, hwf⟩
  | b h =>
    obtain ⟨rfl, hop⟩ := (rowB_selects _ _ w).1 hs
    obtain ⟨henc, -, hwf⟩ := h (fieldRs1 w) (fieldRs2 w) (fieldImmB w)
    exact ⟨henc.trans (encodeB_fields hop), .inl (hwf.trans (evenOffset_fieldImmB w))⟩
  | s h =>
    obtain ⟨rfl, hop⟩ := (rowS_selects _ _ w).1 hs
    obtain ⟨henc, -, hwf⟩ := h (fieldRs1 w) (fieldRs2 w) (fieldImmS w)
    exact ⟨henc.trans (encodeS_fields hop), .inl hwf⟩
  | shift hf3 h =>
    obtain ⟨⟨rfl, rfl⟩, hop⟩ := (rowShift_selects _ _ _ w).1 hs
    obtain ⟨henc, -, hwf⟩ := h (fieldRd w) (fieldRs1 w) (fieldShamt w)
    rw [encodeShift, funct7_append_shamt, ← hop, encodeI_fields] at henc
    exact ⟨henc, .inl hwf⟩
  | r h =>
    obtain ⟨⟨rfl, rfl⟩, hop⟩ := (rowR_selects _ _ _ w).1 hs
    obtain ⟨henc, -, hwf⟩ := h (fieldRd w) (fieldRs1 w) (fieldRs2 w)
    rw [← hop, encodeR_fields] at henc
    exact ⟨henc, .inl hwf⟩

theorem decodeWord_marker : decodeWord 0x0ff00513#32 = .ok .halt := rfl

/-- Settles O2: the row that decodes the word reads every bit that its mask leaves open. -/
theorem encodeOfDecode : Obligations.EncodeOfDecode := by
  unfold Obligations.EncodeOfDecode
  intro w i h
  obtain ⟨r, hr, hs, rfl⟩ := row_of_decodeWord h
  obtain ⟨henc, hwf | rfl⟩ := (rowForm_of_mem r hr).encode_build hs
  · exact ⟨hwf, henc⟩
  · rw [decodeWord_marker] at h
    exact ⟨by rw [← Except.ok.inj h]; rfl, henc⟩

/-! ## The halt marker and ADDI -/

/-- Settles O4: ADDI's row selects the words of its opcode and funct3, and only the halt marker's row comes
before it. -/
theorem haltMarkerPrecedence : Obligations.HaltMarkerPrecedence := by
  unfold Obligations.HaltMarkerPrecedence
  refine ⟨decodeWord_marker, rfl, fun w hw hop hf3 => ⟨fieldRd w, fieldRs1 w, fieldImmI w, ?_⟩⟩
  have hs : (rowI 0b000#3 0b0010011#7 .addi).selects w = true := (rowI_selects _ _ _ w).2 ⟨hf3, hop⟩
  rcases decodeWord_of_selects (mem_opcodeMap 19 rfl) hs with h | ⟨h, -⟩
  · exact h
  · exact absurd h hw

/-! ## The record's fields -/

theorem ne_halt_of_rd {i : Instr} {r : RegIdx} (h : (recordOf i).rd = some r) : i ≠ .halt := by
  rintro rfl
  cases h

@[simp] theorem fieldRd_val (w : Word) : (fieldRd w).val = (w.extractLsb' 7 5).toNat :=
  Nat.mod_eq_of_lt (w.extractLsb' 7 5).isLt

@[simp] theorem fieldRs1_val (w : Word) : (fieldRs1 w).val = (w.extractLsb' 15 5).toNat :=
  Nat.mod_eq_of_lt (w.extractLsb' 15 5).isLt

@[simp] theorem fieldRs2_val (w : Word) : (fieldRs2 w).val = (w.extractLsb' 20 5).toNat :=
  Nat.mod_eq_of_lt (w.extractLsb' 20 5).isLt

/-- Bits 13 and 12 of the word are the low two of funct3. -/
theorem extract_funct3_low (w : Word) : (w.extractLsb' 12 3).extractLsb' 0 2 = w.extractLsb' 12 2 := by
  apply BitVec.eq_of_getLsbD_eq
  intro i hi
  simp only [BitVec.getLsbD_extractLsb']
  interval_cases i <;> simp

/-- Settles O7: the record of the instruction a row builds, format by format. -/
theorem fieldsAreRead : Obligations.FieldsAreRead := by
  unfold Obligations.FieldsAreRead
  intro w i hd
  obtain ⟨r, hr, hs, rfl⟩ := row_of_decodeWord hd
  cases rowForm_of_mem r hr with
  | halt =>
    obtain rfl := (rowHalt_selects w).1 hs
    exact ⟨rfl, rfl, rfl, rfl⟩
  | @u op mk k h =>
    have hrec : recordOf ((rowU op mk).build w) = recordU k (fieldRd w) (fieldImmU w) := (h _ _).2.1
    simp [hrec, recordU, ne_halt_of_rd (congrArg Record.rd hrec), fieldImmU]
  | @j mk h =>
    have hrec : recordOf ((rowJ mk).build w) = recordJ (fieldRd w) (fieldImmJ w) := (h _ _).2.1
    simp [hrec, recordJ, ne_halt_of_rd (congrArg Record.rd hrec), fieldImmJ]
  | @i f3 op mk k hop h =>
    have hrec : recordOf ((rowI f3 op mk).build w) = recordI k (fieldRd w) (fieldRs1 w) (fieldImmI w) :=
      (h _ _ _).2.1
    obtain ⟨rfl, rfl⟩ := (rowI_selects _ _ _ w).1 hs
    rw [extract_funct3_low] at hop
    simp [hrec, recordI, ne_halt_of_rd (congrArg Record.rd hrec), fieldImmI, hop]
  | @b f3 mk k h =>
    have hrec : recordOf ((rowB f3 mk).build w) = recordB k (fieldRs1 w) (fieldRs2 w) (fieldImmB w) :=
      (h _ _ _).2.1
    simp [hrec, recordB, fieldImmB]
  | @s f3 mk k h =>
    have hrec : recordOf ((rowS f3 mk).build w) = recordS k (fieldRs1 w) (fieldRs2 w) (fieldImmS w) :=
      (h _ _ _).2.1
    simp [hrec, recordS, fieldImmS]
  | @shift f7 f3 mk k hf3 h =>
    have hrec : recordOf ((rowShift f7 f3 mk).build w) =
        recordShift k (fieldRd w) (fieldRs1 w) (fieldShamt w) := (h _ _ _).2.1
    obtain ⟨⟨rfl, rfl⟩, hop⟩ := (rowShift_selects _ _ _ w).1 hs
    rw [extract_funct3_low] at hf3
    simp [hrec, recordShift, ne_halt_of_rd (congrArg Record.rd hrec), fieldShamt, hop, hf3]
  | @r f7 f3 mk k h =>
    have hrec : recordOf ((rowR f7 f3 mk).build w) = recordR k (fieldRd w) (fieldRs1 w) (fieldRs2 w) :=
      (h _ _ _).2.1
    simp [hrec, recordR, ne_halt_of_rd (congrArg Record.rd hrec)]

/-! ## The words refused -/

/-- The halt marker's row adds no word to those of the other rows: ADDI's row selects it too. -/
theorem decodeWord_eq_error_iff_tail (w : Word) :
    decodeWord w = .error (.unrecognized w) ↔ ∀ r ∈ opcodeMap.tail, ¬ r.selects w = true := by
  rw [decodeWord_eq_error_iff]
  refine ⟨fun h r hr => h r (List.mem_of_mem_tail hr), fun h => List.forall_mem_cons.2 ⟨fun hs => ?_, h⟩⟩
  obtain rfl := (rowHalt_selects w).1 hs
  exact h _ (List.mem_of_getElem? (i := 18) rfl) rfl

theorem funct3_cases (f3 : BitVec 3) : f3 = 0b000#3 ∨ f3 = 0b001#3 ∨ f3 = 0b010#3 ∨ f3 = 0b011#3 ∨
    f3 = 0b100#3 ∨ f3 = 0b101#3 ∨ f3 = 0b110#3 ∨ f3 = 0b111#3 := by
  revert f3
  decide

/-- Settles O6: for each opcode, the funct3 and funct7 values that none of its rows has. -/
theorem unrecognizedWords : Obligations.UnrecognizedWords := by
  unfold Obligations.UnrecognizedWords
  intro w
  rw [decodeWord_eq_error_iff_tail, opcodeMap_eq]
  simp only [List.tail_cons, List.forall_mem_cons, rowU_selects, rowJ_selects, rowI_selects, rowB_selects,
    rowS_selects, rowShift_selects, rowR_selects]
  generalize w.extractLsb' 0 7 = opcode
  generalize w.extractLsb' 12 3 = funct3
  generalize w.extractLsb' 25 7 = funct7
  by_cases hop : opcode ∈ [0b0110111#7, 0b0010111#7, 0b1101111#7, 0b1100111#7, 0b1100011#7, 0b0000011#7,
      0b0100011#7, 0b0010011#7, 0b0110011#7]
  · simp only [List.mem_cons, List.not_mem_nil, or_false] at hop
    rcases hop with rfl | rfl | rfl | rfl | rfl | rfl | rfl | rfl | rfl
    · simp
    · simp
    · simp
    · simp
    · rcases funct3_cases funct3 with rfl | rfl | rfl | rfl | rfl | rfl | rfl | rfl <;> simp
    · rcases funct3_cases funct3 with rfl | rfl | rfl | rfl | rfl | rfl | rfl | rfl <;> simp
    · simp
    · rcases funct3_cases funct3 with rfl | rfl | rfl | rfl | rfl | rfl | rfl | rfl <;> simp
    · rcases funct3_cases funct3 with rfl | rfl | rfl | rfl | rfl | rfl | rfl | rfl <;> simp
  · simp only [List.mem_cons, List.not_mem_nil, or_false, not_or] at hop ⊢
    simp [hop]

end Sys2Proof.Proofs
end

section
/-! O60: the loader reads a text of segments (30_encoding.md R112). -/

namespace Sys2Proof.Proofs

-- One proof after the other, on one thread: each thread costs the check 256 MB of stack.
set_option Elab.async false

open Sys2Proof.Machine Sys2Proof.Laws

/-! ## Hexadecimal text -/

theorem hexDigit_hexChar (lower : Bool) {n : Nat} (h : n < 16) : hexDigit (hexChar lower n) = some n := by
  revert lower n
  decide

theorem isBlank_hexChar (lower : Bool) {n : Nat} (h : n < 16) : isBlank (hexChar lower n) = false := by
  revert lower n
  decide

theorem hexChar_ne_marker (lower : Bool) {n : Nat} (h : n < 16) : hexChar lower n ≠ '@' := by
  revert lower n
  decide

@[simp] theorem length_hexText (lower : Bool) (d n : Nat) : (hexText lower d n).length = d := by
  induction d generalizing n with
  | zero => rfl
  | succ d ih => simp [hexText, ih]

theorem not_isBlank_of_mem_hexText {lower : Bool} {d n : Nat} {c : Char} (h : c ∈ hexText lower d n) :
    isBlank c = false := by
  induction d generalizing n with
  | zero => cases h
  | succ d ih =>
    rcases List.mem_append.1 h with h | h
    · exact ih h
    · obtain rfl := List.mem_singleton.1 h
      exact isBlank_hexChar lower (Nat.mod_lt n (by decide))

theorem hexDigits_append (cs ds : List Char) (acc : Nat) :
    hexDigits (cs ++ ds) acc = (hexDigits cs acc).bind (hexDigits ds) := by
  induction cs generalizing acc with
  | nil => rfl
  | cons c cs ih =>
    simp only [List.cons_append, hexDigits]
    cases hexDigit c with
    | none => rfl
    | some d => exact ih _

theorem hexDigits_hexText (lower : Bool) {d n : Nat} (h : n < 16 ^ d) (acc : Nat) :
    hexDigits (hexText lower d n) acc = some (acc * 16 ^ d + n) := by
  induction d generalizing n with
  | zero =>
    obtain rfl : n = 0 := by simpa using h
    simp [hexText, hexDigits]
  | succ d ih =>
    have hdiv : n / 16 < 16 ^ d := by
      rw [Nat.pow_succ] at h
      omega
    have hlast : hexDigit (hexChar lower (n % 16)) = some (n % 16) :=
      hexDigit_hexChar lower (Nat.mod_lt n (by decide))
    rw [hexText, hexDigits_append, ih hdiv, Option.bind_some, hexDigits, hlast]
    simp only [hexDigits, Option.some.injEq]
    rw [Nat.pow_succ, Nat.add_mul, Nat.mul_assoc]
    omega

theorem hexNumber_hexText (lower : Bool) {d n : Nat} (hd : 1 ≤ d) (h : n < 16 ^ d) :
    hexNumber (hexText lower d n) = some n := by
  have hval := hexDigits_hexText lower h 0
  rw [Nat.zero_mul, Nat.zero_add] at hval
  cases ht : hexText lower d n with
  | nil =>
    have := length_hexText lower d n
    simp [ht] at this
    omega
  | cons c cs => rw [hexNumber, ← ht, hval]

/-! ## Tokens -/

/-- A token: not empty, and without a blank (R112). -/
def IsToken (t : List Char) : Prop := t ≠ [] ∧ ∀ c ∈ t, isBlank c = false

theorem tokensFrom_append_token {t : List Char} (ht : ∀ c ∈ t, isBlank c = false) (cs cur : List Char) :
    tokensFrom (t ++ cs) cur = tokensFrom cs (t.reverse ++ cur) := by
  induction t generalizing cur with
  | nil => rfl
  | cons c t ih =>
    rw [List.forall_mem_cons] at ht
    simp [tokensFrom, ht.1, ih ht.2]

theorem tokensFrom_append_blanks {sep : List Char} (hsep : ∀ c ∈ sep, isBlank c = true) (cs : List Char) :
    tokensFrom (sep ++ cs) [] = tokensFrom cs [] := by
  induction sep with
  | nil => rfl
  | cons c sep ih =>
    rw [List.forall_mem_cons] at hsep
    simp [tokensFrom, hsep.1, ih hsep.2]

/-- Blanks end the token begun. -/
theorem tokensFrom_append_sep {sep : List Char} (hne : sep ≠ []) (hsep : ∀ c ∈ sep, isBlank c = true)
    (cs : List Char) {cur : List Char} (hcur : cur ≠ []) :
    tokensFrom (sep ++ cs) cur = cur.reverse :: tokensFrom cs [] := by
  cases sep with
  | nil => exact absurd rfl hne
  | cons c sep =>
    rw [List.forall_mem_cons] at hsep
    simp [tokensFrom, hsep.1, hcur, tokensFrom_append_blanks hsep.2]

/-- Tokens with blanks before each but the first are read back. -/
theorem tokensFrom_separated {sep : List Char} (hne : sep ≠ []) (hsep : ∀ c ∈ sep, isBlank c = true)
    {t : List Char} {ts : List (List Char)} (ht : ∀ x ∈ t :: ts, IsToken x) :
    tokensFrom (t ++ ts.flatMap (sep ++ ·)) [] = t :: ts := by
  induction ts generalizing t with
  | nil =>
    obtain ⟨htne, htok⟩ := ht t List.mem_cons_self
    rw [tokensFrom_append_token htok]
    simp [tokensFrom, htne]
  | cons u ts ih =>
    obtain ⟨⟨htne, htok⟩, hrest⟩ := List.forall_mem_cons.1 ht
    rw [tokensFrom_append_token htok, List.flatMap_cons, List.append_assoc,
      tokensFrom_append_sep hne hsep _ (by simpa using htne), ih hrest]
    simp

/-! ## The tokens of an image's text -/

/-- The token that starts a segment: the marker and the address. -/
def addressToken (lower : Bool) (w : Nat) (g : Nat × List Byte) : List Char := '@' :: hexText lower w g.1

/-- The token of a byte. -/
def byteToken (lower : Bool) (b : Byte) : List Char := hexText lower 2 b.toNat

/-- The tokens of a segment. -/
def segmentTokens (lower : Bool) (w : Nat) (g : Nat × List Byte) : List (List Char) :=
  addressToken lower w g :: g.2.map (byteToken lower)

theorem isToken_addressToken (lower : Bool) (w : Nat) (g : Nat × List Byte) :
    IsToken (addressToken lower w g) :=
  ⟨List.cons_ne_nil _ _, List.forall_mem_cons.2 ⟨by decide, fun _ => not_isBlank_of_mem_hexText⟩⟩

theorem isToken_byteToken (lower : Bool) (b : Byte) : IsToken (byteToken lower b) :=
  ⟨List.ne_nil_of_length_pos (by simp [byteToken]), fun _ => not_isBlank_of_mem_hexText⟩

theorem isToken_of_mem_segmentTokens {lower : Bool} {w : Nat} {g : Nat × List Byte} {t : List Char}
    (h : t ∈ segmentTokens lower w g) : IsToken t := by
  rcases List.mem_cons.1 h with rfl | h
  · exact isToken_addressToken lower w g
  · obtain ⟨b, -, rfl⟩ := List.mem_map.1 h
    exact isToken_byteToken lower b

theorem segmentText_eq (lower : Bool) (w : Nat) (sep : List Char) (g : Nat × List Byte) :
    segmentText lower w sep g =
      addressToken lower w g ++ (g.2.map (byteToken lower)).flatMap (sep ++ ·) := by
  rw [List.flatMap_map]
  rfl

/-- The text of an image is its tokens with `sep` before each but the first. -/
theorem imageText_eq (lower : Bool) (w : Nat) (sep : List Char) (g : Nat × List Byte)
    (rest : List (Nat × List Byte)) :
    imageText lower w sep (g :: rest) =
      addressToken lower w g ++
        (g.2.map (byteToken lower) ++ rest.flatMap (segmentTokens lower w)).flatMap (sep ++ ·) := by
  induction rest generalizing g with
  | nil => simp [imageText, segmentText_eq]
  | cons x rest ih =>
    have hx : imageText lower w sep (g :: x :: rest) =
        segmentText lower w sep g ++ sep ++ imageText lower w sep (x :: rest) :=
      List.intercalate_cons_cons
    rw [hx, ih, segmentText_eq]
    simp [segmentTokens]

/-! ## Reading the tokens -/

theorem hexByte_byteToken (lower : Bool) (b : Byte) : hexByte (byteToken lower b) = some b := by
  have h : hexNumber (byteToken lower b) = some b.toNat := hexNumber_hexText lower (by decide) b.isLt
  simp only [byteToken, hexText, List.nil_append, List.cons_append, hexByte] at h ⊢
  simp [h]

theorem imageFrom_byteToken (lower : Bool) (b : Byte) (ts : List (List Char)) (a : Nat) :
    imageFrom (byteToken lower b :: ts) a = (imageFrom ts (a + 1)).map ((a, b) :: ·) := by
  have hb := hexByte_byteToken lower b
  have hc : hexChar lower (b.toNat / 16 % 16) ≠ '@' := hexChar_ne_marker lower (Nat.mod_lt _ (by decide))
  simp only [byteToken, hexText, List.nil_append, List.cons_append] at hb ⊢
  simp [imageFrom, hc, hb]

theorem segmentCells_cons (a : Nat) (b : Byte) (bs : List Byte) :
    segmentCells (a, b :: bs) = (a, b) :: segmentCells (a + 1, bs) := by
  simp [segmentCells, List.zipIdx_succ, Nat.add_assoc, Nat.add_comm 1]

theorem imageFrom_byteTokens (lower : Bool) (bs : List Byte) (ts : List (List Char)) (a : Nat) :
    imageFrom (bs.map (byteToken lower) ++ ts) a =
      (imageFrom ts (a + bs.length)).map (segmentCells (a, bs) ++ ·) := by
  induction bs generalizing a with
  | nil => simp [segmentCells]
  | cons b bs ih =>
    rw [List.map_cons, List.cons_append, imageFrom_byteToken, ih, segmentCells_cons, Option.map_map,
      List.length_cons, Nat.add_assoc, Nat.add_comm 1]
    rfl

theorem imageFrom_segmentTokens (lower : Bool) {w : Nat} (hw : 1 ≤ w) {segments : List (Nat × List Byte)}
    (hs : ∀ x ∈ segments, x.1 < 16 ^ w) (a : Nat) :
    imageFrom (segments.flatMap (segmentTokens lower w)) a = some (segments.flatMap segmentCells) := by
  induction segments generalizing a with
  | nil => rfl
  | cons g rest ih =>
    obtain ⟨hg, hrest⟩ := List.forall_mem_cons.1 hs
    rw [List.flatMap_cons, segmentTokens, List.cons_append, addressToken, imageFrom,
      hexNumber_hexText lower hw hg]
    simp only [imageFrom_byteTokens, ih hrest, Option.map_some, List.flatMap_cons]

/-- Settles O60: the text's tokens are the segments' tokens, and reading those gives the segments' bytes. -/
theorem loaderReadsSegments : Obligations.LoaderReadsSegments := by
  unfold Obligations.LoaderReadsSegments
  intro lower w sep g rest hw _ hne hsep hs
  obtain ⟨hg, hrest⟩ := List.forall_mem_cons.1 hs
  have hblank : ∀ c ∈ sep, isBlank c = true := by
    intro c hc
    rcases hsep c hc with rfl | rfl | rfl | rfl <;> rfl
  have htokens : tokensFrom (imageText lower w sep (g :: rest)) [] =
      (g :: rest).flatMap (segmentTokens lower w) := by
    rw [imageText_eq, tokensFrom_separated hne hblank]
    · rfl
    · intro t ht
      obtain ⟨x, -, hx⟩ := List.mem_flatMap.1 (show t ∈ (g :: rest).flatMap (segmentTokens lower w) from ht)
      exact isToken_of_mem_segmentTokens hx
  rw [loadText, htokens, List.flatMap_cons, segmentTokens, List.cons_append, addressToken]
  simp only [hexNumber_hexText lower hw hg, imageFrom_byteTokens, imageFrom_segmentTokens lower hw hrest,
    Option.map_some, List.flatMap_cons]

end Sys2Proof.Proofs
end

section
/-! O8 to O12, O16: the instruction a step runs, and what a cycle leaves of the configuration, the clock and
the two flags (40_orchestrator_cycle.md R121, R124, R144, R145). -/

namespace Sys2Proof.Proofs

-- One proof after the other, on one thread: each thread costs the check 256 MB of stack.
set_option Elab.async false

open Sys2Proof.Machine Sys2Proof.Laws

/-! ## The fetched word (R62) -/

theorem bytesOfWord_readLE (m : Memory) (a : Nat) :
    bytesOfWord (m.readLE a 4) = [m.read a, m.read (a + 1), m.read (a + 2), m.read (a + 3)] := by
  have hbyte : ∀ k, k < 4 → (m.readLE a 4).extractLsb' (8 * k) 8 = m.read (a + k) :=
    fun k hk => readLE_byte m hk (Nat.le_refl 4)
  have h0 : (m.readLE a 4).extractLsb' 0 8 = m.read a := hbyte 0 (by decide)
  have h1 : (m.readLE a 4).extractLsb' 8 8 = m.read (a + 1) := hbyte 1 (by decide)
  have h2 : (m.readLE a 4).extractLsb' 16 8 = m.read (a + 2) := hbyte 2 (by decide)
  have h3 : (m.readLE a 4).extractLsb' 24 8 = m.read (a + 3) := hbyte 3 (by decide)
  rw [bytesOfWord, h0, h1, h2, h3]

theorem bytesOfWord_injective {v w : Word} (h : bytesOfWord v = bytesOfWord w) : v = w := by
  simp only [bytesOfWord, List.cons.injEq, and_true] at h
  obtain ⟨h0, h1, h2, h3⟩ := h
  rw [← wordOfBytes_bytesOfWord v, ← wordOfBytes_bytesOfWord w, h0, h1, h2, h3]

/-- A word reads back from where it was written (R61). -/
theorem readLE_writeLE_word {m : Memory} (h : m.wf = true) (a : Nat) (w : Word) :
    (m.writeLE a 4 w).readLE a 4 = w := by
  obtain ⟨hbytes, -⟩ := writeLE_stored h a 4 w
  apply bytesOfWord_injective
  rw [bytesOfWord_readLE]
  exact congrArg₂ _ (hbytes 0 (by decide)) (congrArg₂ _ (hbytes 1 (by decide))
    (congrArg₂ _ (hbytes 2 (by decide)) (congrArg₂ _ (hbytes 3 (by decide)) rfl)))

theorem decodeWord_of_decodeBytes {w : Word} {i : Instr}
    (h : decodeBytes (bytesOfWord w) = .ok (i, [])) : decodeWord w = .ok i := by
  rw [decodeBytes_bytesOfWord] at h
  cases hd : decodeWord w with
  | ok j =>
    rw [hd] at h
    cases h
    rfl
  | error e =>
    rw [hd] at h
    cases h

/-- The whole of a table word is the word. -/
theorem tableWord_toNat (w : Word) : tableWord 32 w.toNat = w := by
  rw [tableWord, Nat.mod_eq_of_lt w.isLt, BitVec.ofNat_toNat, BitVec.setWidth_eq]

/-! ## The instruction a step runs (R124) -/

theorem issueBlocked_eq_false {s : State} (hh : s.haltIssued = false) (hn : s.rob.count < s.cfg.nRob) :
    s.issueBlocked = false := by
  rw [Bool.eq_false_iff, ne_eq, issueBlocked_iff, hh]
  rintro (h | h)
  · cases h
  · omega

theorem inRange_eq_true {cfg : Config} {a : Word} {n : Nat} (h : a.toNat + n ≤ cfg.memSize) :
    inRange cfg a n = true := decide_eq_true h

theorem step_eq_exec {s : State} {i : Instr} (hb : s.issueBlocked = false)
    (hr : s.pc.toNat + 4 ≤ s.cfg.memSize) (hd : decodeWord (s.mem.readLE s.pc.toNat 4) = .ok i) :
    step s = exec i s := by
  rw [exec_eq, step_decoded hb (inRange_eq_true hr) hd]

/-- Settles O8: the four bytes are those of the word the step fetches. -/
theorem stepRunsDecoded : Obligations.StepRunsDecoded := by
  unfold Obligations.StepRunsDecoded
  intro s i hh hn hr hd
  rw [← bytesOfWord_readLE] at hd
  exact step_eq_exec (issueBlocked_eq_false hh hn) hr (decodeWord_of_decodeBytes hd)

/-- Settles O9: the word reads back from the four bytes at the pc, and decodes to its instruction. -/
theorem fetchWordIsRun : Obligations.FetchWordIsRun := by
  unfold Obligations.FetchWordIsRun
  intro s i hwf hm hh hn hr s'
  have hs' : s' = storeFetchWord s (encode i) := by
    simp only [s', State.withFetchWord, tableWord_toNat]
  have hfetch : s'.mem.readLE s'.pc.toNat 4 = encode i := by
    rw [hs']
    exact readLE_writeLE_word hm _ _
  refine ⟨step_eq_exec (issueBlocked_eq_false hh hn) hr ?_, rfl, fun a ha => ?_⟩
  · rw [hfetch]
    exact decodeOfEncode i hwf
  · rw [hs']
    exact read_writeLE_outside _ _ _ _ ha

/-! ## What a running cycle answers (R121, R144, R145) -/

theorem stopped_of_or {s : State} (h : s.halted = true ∨ s.fatal = true) : s.stopped = true := by
  simpa [State.stopped] using h

theorem exec_stopped {s : State} (h : s.stopped = true) (i : Instr) : exec i s = .next s := by
  rw [exec_eq, cycle_stopped h]

theorem exec_running {s : State} (h : s.running) (i : Instr) :
    exec i s = .next (afterCycle (.instr (recordOf i)) s) := by
  obtain ⟨hh, hf, hl, hw⟩ := h
  rw [exec_eq, cycle_running hh hf hl hw]

theorem endOfCycle_cfg (s : State) (c : Cycle) : (endOfCycle s c).cfg = c.next.cfg := by
  unfold endOfCycle
  split <;> rfl

theorem endOfCycle_clkCount (s : State) (c : Cycle) : (endOfCycle s c).clkCount = s.clkCount + 1 := by
  unfold endOfCycle
  split <;> rfl

theorem run_fatal (a : Acts) (s : State) : (a.run s).next.fatal = s.fatal := by simp [Acts.run]

theorem run_cfg (a : Acts) (s : State) : (a.run s).next.cfg = s.cfg := by simp [Acts.run]

/-- A cycle that went through its phases sets no fatal flag. -/
theorem endOfCycle_run_fatal {s : State} (h : s.fatal = false) (a : Acts) :
    (endOfCycle s (a.run s)).fatal = false := by
  rw [endOfCycle_fatal, run_fatal, h]

/-- A cycle keeps the configuration, and advances the clock unless a fatal condition stops it (R144,
R145). -/
theorem afterCycle_answers {s : State} (h : s.fatal = false) (o : Offer) :
    (afterCycle o s).cfg = s.cfg ∧
      (afterCycle o s).clkCount = if (afterCycle o s).fatal then s.clkCount else s.clkCount + 1 := by
  rcases afterCycle_cases o s with ⟨f, -, ht⟩ | ⟨c, hok, ht⟩
  · rw [ht]
    exact ⟨rfl, rfl⟩
  · obtain ⟨a, -, rfl⟩ := phases_acts hok
    rw [ht, endOfCycle_cfg, run_cfg, endOfCycle_clkCount, endOfCycle_run_fatal h]
    exact ⟨rfl, rfl⟩

theorem outputs_running_iff (t : State) : t.outputs = .running ↔ t.halted = false ∧ t.fatal = false := by
  unfold State.outputs
  cases t.halted <;> cases t.fatal <;> simp

/-- Settles O10, by the two branches of a cycle. -/
theorem stoppedStateStays : Obligations.StoppedStateStays := by
  unfold Obligations.StoppedStateStays
  refine ⟨fun s hs => ⟨step_stopped (stopped_of_or hs), exec_stopped (stopped_of_or hs)⟩,
    fun s hs => ?_⟩
  obtain ⟨t, hstep, ⟨cause, rfl⟩ | ⟨a, -, rfl⟩⟩ := step_running hs
  · exact ⟨_, hstep, .inl rfl⟩
  · exact ⟨_, hstep, .inr (endOfCycle_clkCount s _)⟩

/-- Settles O11: the step and every `exec` are a cycle, whatever it offers to Issue. -/
theorem runningCycleAnswers : Obligations.RunningCycleAnswers := by
  unfold Obligations.RunningCycleAnswers
  intro s hs
  obtain ⟨hh, hf, hl, hw⟩ := id hs
  refine ⟨(outputs_running_iff s).2 ⟨hh, hf⟩, ?_, fun i => ?_⟩
  · obtain ⟨o, ho, -⟩ := step_offer s
    obtain ⟨hcfg, hclk⟩ := afterCycle_answers hf o
    exact ⟨_, ho.trans (cycle_running hh hf hl hw), hcfg, hclk, outputs_running_iff _⟩
  · exact ⟨_, exec_running hs i, afterCycle_answers hf _⟩

/-- The codes of the three causes (R400). -/
theorem code_cases (c : FatalCause) : c.code = 1 ∨ c.code = 2 ∨ c.code = 3 := by
  cases c <;> simp [FatalCause.code]

/-- Settles O12: no act of a fatal cycle has written the backing store (`phases_error_mem`). -/
theorem fatalKeepsState : Obligations.FatalKeepsState := by
  unfold Obligations.FatalKeepsState
  intro s t hs hstep hfatal
  obtain ⟨hh, hf, hl, hw⟩ := hs
  obtain ⟨o, ho, -⟩ := step_offer s
  rw [ho, cycle_running hh hf hl hw] at hstep
  obtain rfl := Host.Outcome.next.inj hstep
  rcases afterCycle_cases o s with ⟨f, herr, ht⟩ | ⟨c, hok, ht⟩
  · have hmem := phases_error_mem hl herr
    rw [ht]
    refine ⟨?_, code_cases f.cause, rfl⟩
    simp [raiseFatal, hmem]
  · obtain ⟨a, -, rfl⟩ := phases_acts hok
    rw [ht, endOfCycle_run_fatal hf] at hfatal
    cases hfatal

/-- Settles O16, by the acts of the cycle that issues into an idle machine (`exec_idle`). -/
theorem issueIntoIdle : Obligations.IssueIntoIdle := by
  unfold Obligations.IssueIntoIdle
  exact fun i s hs => exec_idle hs i

end Sys2Proof.Proofs
end

section
/-! O17, O19: what Issue does in a busy machine, in a cycle that no fatal condition stops and no flush ends
(40_orchestrator_cycle.md R124 to R129, R149). -/

namespace Sys2Proof.Proofs

-- One proof after the other, on one thread: each thread costs the check 256 MB of stack.
set_option Elab.async false

open Sys2Proof.Machine Sys2Proof.Laws

/-! ## Commit, as the statements speak of it -/

theorem committing_eq_some_iff (s : State) (e : RobEntry) :
    s.committing = some e ↔ s.rob.oldest = some e ∧ e.ready = true := by
  unfold State.committing Rob.oldest
  split
  · simp
  · cases s.rob.entry s.rob.head with
    | none => simp
    | some x =>
      rw [Option.ite_none_right_eq_some, Option.some.injEq]
      exact ⟨fun ⟨hr, hx⟩ => ⟨hx, hx ▸ hr⟩, fun ⟨hx, hr⟩ => ⟨hx ▸ hr, hx⟩⟩

theorem group_halt_iff (op : OpKind) : op.group = .halt ↔ op = .arith .halt := by
  rcases op with (_ | _ | _ | _ | k | k | k | _) | (k | k) <;> simp [OpKind.group]

/-- The kinds whose commit checks the target are two commit groups (R169, R170). -/
theorem checked_iff (op : OpKind) : op.checked = true ↔ op.group = .branch ∨ op.group = .indirectJump := by
  rcases op with (_ | _ | _ | _ | k | k | k | _) | (k | k) <;> simp [OpKind.group, OpKind.checked]

/-- What Commit does is decided by the entry that commits: none, the halt marker, or one that retires. -/
theorem commit_of_committing {s : State} {a : CommitAct} (ha : validCommit s a) :
    (s.committing = none ∧ a = .none) ∨
      (∃ e, s.committing = some e ∧ e.op = .arith .halt ∧ a = .halt) ∨
      ∃ e, s.committing = some e ∧ e.op ≠ .arith .halt ∧ a = .retire e := by
  cases a with
  | none =>
    refine .inl ⟨?_, rfl⟩
    by_contra hne
    obtain ⟨e, he⟩ := Option.ne_none_iff_exists'.1 hne
    obtain ⟨hold, hready⟩ := (committing_eq_some_iff s e).1 he
    rw [ha e hold] at hready
    cases hready
  | halt =>
    obtain ⟨e, hold, hready, hgroup⟩ := ha
    exact .inr (.inl ⟨e, (committing_eq_some_iff s e).2 ⟨hold, hready⟩, (group_halt_iff _).1 hgroup, rfl⟩)
  | retire e =>
    obtain ⟨hold, hready, hgroup⟩ := ha
    exact .inr (.inr ⟨e, (committing_eq_some_iff s e).2 ⟨hold, hready⟩,
      fun hop => hgroup ((group_halt_iff _).2 hop), rfl⟩)

theorem run_flushReq (a : Acts) (s : State) :
    (a.run s).flushReq = a.commit.retired.bind (retireFlush s) := by
  cases h : a.commit with
  | retire e => cases hf : retireFlush s e <;> simp [Acts.run, h, applyCommit, CommitAct.retired, hf]
  | _ => simp [Acts.run, h, applyCommit, CommitAct.retired]

/-- A cycle flushes exactly when its commit has mispredicted (R169, R170). -/
theorem run_flushReq_eq_mispredicts {a : Acts} {s : State} (ha : validCommit s a.commit) :
    (a.run s).flushReq = s.mispredicts := by
  rw [run_flushReq, State.mispredicts]
  rcases commit_of_committing ha with ⟨hc, hact⟩ | ⟨e, hc, hop, hact⟩ | ⟨e, hc, -, hact⟩
  · simp [hc, hact, CommitAct.retired]
  · simp [hc, hact, CommitAct.retired, hop, OpKind.checked]
  · simp only [hc, hact, CommitAct.retired, Option.bind_some, retireFlush, ← checked_iff]
    cases e.op.checked <;> by_cases ht : e.target = fetchedAfter s <;> simp [ht]

/-- The number of entries Commit pops is what the statements give (R166). -/
theorem pops_eq_retires {a : Acts} {s : State} (ha : validCommit s a.commit) :
    a.pops = if s.retires then 1 else 0 := by
  unfold Acts.pops State.retires
  rcases commit_of_committing ha with ⟨hc, hact⟩ | ⟨e, hc, hop, hact⟩ | ⟨e, hc, hop, hact⟩
  · simp [hc, hact, CommitAct.retired]
  · simp [hc, hact, CommitAct.retired, hop]
  · simp [hc, hact, CommitAct.retired, hop]

/-! ## A cycle without a flush -/

theorem taken_of_valid {a : Acts} {o : Offer} {s : State} (hs : s.running) (va : a.valid o s)
    (ho : ∀ r, o = .instr r → ∃ i, r = recordOf i) : a.taken s := by
  obtain ⟨-, -, hl, hw⟩ := hs
  refine ⟨hl, hw, fun r hr => ?_, va.arith, va.mem, va.access, va.commit⟩
  have hv := va.issue
  rw [hr] at hv
  obtain ⟨hor, hblocked, hroom⟩ := hv
  exact ⟨hblocked, hroom, ho r hor⟩

/-- A running cycle without a fatal condition and without a flush leaves what its acts leave (R139). -/
theorem cycle_unflushed {o : Offer} {s t : State} (hs : s.running) (h : cycle o s = .next t)
    (hf : t.fatal = false) (hm : s.mispredicts = none) :
    ∃ a : Acts, a.valid o s ∧ t = a.committed s := by
  obtain ⟨hh, -⟩ := hs
  rcases cycle_acts h with ⟨hstop, rfl⟩ | ⟨-, -, -, -, ⟨f, -, rfl⟩ | ⟨a, va, rfl⟩⟩
  · simp [State.stopped, hh, hf] at hstop
  · cases hf
  · exact ⟨a, va, endOfCycle_none ((run_flushReq_eq_mispredicts va.commit).trans hm)⟩

/-- The cycle that issues `i`. -/
theorem exec_issues {i : Instr} {s t : State} (hs : s.running) (hi : s.issues i)
    (h : exec i s = .next t) (hf : t.fatal = false) (hm : s.mispredicts = none) :
    ∃ a : Acts, a.taken s ∧ a.issue = some (recordOf i) ∧ t = a.committed s := by
  obtain ⟨hhi, hn, hroom⟩ := hi
  rw [exec_eq] at h
  obtain ⟨a, va, rfl⟩ := cycle_unflushed hs h hf hm
  refine ⟨a, taken_of_valid hs va fun r hr => ⟨i, by simpa using hr.symm⟩, ?_, rfl⟩
  have hv := va.issue
  cases hai : a.issue with
  | none =>
    rw [hai] at hv
    rcases hv with hb | hnone | ⟨r, hr, hnoroom⟩
    · rw [issueBlocked_eq_false hhi hn] at hb
      cases hb
    · cases hnone
    · cases hr
      rw [hroom] at hnoroom
      cases hnoroom
  | some r =>
    rw [hai] at hv
    obtain ⟨hr, -⟩ := hv
    cases hr
    rfl

/-! ## The fetch path -/

theorem committed_pc (a : Acts) (s : State) : (a.committed s).pc = (a.issued s).pc := by
  simp [Acts.committed, Acts.run, Acts.issued]

theorem committed_haltIssued (a : Acts) (s : State) :
    (a.committed s).haltIssued = (a.issued s).haltIssued := by
  simp [Acts.committed, Acts.run, Acts.issued]

theorem committed_ras (a : Acts) (s : State) : (a.committed s).bp.ras = (a.issued s).bp.ras := by
  rw [committed_bp]
  exact (bpAfter_lengths s a.commit (a.issued s).bp).2

/-! ## Allocation -/

/-- Commit frees another slot than the one Issue takes. -/
theorem tail_survives {a : Acts} {s : State} (ha : a.taken s) (h : s.sound) (hc : s.consistent)
    (hn : s.rob.count < s.cfg.nRob) : a.survives s (s.rob.tail s.cfg) := by
  intro hret htail
  obtain ⟨e, he⟩ := Option.isSome_iff_exists.1 hret
  obtain ⟨hentry, -⟩ := retired_at_head ha he
  rw [← htail, entry_tail h hc hn] at hentry
  cases hentry

theorem committed_entry_tail {a : Acts} {s : State} (ha : a.taken s) (h : s.sound) (hc : s.consistent)
    {r : Record} (hi : a.issue = some r) :
    (a.committed s).rob.entry (s.rob.tail s.cfg) =
      some (RobEntry.afterBus (a.resultBus s) (s.rob.tail s.cfg)
        (newRobEntry r (s.rob.tail s.cfg) s.pc)) := by
  rw [committed_entry_of_survives (tail_survives ha h hc (issue_room ha hi)), issued_of_some s hi,
    issueInto_entry h, if_pos rfl, Option.map_some]

/-- Commit leaves a producer tag that does not name the entry it retires (R262). -/
theorem committed_producer_of_survives {a : Acts} {s : State} (ha : a.taken s) (h : s.sound)
    (hc : s.consistent) {q : RegIdx} {p : Tag} (hp : (a.issued s).regs.producer q = some p)
    (hs : a.survives s p) : (a.committed s).regs.producer q = some p := by
  rw [committed_regs, producer_forceZero]
  cases hr : a.commit.retired with
  | none =>
    simp only [CommitAct.bus, hr]
    exact hp
  | some e =>
    obtain ⟨hentry, -⟩ := retired_at_head ha hr
    obtain ⟨htag, hdest⟩ := entry_tag h hc hentry
    have hbus : a.commit.bus = retireBus e := by simp [CommitAct.bus, hr]
    rw [hbus, producer_retireBus hdest, if_neg, hp]
    rintro ⟨-, -, hpe⟩
    rw [hp, htag] at hpe
    exact hs (by simp [hr]) (Option.some.inj hpe)

/-- Settles O17: the view after Issue has the entry, the tag and the fetch path, and neither Commit nor the
buses take them away. -/
theorem issueAllocates : Obligations.IssueAllocates := by
  unfold Obligations.IssueAllocates
  intro i s t hs hsound hc hi hexec hf hm tail
  obtain ⟨a, ha, hai, rfl⟩ := exec_issues hs hi hexec hf hm
  obtain ⟨hhi, hn, -⟩ := hi
  have hissued := issued_of_some s hai
  refine ⟨entry_tail hsound hc hn, ⟨_, committed_entry_tail ha hsound hc hai, ?_⟩, fun r hr hr0 => ?_,
    ?_, ?_, ?_⟩
  · exact afterBus_keeps _ _ _
  · refine committed_producer_of_survives ha hsound hc ?_ (tail_survives ha hsound hc hn)
    rw [hissued, issueInto_regs, producer_recordProducer, if_pos ⟨hr, hr0⟩]
    rfl
  · rw [committed_pc, hissued, issueInto_pc, nextFetch_pc]
  · rw [committed_ras, hissued, issueInto_bp, nextFetch_ras]
  · rw [committed_haltIssued, hissued, issueInto_haltIssued, hhi, Bool.false_or]

/-! ## Waiting -/

theorem cycle_fatal_offer {cause : FatalCause} {s t : State} (hs : s.running)
    (hb : s.issueBlocked = false) (h : cycle (.fatal cause) s = .next t) : t.fatal = true := by
  obtain ⟨hh, hf, hl, hw⟩ := hs
  rw [cycle_running hh hf hl hw] at h
  obtain rfl := Host.Outcome.next.inj h
  simp [afterCycle, phases, issuePhase, hb]

/-- Behind the halt marker, with a full buffer, or without room in the station, no act of Issue is in the
cycle (R124, R125). -/
theorem no_issue_of_waits {s t : State} (h : s.advancesUnflushed t)
    (hw : s.haltIssued = true ∨ s.rob.count = s.cfg.nRob ∨
      ∃ i, decodeWord (s.mem.readLE s.pc.toNat 4) = .ok i ∧ s.hasRoom (recordOf i).op = false) :
    ∃ a : Acts, validCommit s a.commit ∧ a.issue = none ∧ t = a.committed s := by
  obtain ⟨⟨hs, hstep, hf⟩, hm⟩ := h
  have hdone : ∀ o, step s = cycle o s →
      (∀ r, o = .instr r → s.issueBlocked = false → s.hasRoom r.op = false) →
      ∃ a : Acts, validCommit s a.commit ∧ a.issue = none ∧ t = a.committed s := by
    intro o ho hroom
    obtain ⟨a, va, rfl⟩ := cycle_unflushed hs (ho ▸ hstep) hf hm
    refine ⟨a, va.commit, ?_, rfl⟩
    have hv := va.issue
    cases hai : a.issue with
    | none => rfl
    | some r =>
      rw [hai] at hv
      obtain ⟨hor, hblocked, hr⟩ := hv
      rw [hroom r hor hblocked] at hr
      cases hr
  rcases step_cases s with ⟨-, ho⟩ | ⟨hb, -, ho⟩ | ⟨hb, -, -, ho⟩ | ⟨hb, -, i, hd, ho⟩
  · exact hdone _ ho fun r hr => by cases hr
  · rw [cycle_fatal_offer hs hb (ho ▸ hstep)] at hf
    cases hf
  · rw [cycle_fatal_offer hs hb (ho ▸ hstep)] at hf
    cases hf
  · refine hdone _ ho fun r hr _ => ?_
    obtain rfl := Offer.instr.inj hr
    rcases hw with hhi | hfull | ⟨j, hdj, hroom⟩
    · rw [(issueBlocked_iff s).2 (.inl hhi)] at hb
      cases hb
    · rw [(issueBlocked_iff s).2 (.inr hfull)] at hb
      cases hb
    · obtain rfl := Except.ok.inj (hd.symm.trans hdj)
      exact hroom

/-- The commit bus records no producer (R262). -/
theorem producer_of_regsCheckBus {cb : List CommitEntry} {rf : RegFile} {q : RegIdx} {p : Tag}
    (h : (regsCheckBus cb rf).producer q = some p) : rf.producer q = some p := by
  induction cb generalizing rf with
  | nil => exact h
  | cons b rest ih =>
    have hb := ih h
    rw [producer_acceptCommit] at hb
    split at hb
    · cases hb
    · exact hb

/-- A slot of the arithmetic station is occupied after a cycle only if it was in the view after Issue. -/
theorem of_committed_rsa {a : Acts} {s : State} {n : Nat} {e : RsEntry ArithKind}
    (h : (a.committed s).rsa[n]? = some (some e)) :
    ∃ e0, (a.issued s).rsa[n]? = some (some e0) ∧ e = e0.wake (a.resultBus s) a.commit.bus := by
  rw [committed_rsa, rsaCheckBus, List.getElem?_map] at h
  obtain ⟨y, hy, hye⟩ := Option.map_eq_some_iff.1 h
  obtain ⟨e0, rfl, rfl⟩ := Option.map_eq_some_iff.1 hye
  refine ⟨e0, ?_, rfl⟩
  unfold rsaAfter at hy
  split at hy
  · exact hy
  · rw [List.getElem?_set] at hy
    split at hy
    · split at hy
      · cases hy
      · cases hy
    · exact hy

/-- Settles O19: without an act of Issue the other acts only take away. -/
theorem issueWaits : Obligations.IssueWaits := by
  unfold Obligations.IssueWaits
  intro s t hadv hwaits
  obtain ⟨a, hcommit, hnone, rfl⟩ := no_issue_of_waits hadv hwaits
  have hissued := issued_of_none s hnone
  refine ⟨?_, ?_, ?_, fun r p hp => ?_, ?_, fun n hn => ?_, fun n e he => ?_, ?_⟩
  · rw [committed_pc, hissued]
  · rw [committed_ras, hissued]
  · rw [committed_haltIssued, hissued]
  · rw [committed_regs, producer_forceZero, hissued] at hp
    exact producer_of_regsCheckBus hp
  · rw [committed_robCount, hissued, pops_eq_retires hcommit]
  · rw [committed_entry, hissued, hn]
    simp
  · obtain ⟨e0, he0, rfl⟩ := of_committed_rsa he
    exact ⟨e0, hissued ▸ he0, rfl, rfl⟩
  · have htags : (a.committed s).rsm.map (fun e => (e.tag, e.op)) =
        (a.mem.rsmAfter s.rsm).map (fun e => (e.tag, e.op)) := by
      simp [committed_rsm, rsmCheckBus, hissued, Function.comp_def]
    rw [htags]
    exact (rsmAfter_sublist _ _).map _

end Sys2Proof.Proofs
end

section
/-! O18: what the two buses of a cycle carry, as the statements speak of it (`State.broadcast`), and what the
entry of this cycle hears of it (40_orchestrator_cycle.md R135, 42_reservation_stations.md R191 to R201). -/

namespace Sys2Proof.Proofs

-- One proof after the other, on one thread: each thread costs the check 256 MB of stack.
set_option Elab.async false

open Sys2Proof.Machine Sys2Proof.Laws

/-! ## What the stations choose -/

theorem rsaSelect_eq_some_iff (s : State) (n : Nat) (e : RsEntry ArithKind) :
    rsaSelect s.rsa = some (n, e) ↔ s.executesArith n e := by
  refine ⟨rsaSelect_some, fun ⟨he, hres, hfirst⟩ => ?_⟩
  cases hsel : rsaSelect s.rsa with
  | none =>
    rw [rsaSelect_none hsel n e he] at hres
    cases hres
  | some y =>
    obtain ⟨m, e'⟩ := y
    obtain ⟨he', hres', hfirst'⟩ := rsaSelect_some hsel
    rcases Nat.lt_trichotomy m n with hlt | rfl | hlt
    · rw [hfirst m hlt e' he'] at hres'
      cases hres'
    · rw [he] at he'
      cases he'
      rfl
    · rw [hfirst' n hlt e he] at hres
      cases hres

theorem loadScan_append {older younger : List (RsEntry MemKind)} {e : RsEntry MemKind} {k : LoadKind}
    (hold : ∀ x ∈ older, (∃ l, x.op = .load l) ∧ x.qj ≠ none) (hop : e.op = .load k) (hj : e.qj = none) :
    loadScan (older ++ e :: younger) = some e := by
  induction older with
  | nil => simp [loadScan, hop, hj]
  | cons x rest ih =>
    obtain ⟨⟨⟨l, hl⟩, hx⟩, hrest⟩ := List.forall_mem_cons.1 hold
    simp [loadScan, hl, hx, ih hrest]

/-- A load that the memory station dispatches is the one it selects (R198, R199). -/
theorem dispatchesLoad_iff (s : State) (k : LoadKind) (e : RsEntry MemKind) :
    s.dispatchesLoad k e ↔
      e.op = .load k ∧ s.lsb.q.length < s.cfg.nLsb ∧ rsmSelect s.rsm = some e := by
  constructor
  · rintro ⟨hop, hj, hroom, older, younger, hrsm, hold⟩
    refine ⟨hop, hroom, ?_⟩
    have hscan := loadScan_append (younger := younger) hold hop hj
    rw [← hrsm] at hscan
    cases hl : s.rsm with
    | nil => simp [hl] at hrsm
    | cons x rest =>
      rw [hl] at hscan
      unfold rsmSelect
      unfold loadScan at hscan
      cases hx : x.op with
      | store k' => simp [hx] at hscan
      | load k' => simpa [hx, loadScan] using hscan
  · rintro ⟨hop, hroom, hsel⟩
    rcases rsmSelect_some hsel with ⟨⟨k', hop'⟩, -⟩ | ⟨-, hj, hpos⟩
    · cases hop.symm.trans hop'
    · exact ⟨hop, hj, hroom, hpos⟩

theorem nearestStore_eq_some_iff (s : State) (w : Word) (n : Nat) (x : LsbEntry) :
    nearestStore s.lsb.q w n = some x ↔ s.nearestOverlap w n x := by
  refine ⟨nearestStore_some, fun ⟨older, younger, hq, hx, hyoung⟩ => ?_⟩
  rw [nearestStore, List.find?_eq_some_iff_append]
  exact ⟨hx, younger.reverse, older.reverse, by simp [hq],
    fun y hy => by simpa using hyoung y (List.mem_reverse.1 hy)⟩

theorem forwardsFrom_iff (s : State) (k : LoadKind) (w : Word) (x : LsbEntry) :
    forwardsFrom s.lsb.q k w x ↔ s.forwards k w x := by
  rw [forwardsFrom, nearestStore_eq_some_iff]
  simp [rangeCovers]

/-! ## The result bus -/

theorem mem_arithBus_iff {a : Acts} {s : State} (ha : a.taken s) (p : Tag) (v : Word) :
    ⟨p, v, true⟩ ∈ arithBus a.arith ↔
      ∃ n e, s.executesArith n e ∧ e.tag = p ∧ arithResult e = (v, true) := by
  simp only [← rsaSelect_eq_some_iff, ha.arith]
  cases a.arith with
  | none => simp [arithBus]
  | some y =>
    obtain ⟨n, e⟩ := y
    simp only [arithBus, List.mem_singleton, ResultEntry.mk.injEq, Option.some.injEq, Prod.mk.injEq]
    constructor
    · rintro ⟨rfl, hv, hwake⟩
      exact ⟨n, e, ⟨rfl, rfl⟩, rfl, Prod.ext hv.symm hwake.symm⟩
    · rintro ⟨_, _, ⟨rfl, rfl⟩, rfl, hres⟩
      simp [hres]

theorem mem_memBus_iff {a : Acts} {s : State} (ha : a.taken s) (p : Tag) (v : Word) :
    ⟨p, v, true⟩ ∈ a.mem.bus ↔
      ∃ k e x, s.dispatchesLoad k e ∧ e.tag = p ∧ s.forwards k (e.vj + e.imm) x ∧
        v = forwardValue k (e.vj + e.imm) x := by
  simp only [dispatchesLoad_iff, ← forwardsFrom_iff]
  have hv := ha.mem
  constructor
  · intro hb
    cases hm : a.mem with
    | forward k e x =>
      rw [hm] at hv hb
      obtain ⟨hsel, hroom, hop, hfw⟩ := hv
      simp only [MemAct.bus, List.mem_singleton, ResultEntry.mk.injEq, and_true] at hb
      obtain ⟨rfl, rfl⟩ := hb
      exact ⟨k, e, x, ⟨hop, hroom, hsel⟩, rfl, hfw, rfl⟩
    | _ => simp [hm, MemAct.bus] at hb
  · rintro ⟨k, e, x, ⟨hop, hroom, hsel⟩, rfl, hfw, rfl⟩
    have hd := dispatched_of_select hv hsel hroom
    cases hm : a.mem with
    | none => rw [hm] at hd; cases hd
    | store k' e' =>
      rw [hm] at hv hd
      cases hd
      obtain ⟨-, -, hop'⟩ := hv
      cases hop.symm.trans hop'
    | forward k' e' x' =>
      rw [hm] at hv hd
      cases hd
      obtain ⟨-, -, hop', hfw'⟩ := hv
      cases hop.symm.trans hop'
      cases hfw.1.symm.trans hfw'.1
      exact List.mem_singleton.2 rfl
    | queue k' e' =>
      rw [hm] at hv hd
      cases hd
      obtain ⟨-, -, hop', hno⟩ := hv
      cases hop.symm.trans hop'
      exact absurd hfw (hno x)

theorem mem_accessBus_iff {a : Acts} {s : State} (ha : a.taken s) (p : Tag) (v : Word) :
    ⟨p, v, true⟩ ∈ a.access.bus s.mem ↔
      ∃ k h, s.performing = some h ∧ h.op = .load k ∧ h.tag = p ∧
        v = loadExtend k (s.mem.readLE h.addr.toNat k.width) := by
  have hv := ha.access
  rw [← performed_eq_performing hv]
  cases hacc : a.access with
  | countdown => simp [AccessAct.bus, AccessAct.performed]
  | idle => simp [AccessAct.bus, AccessAct.performed]
  | write k x =>
    rw [hacc] at hv
    obtain ⟨-, hop, -⟩ := hv
    simp [AccessAct.bus, AccessAct.performed, hop]
  | read k x =>
    rw [hacc] at hv
    obtain ⟨-, hop, -⟩ := hv
    simp [AccessAct.bus, AccessAct.performed, hop, eq_comm]

/-- The waking entries of the result bus are what the statements call its broadcasts (R195, R225, R232). -/
theorem resultBroadcast_iff {a : Acts} {s : State} (ha : a.taken s) (p : Tag) (v : Word) :
    s.resultBroadcast p v ↔ ⟨p, v, true⟩ ∈ a.resultBus s := by
  rw [State.resultBroadcast, Acts.resultBus, List.mem_append, List.mem_append, mem_arithBus_iff ha,
    mem_memBus_iff ha, mem_accessBus_iff ha, or_assoc]

/-! ## The commit bus -/

/-- An entry with a destination goes to the commit bus with the value it commits (R168, R170, R171). -/
theorem retireBus_of_writes {e : RobEntry} (hno : e.op.noDest = false) :
    retireBus e = [⟨e.tag, e.committed, e.dest⟩] := by
  cases e with
  | mk pc tag op dest ready value target =>
    rcases op with (_ | _ | _ | _ | k | k | k | _) | (k | k) <;>
      simp_all [retireBus, RobEntry.committed, OpKind.group, OpKind.noDest]

theorem dest_of_mem_retireBus {e : RobEntry} (hd : e.dest = none) {b : CommitEntry}
    (hb : b ∈ retireBus e) : b.dest = none := by
  unfold retireBus at hb
  split at hb <;> simp_all

/-- The commit-bus entries with a destination are what the statements call its broadcasts (R200). -/
theorem commitBroadcast_iff {a : Acts} {s : State} (ha : a.taken s) (h : s.sound) (hc : s.consistent)
    (p : Tag) (v : Word) :
    s.commitBroadcast p v ↔ ∃ b ∈ a.commit.bus, b.tag = p ∧ b.dest.isSome = true ∧ b.value = v := by
  have hdest : ∀ e, s.committing = some e → (e.dest = none ↔ e.op.noDest = true) := fun e he => by
    obtain ⟨-, hentry⟩ := oldest_eq_some ((committing_eq_some_iff s e).1 he).1
    exact (entry_tag h hc hentry).2
  unfold State.commitBroadcast
  rcases commit_of_committing ha.commit with ⟨hcm, hact⟩ | ⟨e, hcm, hop, hact⟩ | ⟨e, hcm, -, hact⟩
  · simp [hcm, hact, CommitAct.bus, CommitAct.retired]
  · have hnone : e.dest = none := (hdest e hcm).2 (by rw [hop]; rfl)
    simp [hcm, hact, CommitAct.bus, CommitAct.retired, hnone]
  · have hbus : a.commit.bus = retireBus e := by simp [hact, CommitAct.bus, CommitAct.retired]
    rw [hbus, hcm]
    cases hd : e.dest with
    | none =>
      constructor
      · rintro ⟨_, he, -, hsome, -⟩
        cases he
        simp [hd] at hsome
      · rintro ⟨b, hb, -, hsome, -⟩
        simp [dest_of_mem_retireBus hd hb] at hsome
    | some r =>
      have hno : e.op.noDest = false := by
        rw [Bool.eq_false_iff, ne_eq, ← hdest e hcm, hd]
        exact Option.some_ne_none r
      simp only [retireBus_of_writes hno, List.mem_singleton, Option.some.injEq, exists_eq_left,
        exists_eq_left', eq_comm (a := v)]

/-! ## One value per tag -/

theorem entry_of_waiting {s : State} (ho : s.owned) {p : Tag} (hp : p ∈ waitingTags s) :
    ∃ x, s.rob.entry p = some x ∧ x.ready = false := by
  obtain ⟨-, hrsa, hrsm, hlsb⟩ := ho
  rcases List.mem_append.1 hp with hp | hp
  · rcases List.mem_append.1 hp with hp | hp
    · obtain ⟨y, hy, hyp⟩ := List.mem_filterMap.1 hp
      obtain ⟨e, rfl, rfl⟩ := Option.map_eq_some_iff.1 hyp
      obtain ⟨x, hx, hr, -⟩ := hrsa _ hy e rfl
      exact ⟨x, hx, hr⟩
    · obtain ⟨e, he, rfl⟩ := List.mem_map.1 hp
      obtain ⟨x, hx, hr, -⟩ := hrsm e he
      exact ⟨x, hx, hr⟩
  · obtain ⟨e, he, rfl⟩ := List.mem_map.1 hp
    obtain ⟨he, hl⟩ := List.mem_filter.1 he
    have hload : e.isStore = false := by simpa using hl
    obtain ⟨x, hx, -, hr⟩ := hlsb e he (by simp [committedStore_eq, hload])
    exact ⟨x, hx, hr.trans hload⟩

/-- The result bus carries a tag once (R31, R251). -/
theorem nodup_resultBus_tags {a : Acts} {s : State} (ha : a.taken s) (ho : (a.issued s).owned) :
    ((a.resultBus s).map (·.tag)).Nodup := by
  rw [List.nodup_iff_count_le_one]
  intro p
  have hold := List.nodup_iff_count_le_one.1 ho.1 p
  have hlaw := count_waitingTags ha p
  rw [count_holders] at hold
  omega

/-- The entry of a tag on the result bus is not ready before (R172). -/
theorem entry_of_mem_resultBus {a : Acts} {s : State} (ha : a.taken s) (ho : (a.issued s).owned)
    {b : ResultEntry} (hb : b ∈ a.resultBus s) :
    ∃ x, (a.issued s).rob.entry b.tag = some x ∧ x.ready = false := by
  refine entry_of_waiting ho (List.count_pos_iff.1 ?_)
  have hlaw := count_waitingTags ha b.tag
  have hpos : 0 < ((a.resultBus s).map (·.tag)).count b.tag :=
    List.count_pos_iff.2 (List.mem_map.2 ⟨b, hb, rfl⟩)
  omega

/-- A tag is never on both buses: its entry is not ready, or commits. -/
theorem not_result_and_commit {a : Acts} {s : State} (ha : a.taken s) (hs : s.inv) {p : Tag} {v v' : Word}
    (hr : s.resultBroadcast p v) (hcm : s.commitBroadcast p v') : False := by
  obtain ⟨h, hc, ho⟩ := hs
  obtain ⟨x, hx, hunready⟩ :=
    entry_of_mem_resultBus ha (issued_owned ha h hc ho) ((resultBroadcast_iff ha p v).1 hr)
  obtain ⟨e, he, rfl, -⟩ := hcm
  obtain ⟨hold, hready⟩ := (committing_eq_some_iff s e).1 he
  obtain ⟨-, hentry⟩ := oldest_eq_some hold
  rw [(entry_tag h hc hentry).1, issued_entry_of_some ha h hc hentry] at hx
  cases hx
  rw [hready] at hunready
  cases hunready

/-- What is broadcast for a tag in one cycle is one value. -/
theorem broadcast_unique {a : Acts} {s : State} (ha : a.taken s) (hs : s.inv) {p : Tag} {v v' : Word}
    (hv : s.broadcast p v) (hv' : s.broadcast p v') : v = v' := by
  rcases hv with hr | hcm <;> rcases hv' with hr' | hcm'
  · obtain ⟨h, hc, ho⟩ := hs
    have hnodup := nodup_resultBus_tags ha (issued_owned ha h hc ho)
    have heq := List.inj_on_of_nodup_map hnodup ((resultBroadcast_iff ha p v).1 hr)
      ((resultBroadcast_iff ha p v').1 hr') rfl
    cases heq
    rfl
  · exact (not_result_and_commit ha hs hr hcm').elim
  · exact (not_result_and_commit ha hs hr' hcm).elim
  · obtain ⟨e, he, -, -, rfl⟩ := hcm
    obtain ⟨e', he', -, -, rfl⟩ := hcm'
    cases he.symm.trans he'
    rfl

/-! ## Operands -/

/-- An operand that waits for `p` waits through the buses of the cycle (R200, R201). -/
theorem wakeOperand_waitsThrough {a : Acts} {s : State} (ha : a.taken s) (hs : s.inv) (v : Word) (p : Tag) :
    s.waitsThrough p (wakeOperand (a.resultBus s) a.commit.bus v (some p)).1
      (wakeOperand (a.resultBus s) a.commit.bus v (some p)).2 := by
  obtain ⟨h, hc, -⟩ := id hs
  rcases wakeOperand_some (a.resultBus s) a.commit.bus v p with
    ⟨b, hb, htag, hwake, heq⟩ | ⟨hrb, ⟨b, hb, htag, hdest, heq⟩ | ⟨hcb, heq⟩⟩
  · have hbc : s.broadcast p b.value := by
      refine .inl ((resultBroadcast_iff ha p b.value).2 ?_)
      rwa [← htag, ← hwake]
    rw [heq]
    exact ⟨fun x hx => ⟨rfl, broadcast_unique ha hs hbc hx⟩, fun hno => absurd hbc (hno _)⟩
  · have hbc : s.broadcast p b.value :=
      .inr ((commitBroadcast_iff ha h hc p b.value).2 ⟨b, hb, htag, hdest, rfl⟩)
    rw [heq]
    exact ⟨fun x hx => ⟨rfl, broadcast_unique ha hs hbc hx⟩, fun hno => absurd hbc (hno _)⟩
  · rw [heq]
    refine ⟨fun x hx => ?_, fun _ => rfl⟩
    rcases hx with hr | hcm
    · cases hrb _ ((resultBroadcast_iff ha p x).1 hr) rfl
    · obtain ⟨b, hb, htag, hdest, -⟩ := (commitBroadcast_iff ha h hc p x).1 hcm
      rw [hcb b hb htag] at hdest
      cases hdest

/-- A source register read at issue is captured as the rules give it (R191). -/
theorem readOperand_captures {a : Acts} {s : State} (ha : a.taken s) (hs : s.inv) (r : Option RegIdx) :
    s.captures r
      (wakeOperand (a.resultBus s) a.commit.bus (readOperand s.regs r).1 (readOperand s.regs r).2).1
      (wakeOperand (a.resultBus s) a.commit.bus (readOperand s.regs r).1 (readOperand s.regs r).2).2 := by
  unfold State.captures readOperand
  cases r with
  | none => exact ⟨rfl, rfl⟩
  | some r =>
    by_cases hr : r = 0
    · simp [hr]
    · cases hp : s.regs.producer r with
      | none => simp [hr, hp]
      | some p => simpa [hr, hp] using wakeOperand_waitsThrough ha hs 0 p

/-! ## The new entry -/

/-- The new entry of the arithmetic station stands in the first free slot, which nothing executes from. -/
theorem committed_rsa_new {a : Acts} {s : State} (ha : a.taken s) {r : Record} (hi : a.issue = some r)
    {k : ArithKind} (hop : r.op = .arith k) {n : Nat} (hn : firstFree s.rsa = some n) :
    (a.committed s).rsa[n]? =
      some (some ((arithEntry k r (s.rob.tail s.cfg) s.regs s.pc).wake (a.resultBus s) a.commit.bus)) := by
  obtain ⟨hfree, -⟩ := firstFree_some hn
  have hlt : n < s.rsa.length := (List.getElem?_eq_some_iff.1 hfree).1
  have hissued : (a.issued s).rsa =
      s.rsa.set n (some (arithEntry k r (s.rob.tail s.cfg) s.regs s.pc)) := by
    simp [issued_of_some s hi, stationIssue, hop, rsaIssue, hn]
  have hafter : (rsaAfter a.arith (a.issued s).rsa)[n]? =
      some (some (arithEntry k r (s.rob.tail s.cfg) s.regs s.pc)) := by
    rw [hissued]
    cases harith : a.arith with
    | none => simp [rsaAfter, hlt]
    | some y =>
      obtain ⟨m, e⟩ := y
      obtain ⟨hexec, -⟩ := rsaSelect_some (ha.arith.trans harith)
      have hne : m ≠ n := by
        rintro rfl
        rw [hfree] at hexec
        cases hexec
      rw [rsaAfter, List.getElem?_set_ne hne, List.getElem?_set_self hlt]
  rw [committed_rsa, rsaCheckBus, List.getElem?_map, hafter]
  rfl

/-- What the memory station dispatches stood in it before (R197, R198). -/
theorem dispatched_mem_rsm {a : Acts} {s : State} (ha : a.taken s) {e : RsEntry MemKind}
    (h : a.mem.dispatched = some e) : e ∈ s.rsm := by
  have hsel : rsmSelect s.rsm = some e := by
    have hv := ha.mem
    cases hm : a.mem <;> rw [hm] at h hv <;> cases h <;> exact hv.1
  rcases rsmSelect_some hsel with ⟨-, -, rest, hrest⟩ | ⟨-, -, older, younger, hrest, -⟩
  · simp [hrest]
  · simp [hrest]

/-- The new entry of the memory station stands at its young end, and is not the one dispatched. -/
theorem committed_rsm_new {a : Acts} {s : State} (ha : a.taken s) {r : Record} (hi : a.issue = some r)
    {k : MemKind} (hop : r.op = .mem k) :
    (a.committed s).rsm.getLast? =
      some ((memEntry k r (s.rob.tail s.cfg) s.regs s.pc).wake (a.resultBus s) a.commit.bus) := by
  have hissued : (a.issued s).rsm = s.rsm ++ [memEntry k r (s.rob.tail s.cfg) s.regs s.pc] := by
    simp [issued_of_some s hi, stationIssue, hop, rsmIssue]
  obtain ⟨kept, hkept⟩ : ∃ kept, a.mem.rsmAfter (a.issued s).rsm =
      kept ++ [memEntry k r (s.rob.tail s.cfg) s.regs s.pc] := by
    rw [hissued]
    unfold MemAct.rsmAfter
    split
    · exact ⟨s.rsm, rfl⟩
    · rename_i e hd
      exact ⟨rsmRemove s.rsm e.tag, List.eraseP_append_left (by simp) _ (dispatched_mem_rsm ha hd)⟩
  simp [committed_rsm, rsmCheckBus, hkept]

/-- Settles O18: the entry Issue makes hears the buses of its own cycle as every other entry does. -/
theorem issueCapturesOperands : Obligations.IssueCapturesOperands := by
  unfold Obligations.IssueCapturesOperands
  intro i s t hs hinv hi hexec hf hm
  obtain ⟨a, ha, hai, rfl⟩ := exec_issues hs hi hexec hf hm
  obtain ⟨-, hroom, -⟩ := ha.issue _ hai
  cases hop : (recordOf i).op with
  | arith k =>
    rw [hop] at hroom
    obtain ⟨n, hn⟩ := Option.isSome_iff_exists.1 hroom
    obtain ⟨hfree, hfirst⟩ := firstFree_some hn
    exact ⟨n, _, hfree, hfirst, committed_rsa_new ha hai hop hn, rfl, rfl, rfl, rfl,
      readOperand_captures ha hinv _, readOperand_captures ha hinv _⟩
  | mem k =>
    exact ⟨_, committed_rsm_new ha hai hop, rfl, rfl, rfl, readOperand_captures ha hinv _,
      readOperand_captures ha hinv _⟩

end Sys2Proof.Proofs
end

section
/-! O31: an instruction with the halt marker behind it, followed from the idle machine that issues it to its
completion: no cycle on the way is stopped by a fatal condition (40_orchestrator_cycle.md R147, R149,
44_buses_regfile_predictor.md R255, 60_exceptions.md R404). -/

namespace Sys2Proof.Proofs

-- One proof after the other, on one thread: each thread costs the check 256 MB of stack.
set_option Elab.async false

open Sys2Proof.Machine Sys2Proof.Laws

/-! ## What can stop a cycle (R404) -/

theorem length_arithBus_le (a : Option (Nat × RsEntry ArithKind)) : (arithBus a).length ≤ 1 := by
  unfold arithBus
  split <;> simp

theorem length_memBus_le (a : MemAct) : a.bus.length ≤ 1 := by
  unfold MemAct.bus
  split <;> simp

/-- With three slots on the result bus only two things stop a cycle: the offer to Issue, or the access that
the memory port performs (R255, R404). -/
theorem phases_error_cases {o : Offer} {s : State} {f : FatalStop} (hl : s.cfg.legal = true)
    (hrb : 3 ≤ s.cfg.rbCap) (h : phases o s = .error f) :
    (∃ cause, o = .fatal cause ∧ s.issueBlocked = false ∧ f.cause = cause) ∨
      ∃ x, s.performing = some x ∧ inRange s.cfg x.addr x.op.width = false ∧ f.cause = .mem := by
  have hcb : 1 ≤ s.cfg.cbCap := by
    simp only [Config.legal, Bool.and_eq_true, decide_eq_true_eq] at hl
    omega
  rcases phases_error h with h | ⟨c1, h1, h⟩
  · obtain ⟨cause, ho, hblocked, rfl⟩ := issuePhase_error h
    exact .inl ⟨cause, ho, hblocked, rfl⟩
  · right
    obtain ⟨ai, -, rfl⟩ := issuePhase_acts h1
    have harith := length_arithBus_le (rsaSelect s.rsa)
    rcases h with h | ⟨c2, h2, h⟩
    · rcases executePhase_error h with h | ⟨c2, h2, h⟩
      · obtain ⟨hfull, -⟩ := rsaExecute_error h
        simp at hfull
        omega
      · obtain rfl := rsaExecute_acts h2
        obtain ⟨hfull, -⟩ := rsmExecute_error h
        simp [applyArith_rb] at hfull
        omega
    · obtain ⟨c2', h2, h2'⟩ := executePhase_ok h2
      obtain rfl := rsaExecute_acts h2
      obtain ⟨am, -, rfl⟩ := rsmExecute_acts h2'
      have hmem := length_memBus_le am
      rcases h with h | ⟨c3, h3, h⟩
      · obtain ⟨x, rest, hc, hq, hr, ⟨hout, rfl⟩ | ⟨-, hfull, -⟩⟩ := tryLoadStore_error h
        · exact ⟨x, performing_of_head hc hq hr, by simpa using hout, rfl⟩
        · simp [applyArith_rb, applyMem_rb] at hfull
          omega
      · obtain ⟨aa, -, rfl⟩ := tryLoadStore_acts (by simp) h3
        obtain ⟨hfull, -⟩ := commitPhase_error h
        simp at hfull
        omega

/-! ## The halt marker at the fetch address -/

/-- Issue is behind the halt marker, or the marker is what it fetches. -/
def fetchesOnlyHalt (u : State) : Prop :=
  u.haltIssued = true ∨
    u.pc.toNat + 4 ≤ u.cfg.memSize ∧ u.mem.readLE u.pc.toNat 4 = 0x0ff00513#32

/-- A step that fetches at most the halt marker offers Issue nothing else (R124, R149). -/
theorem step_of_fetchesOnlyHalt {u : State} (h : fetchesOnlyHalt u) :
    ∃ o, step u = cycle o u ∧ (o = .none ∨ o = .instr (recordOf .halt)) := by
  cases hb : u.issueBlocked with
  | true => exact ⟨_, step_blocked hb, .inl rfl⟩
  | false =>
    rcases h with hhi | ⟨hr, hw⟩
    · rw [(issueBlocked_iff u).2 (.inl hhi)] at hb
      cases hb
    · exact ⟨_, step_decoded hb (inRange_eq_true hr) (hw ▸ decodeWord_marker), .inr rfl⟩

/-- Issue keeps it so, as long as the backing store stays: the marker is issued, or the pc waits (R149). -/
theorem committed_fetchesOnlyHalt {u : State} {a : Acts} (h : fetchesOnlyHalt u)
    (hi : ∀ r, a.issue = some r → r = recordOf .halt) (hmem : a.access.memAfter u.mem = u.mem) :
    fetchesOnlyHalt (a.committed u) := by
  unfold fetchesOnlyHalt
  rw [committed_haltIssued, committed_pc, committed_cfg, committed_mem, hmem]
  cases hai : a.issue with
  | none => rwa [issued_of_none u hai]
  | some r =>
    obtain rfl := hi r hai
    left
    rw [issued_of_some u hai, issueInto_haltIssued]
    simp [recordOf, recordHalt]

/-! ## Accesses in range -/

/-- Every access in flight is in range: of the load-store buffer, and of the memory station, whose entries
wait for nothing. -/
structure AccessesInRange (u : State) : Prop where
  buffer : ∀ x ∈ u.lsb.q, inRange u.cfg x.addr x.op.width = true
  station : ∀ e ∈ u.rsm, e.qj = none ∧ e.qk = none ∧
    inRange u.cfg (effectiveAddress e.vj e.imm) e.op.width = true

theorem performing_mem {u : State} {x : LsbEntry} (h : u.performing = some x) : x ∈ u.lsb.q := by
  unfold State.performing at h
  split at h
  · cases h
  · split at h
    · cases h
    · rename_i y rest hq
      rw [hq]
      split at h
      · cases h
        exact List.mem_cons_self
      · cases h

/-- An entry that waits for nothing hears nothing (R200). -/
theorem wake_of_resolved {κ : Type} (rb : List ResultEntry) (cb : List CommitEntry) {e : RsEntry κ}
    (hj : e.qj = none) (hk : e.qk = none) : e.wake rb cb = e := by
  cases e
  cases hj
  cases hk
  rfl

theorem addr_of_mem_queued {a : MemAct} {x : LsbEntry} (hx : x ∈ a.queued) :
    ∃ e, a.dispatched = some e ∧ x.addr = effectiveAddress e.vj e.imm := by
  cases a with
  | none => cases hx
  | store k e => exact ⟨e, rfl, by rw [List.mem_singleton.1 hx]; rfl⟩
  | forward k e y => cases hx
  | queue k e => exact ⟨e, rfl, by rw [List.mem_singleton.1 hx]; rfl⟩

/-- While Issue adds only the halt marker, the accesses in flight stay the same ones. -/
theorem committed_accessesInRange {u : State} {a : Acts} (h : AccessesInRange u) (ha : a.taken u)
    (hi : ∀ r, a.issue = some r → r = recordOf .halt) : AccessesInRange (a.committed u) := by
  have hrsm : (a.issued u).rsm = u.rsm := by
    cases hai : a.issue with
    | none => rw [issued_of_none u hai]
    | some r =>
      obtain rfl := hi r hai
      rw [issued_of_some u hai]
      rfl
  refine ⟨fun x hx => ?_, fun e he => ?_⟩
  · obtain ⟨x0, rfl, hx0⟩ := of_mem_committed_q hx
    obtain ⟨hop, haddr, -⟩ := markReady_keeps a.commit.bus x0
    rw [committed_cfg, hop, haddr]
    rcases hx0 with hx0 | hx0
    · exact h.buffer x0 hx0
    · obtain ⟨e, hd, haddr⟩ := addr_of_mem_queued hx0
      obtain ⟨e', hd', -, hop, -⟩ := of_mem_queued ha hx0
      cases hd.symm.trans hd'
      obtain ⟨-, -, hin⟩ := h.station e (dispatched_mem_rsm ha hd)
      rwa [haddr, hop]
  · obtain ⟨e0, he0, rfl⟩ := of_mem_committed_rsm he
    rw [hrsm] at he0
    obtain ⟨hj, hk, hin⟩ := h.station e0 he0
    rw [committed_cfg, wake_of_resolved _ _ hj hk]
    exact ⟨hj, hk, hin⟩

/-! ## The cycles behind the instruction -/

/-- A running machine in which nothing can stop the next cycle. -/
structure OnlyHaltBehind (u : State) : Prop where
  running : u.running
  capacity : 3 ≤ u.cfg.rbCap
  fetch : fetchesOnlyHalt u
  accesses : AccessesInRange u

theorem OnlyHaltBehind.step {u : State} (h : OnlyHaltBehind u) :
    ∃ a : Acts, a.taken u ∧ (∀ r, a.issue = some r → r = recordOf .halt) ∧
      step u = .next (endOfCycle u (a.run u)) := by
  obtain ⟨o, ho, hoffer⟩ := step_of_fetchesOnlyHalt h.fetch
  obtain ⟨hh, hf, hl, hw⟩ := h.running
  rw [ho, cycle_running hh hf hl hw]
  rcases afterCycle_cases o u with ⟨f, herr, -⟩ | ⟨c, hok, ht⟩
  · rcases phases_error_cases hl h.capacity herr with ⟨cause, hfatal, -⟩ | ⟨x, hx, hout, -⟩
    · rcases hoffer with rfl | rfl <;> cases hfatal
    · rw [h.accesses.buffer x (performing_mem hx)] at hout
      cases hout
  · obtain ⟨a, va, rfl⟩ := phases_acts hok
    have hinstr : ∀ r, o = .instr r → r = recordOf .halt := fun r hr => by
      rcases hoffer with rfl | rfl
      · cases hr
      · exact (Offer.instr.inj hr).symm
    refine ⟨a, taken_of_valid h.running va fun r hr => ⟨.halt, hinstr r hr⟩, fun r hr => ?_,
      congrArg _ ht⟩
    have hv := va.issue
    rw [hr] at hv
    exact hinstr r hv.1

/-- The next cycle is not stopped, and the run ends with it. -/
theorem OnlyHaltBehind.run_one {u : State} (h : OnlyHaltBehind u) :
    ∃ w, Host.Core.run Sys2Proof.core 1 u = .next w ∧ w.fatal = false := by
  obtain ⟨a, -, -, hstep⟩ := h.step
  obtain ⟨-, hf, -⟩ := h.running
  exact ⟨_, run_succ hstep 0, endOfCycle_run_fatal hf a⟩

/-- A cycle that neither writes the backing store, nor flushes, nor halts can be followed by another. -/
theorem OnlyHaltBehind.next {u : State} (h : OnlyHaltBehind u) {a : Acts} (ha : a.taken u)
    (hi : ∀ r, a.issue = some r → r = recordOf .halt) (hmem : a.access.memAfter u.mem = u.mem)
    (hcm : a.commit ≠ .halt) : OnlyHaltBehind (a.committed u) := by
  obtain ⟨hh, hf, hl, -⟩ := h.running
  refine ⟨⟨?_, ?_, by rwa [committed_cfg], committed_wellSized ha⟩, by rw [committed_cfg]; exact h.capacity,
    committed_fetchesOnlyHalt h.fetch hi hmem, committed_accessesInRange h.accesses ha hi⟩
  · cases hact : a.commit with
    | halt => exact absurd hact hcm
    | _ => simpa [Acts.committed, Acts.run, hact, applyCommit] using hh
  · simpa [Acts.committed, Acts.run] using hf

/-- Only a ready store at the head of the buffer writes the backing store (R230). -/
theorem memAfter_of_no_ready_store {u : State} {a : AccessAct} (ha : validAccess u a)
    (h : ∀ x ∈ u.lsb.q, x.isStore = true → x.ready = false) : a.memAfter u.mem = u.mem := by
  cases a with
  | write k x =>
    obtain ⟨-, hop, hr, -, rest, hq⟩ := ha
    have hx := h x (by simp [hq]) ((isStore_iff x).2 ⟨k, hop⟩)
    rw [hr] at hx
    cases hx
  | _ => rfl

/-! ## The instruction at the head of the reorder buffer -/

/-- A cycle whose commit does nothing ends without a flush. -/
theorem endOfCycle_of_commit_none {u : State} {a : Acts} (hcm : a.commit = .none) :
    endOfCycle u (a.run u) = a.committed u := endOfCycle_of_quiet (.inl hcm)

/-- The oldest entry is still the oldest after a cycle that commits nothing. -/
theorem committed_oldest_op {u : State} {a : Acts} (ha : a.taken u) (hcm : a.commit = .none)
    {x : RobEntry} (hx : u.rob.oldest = some x) :
    ∃ y, (a.committed u).rob.oldest = some y ∧ y.op = x.op := by
  obtain ⟨hpos, hentry⟩ := oldest_eq_some hx
  have hcount : (a.committed u).rob.count ≠ 0 := by
    rw [committed_robCount]
    cases hai : a.issue with
    | none => simp [issued_of_none u hai, Acts.pops, hcm, CommitAct.retired]; omega
    | some r => simp [issued_of_some u hai, Acts.pops, hcm, CommitAct.retired, Rob.issue]
  have hhead : (a.committed u).rob.head = u.rob.head := by
    simp [committed_head, hcm, CommitAct.retired]
  have hafter : (a.committed u).rob.entry u.rob.head =
      some (RobEntry.afterBus (a.resultBus u) u.rob.head x) := by
    rw [committed_entry, issued_entry_head ha hpos, hentry]
    simp [hcm, CommitAct.retired]
  exact ⟨_, by rw [Rob.oldest, if_neg hcount, hhead, hafter], afterBus_op _ _ _⟩

/-- A load or a store at the head neither halts the machine nor flushes (R165, R169, R170). -/
theorem endOfCycle_of_oldest_mem {u : State} {a : Acts} (ha : a.taken u) {x : RobEntry} {k : MemKind}
    (hx : u.rob.oldest = some x) (hop : x.op = .mem k) :
    a.commit ≠ .halt ∧ endOfCycle u (a.run u) = a.committed u := by
  have hcommitting : ∀ e, u.committing = some e → e.op = .mem k := fun e he => by
    obtain ⟨hold, -⟩ := (committing_eq_some_iff u e).1 he
    cases hold.symm.trans hx
    exact hop
  refine ⟨fun hhalt => ?_, endOfCycle_none ?_⟩
  · rcases commit_of_committing ha.commit with ⟨-, hact⟩ | ⟨e, hc, hop', -⟩ | ⟨e, -, -, hact⟩
    · rw [hact] at hhalt; cases hhalt
    · rw [hcommitting e hc] at hop'; cases hop'
    · rw [hact] at hhalt; cases hhalt
  · rw [run_flushReq_eq_mispredicts ha.commit, State.mispredicts]
    cases hc : u.committing with
    | none => rfl
    | some e => simp [hcommitting e hc, OpKind.checked]

/-! ## From the idle machine -/

theorem issued_oldest {s : State} (hs : s.idle) (i : Instr) :
    (s.issued i).rob.oldest = some (newRobEntry (recordOf i) s.rob.head s.pc) := by
  obtain ⟨⟨-, -, -, hw⟩, -⟩ := hs
  obtain ⟨hslots, hhead, -⟩ := (wellSized_iff s).1 hw
  simp [State.issued, Rob.oldest, Rob.entry, hslots, hhead, newRobEntry]

/-- The only access in flight is the one of the instruction issued (R192). -/
theorem issued_accessesInRange {s : State} (hs : s.idle) {i : Instr}
    (hin : ∀ k, (recordOf i).op = .mem k →
      (s.source (recordOf i).rs1 + (recordOf i).imm).toNat + k.width ≤ s.cfg.memSize) :
    AccessesInRange (s.issued i) := by
  obtain ⟨-, -, -, -, -, -, hq, -⟩ := hs
  refine ⟨fun x hx => ?_, fun e he => ?_⟩
  · change x ∈ s.lsb.q at hx
    rw [hq] at hx
    cases hx
  · cases hop : (recordOf i).op with
    | arith k => simp [State.issued, hop] at he
    | mem k =>
      simp only [State.issued, hop, List.mem_singleton] at he
      subst he
      exact ⟨rfl, rfl, inRange_eq_true (hin k hop)⟩

theorem issued_onlyHaltBehind {s : State} (hs : s.idle) {i : Instr} (hrb : 3 ≤ s.cfg.rbCap)
    (hpc : (s.fetchesAfter i).toNat + 4 ≤ s.cfg.memSize)
    (hw : s.mem.readLE (s.fetchesAfter i).toNat 4 = 0x0ff00513#32)
    (hin : ∀ k, (recordOf i).op = .mem k →
      (s.source (recordOf i).rs1 + (recordOf i).imm).toNat + k.width ≤ s.cfg.memSize) :
    OnlyHaltBehind (s.issued i) :=
  ⟨(issued_underway hs i).running, hrb, .inr ⟨hpc, hw⟩, issued_accessesInRange hs hin⟩

/-- The cycle after the issue commits nothing and accesses nothing. -/
theorem issued_next {s : State} (hs : s.idle) {i : Instr} (h : OnlyHaltBehind (s.issued i)) :
    ∃ a : Acts, a.taken (s.issued i) ∧ step (s.issued i) = .next (a.committed (s.issued i)) ∧
      a.commit = .none ∧ OnlyHaltBehind (a.committed (s.issued i)) ∧
      ∀ x ∈ (a.committed (s.issued i)).lsb.q, x.isStore = true → x.ready = false := by
  obtain ⟨a, ha, hi, hstep⟩ := h.step
  have hcm := commit_none ha (issued_oldest hs i) rfl
  obtain ⟨-, -, -, -, -, -, hq, -⟩ := hs
  have hempty : (s.issued i).lsb.q = [] := hq
  have hmem : a.access.memAfter (s.issued i).mem = (s.issued i).mem :=
    memAfter_of_no_ready_store ha.access (by simp [hempty])
  rw [endOfCycle_of_commit_none hcm] at hstep
  refine ⟨a, ha, hstep, hcm, h.next ha hi hmem (by simp [hcm]), fun x hx hstore => ?_⟩
  obtain ⟨x0, rfl, hx0⟩ := of_mem_committed_q hx
  rw [markReady_isStore] at hstore
  have hready : (x0.markReady a.commit.bus).ready = x0.ready := by
    simp [hcm, CommitAct.bus, CommitAct.retired, markReady_nil]
  rw [hempty] at hx0
  rcases hx0 with hx0 | hx0
  · cases hx0
  · obtain ⟨e, -, -, -, ⟨k, -, rfl⟩ | hload⟩ := of_mem_queued ha hx0
    · exact hready
    · rw [hstore] at hload
      cases hload

/-- The cycle in which a store may commit or a load be performed can be followed by the one that performs
the store. -/
theorem issued_mem_next {s : State} (hs : s.idle) {i : Instr} {k : MemKind}
    (hop : (recordOf i).op = .mem k) (h : OnlyHaltBehind (s.issued i)) :
    ∃ u v, step (s.issued i) = .next u ∧ step u = .next v ∧ OnlyHaltBehind v := by
  obtain ⟨a, ha, hstep, hcm, hnext, hunready⟩ := issued_next hs h
  obtain ⟨y, hy, hyop⟩ := committed_oldest_op ha hcm (issued_oldest hs i)
  obtain ⟨b, hb, hi, hstep'⟩ := hnext.step
  obtain ⟨hnohalt, hend⟩ := endOfCycle_of_oldest_mem hb hy (hyop.trans hop)
  rw [hend] at hstep'
  exact ⟨_, _, hstep, hstep',
    hnext.next hb hi (memAfter_of_no_ready_store hb.access hunready) hnohalt⟩

/-- Settles O31: nothing but the halt marker is fetched, so that no offer to Issue, no bus and no access stops
a cycle before the instruction has completed. -/
theorem completionIsReached : Obligations.CompletionIsReached := by
  unfold Obligations.CompletionIsReached
  intro s i hs hrb hpc hw hin n
  refine ⟨exec_idle hs i, ?_⟩
  have h := issued_onlyHaltBehind hs hrb hpc hw hin
  cases hop : (recordOf i).op with
  | arith k =>
    have hn : n = 2 := by simp only [n, hop]
    obtain ⟨a, -, hstep, -, hnext, -⟩ := issued_next hs h
    rw [hn, run_succ hstep 1]
    exact hnext.run_one
  | mem k =>
    have hn : n = 3 := by simp only [n, hop]
    obtain ⟨u, v, hstep, hstep', hnext⟩ := issued_mem_next hs hop h
    rw [hn, run_succ hstep 2, run_succ hstep' 1]
    exact hnext.run_one

end Sys2Proof.Proofs
end

section
/-! O41, O47, O48: what a cycle leaves of the reorder buffer and of the load-store buffer: the halt at its
marker, the one entry that leaves from the head, the store that the commit marks ready
(41_reorder_buffer.md R163 to R167, 43_load_store_buffer.md R228, R230). -/

namespace Sys2Proof.Proofs

-- One proof after the other, on one thread: each thread costs the check 256 MB of stack.
set_option Elab.async false

open Sys2Proof.Machine Sys2Proof.Laws

/-! ## The acts of a cycle that goes on -/

/-- A cycle that no fatal condition stops is the acts it takes (R120, R139). -/
theorem acts_of_advances {s t : State} (h : s.advances t) :
    ∃ a : Acts, a.taken s ∧ t = endOfCycle s (a.run s) := by
  obtain ⟨hs, hstep, hf⟩ := h
  obtain ⟨t', hstep', hcases⟩ := step_running hs
  obtain rfl := Host.Outcome.next.inj (hstep'.symm.trans hstep)
  rcases hcases with ⟨cause, rfl⟩ | hacts
  · cases hf
  · exact hacts

theorem acts_of_advancesUnflushed {s t : State} (h : s.advancesUnflushed t) :
    ∃ a : Acts, a.taken s ∧ t = a.committed s := by
  obtain ⟨hadv, hm⟩ := h
  obtain ⟨a, ha, rfl⟩ := acts_of_advances hadv
  exact ⟨a, ha, endOfCycle_none ((run_flushReq_eq_mispredicts ha.commit).trans hm)⟩

/-! ## The halt (R143, R165) -/

theorem endOfCycle_halted (s : State) (c : Cycle) : (endOfCycle s c).halted = c.next.halted := by
  unfold endOfCycle
  split <;> rfl

theorem run_halted_iff {a : Acts} {s : State} (hs : s.halted = false) :
    (a.run s).next.halted = true ↔ a.commit = .halt := by
  cases hcm : a.commit <;> simp [Acts.run, hcm, applyCommit, hs]

theorem commit_eq_halt_iff {s : State} {a : CommitAct} (ha : validCommit s a) :
    a = .halt ↔ ∃ e, s.committing = some e ∧ e.op = .arith .halt := by
  rcases commit_of_committing ha with ⟨hc, rfl⟩ | ⟨e, hc, hop, rfl⟩ | ⟨e, hc, hop, rfl⟩
  · simp [hc]
  · simp [hc, hop]
  · simp [hc, hop]

/-- The commit of the halt marker flushes nothing. -/
theorem endOfCycle_of_halt {a : Acts} {s : State} (hcm : a.commit = .halt) :
    endOfCycle s (a.run s) = a.committed s :=
  endOfCycle_none (by rw [run_flushReq, hcm]; rfl)

theorem committed_exitValue_of_halt {a : Acts} {s : State} (hcm : a.commit = .halt) :
    (a.committed s).exitValue = (s.regs.value 10).extractLsb' 0 8 := by
  have hset : (a.committed s).exitValue = (s.regs.value 10).setWidth 8 := by
    simp [Acts.committed, Acts.run, hcm, applyCommit]
  rw [hset, BitVec.setWidth_eq_extractLsb' (by decide)]

/-- Without a retired entry the commit bus is empty, and no register but `x0` can change (R262). -/
theorem committed_value_of_not_retired {a : Acts} {s : State} (hr : a.commit.retired = none)
    {r : RegIdx} (hr0 : r ≠ 0) : (a.committed s).regs.value r = s.regs.value r := by
  have hbus : a.commit.bus = [] := by simp [CommitAct.bus, hr]
  rw [committed_regs, value_forceZero, if_neg hr0, hbus]
  exact issued_value a s r

/-- Settles O47: of the acts of Commit only the halt sets the flag, and it retires nothing. -/
theorem haltExactlyAtMarker : Obligations.HaltExactlyAtMarker := by
  unfold Obligations.HaltExactlyAtMarker
  intro s t h
  obtain ⟨a, ha, rfl⟩ := acts_of_advances h
  obtain ⟨⟨hh, -⟩, -⟩ := h
  rw [endOfCycle_halted, run_halted_iff hh]
  refine ⟨commit_eq_halt_iff ha.commit, fun hcm => ?_⟩
  have hr : a.commit.retired = none := by rw [hcm]; rfl
  rw [endOfCycle_of_halt hcm]
  exact ⟨committed_exitValue_of_halt hcm, by rw [committed_head, hr]; rfl,
    fun r hr0 => committed_value_of_not_retired hr hr0⟩

/-! ## The head of the reorder buffer (R163, R166) -/

theorem isSome_retired_eq_retires {s : State} {a : CommitAct} (ha : validCommit s a) :
    a.retired.isSome = s.retires := by
  unfold State.retires
  rcases commit_of_committing ha with ⟨hc, rfl⟩ | ⟨e, hc, hop, rfl⟩ | ⟨e, hc, hop, rfl⟩
  · simp [hc, CommitAct.retired]
  · simp [hc, hop, CommitAct.retired]
  · simp [hc, hop, CommitAct.retired]

/-- Settles O48: Issue fills a free slot, Commit frees the head's, and the result bus changes nothing of a
ready entry. -/
theorem retiresOldestOnly : Obligations.RetiresOldestOnly := by
  unfold Obligations.RetiresOldestOnly
  intro s t hsound hc h
  obtain ⟨a, ha, rfl⟩ := acts_of_advancesUnflushed h
  have hretires := isSome_retired_eq_retires ha.commit
  refine ⟨by rw [committed_head, hretires], fun n e he hstays => ?_⟩
  have hsurvives : a.survives s n := fun hpop hhead =>
    hstays.elim (fun hno => by rw [hretires, hno] at hpop; cases hpop) (fun hne => hne hhead)
  obtain ⟨hpc, htag, hop, hdest⟩ := afterBus_keeps (a.resultBus s) n e
  refine ⟨RobEntry.afterBus (a.resultBus s) n e, ?_, hpc, htag, hop, hdest, afterBus_ready⟩
  rw [Option.mem_def, committed_entry_of_survives hsurvives, issued_entry_of_some ha hsound hc he,
    Option.map_some]

/-! ## The queue without the performed entry (R230) -/

theorem performing_ready {s : State} {x : LsbEntry} (h : s.performing = some x) : x.ready = true := by
  unfold State.performing at h
  split at h
  · cases h
  · split at h
    · cases h
    · split at h
      · rename_i hr
        cases h
        exact hr
      · cases h

/-- The performed entry is the oldest of the queue. -/
theorem queue_eq_performing_append (s : State) :
    s.lsb.q = s.performing.toList ++ s.queueAfterAccess := by
  unfold State.queueAfterAccess State.performing
  split
  · rfl
  · split
    · rfl
    · rename_i hq
      split
      · rw [hq]; rfl
      · rfl

theorem mem_queueAfterAccess_of_unready {s : State} {x : LsbEntry} (hx : x ∈ s.lsb.q)
    (hr : x.ready = false) : x ∈ s.queueAfterAccess := by
  rw [queue_eq_performing_append, List.mem_append, Option.mem_toList] at hx
  refine hx.resolve_left fun hperf => ?_
  rw [performing_ready hperf] at hr
  cases hr

theorem mem_queue_of_mem_queueAfterAccess {s : State} {x : LsbEntry} (hx : x ∈ s.queueAfterAccess) :
    x ∈ s.lsb.q := List.mem_of_mem_drop hx

/-- The queue after a cycle: what the access has left, then what was dispatched, both with the commit bus
taken (R228, R230). -/
theorem committed_q_eq_append {a : Acts} {s : State} (ha : a.taken s) :
    (a.committed s).lsb.q = s.queueAfterAccess.map (LsbEntry.markReady a.commit.bus) ++
      a.mem.queued.map (LsbEntry.markReady a.commit.bus) := by
  have hle : s.performing.toList.length ≤ s.lsb.q.length := by
    rw [queue_eq_performing_append, List.length_append]
    omega
  rw [committed_q, performed_eq_performing ha.access, List.drop_append_of_le_length hle,
    List.map_append]
  rfl

/-! ## The store that commits (R167, R228) -/

/-- What a cycle makes of an entry that stays in the queue: an unready one with the tag of the entry that
commits becomes ready. -/
def markedByCommit (s : State) (x : LsbEntry) : LsbEntry :=
  if x.ready = false ∧ s.committing.map (·.tag) = some x.tag then { x with ready := true } else x

/-- The reorder-buffer entry that commits with the tag of an unready entry is that entry's own (R31). -/
theorem committing_op_of_tag {s : State} (hs : s.inv) {x : LsbEntry} (hx : x ∈ s.lsb.q)
    (hr : x.ready = false) {e : RobEntry} (he : s.committing = some e) (htag : e.tag = x.tag) :
    e.op = .mem x.op := by
  obtain ⟨h, hc, ho⟩ := hs
  obtain ⟨y, hy, hop, -⟩ := owned_pending ho hx hr
  obtain ⟨-, hentry⟩ := oldest_eq_some ((committing_eq_some_iff s e).1 he).1
  rw [← htag, (entry_tag h hc hentry).1, hentry] at hy
  obtain rfl := Option.some.inj hy
  exact hop

/-- A memory-class entry puts its tag on the commit bus (R167, R171). -/
theorem retireBus_of_mem {e : RobEntry} {k : MemKind} (hop : e.op = .mem k) :
    ∃ v d, retireBus e = [⟨e.tag, v, d⟩] := by
  cases k <;> simp [retireBus, hop, OpKind.group]

theorem tag_of_mem_retireBus {e : RobEntry} {b : CommitEntry} (hb : b ∈ retireBus e) :
    b.tag = e.tag := by
  unfold retireBus at hb
  split at hb <;> simp_all

/-- The commit bus carries the tag of an unready entry exactly when the entry that commits has it. -/
theorem commitBus_any_tag_iff {a : Acts} {s : State} (ha : a.taken s) (hs : s.inv) {x : LsbEntry}
    (hx : x ∈ s.lsb.q) (hr : x.ready = false) :
    a.commit.bus.any (fun b => decide (b.tag = x.tag)) = true ↔
      s.committing.map (·.tag) = some x.tag := by
  rcases commit_of_committing ha.commit with ⟨hc, hact⟩ | ⟨e, hc, hop, hact⟩ | ⟨e, hc, -, hact⟩
  · simp [hc, hact, CommitAct.bus, CommitAct.retired]
  · have hne : e.tag ≠ x.tag := fun htag => by
      cases hop.symm.trans (committing_op_of_tag hs hx hr hc htag)
    simp [hc, hact, CommitAct.bus, CommitAct.retired, hne]
  · have hbus : a.commit.bus = retireBus e := by simp [hact, CommitAct.bus, CommitAct.retired]
    rw [hbus, hc, Option.map_some, Option.some.injEq, List.any_eq_true]
    constructor
    · rintro ⟨b, hb, htag⟩
      exact (tag_of_mem_retireBus hb).symm.trans (of_decide_eq_true htag)
    · intro htag
      obtain ⟨v, d, hv⟩ := retireBus_of_mem (committing_op_of_tag hs hx hr hc htag)
      exact ⟨⟨e.tag, v, d⟩, by simp [hv], decide_eq_true htag⟩

theorem markReady_eq_markedByCommit {a : Acts} {s : State} (ha : a.taken s) (hs : s.inv)
    {x : LsbEntry} (hx : x ∈ s.lsb.q) : x.markReady a.commit.bus = markedByCommit s x := by
  unfold LsbEntry.markReady markedByCommit
  cases hr : x.ready with
  | true => simp
  | false => simp [commitBus_any_tag_iff ha hs hx hr]

/-! ## What enters the queue (R222, R226) -/

theorem length_queued_le_one (a : MemAct) : a.queued.length ≤ 1 := by
  cases a <;> simp [MemAct.queued]

/-- What the memory station's act is about is what the statements say is dispatched (R197, R198). -/
theorem dispatches_of_dispatched {a : Acts} {s : State} (ha : a.taken s) {e : RsEntry MemKind}
    (h : a.mem.dispatched = some e) : s.dispatches e := by
  have hv := ha.mem
  cases hm : a.mem with
  | none => rw [hm] at h; cases h
  | store k e' =>
    rw [hm] at h hv
    cases h
    obtain ⟨hsel, hroom, hop⟩ := hv
    rcases rsmSelect_some hsel with ⟨-, hres, rest, hrest⟩ | ⟨⟨l, hl⟩, -⟩
    · exact .inl ⟨k, by rw [hrest]; rfl, hop, hres, hroom⟩
    · cases hop.symm.trans hl
  | forward k e' y =>
    rw [hm] at h hv
    cases h
    obtain ⟨hsel, hroom, hop, -⟩ := hv
    exact .inr ⟨k, (dispatchesLoad_iff s k e).2 ⟨hop, hroom, hsel⟩⟩
  | queue k e' =>
    rw [hm] at h hv
    cases h
    obtain ⟨hsel, hroom, hop, -⟩ := hv
    exact .inr ⟨k, (dispatchesLoad_iff s k e).2 ⟨hop, hroom, hsel⟩⟩

theorem queued_eq_nil_of_no_dispatch {a : Acts} {s : State} (ha : a.taken s)
    (h : ∀ e ∈ s.rsm, ¬ s.dispatches e) : a.mem.queued = [] := by
  refine List.eq_nil_iff_forall_not_mem.2 fun x hx => ?_
  obtain ⟨e, he, -⟩ := of_mem_queued ha hx
  exact h e (dispatched_mem_rsm ha he) (dispatches_of_dispatched ha he)

/-! ## The queue after a cycle, whole -/

/-- The queue after a cycle, as the statements speak of it. -/
theorem committed_q_eq_marked {a : Acts} {s : State} (ha : a.taken s) (hs : s.inv) :
    (a.committed s).lsb.q = s.queueAfterAccess.map (markedByCommit s) ++
      a.mem.queued.map (LsbEntry.markReady a.commit.bus) := by
  rw [committed_q_eq_append ha, List.map_congr_left fun x hx =>
    markReady_eq_markedByCommit ha hs (mem_queue_of_mem_queueAfterAccess hx)]

/-- An unready entry is not the performed one, and stays. -/
theorem markedByCommit_mem_committed_q {a : Acts} {s : State} (ha : a.taken s) (hs : s.inv)
    {x : LsbEntry} (hx : x ∈ s.lsb.q) (hr : x.ready = false) :
    markedByCommit s x ∈ (a.committed s).lsb.q := by
  rw [committed_q_eq_marked ha hs]
  exact List.mem_append_left _ (List.mem_map_of_mem (mem_queueAfterAccess_of_unready hx hr))

/-- Settles O41: the access takes the ready head, the dispatch appends, and the commit bus carries the tag
of an unready entry only when that entry's own store commits. -/
theorem storeCommitMarksReady : Obligations.StoreCommitMarksReady := by
  unfold Obligations.StoreCommitMarksReady
  intro s t hs h
  obtain ⟨a, ha, rfl⟩ := acts_of_advancesUnflushed h
  refine ⟨⟨_, committed_q_eq_marked ha hs, ?_, fun hno => ?_⟩, fun x hx hr => ⟨?_, ?_⟩⟩
  · rw [List.length_map]
    exact length_queued_le_one a.mem
  · rw [queued_eq_nil_of_no_dispatch ha hno, List.map_nil]
  · intro e k he _ htag
    have hmarked : markedByCommit s x = { x with ready := true } := by
      simp [markedByCommit, hr, he, htag]
    exact hmarked ▸ markedByCommit_mem_committed_q ha hs hx hr
  · intro hno
    have hsame : markedByCommit s x = x := by
      refine if_neg fun ⟨_, htag⟩ => ?_
      obtain ⟨e, he, hetag⟩ := Option.map_eq_some_iff.1 htag
      exact hno e he hetag
    have hmem := markedByCommit_mem_committed_q ha hs hx hr
    rwa [hsame] at hmem

end Sys2Proof.Proofs
end

section
/-! O32 to O35: what the stations do in one busy cycle: the result that completes a reorder-buffer entry, the
operands that hear the two buses, and the store that goes to the load-store buffer
(42_reservation_stations.md R194 to R201, 41_reorder_buffer.md R172, 43_load_store_buffer.md R222). -/

namespace Sys2Proof.Proofs

-- One proof after the other, on one thread: each thread costs the check 256 MB of stack.
set_option Elab.async false

open Sys2Proof.Machine Sys2Proof.Laws

/-! ## The result bus and the reorder buffer (R172) -/

/-- The reorder buffer records a target for exactly the kinds whose commit checks it (R30, R169, R170). -/
theorem hasTarget_eq_checked (op : OpKind) : op.hasTarget = op.checked := by
  rcases op with (_ | _ | _ | _ | k | k | k | _) | (k | k) <;> rfl

theorem complete_eq (x : RobEntry) (v : Word) :
    x.complete v =
      { x with ready := true, value := v, target := if x.op.checked then v else x.target } := by
  rw [RobEntry.complete, hasTarget_eq_checked]

/-- Memory-class kinds record no target. -/
theorem complete_of_mem {x : RobEntry} {k : MemKind} (hop : x.op = .mem k) (v : Word) :
    x.complete v = { x with ready := true, value := v } := by
  simp [complete_eq, hop, OpKind.checked]

/-- On a bus that carries each tag once, an unready entry takes the value of its tag. -/
theorem afterBus_of_mem {rb : List ResultEntry} (hnodup : (rb.map (·.tag)).Nodup) {b : ResultEntry}
    (hb : b ∈ rb) {x : RobEntry} (hr : x.ready = false) :
    RobEntry.afterBus rb b.tag x = x.complete b.value := by
  have hfind : rb.find? (fun b' => decide (b'.tag = b.tag)) = some b := by
    cases hf : rb.find? (fun b' => decide (b'.tag = b.tag)) with
    | none => simpa using List.find?_eq_none.1 hf b hb
    | some b' =>
      have htag : b'.tag = b.tag := by simpa using List.find?_some hf
      rw [List.inj_on_of_nodup_map hnodup (List.mem_of_find?_eq_some hf) hb htag]
  simp [RobEntry.afterBus, hr, hfind]

/-- Every result of a cycle completes the reorder-buffer entry of its tag (R172). -/
theorem committed_entry_of_mem_resultBus {a : Acts} {s : State} (ha : a.taken s) (hs : s.inv)
    {b : ResultEntry} (hb : b ∈ a.resultBus s) {x : RobEntry} (hx : s.rob.entry b.tag = some x) :
    (a.committed s).rob.entry b.tag = some (x.complete b.value) := by
  obtain ⟨h, hc, ho⟩ := hs
  have hoi := issued_owned ha h hc ho
  have hxi := issued_entry_of_some ha h hc hx
  obtain ⟨x', hx', hr⟩ := entry_of_mem_resultBus ha hoi hb
  obtain rfl := Option.some.inj (hxi.symm.trans hx')
  rw [committed_entry_of_survives (survives_of_unready ha h hc hxi hr), hxi, Option.map_some,
    afterBus_of_mem (nodup_resultBus_tags ha hoi) hb hr]

/-! ## The arithmetic station's execution (R194 to R196) -/

theorem arith_of_executesArith {a : Acts} {s : State} (ha : a.taken s) {n : Nat} {e : RsEntry ArithKind}
    (he : s.executesArith n e) : a.arith = some (n, e) :=
  ha.arith.symm.trans ((rsaSelect_eq_some_iff s n e).2 he)

/-- The slot of the executed entry is free after the cycle: Issue has not taken it (R193, R195). -/
theorem committed_rsa_of_executed {a : Acts} {s : State} (ha : a.taken s) {n : Nat}
    {e : RsEntry ArithKind} (harith : a.arith = some (n, e)) : (a.committed s).rsa[n]? = some none := by
  obtain ⟨hlt, -⟩ := List.getElem?_eq_some_iff.1 (arith_mem ha harith)
  rw [committed_rsa, rsaCheckBus, List.getElem?_map, harith, rsaAfter, List.getElem?_set_self hlt]
  rfl

/-- Settles O32: what the station selects is the executed entry, and its result is on the result bus. -/
theorem arithmeticExecutes : Obligations.ArithmeticExecutes := by
  unfold Obligations.ArithmeticExecutes
  intro s t n e x hs h he hx
  obtain ⟨a, ha, rfl⟩ := acts_of_advancesUnflushed h
  have harith := arith_of_executesArith ha he
  have hbus : ⟨e.tag, (arithResult e).1, (arithResult e).2⟩ ∈ a.resultBus s := by
    simp [Acts.resultBus, harith, arithBus]
  refine ⟨committed_rsa_of_executed ha harith, ?_⟩
  rw [← complete_eq]
  exact committed_entry_of_mem_resultBus ha hs hbus hx

/-! ## Wake-up (R200, R201) -/

theorem sameBut_wake {κ : Type} (rb : List ResultEntry) (cb : List CommitEntry) (c : RsEntry κ) :
    c.sameBut (c.wake rb cb) := ⟨rfl, rfl, rfl, rfl⟩

theorem takes_mono {κ : Type} {b b' : Tag → Word → Prop} (hb : ∀ p v, b p v → b' p v)
    {c c' : RsEntry κ} (h : c.takes b' c') : c.takes b c' := by
  obtain ⟨hj, hk⟩ := h
  exact ⟨fun p v hq hv => hj p v hq (hb p v hv), fun p v hq hv => hk p v hq (hb p v hv)⟩

/-- The operands of an entry that hears the buses of a cycle take what either broadcasts for them. -/
theorem takes_wake {a : Acts} {s : State} {κ : Type} (ha : a.taken s) (hs : s.inv) (c : RsEntry κ) :
    c.takes s.broadcast (c.wake (a.resultBus s) a.commit.bus) := by
  refine ⟨fun p v hq hv => ?_, fun p v hq hv => ?_⟩
  · simpa only [RsEntry.wake, hq] using (wakeOperand_waitsThrough ha hs c.vj p).1 v hv
  · simpa only [RsEntry.wake, hq] using (wakeOperand_waitsThrough ha hs c.vk p).1 v hv

/-- The operands that no broadcast of the cycle is for stay as they are. -/
theorem keeps_wake {a : Acts} {s : State} {κ : Type} (ha : a.taken s) (hs : s.inv) (c : RsEntry κ) :
    c.keeps s.broadcast (c.wake (a.resultBus s) a.commit.bus) := by
  refine ⟨fun hq => ?_, fun hq => ?_, fun p hq hno => ?_, fun p hq hno => ?_⟩
  · simp [RsEntry.wake, hq]
  · simp [RsEntry.wake, hq]
  · simpa only [RsEntry.wake, hq] using (wakeOperand_waitsThrough ha hs c.vj p).2 hno
  · simpa only [RsEntry.wake, hq] using (wakeOperand_waitsThrough ha hs c.vk p).2 hno

/-- An entry of the arithmetic station that is not executed keeps its slot and hears the buses. -/
theorem committed_rsa_of_not_executed {a : Acts} {s : State} (ha : a.taken s) {m : Nat}
    {c : RsEntry ArithKind} (hm : s.rsa[m]? = some (some c)) (hno : ¬ s.executesArith m c) :
    (a.committed s).rsa[m]? = some (some (c.wake (a.resultBus s) a.commit.bus)) := by
  have hafter : (rsaAfter a.arith (a.issued s).rsa)[m]? = some (some c) := by
    have hissued := issued_rsa_of_some (a := a) hm
    cases harith : a.arith with
    | none => exact hissued
    | some y =>
      obtain ⟨n, e⟩ := y
      have hexec := (rsaSelect_eq_some_iff s n e).1 (ha.arith.trans harith)
      have hne : n ≠ m := by
        rintro rfl
        obtain rfl := Option.some.inj (Option.some.inj (hm.symm.trans hexec.1))
        exact hno hexec
      rw [rsaAfter, List.getElem?_set_ne hne, hissued]
  rw [committed_rsa, rsaCheckBus, List.getElem?_map, hafter]
  rfl

/-- No two entries of the memory station have one tag (R31). -/
theorem rsm_eq_of_tag {s : State} (ho : s.owned) {c e : RsEntry MemKind} (hc : c ∈ s.rsm) (he : e ∈ s.rsm)
    (htag : c.tag = e.tag) : c = e := by
  obtain ⟨hnodup, -⟩ := ho
  have hrsm : (s.rsm.map (·.tag)).Nodup := (List.nodup_append.1 (List.nodup_append.1 hnodup).1).2.1
  exact List.inj_on_of_nodup_map hrsm hc he htag

/-- An entry of the memory station that is not dispatched stays and hears the buses. -/
theorem committed_rsm_of_not_dispatched {a : Acts} {s : State} (ha : a.taken s) (hs : s.inv)
    {c : RsEntry MemKind} (hmem : c ∈ s.rsm) (hno : ¬ s.dispatches c) :
    c.wake (a.resultBus s) a.commit.bus ∈ (a.committed s).rsm := by
  obtain ⟨-, -, ho⟩ := hs
  have hissued : c ∈ (a.issued s).rsm := (issued_rsm_prefix a s).subset hmem
  rw [committed_rsm, rsmCheckBus]
  refine List.mem_map_of_mem ?_
  cases hd : a.mem.dispatched with
  | none => rwa [MemAct.rsmAfter, hd]
  | some e =>
    have hne : c.tag ≠ e.tag := fun htag => by
      obtain rfl := rsm_eq_of_tag ho hmem (dispatched_mem_rsm ha hd) htag
      exact hno (dispatches_of_dispatched ha hd)
    rw [MemAct.rsmAfter, hd]
    exact (List.mem_eraseP_of_neg (by simpa using hne)).2 hissued

/-- Settles O33: every entry that stays hears both buses, and the result bus is one of them. -/
theorem resultWakesOperands : Obligations.ResultWakesOperands := by
  unfold Obligations.ResultWakesOperands
  intro s t hs h
  obtain ⟨a, ha, rfl⟩ := acts_of_advancesUnflushed h
  refine ⟨fun m c hm hno => ⟨_, committed_rsa_of_not_executed ha hm hno, ?_⟩,
    fun c hm hno => ⟨_, committed_rsm_of_not_dispatched ha hs hm hno, ?_⟩⟩
  · exact ⟨sameBut_wake _ _ c, takes_mono (fun _ _ => .inl) (takes_wake ha hs c), keeps_wake ha hs c⟩
  · exact ⟨sameBut_wake _ _ c, takes_mono (fun _ _ => .inl) (takes_wake ha hs c), keeps_wake ha hs c⟩

/-- Settles O34: every entry that stays hears both buses, and the commit bus is one of them. -/
theorem commitWakesOperands : Obligations.CommitWakesOperands := by
  unfold Obligations.CommitWakesOperands
  intro s t hs h
  obtain ⟨a, ha, rfl⟩ := acts_of_advancesUnflushed h
  refine ⟨fun m c hm hno => ⟨_, committed_rsa_of_not_executed ha hm hno, ?_⟩,
    fun c hm hno => ⟨_, committed_rsm_of_not_dispatched ha hs hm hno, ?_⟩⟩
  · exact ⟨sameBut_wake _ _ c, takes_mono (fun _ _ => .inr) (takes_wake ha hs c)⟩
  · exact ⟨sameBut_wake _ _ c, takes_mono (fun _ _ => .inr) (takes_wake ha hs c)⟩

/-! ## The dispatch of a store (R197, R199, R222) -/

/-- A store keeps its data modulo `2^(8 width)` (R64, R222). -/
theorem toNat_storeData (k : StoreKind) (v : Word) :
    (storeData k v).toNat = v.toNat % 2 ^ (8 * k.width) := by
  have htruncate : ∀ n ≤ 4, (truncateBytes n v).toNat = v.toNat % 2 ^ (8 * n) := fun n hn => by
    have hpow : 2 ^ (8 * n) ≤ 2 ^ 32 := Nat.pow_le_pow_right (by decide) (by omega)
    have hpos : 0 < 2 ^ (8 * n) := Nat.two_pow_pos _
    rw [truncateBytes, BitVec.toNat_and, BitVec.toNat_ofNat, Nat.mod_eq_of_lt (by omega),
      Nat.and_two_pow_sub_one_eq_mod]
  cases k with
  | sb => exact htruncate 1 (by decide)
  | sh => exact htruncate 2 (by decide)
  | sw => exact htruncate 4 (by decide)

theorem rsmSelect_of_dispatchesStore {s : State} {k : StoreKind} {e : RsEntry MemKind}
    (h : s.dispatchesStore k e) : rsmSelect s.rsm = some e := by
  obtain ⟨hhead, hop, hres, -⟩ := h
  obtain ⟨rest, hrest⟩ := List.head?_eq_some_iff.1 hhead
  simp [hrest, rsmSelect, hop, hres]

theorem mem_of_dispatchesStore {a : Acts} {s : State} (ha : a.taken s) {k : StoreKind}
    {e : RsEntry MemKind} (h : s.dispatchesStore k e) : a.mem = .store k e := by
  obtain ⟨-, hop, -, hroom⟩ := id h
  have hv := ha.mem
  have hd := dispatched_of_select hv (rsmSelect_of_dispatchesStore h) hroom
  cases hm : a.mem with
  | none => rw [hm] at hd; cases hd
  | store k' e' =>
    rw [hm] at hv hd
    cases hd
    obtain ⟨-, -, hop'⟩ := hv
    cases hop.symm.trans hop'
    rfl
  | forward k' e' x =>
    rw [hm] at hv hd
    cases hd
    obtain ⟨-, -, hop', -⟩ := hv
    cases hop.symm.trans hop'
  | queue k' e' =>
    rw [hm] at hv hd
    cases hd
    obtain ⟨-, -, hop', -⟩ := hv
    cases hop.symm.trans hop'

/-- The dispatched store leaves the old end, and Issue adds at the young end only (R193, R199). -/
theorem committed_rsm_tags_of_store {a : Acts} {s : State} {k : StoreKind} {e : RsEntry MemKind}
    (hm : a.mem = .store k e) (hhead : s.rsm.head? = some e) :
    ((a.committed s).rsm.map (·.tag)).take (s.rsm.length - 1) = (s.rsm.drop 1).map (·.tag) := by
  obtain ⟨rest, hrest⟩ := List.head?_eq_some_iff.1 hhead
  obtain ⟨new, hnew⟩ := issued_rsm_prefix a s
  have hafter : a.mem.rsmAfter (a.issued s).rsm = rest ++ new := by
    simp [← hnew, hrest, hm, MemAct.rsmAfter, MemAct.dispatched, rsmRemove]
  simp [committed_rsm, rsmCheckBus, hafter, hrest, Function.comp_def]

/-- The commit bus carries no tag of an entry that is not ready (R163). -/
theorem markReady_of_unready_entry {a : Acts} {s : State} (ha : a.taken s) (h : s.sound)
    (hc : s.consistent) {y : LsbEntry} {x : RobEntry} (hx : s.rob.entry y.tag = some x)
    (hr : x.ready = false) : y.markReady a.commit.bus = y := by
  have hnone : ∀ b ∈ a.commit.bus, b.tag ≠ y.tag := by
    intro b hb htag
    obtain ⟨e, he, -⟩ := List.mem_flatMap.1 hb
    obtain ⟨hentry, -, hready, -⟩ := retired_at_head ha (Option.mem_toList.1 he)
    rw [← htag, commitBus_tag ha h hc hb, hentry] at hx
    cases hx
    rw [hready] at hr
    cases hr
  have hany : a.commit.bus.any (fun b => decide (b.tag = y.tag)) = false := by simpa using hnone
  simp [LsbEntry.markReady, hany]

/-- The queue after the cycle that dispatches a store ends with the store's entry, unready (R222). -/
theorem committed_q_of_store {a : Acts} {s : State} (ha : a.taken s) (hs : s.inv) {k : StoreKind}
    {e : RsEntry MemKind} (hm : a.mem = .store k e) :
    (a.committed s).lsb.q = s.queueAfterAccess.map (markedByCommit s) ++ [queuedStore k e] := by
  obtain ⟨h, hc, ho⟩ := id hs
  obtain ⟨x, hx, hr, -⟩ := owned_rsm ho (dispatched_mem_rsm ha (by rw [hm]; rfl))
  have hunmarked : (queuedStore k e).markReady a.commit.bus = queuedStore k e :=
    markReady_of_unready_entry ha h hc hx hr
  rw [committed_q_eq_marked ha hs, hm, MemAct.queued, List.map_singleton, hunmarked]

/-- Settles O35: the store is what the memory station's act is about, and its tag goes to the result bus
with value 0. -/
theorem storeDispatches : Obligations.StoreDispatches := by
  unfold Obligations.StoreDispatches
  intro s t k e x hs h hd hx
  obtain ⟨a, ha, rfl⟩ := acts_of_advancesUnflushed h
  have hm := mem_of_dispatchesStore ha hd
  have hq := committed_q_of_store ha hs hm
  have hbus : ⟨e.tag, 0, false⟩ ∈ a.resultBus s := by simp [Acts.resultBus, hm, MemAct.bus]
  obtain ⟨hhead, -⟩ := hd
  obtain ⟨-, -, ho⟩ := id hs
  obtain ⟨x', hx', -, hop⟩ := owned_rsm ho (List.mem_of_head? hhead)
  obtain rfl := Option.some.inj (hx.symm.trans hx')
  refine ⟨committed_rsm_tags_of_store hm hhead, ⟨queuedStore k e, ?_, rfl, rfl, ?_, rfl, rfl⟩, ?_, ?_⟩
  · rw [hq, List.getLast?_concat]
    rfl
  · exact toNat_storeData k e.vk
  · rw [hq, List.length_append, List.length_map, List.length_singleton]
  · rw [← complete_of_mem hop]
    exact committed_entry_of_mem_resultBus ha hs hbus hx

end Sys2Proof.Proofs
end

section
/-! O57: the bytes a covering store holds for a load, and the value the load extends from them
(20_memory.md R64, R71, R75, 43_load_store_buffer.md R225). -/

namespace Sys2Proof.Proofs

-- One proof after the other, on one thread: each thread costs the check 256 MB of stack.
set_option Elab.async false

open Sys2Proof.Machine Sys2Proof.Laws

/-! ## The low bytes of a word (R64) -/

theorem getLsbD_truncateBytes {n : Nat} (hn : n ≤ 4) (v : Word) (i : Nat) :
    (truncateBytes n v).getLsbD i = (decide (i < 8 * n) && v.getLsbD i) := by
  rw [truncateBytes, BitVec.getLsbD_and, BitVec.getLsbD_ofNat, Nat.testBit_two_pow_sub_one]
  by_cases hi : i < 8 * n
  · simp [hi, show i < 32 by omega]
  · simp [hi]

/-- Bit `i` of a read of `n` bytes is bit `i % 8` of the byte at offset `i / 8` (R61). -/
theorem getLsbD_readLE (m : Memory) (a : Nat) {n : Nat} (hn : n ≤ 4) (i : Nat) :
    (m.readLE a n).getLsbD i = (decide (i < 8 * n) && (m.read (a + i / 8)).getLsbD (i % 8)) := by
  by_cases hi : i < 8 * n
  · rw [← readLE_byte m (show i / 8 < n by omega) hn, BitVec.getLsbD_extractLsb', Nat.div_add_mod]
    simp [hi, Nat.mod_lt]
  · have hzero : (m.readLE a n).getLsbD i = false :=
      Nat.testBit_lt_two_pow (Nat.lt_of_lt_of_le (readLE_lt m a n)
        (Nat.pow_le_pow_right (by decide) (Nat.not_lt.1 hi)))
    simp [hi, hzero]

theorem readLE_eq_truncateBytes {m : Memory} {a n : Nat} (hn : n ≤ 4) {v : Word}
    (h : ∀ j, j < n → m.read (a + j) = v.extractLsb' (8 * j) 8) :
    m.readLE a n = truncateBytes n v := by
  refine BitVec.eq_of_getLsbD_eq fun i hi => ?_
  rw [getLsbD_readLE m a hn, getLsbD_truncateBytes hn]
  by_cases hi : i < 8 * n
  · rw [h _ (by omega), BitVec.getLsbD_extractLsb', Nat.div_add_mod]
    simp [Nat.mod_lt]
  · simp [hi]

theorem loadWidth_le (k : LoadKind) : k.width ≤ 4 := by
  cases k <;> decide

/-- A read within the range of a store gives the bytes of the store's data from the offset on (R71). -/
theorem readLE_writeLE_covered {m : Memory} (h : m.wf = true) {a b n w : Nat} (hn : n ≤ 4) (v : Word)
    (hcov : rangeCovers b w a n = true) :
    (m.writeLE b w v).readLE a n = truncateBytes n (v >>> (8 * (a - b))) := by
  simp only [rangeCovers, Bool.and_eq_true, decide_eq_true_eq] at hcov
  obtain ⟨hlow, hhigh⟩ := hcov
  obtain ⟨hbytes, -⟩ := writeLE_stored h b w v
  refine readLE_eq_truncateBytes hn fun j hj => ?_
  rw [show a + j = b + (a - b + j) by omega, hbytes _ (by omega)]
  ext i hi
  simp [BitVec.getElem_extractLsb', Nat.mul_add, Nat.add_assoc]

/-- Settles O57: both sides extend the same bytes of the store's data. -/
theorem forwardingReadsTheStore : Obligations.ForwardingReadsTheStore := by
  unfold Obligations.ForwardingReadsTheStore
  intro m k ks addr x hm _ _ hcov
  rw [forwardValue, readLE_writeLE_covered hm (loadWidth_le k) _ hcov]

/-! ## The extended value (R64) -/

theorem setWidth_truncateBytes {n : Nat} (hn : n ≤ 4) (v : Word) :
    (truncateBytes n v).setWidth (8 * n) = v.extractLsb' 0 (8 * n) := by
  refine BitVec.eq_of_getLsbD_eq fun i hi => ?_
  simp [getLsbD_truncateBytes hn, hi]

/-- The value a load forwards, from the bits of the store's data (R225). -/
theorem forwardValue_eq (k : LoadKind) (a : Word) (y : LsbEntry) :
    forwardValue k a y =
      let raw := y.value >>> (8 * (a.toNat - y.addr.toNat))
      match k with
      | .lb => (raw.extractLsb' 0 8).signExtend 32
      | .lh => (raw.extractLsb' 0 16).signExtend 32
      | .lw => raw
      | .lbu => (raw.extractLsb' 0 8).setWidth 32
      | .lhu => (raw.extractLsb' 0 16).setWidth 32 := by
  have hlow := fun n (hn : n ≤ 4) =>
    setWidth_truncateBytes hn (y.value >>> (8 * (a.toNat - y.addr.toNat)))
  cases k with
  | lb => exact congrArg (BitVec.signExtend 32) (hlow 1 (by decide))
  | lh => exact congrArg (BitVec.signExtend 32) (hlow 2 (by decide))
  | lw =>
    exact (BitVec.setWidth_eq _).symm.trans ((hlow 4 (by decide)).trans BitVec.extractLsb'_eq_self)
  | lbu => exact congrArg (BitVec.setWidth 32) (hlow 1 (by decide))
  | lhu => exact congrArg (BitVec.setWidth 32) (hlow 2 (by decide))

/-- A read puts the byte at its address below the bytes read from the next address on (R61). -/
theorem setWidth_readLE_succ (m : Memory) (a : Nat) {n : Nat} (hn : n < 4) :
    (m.readLE a (n + 1)).setWidth (8 * n + 8) = (m.readLE (a + 1) n).setWidth (8 * n) ++ m.read a := by
  refine BitVec.eq_of_getLsbD_eq fun i hi => ?_
  rw [BitVec.getLsbD_append, BitVec.getLsbD_setWidth, BitVec.getLsbD_setWidth,
    getLsbD_readLE m a hn, getLsbD_readLE m (a + 1) hn.le]
  by_cases hlow : i < 8
  · simp [hlow, hi, Nat.div_eq_of_lt, Nat.mod_eq_of_lt, Nat.mul_add]
  · have hdiv : a + 1 + (i - 8) / 8 = a + i / 8 := by omega
    have hmod : (i - 8) % 8 = i % 8 := by omega
    have hlt : i - 8 < 8 * n := by omega
    simp [hlow, hi, hdiv, hmod, hlt, Nat.mul_add]

/-- The value of a load from the backing store, from its bytes (R64, R232). -/
theorem loadExtend_readLE (m : Memory) (a : Nat) (k : LoadKind) :
    loadExtend k (m.readLE a k.width) =
      let byte (j : Nat) : Byte := m.read (a + j)
      match k with
      | .lb => (byte 0).signExtend 32
      | .lh => (byte 1 ++ byte 0 : BitVec 16).signExtend 32
      | .lw => byte 3 ++ byte 2 ++ byte 1 ++ byte 0
      | .lbu => (byte 0).setWidth 32
      | .lhu => (byte 1 ++ byte 0 : BitVec 16).setWidth 32 := by
  have h1 : ∀ b, (m.readLE b 1).setWidth 8 = m.read b := fun b =>
    (BitVec.setWidth_eq_extractLsb' (by decide)).trans (readLE_byte m (k := 0) (by decide) (by decide))
  have h2 : ∀ b, (m.readLE b 2).setWidth 16 = m.read (b + 1) ++ m.read b := fun b =>
    (setWidth_readLE_succ m b (n := 1) (by decide)).trans (congrArg (· ++ m.read b) (h1 (b + 1)))
  have h3 : ∀ b, (m.readLE b 3).setWidth 24 = m.read (b + 2) ++ m.read (b + 1) ++ m.read b := fun b =>
    (setWidth_readLE_succ m b (n := 2) (by decide)).trans (congrArg (· ++ m.read b) (h2 (b + 1)))
  have h4 : (m.readLE a 4).setWidth 32 =
      m.read (a + 3) ++ m.read (a + 2) ++ m.read (a + 1) ++ m.read a :=
    (setWidth_readLE_succ m a (n := 3) (by decide)).trans (congrArg (· ++ m.read a) (h3 (a + 1)))
  cases k with
  | lb => exact congrArg (BitVec.signExtend 32) (h1 a)
  | lh => exact congrArg (BitVec.signExtend 32) (h2 a)
  | lw => exact (BitVec.setWidth_eq _).symm.trans h4
  | lbu => exact congrArg (BitVec.setWidth 32) (h1 a)
  | lhu => exact congrArg (BitVec.setWidth 32) (h2 a)

end Sys2Proof.Proofs
end

section
/-! O36 to O38, O40, O42: the load-store buffer in one busy cycle: the load that forwards or is queued, the
access that the memory port performs, and the countdown (43_load_store_buffer.md R224 to R233). -/

namespace Sys2Proof.Proofs

-- One proof after the other, on one thread: each thread costs the check 256 MB of stack.
set_option Elab.async false

open Sys2Proof.Machine Sys2Proof.Laws

/-! ## The dispatch of a load (R198, R224) -/

/-- What the memory station does with the load it dispatches: forward, or queue where nothing forwards. -/
theorem mem_of_dispatchesLoad {a : Acts} {s : State} (ha : a.taken s) {k : LoadKind} {e : RsEntry MemKind}
    (h : s.dispatchesLoad k e) :
    (∃ y, a.mem = .forward k e y ∧ s.forwards k (e.vj + e.imm) y) ∨
      a.mem = .queue k e ∧ ∀ y, ¬ s.forwards k (e.vj + e.imm) y := by
  obtain ⟨hop, hroom, hsel⟩ := (dispatchesLoad_iff s k e).1 h
  have hv := ha.mem
  have hd := dispatched_of_select hv hsel hroom
  cases hm : a.mem with
  | none => rw [hm] at hd; cases hd
  | store k' e' =>
    rw [hm] at hv hd
    cases hd
    obtain ⟨-, -, hop'⟩ := hv
    cases hop.symm.trans hop'
  | forward k' e' y =>
    rw [hm] at hv hd
    cases hd
    obtain ⟨-, -, hop', hfw⟩ := hv
    cases hop.symm.trans hop'
    exact .inl ⟨y, rfl, (forwardsFrom_iff s k _ y).1 hfw⟩
  | queue k' e' =>
    rw [hm] at hv hd
    cases hd
    obtain ⟨-, -, hop', hno⟩ := hv
    cases hop.symm.trans hop'
    exact .inr ⟨rfl, fun y hy => hno y ((forwardsFrom_iff s k _ y).2 hy)⟩

/-- Settles O36: the forwarded value goes to the result bus, and nothing to the queue. -/
theorem loadForwards : Obligations.LoadForwards := by
  unfold Obligations.LoadForwards
  intro s t k e y x hs h hd hfw hx
  obtain ⟨a, ha, rfl⟩ := acts_of_advancesUnflushed h
  have hbus : ⟨e.tag, forwardValue k (e.vj + e.imm) y, true⟩ ∈ a.resultBus s :=
    (resultBroadcast_iff ha _ _).1 (.inr (.inl ⟨k, e, y, hd, rfl, hfw, rfl⟩))
  rcases mem_of_dispatchesLoad ha hd with ⟨y', hm, -⟩ | ⟨-, hno⟩
  · obtain ⟨-, -, ho⟩ := id hs
    obtain ⟨x', hx', -, hop⟩ := owned_rsm ho (dispatched_mem_rsm ha (by rw [hm]; rfl))
    obtain rfl := Option.some.inj (hx.symm.trans hx')
    have hentry := committed_entry_of_mem_resultBus ha hs hbus hx
    rw [complete_of_mem hop, forwardValue_eq] at hentry
    exact ⟨hentry, by simp [committed_q_eq_append ha, hm, MemAct.queued]⟩
  · exact absurd hfw (hno y)

/-- Settles O37: what does not forward is queued, and its entry is made ready. -/
theorem loadQueues : Obligations.LoadQueues := by
  unfold Obligations.LoadQueues
  intro s t k e hs h hd hno
  obtain ⟨a, ha, rfl⟩ := acts_of_advancesUnflushed h
  rcases mem_of_dispatchesLoad ha hd with ⟨y, -, hfw⟩ | ⟨hm, -⟩
  · exact absurd hfw (hno y)
  · have hready : (queuedLoad k e).markReady a.commit.bus = queuedLoad k e := markReady_ready rfl
    rw [committed_q_eq_append ha, hm, MemAct.queued, List.map_singleton, hready]
    exact ⟨List.getLast?_concat, by simp⟩

/-! ## The performed access (R230, R232) -/

/-- The reorder-buffer entry of a load in the queue. -/
theorem owned_load {s : State} (ho : s.owned) {x : LsbEntry} (hx : x ∈ s.lsb.q) {k : LoadKind}
    (hop : x.op = .load k) : ∃ y, s.rob.entry x.tag = some y ∧ y.op = .mem x.op := by
  obtain ⟨-, -, -, hlsb⟩ := ho
  obtain ⟨y, hy, hyop, -⟩ := hlsb x hx (by simp [LsbEntry.committedStore, hop])
  exact ⟨y, hy, hyop⟩

/-- Settles O38: the value read goes to the result bus. -/
theorem loadPerforms : Obligations.LoadPerforms := by
  unfold Obligations.LoadPerforms
  intro s t k h x hs hadv hperf hop hx
  obtain ⟨a, ha, rfl⟩ := acts_of_advancesUnflushed hadv
  have hbus : ⟨h.tag, loadExtend k (s.mem.readLE h.addr.toNat k.width), true⟩ ∈ a.resultBus s :=
    (resultBroadcast_iff ha _ _).1 (.inr (.inr ⟨k, h, hperf, hop, rfl, rfl⟩))
  obtain ⟨-, -, ho⟩ := id hs
  obtain ⟨x', hx', hxop⟩ := owned_load ho (performing_mem hperf) hop
  obtain rfl := Option.some.inj (hx.symm.trans hx')
  have hentry := committed_entry_of_mem_resultBus ha hs hbus hx
  rwa [complete_of_mem hxop, loadExtend_readLE] at hentry

/-- A flush leaves the backing store as the cycle has it (R141). -/
theorem endOfCycle_run_mem (a : Acts) (s : State) :
    (endOfCycle s (a.run s)).mem = a.access.memAfter s.mem := by
  rw [← committed_mem]
  unfold endOfCycle
  split <;> rfl

/-- A flush leaves the countdown as the cycle has it (R141, R237). -/
theorem endOfCycle_run_count (a : Acts) (s : State) :
    (endOfCycle s (a.run s)).lsb.c = a.access.countAfter s := by
  rw [← committed_count]
  unfold endOfCycle
  split <;> rfl

theorem access_of_performing_store {s : State} {a : AccessAct} (ha : validAccess s a) {k : StoreKind}
    {h : LsbEntry} (hperf : s.performing = some h) (hop : h.op = .store k) : a = .write k h := by
  rw [← performed_eq_performing ha] at hperf
  cases a with
  | countdown => cases hperf
  | idle => cases hperf
  | write k' x =>
    cases hperf
    obtain ⟨-, hop', -⟩ := ha
    cases hop.symm.trans hop'
    rfl
  | read k' x =>
    cases hperf
    obtain ⟨-, hop', -⟩ := ha
    cases hop.symm.trans hop'

/-- Settles O40: the access is the store's write, which is valid only in range. -/
theorem storePerforms : Obligations.StorePerforms := by
  unfold Obligations.StorePerforms
  intro s t k h hadv hm hperf hop
  obtain ⟨a, ha, rfl⟩ := acts_of_advances hadv
  have hacc := ha.access
  have hwrite := access_of_performing_store hacc hperf hop
  rw [hwrite] at hacc
  obtain ⟨-, -, -, hin, -⟩ := hacc
  refine ⟨?_, of_decide_eq_true hin⟩
  rw [endOfCycle_run_mem, hwrite]
  exact writeLE_stored hm _ _ _

/-! ## The countdown (R230) -/

theorem countdownAfter_eq (s : State) :
    countdownAfter s = if ∃ x ∈ s.lsb.q[1]?, x.ready = true then s.cfg.memLatency else 0 := by
  unfold countdownAfter
  rcases s.lsb.q with _ | ⟨h, _ | ⟨x, rest⟩⟩ <;> simp

/-- Settles O42, by the act of the memory port: a count, nothing, or a performed access. -/
theorem countdownMachine : Obligations.CountdownMachine := by
  unfold Obligations.CountdownMachine
  intro s t h
  obtain ⟨a, ha, rfl⟩ := acts_of_advances h
  rw [endOfCycle_run_count, ← performed_eq_performing ha.access]
  have hacc := ha.access
  cases hact : a.access with
  | countdown =>
    rw [hact] at hacc
    exact (if_pos hacc).symm
  | idle =>
    rw [hact] at hacc
    obtain ⟨hc, -⟩ := hacc
    simp [AccessAct.countAfter, AccessAct.performed, hc]
  | write k x | read k x =>
    rw [hact] at hacc
    obtain ⟨hc, -⟩ := hacc
    simp [AccessAct.countAfter, AccessAct.performed, hc, countdownAfter_eq]

end Sys2Proof.Proofs
end

section
/-! O15, O43, O44, O46, O58: the buses, the register file and the predictor in one cycle: when the buses
have room, which register the commit writes, and which direction counter it trains
(44_buses_regfile_predictor.md R255, R262, R272 to R275). -/

namespace Sys2Proof.Proofs

-- One proof after the other, on one thread: each thread costs the check 256 MB of stack.
set_option Elab.async false

open Sys2Proof.Machine Sys2Proof.Laws

/-! ## The buses (R255) -/

/-- The fetch and the decoder never raise the cause BUS (R401, R403). -/
theorem step_offer_ne_bus (s : State) : ∃ o, step s = cycle o s ∧ o ≠ .fatal .bus := by
  rcases step_cases s with ⟨-, h⟩ | ⟨-, -, h⟩ | ⟨-, -, -, h⟩ | ⟨-, -, i, -, h⟩
  all_goals exact ⟨_, h, by simp⟩

/-- Settles O15: with three slots on the result bus a cycle stops only at Issue's offer or at an access out
of range (`phases_error_cases`), and neither has the cause BUS. -/
theorem busNeverOverflows : Obligations.BusNeverOverflows := by
  unfold Obligations.BusNeverOverflows
  rintro s t ⟨hh, hf, hl, hw⟩ hrb - hstep ⟨hfatal, hcode⟩
  obtain ⟨o, ho, hbus⟩ := step_offer_ne_bus s
  rw [ho, cycle_running hh hf hl hw] at hstep
  obtain rfl := Host.Outcome.next.inj hstep
  rcases afterCycle_cases o s with ⟨f, herr, ht⟩ | ⟨c, hok, ht⟩
  · have hcause : f.cause ≠ .bus := by
      rcases phases_error_cases hl hrb herr with ⟨cause, rfl, -, hcause⟩ | ⟨-, -, -, hcause⟩
      · exact fun hb => hbus (by rw [← hcause, hb])
      · simp [hcause]
    rw [ht, raiseFatal_fatalCause] at hcode
    cases hc : f.cause with
    | bus => exact hcause hc
    | decode | mem => simp [hc, FatalCause.code] at hcode
  · obtain ⟨a, -, rfl⟩ := phases_acts hok
    rw [ht, endOfCycle_run_fatal hf] at hfatal
    cases hfatal

/-! ## The register file (R262) -/

/-- A flush leaves the values of the registers as the cycle has them (R264). -/
theorem endOfCycle_run_value (a : Acts) (s : State) (r : RegIdx) :
    (endOfCycle s (a.run s)).regs.value r = (a.committed s).regs.value r := by
  unfold endOfCycle
  split <;> rfl

theorem committing_dest_iff {s : State} (h : s.sound) (hc : s.consistent) {e : RobEntry}
    (he : s.committing = some e) : e.dest = none ↔ e.op.noDest = true := by
  obtain ⟨-, hentry⟩ := oldest_eq_some ((committing_eq_some_iff s e).1 he).1
  exact (entry_tag h hc hentry).2

/-- The retirement of an entry writes its committed value to its destination, and no other register
(R168, R170, R171, R262). -/
theorem value_retireBus {e : RobEntry} (hd : e.dest = none ↔ e.op.noDest = true) (rf : RegFile)
    {r : RegIdx} (hr0 : r ≠ 0) :
    (regsCheckBus (retireBus e) rf).value r = if e.dest = some r then e.committed else rf.value r := by
  cases hno : e.op.noDest with
  | false => simp [retireBus_of_writes hno, regsCheckBus, value_acceptCommit, hr0]
  | true =>
    have hnone := hd.2 hno
    rcases retireBus_cases hd with ⟨v, hv⟩ | ⟨-, hv⟩ <;>
      simp [hv, hnone, regsCheckBus, value_acceptCommit]

/-- The value of a register after a cycle: the committed value of the entry that commits with this
destination, or the old one. -/
theorem committed_value_cases {a : Acts} {s : State} (ha : a.taken s) (h : s.sound)
    (hc : s.consistent) (r : RegIdx) :
    (r ≠ 0 ∧ ∃ e, s.committing = some e ∧ e.dest = some r ∧
        (a.committed s).regs.value r = e.committed) ∨
      ((r = 0 ∨ ∀ e, s.committing = some e → e.dest ≠ some r) ∧
        (a.committed s).regs.value r = s.regs.value r) := by
  by_cases hr0 : r = 0
  · obtain ⟨-, -, -, -, hzero, -⟩ := h
    refine .inr ⟨.inl hr0, ?_⟩
    rw [committed_regs, value_forceZero, if_pos hr0, hr0, hzero]
  · rcases commit_of_committing ha.commit with ⟨hcm, hact⟩ | ⟨e, hcm, hop, hact⟩ | ⟨e, hcm, -, hact⟩
    · exact .inr ⟨.inr (by simp [hcm]), committed_value_of_not_retired (by rw [hact]; rfl) hr0⟩
    · have hnone : e.dest = none := (committing_dest_iff h hc hcm).2 (by rw [hop]; rfl)
      exact .inr ⟨.inr (by simp [hcm, hnone]), committed_value_of_not_retired (by rw [hact]; rfl) hr0⟩
    · have hvalue : (a.committed s).regs.value r =
          if e.dest = some r then e.committed else s.regs.value r := by
        have hbus : a.commit.bus = retireBus e := by simp [hact, CommitAct.bus, CommitAct.retired]
        rw [committed_regs, value_forceZero, if_neg hr0, hbus,
          value_retireBus (committing_dest_iff h hc hcm) _ hr0, issued_value]
      by_cases hd : e.dest = some r
      · exact .inl ⟨hr0, e, hcm, hd, by rw [hvalue, if_pos hd]⟩
      · exact .inr ⟨.inr (by simp [hcm, hd]), by rw [hvalue, if_neg hd]⟩

/-- If the register `r` is not in `u` what it is in `s`, the commit of `s` has written it (R262). -/
def changedByCommit (s : State) (r : RegIdx) (u : State) : Prop :=
  u.regs.value r ≠ s.regs.value r →
    r ≠ 0 ∧ ∃ e, s.committing = some e ∧ e.dest = some r ∧ u.regs.value r = e.committed

theorem changedByCommit_same {s u : State} {r : RegIdx} (h : u.regs.value r = s.regs.value r) :
    changedByCommit s r u := fun hne => absurd h hne

theorem committed_changedByCommit {a : Acts} {s : State} (ha : a.taken s) (h : s.sound)
    (hc : s.consistent) (r : RegIdx) : changedByCommit s r (a.committed s) := by
  rcases committed_value_cases ha h hc r with hwritten | ⟨-, hsame⟩
  · exact fun _ => hwritten
  · exact changedByCommit_same hsame

/-- Settles O43: the acts of a step write registers only at its commit, and a flush or a fatal stop writes
none. -/
theorem onlyCommitWritesRegisters : Obligations.OnlyCommitWritesRegisters := by
  unfold Obligations.OnlyCommitWritesRegisters
  intro s t r _ h hc hstep
  exact step_induction (P := changedByCommit s r) hstep (changedByCommit_same rfl)
    (fun _ => changedByCommit_same rfl) (fun a ha => committed_changedByCommit ha h hc r)
    (fun a _ ha => committed_changedByCommit ha h hc r)

/-- A producer tag that is left at the end of a cycle is one the cycle has, without a flush (R264). -/
theorem of_endOfCycle_producer {a : Acts} {s : State} {r : RegIdx} {p : Tag}
    (h : (endOfCycle s (a.run s)).regs.producer r = some p) :
    (a.committed s).regs.producer r = some p := by
  unfold endOfCycle at h
  split at h
  · exact h
  · rw [flushTo_regs, producer_clearTags] at h
    cases h

/-- An entry with a destination that commits is retired from the head slot, whose number is its tag. -/
theorem retired_of_committing {a : Acts} {s : State} (ha : a.taken s) (h : s.sound)
    (hc : s.consistent) {e : RobEntry} (he : s.committing = some e) {rd : RegIdx}
    (hd : e.dest = some rd) :
    a.commit.retired = some e ∧ e.tag = s.rob.head := by
  have hret : a.commit.retired = some e := by
    rcases commit_of_committing ha.commit with ⟨hcm, -⟩ | ⟨e', hcm, hop, -⟩ | ⟨e', hcm, -, hact⟩
    · cases hcm.symm.trans he
    · obtain rfl := Option.some.inj (hcm.symm.trans he)
      rw [(committing_dest_iff h hc hcm).2 (by rw [hop]; rfl)] at hd
      cases hd
    · obtain rfl := Option.some.inj (hcm.symm.trans he)
      rw [hact]
      rfl
  obtain ⟨hentry, -⟩ := retired_at_head ha hret
  exact ⟨hret, (entry_tag h hc hentry).1⟩

/-- After a cycle no register names the entry it has retired: the register that did had it as its
destination (R262, R31). -/
theorem committed_producer_ne_retired {a : Acts} {s : State} (ha : a.taken s) (h : s.sound)
    (hc : s.consistent) {e : RobEntry} (hret : a.commit.retired = some e) (r : RegIdx) :
    (a.committed s).regs.producer r ≠ some e.tag := by
  intro hp
  obtain ⟨⟨x, hx, -⟩, -⟩ := producer_entry (committed_consistent ha h hc) hp
  obtain ⟨hsurvives, -⟩ := of_committed_entry hx
  obtain ⟨hentry, -⟩ := retired_at_head ha hret
  exact hsurvives (by rw [hret]; rfl) (entry_tag h hc hentry).1

/-- Issue replaces a producer only by another one (R128). -/
theorem issued_producer_cases {a : Acts} {s : State} {r : RegIdx} {p : Tag}
    (hp : s.regs.producer r = some p) :
    ∃ p', (a.issued s).regs.producer r = some p' ∧
      (p' = p ∨ p' = s.rob.tail s.cfg ∧ a.issue ≠ none) := by
  cases hi : a.issue with
  | none => exact ⟨p, by rw [issued_of_none s hi, hp], .inl rfl⟩
  | some i =>
    rw [issued_of_some s hi, issueInto_regs, producer_recordProducer]
    split
    · exact ⟨_, rfl, .inr ⟨rfl, by simp⟩⟩
    · exact ⟨p, hp, .inl rfl⟩

/-- A register whose producer is not the head's entry has one after the cycle (R128, R262). -/
theorem committed_producer_isSome {a : Acts} {s : State} (ha : a.taken s) (h : s.sound)
    (hc : s.consistent) {r : RegIdx} {p : Tag} (hp : s.regs.producer r = some p)
    (hne : p ≠ s.rob.head) : ((a.committed s).regs.producer r).isSome = true := by
  obtain ⟨p', hp', hcase⟩ := issued_producer_cases (a := a) hp
  have hsurvives : a.survives s p' := by
    rcases hcase with rfl | ⟨rfl, hissue⟩
    · exact fun _ => hne
    · obtain ⟨i, hi⟩ := Option.ne_none_iff_exists'.1 hissue
      exact tail_survives ha h hc (issue_room ha hi)
  rw [committed_producer_of_survives ha h hc hp' hsurvives]
  rfl

/-- Settles O44: the value by `committed_value_cases`, the producers because the entry that retires is in
its slot no more. -/
theorem commitWritesDestination : Obligations.CommitWritesDestination := by
  unfold Obligations.CommitWritesDestination
  intro s t e rd h hc hadv he hd
  obtain ⟨a, ha, rfl⟩ := acts_of_advances hadv
  obtain ⟨hret, htag⟩ := retired_of_committing ha h hc he hd
  refine ⟨fun hrd0 => ?_, fun r hr => ?_, fun r hp => ?_, fun hm r p hp hne => ?_⟩
  · rw [endOfCycle_run_value]
    rcases committed_value_cases ha h hc rd with ⟨-, e', he', -, hv⟩ | ⟨hno, -⟩
    · obtain rfl := Option.some.inj (he'.symm.trans he)
      exact hv
    · exact absurd hd (hno.resolve_left hrd0 e he)
  · rw [endOfCycle_run_value]
    rcases committed_value_cases ha h hc r with ⟨hr0, e', he', hd', -⟩ | ⟨-, hv⟩
    · obtain rfl := Option.some.inj (he'.symm.trans he)
      exact absurd (Option.some.inj (hd'.symm.trans hd)) (hr.resolve_right hr0)
    · exact hv
  · exact committed_producer_ne_retired ha h hc hret r (of_endOfCycle_producer hp)
  · rw [endOfCycle_none ((run_flushReq_eq_mispredicts ha.commit).trans hm)]
    exact committed_producer_isSome ha h hc hp (htag ▸ hne)

/-! ## The direction counters (R169, R272) -/

/-- A flush leaves the predictor as the cycle has it (R277). -/
theorem endOfCycle_run_bp (a : Acts) (s : State) :
    (endOfCycle s (a.run s)).bp = (a.committed s).bp := by
  unfold endOfCycle
  split <;> rfl

/-- Issue changes no direction counter (R129). -/
theorem issued_ctr (a : Acts) (s : State) : (a.issued s).bp.ctr = s.bp.ctr := by
  cases hi : a.issue with
  | none => rw [issued_of_none s hi]
  | some r => rw [issued_of_some s hi, issueInto_bp, nextFetch_ctr]

/-- Training walks the counter of the address and keeps every other (R272). -/
theorem update_ctr {cfg : Config} {s n : Predictor} (hctr : n.ctr = s.ctr) (pc : Word) (taken : Bool)
    (m : Nat) :
    (Predictor.update s n cfg pc taken).ctr[m]? =
      if pc.toNat % cfg.nBp = m then (s.ctr[m]?).map (saturate · taken) else s.ctr[m]? := by
  simp only [Predictor.update, Predictor.counter, counterIndex, hctr, List.getElem?_set]
  split
  · rename_i hm
    subst hm
    split
    · rename_i hlt
      simp [hlt]
    · rename_i hge
      simp [List.getElem?_eq_none (Nat.le_of_not_lt hge)]
  · rfl

/-- Settles O46: of the acts of a cycle only the retirement of a branch writes a counter. -/
theorem branchTrainsCounter : Obligations.BranchTrainsCounter := by
  unfold Obligations.BranchTrainsCounter
  intro s t n hadv
  obtain ⟨a, ha, rfl⟩ := acts_of_advances hadv
  rw [endOfCycle_run_bp, committed_bp, CommitAct.bpAfter]
  rcases commit_of_committing ha.commit with ⟨hcm, hact⟩ | ⟨e, hcm, hop, hact⟩ | ⟨e, hcm, -, hact⟩
  · simp [hcm, hact, CommitAct.retired, issued_ctr]
  · simp [hcm, hact, hop, CommitAct.retired, issued_ctr]
  · simp only [hcm, hact, CommitAct.retired, retirePredictor]
    cases hop : e.op with
    | mem k => cases k <;> simp [OpKind.group, issued_ctr]
    | arith k =>
      cases k with
      | branch k => simp [OpKind.group, update_ctr (issued_ctr a s), saturate]
      | _ => simp [OpKind.group, issued_ctr]

/-! ## The return stack (R274, R275) -/

/-- A push below the bound evicts nothing. -/
theorem push_ras_of_lt {bp : Predictor} {cfg : Config} (h : bp.ras.length < cfg.nRas) (w : Word) :
    (bp.push cfg w).ras = bp.ras ++ [w] := by
  have hdrop : bp.ras.length + 1 - cfg.nRas = 0 := by omega
  rw [Predictor.push, hdrop, List.drop_zero]

/-- A push onto a full stack evicts the oldest address. -/
theorem push_ras_of_full {bp : Predictor} {cfg : Config} (h : bp.ras.length = cfg.nRas)
    (h1 : 1 ≤ cfg.nRas) (w : Word) : (bp.push cfg w).ras = bp.ras.tail ++ [w] := by
  have hdrop : bp.ras.length + 1 - cfg.nRas = 1 := by omega
  rw [Predictor.push, hdrop, List.drop_append_of_le_length (by omega), List.drop_one]

theorem pop_of_getLast {bp : Predictor} {w : Word} (h : bp.ras.getLast? = some w) :
    bp.pop = (some w, { bp with ras := bp.ras.dropLast }) := by
  simp [Predictor.pop, h]

/-- Settles O58, by the two cases of a push: below the bound and at it. -/
theorem stackPushPop : Obligations.StackPushPop := by
  unfold Obligations.StackPushPop
  intro bp cfg w h1 hle
  have hlast : (bp.push cfg w).ras.getLast? = some w := by
    rcases Nat.lt_or_eq_of_le hle with hlt | hfull
    · rw [push_ras_of_lt hlt, List.getLast?_concat]
    · rw [push_ras_of_full hfull h1, List.getLast?_concat]
  refine ⟨length_push_le bp cfg w, by rw [pop_of_getLast hlast], fun hlt => ?_, List.drop_suffix _ _,
    fun hlt => push_ras_of_lt hlt w, fun hfull => push_ras_of_full hfull h1 w, fun hnil => ?_⟩
  · rw [pop_of_getLast hlast, push_ras_of_lt hlt, List.dropLast_concat]
    rfl
  · simp [Predictor.pop, hnil]

end Sys2Proof.Proofs
end

section
/-! O45: the flush of a mispredicted branch or JALR (40_orchestrator_cycle.md R141,
44_buses_regfile_predictor.md R277): what its commit leaves in the load-store buffer, and the return stack
as the Issue of the same cycle leaves it. -/

namespace Sys2Proof.Proofs

-- One proof after the other, on one thread: each thread costs the check 256 MB of stack.
set_option Elab.async false

open Sys2Proof.Machine Sys2Proof.Laws

/-! ## The instruction a cycle issues (R124, R125) -/

/-- A running cycle that no fatal condition stops goes through its acts, flush or not (R120). -/
theorem acts_of_cycle {o : Offer} {s t : State} (hs : s.running) (h : cycle o s = .next t)
    (hf : t.fatal = false) : ∃ a : Acts, a.valid o s ∧ t = endOfCycle s (a.run s) := by
  obtain ⟨hh, -⟩ := hs
  rcases cycle_acts h with ⟨hstop, rfl⟩ | ⟨-, -, -, -, ⟨f, -, rfl⟩ | hacts⟩
  · simp [State.stopped, hh, hf] at hstop
  · cases hf
  · exact hacts

/-- Issue takes the instruction offered to it exactly when it is not blocked and the station has room. -/
theorem issue_eq_some_iff {i : Instr} {s : State} {a : Option Record} (hw : s.wellSized = true)
    (hb : s.issueBlocked = false) (ha : validIssue (.instr (recordOf i)) s a) (r : Record) :
    a = some r ↔ s.issues i ∧ r = recordOf i := by
  obtain ⟨-, -, hle, -⟩ := (wellSized_iff s).1 hw
  rw [Bool.eq_false_iff, ne_eq, issueBlocked_iff, not_or, Bool.not_eq_true] at hb
  obtain ⟨hh, hne⟩ := hb
  cases a with
  | none =>
    rcases ha with hblocked | hnone | ⟨r', hr', hroom⟩
    · exact absurd ((issueBlocked_iff s).1 hblocked) (by simp [hh, hne])
    · cases hnone
    · cases hr'
      simp [State.issues, hroom]
  | some r' =>
    obtain ⟨hr', -, hroom⟩ := ha
    cases hr'
    have hissues : s.issues i := ⟨hh, Nat.lt_of_le_of_ne hle hne, hroom⟩
    rw [Option.some.injEq, and_iff_right hissues, eq_comm]

/-- A cycle that no fatal condition stops is the acts it takes, and its act of Issue is that of the
instruction at the fetch address, if that has room (R124, R125). -/
theorem acts_of_advances_issue {s t : State} (h : s.advances t) :
    ∃ a : Acts, a.taken s ∧ t = endOfCycle s (a.run s) ∧
      ∀ r, a.issue = some r ↔
        ∃ i, decodeWord (s.mem.readLE s.pc.toNat 4) = .ok i ∧ s.issues i ∧ r = recordOf i := by
  obtain ⟨hs, hstep, hf⟩ := h
  rcases step_cases s with ⟨hb, ho⟩ | ⟨hb, -, ho⟩ | ⟨hb, -, -, ho⟩ | ⟨hb, -, i, hd, ho⟩
  · obtain ⟨a, va, rfl⟩ := acts_of_cycle hs (ho ▸ hstep) hf
    have ha := taken_of_valid hs va (by simp)
    refine ⟨a, ha, rfl, fun r => ⟨fun hr => ?_, fun ⟨i, _, ⟨hh, hn, _⟩, _⟩ => ?_⟩⟩
    · obtain ⟨hunblocked, -⟩ := ha.issue r hr
      cases hb.symm.trans hunblocked
    · cases hb.symm.trans (issueBlocked_eq_false hh hn)
  · rw [cycle_fatal_offer hs hb (ho ▸ hstep)] at hf
    cases hf
  · rw [cycle_fatal_offer hs hb (ho ▸ hstep)] at hf
    cases hf
  · obtain ⟨a, va, rfl⟩ := acts_of_cycle hs (ho ▸ hstep) hf
    have ha := taken_of_valid hs va fun r hr => ⟨i, by simpa using hr.symm⟩
    refine ⟨a, ha, rfl, fun r => ?_⟩
    rw [issue_eq_some_iff ha.wellSized hb va.issue, hd]
    simp

/-! ## The load-store buffer under a flush (R236, R237) -/

/-- A misprediction is that of the branch or JALR that commits (R169, R170). -/
theorem of_mispredicts {s : State} {w : Word} (h : s.mispredicts = some w) :
    ∃ e, s.committing = some e ∧ e.op.checked = true := by
  unfold State.mispredicts at h
  split at h
  · cases h
  · rename_i e he
    split at h
    · rename_i hcond
      exact ⟨e, he, (Bool.and_eq_true_iff.1 hcond).1⟩
    · cases h

/-- The commit of a branch or JALR marks no store ready (R167). -/
theorem markedByCommit_of_checked {s : State} (hs : s.inv) {e : RobEntry} (he : s.committing = some e)
    (hop : e.op.checked = true) {x : LsbEntry} (hx : x ∈ s.lsb.q) : markedByCommit s x = x := by
  refine if_neg fun ⟨hr, htag⟩ => ?_
  rw [he, Option.map_some, Option.some.injEq] at htag
  rw [committing_op_of_tag hs hx hr he htag] at hop
  cases hop

/-- What the memory station has dispatched in this cycle is no committed store at its end. -/
theorem queued_not_committedStore {a : Acts} {s : State} (ha : a.taken s) (hs : s.inv) {x : LsbEntry}
    (hx : x ∈ a.mem.queued) : (x.markReady a.commit.bus).committedStore = false := by
  obtain ⟨h, hc, ho⟩ := hs
  obtain ⟨e, he, -, -, ⟨k, -, rfl⟩ | hload⟩ := of_mem_queued ha hx
  · obtain ⟨y, hy, hr, -⟩ := owned_rsm ho (dispatched_mem_rsm ha he)
    rw [markReady_of_unready_entry ha h hc (y := queuedStore k e) hy hr]
    rfl
  · rw [committedStore_eq, markReady_isStore, hload, Bool.false_and]

/-- A cycle in which a branch or JALR commits adds no committed store and takes off only the performed
one. -/
theorem committed_filter_committedStore {a : Acts} {s : State} (ha : a.taken s) (hs : s.inv)
    {e : RobEntry} (he : s.committing = some e) (hop : e.op.checked = true) :
    (a.committed s).lsb.q.filter LsbEntry.committedStore =
      s.queueAfterAccess.filter LsbEntry.committedStore := by
  have hold : s.queueAfterAccess.map (markedByCommit s) = s.queueAfterAccess := by
    rw [List.map_congr_left fun x hx =>
      markedByCommit_of_checked hs he hop (mem_queue_of_mem_queueAfterAccess hx), List.map_id']
  have hnew : (a.mem.queued.map (LsbEntry.markReady a.commit.bus)).filter LsbEntry.committedStore = [] := by
    simp only [List.filter_eq_nil_iff, List.mem_map, Bool.not_eq_true]
    rintro _ ⟨x, hx, rfl⟩
    exact queued_not_committedStore ha hs hx
  rw [committed_q_eq_marked ha hs, List.filter_append, hold, hnew, List.append_nil]

/-! ## The flush (R141) -/

/-- Settles O45: a cycle that mispredicts ends in `flushTo`, the queue as its commit has left it, and the
stack as its act of Issue has. -/
theorem mispredictionFlushes : Obligations.MispredictionFlushes := by
  unfold Obligations.MispredictionFlushes
  intro s t w hs hadv hm
  obtain ⟨a, ha, rfl, hissue⟩ := acts_of_advances_issue hadv
  obtain ⟨e, he, hop⟩ := of_mispredicts hm
  have hend : endOfCycle s (a.run s) = flushTo w (a.committed s) :=
    endOfCycle_some ((run_flushReq_eq_mispredicts ha.commit).trans hm)
  rw [hend]
  refine ⟨rfl, rfl, rfl, fun x hx => List.eq_of_mem_replicate hx, fun x hx => List.eq_of_mem_replicate hx,
    rfl, fun r => producer_clearTags _ r, rfl, committed_filter_committedStore ha hs he hop, ?_, ?_⟩
  · intro i hd hi
    rw [flushTo_bp, committed_ras, issued_of_some s ((hissue _).2 ⟨i, hd, hi, rfl⟩), issueInto_bp,
      nextFetch_ras]
  · intro hno
    have hnone : a.issue = none := Option.eq_none_iff_forall_ne_some.2 fun r hr => by
      obtain ⟨i, hd, hi, -⟩ := (hissue r).1 hr
      exact hno i hd hi
    rw [flushTo_bp, committed_ras, issued_of_none s hnone]

end Sys2Proof.Proofs
end

section
/-! O59: the arithmetic unit in integers, and its results in the terms of the instructions' statements
(45_ops_integer.md R300). -/

namespace Sys2Proof.Proofs

-- One proof after the other, on one thread: each thread costs the check 256 MB of stack.
set_option Elab.async false

open Sys2Proof.Machine Sys2Proof.Laws

/-- Adding the complement and one subtracts. -/
theorem aluSub_eq (a b : Word) : aluSub a b = a - b := by
  rw [BitVec.sub_eq_add_neg, BitVec.neg_eq_not_add, ← BitVec.add_assoc]
  rfl

theorem aluSlt_eq (a b : Word) : aluSlt a b = if a.toInt < b.toInt then 1 else 0 := by
  simp [aluSlt, boolWord, lessSigned]

theorem aluSltu_eq (a b : Word) : aluSltu a b = if a.toNat < b.toNat then 1 else 0 := by
  simp [aluSltu, boolWord, lessUnsigned]

theorem shamtOf_eq (b : Word) : shamtOf b = b.toNat % 32 := by
  simp [shamtOf, BitVec.extractLsb'_toNat]

/-- An immediate shift's five-bit amount is used whole (R99, R309 to R311). -/
theorem shamtOf_setWidth (sh : BitVec 5) : shamtOf (sh.setWidth 32) = sh.toNat := by
  have hlt := sh.isLt
  rw [shamtOf_eq, BitVec.toNat_setWidth]
  omega

/-- Settles O59, function by function, each by the integer reading of its bit-vector operation. -/
theorem arithmeticUnit : Obligations.ArithmeticUnit := by
  unfold Obligations.ArithmeticUnit
  intro a b
  refine ⟨BitVec.toNat_add a b, ?_, aluSlt_eq a b, aluSltu_eq a b, fun n _ => ⟨?_, ?_, ?_⟩, ?_, ?_, ?_⟩
  · rw [aluSub_eq, BitVec.toInt_sub]
  · exact BitVec.getLsbD_xor
  · exact BitVec.getLsbD_or
  · exact BitVec.getLsbD_and
  · rw [aluSll, shamtOf_eq, BitVec.toNat_shiftLeft, Nat.shiftLeft_eq]
  · rw [aluSrl, shamtOf_eq, BitVec.toNat_ushiftRight, Nat.shiftRight_eq_div_pow]
  · rw [aluSra, shamtOf_eq, BitVec.toInt_sshiftRight, Int.shiftRight_eq_div_pow]
    norm_cast

end Sys2Proof.Proofs
end

section
/-! An arithmetic-class instruction, followed from the cycle that issues it into an idle machine to the
cycle that retires it, whatever is fetched behind it: one cycle executes it and one commits it
(40_orchestrator_cycle.md R147, 42_reservation_stations.md R194 to R196, 41_reorder_buffer.md R163 to
R174). -/

namespace Sys2Proof.Proofs

-- One proof after the other, on one thread: each thread costs the check 256 MB of stack.
set_option Elab.async false

open Sys2Proof.Machine Sys2Proof.Laws

/-! ## Runs that a fatal condition may stop -/

/-- The state `n` cycles after `u` meets `post`, unless a fatal condition has stopped the machine. -/
def reachesUnlessFatal (n : Nat) (post : State → Prop) (u : State) : Prop :=
  ∃ w, Host.Core.run Sys2Proof.core n u = .next w ∧ (w.fatal = false → post w)

theorem reachesUnlessFatal_zero {post : State → Prop} {u : State} (h : post u) :
    reachesUnlessFatal 0 post u := ⟨u, rfl, fun _ => h⟩

/-- It is enough to follow the cycles that no fatal condition stops. -/
theorem reachesUnlessFatal_succ {n : Nat} {post : State → Prop} {u : State} (hu : u.running)
    (h : ∀ a : Acts, a.taken u → reachesUnlessFatal n post (endOfCycle u (a.run u))) :
    reachesUnlessFatal (n + 1) post u := by
  obtain ⟨t, hstep, ⟨cause, rfl⟩ | ⟨a, ha, rfl⟩⟩ := step_running hu
  · have hstopped : State.stopped { u with fatal := true, fatalCause := cause } = true := by
      simp [State.stopped]
    exact ⟨_, (run_succ hstep n).trans (run_stopped hstopped n), fun hf => by cases hf⟩
  · obtain ⟨w, hw, hpost⟩ := h a ha
    exact ⟨w, (run_succ hstep n).trans hw, hpost⟩

/-! ## What stands behind the oldest entry -/

/-- The oldest entry of `v` is followed by an instruction at `next`: the next entry, or, when there is none,
the instruction that is fetched next (R24, R174). -/
def followedBy (v : State) (next : Word) : Prop :=
  (v.rob.count = 1 ∧ v.pc = next) ∨
    (2 ≤ v.rob.count ∧
      ∃ y, v.rob.entry ((v.rob.head + 1) % v.cfg.nRob) = some y ∧ y.pc = next)

/-- The slot behind the head is another (R9: there are two at least). -/
theorem next_ne_head {rob : Rob} {cfg : Config} (hl : cfg.legal = true) (hh : rob.head < cfg.nRob) :
    (rob.head + 1) % cfg.nRob ≠ rob.head := by
  have hn := legal_nRob hl
  by_cases hw : rob.head + 1 = cfg.nRob
  · rw [hw, Nat.mod_self]
    omega
  · rw [Nat.mod_eq_of_lt (by omega)]
    omega

/-- The slot behind the head is not the tail, but behind an only entry. -/
theorem next_ne_tail {rob : Rob} {cfg : Config} (hh : rob.head < cfg.nRob) (h2 : 2 ≤ rob.count)
    (hn : rob.count < cfg.nRob) : (rob.head + 1) % cfg.nRob ≠ rob.tail cfg := by
  intro heq
  have htail := age_tail hh hn
  rw [← heq, age_eq hh (Nat.mod_lt _ (by omega))] at htail
  by_cases hw : rob.head + 1 = cfg.nRob
  · rw [hw, Nat.mod_self] at htail
    split at htail <;> omega
  · rw [Nat.mod_eq_of_lt (by omega)] at htail
    split at htail <;> omega

theorem issued_count (a : Acts) (u : State) :
    (a.issued u).rob.count = if a.issue = none then u.rob.count else u.rob.count + 1 := by
  cases hi : a.issue with
  | none => rw [issued_of_none u hi, if_pos rfl]
  | some r => simp [issued_of_some u hi, Rob.issue]

/-- The entry that Issue puts in the tail slot has the address that was to be fetched next (R161). -/
theorem issued_entry_tail {a : Acts} {u : State} (ha : a.taken u) {r : Record} (hi : a.issue = some r) :
    (a.issued u).rob.entry (u.rob.tail u.cfg) = some (newRobEntry r (u.rob.tail u.cfg) u.pc) := by
  obtain ⟨hslots, hhead, -⟩ := (wellSized_iff u).1 ha.wellSized
  rw [issued_of_some u hi, issueInto_rob, entry_issue r u.pc _ hhead hslots, if_pos rfl]

/-- Issue goes on behind the oldest entry and leaves what already follows it (R29, R161). -/
theorem issued_followedBy {a : Acts} {u : State} (ha : a.taken u) {next : Word}
    (h : followedBy u next) : followedBy (a.issued u) next := by
  obtain ⟨hslots, hhead, -⟩ := (wellSized_iff u).1 ha.wellSized
  cases hi : a.issue with
  | none => rwa [issued_of_none u hi]
  | some r =>
    have hcount : (a.issued u).rob.count = u.rob.count + 1 := by simp [issued_of_some u hi, Rob.issue]
    rw [followedBy, issued_rob_head, issued_cfg]
    right
    rcases h with ⟨hc, hpc⟩ | ⟨hc, y, hy, hpc⟩
    · have htail : u.rob.tail u.cfg = (u.rob.head + 1) % u.cfg.nRob := by rw [Rob.tail, hc]
      exact ⟨by omega, _, htail ▸ issued_entry_tail ha hi, hpc⟩
    · refine ⟨by omega, y, ?_, hpc⟩
      rw [issued_of_some u hi, issueInto_rob, entry_issue r u.pc _ hhead hslots,
        if_neg (next_ne_tail hhead hc (issue_room ha hi)), hy]

/-- The slot behind the head keeps its entry and that entry's address through Commit and the buses. -/
theorem committed_entry_next {a : Acts} {u : State} (ha : a.taken u) {y : RobEntry}
    (hy : (a.issued u).rob.entry ((u.rob.head + 1) % u.cfg.nRob) = some y) :
    ∃ y', (a.committed u).rob.entry ((u.rob.head + 1) % u.cfg.nRob) = some y' ∧ y'.pc = y.pc := by
  obtain ⟨-, hhead, -⟩ := (wellSized_iff u).1 ha.wellSized
  have hsurvives : a.survives u ((u.rob.head + 1) % u.cfg.nRob) :=
    fun _ => next_ne_head ha.legal hhead
  obtain ⟨hpc, -⟩ := afterBus_keeps (a.resultBus u) ((u.rob.head + 1) % u.cfg.nRob) y
  exact ⟨_, by rw [committed_entry_of_survives hsurvives, hy, Option.map_some], hpc⟩

theorem committed_followedBy {a : Acts} {u : State} (ha : a.taken u) (hcm : a.commit = .none)
    {next : Word} (h : followedBy u next) : followedBy (a.committed u) next := by
  have hret : a.commit.retired = none := by rw [hcm]; rfl
  have hcount : (a.committed u).rob.count = (a.issued u).rob.count := by
    simp [committed_robCount, Acts.pops, hret]
  have hissued := issued_followedBy ha h
  simp only [followedBy, issued_rob_head, issued_cfg] at hissued
  simp only [followedBy, hcount, committed_pc, committed_head, hret, committed_cfg]
  rcases hissued with hlast | ⟨hc, y, hy, hpc⟩
  · exact .inl hlast
  · obtain ⟨y', hy', hpc'⟩ := committed_entry_next ha hy
    exact .inr ⟨hc, y', hy', hpc'.trans hpc⟩

/-- When the oldest entry has retired, the next instruction to commit is the one that followed it (R24,
R166). -/
theorem committed_archPc {a : Acts} {u : State} (ha : a.taken u) {x : RobEntry}
    (hcm : a.commit = .retire x) {next : Word} (h : followedBy u next) :
    (a.committed u).archPc = next := by
  have hret : a.commit.retired = some x := by rw [hcm]; rfl
  have hcount : (a.committed u).rob.count = (a.issued u).rob.count - 1 := by
    simp [committed_robCount, Acts.pops, hret]
  have hhead : (a.committed u).rob.head = (u.rob.head + 1) % u.cfg.nRob := by
    simp [committed_head, hret]
  have hissued := issued_followedBy ha h
  simp only [followedBy, issued_rob_head, issued_cfg] at hissued
  rcases hissued with ⟨hc, hpc⟩ | ⟨hc, y, hy, hpc⟩
  · rw [State.archPc, if_pos (by omega), committed_pc, hpc]
  · obtain ⟨y', hy', hpc'⟩ := committed_entry_next ha hy
    rw [Rob.entry] at hy'
    rw [State.archPc, if_neg (by omega), hhead, hy']
    exact hpc'.trans hpc

/-! ## The cycle that executes the instruction -/

/-- The station entry of an arithmetic instruction issued into an idle machine (R192). -/
def issuedArith (s : State) (i : Instr) (k : ArithKind) : RsEntry ArithKind :=
  { op := k, tag := s.rob.head, vj := s.source (recordOf i).rs1, qj := none,
    vk := s.source (recordOf i).rs2, qk := none, imm := stationImm k (recordOf i).imm s.pc, pc := s.pc }

/-- The reorder-buffer entry of that instruction when it has executed (R172). -/
def executedEntry (s : State) (i : Instr) (k : ArithKind) : RobEntry :=
  (newRobEntry (recordOf i) s.rob.head s.pc).complete (arithResult (issuedArith s i k)).1

/-- The executed instruction `x` is the oldest in flight in `v`, which has the registers and the bytes of
`s`; the instruction at `next` follows it, and no access is in flight but behind it. -/
structure Executed (s v : State) (x : RobEntry) (next : Word) : Prop where
  underway : Underway s v
  oldest : v.rob.oldest = some x
  ready : x.ready = true
  followed : followedBy v next
  buffer : v.lsb.q = []
  station : ∀ e ∈ v.rsm, e.tag ≠ x.tag

theorem issued_arith {s : State} (hs : s.idle) {i : Instr} {k : ArithKind}
    (hop : (recordOf i).op = .arith k) {a : Acts} (ha : a.taken (s.issued i)) :
    a.arith = some (0, issuedArith s i k) := by
  obtain ⟨⟨-, -, hl, hw⟩, -⟩ := hs
  obtain ⟨-, -, -, hlen, -⟩ := (wellSized_iff s).1 hw
  obtain ⟨hrsa1, -⟩ := legal_room hl
  have hrsa : (s.issued i).rsa = s.rsa.set 0 (some (issuedArith s i k)) := by
    simp only [State.issued, hop, issuedArith]
  rw [← ha.arith, hrsa]
  cases hslots : s.rsa with
  | nil => simp [hslots] at hlen; omega
  | cons y rest => rfl

theorem issued_mem_none {s : State} {i : Instr} {k : ArithKind} (hop : (recordOf i).op = .arith k)
    {a : Acts} (ha : a.taken (s.issued i)) : a.mem = .none := by
  have hrsm : (s.issued i).rsm = [] := by simp only [State.issued, hop]
  have hva := ha.mem
  cases hm : a.mem with
  | none => rfl
  | _ =>
    rw [hm, validMem, hrsm] at hva
    cases hva.1

/-- Only the result of the instruction is on the result bus (R195). -/
theorem issued_resultBus {s : State} (hs : s.idle) {i : Instr} {k : ArithKind}
    (hop : (recordOf i).op = .arith k) {a : Acts} (ha : a.taken (s.issued i))
    (hacc : a.access = .idle) :
    a.resultBus (s.issued i) =
      [⟨s.rob.head, (arithResult (issuedArith s i k)).1, (arithResult (issuedArith s i k)).2⟩] := by
  rw [Acts.resultBus, issued_arith hs hop ha, issued_mem_none hop ha, hacc]
  rfl

/-- The oldest entry takes the result bus in a cycle that commits nothing (R172). -/
theorem committed_oldest_afterBus {u : State} {a : Acts} (ha : a.taken u) (hcm : a.commit = .none)
    {x : RobEntry} (hx : u.rob.oldest = some x) :
    (a.committed u).rob.oldest = some (RobEntry.afterBus (a.resultBus u) u.rob.head x) := by
  obtain ⟨y, hy, -⟩ := committed_oldest_op ha hcm hx
  obtain ⟨-, hentry'⟩ := oldest_eq_some hy
  obtain ⟨hpos, hentry⟩ := oldest_eq_some hx
  have hret : a.commit.retired = none := by rw [hcm]; rfl
  have hhead : (a.committed u).rob.head = u.rob.head := by simp [committed_head, hret]
  rw [hy, ← hentry', hhead, committed_entry, issued_entry_head ha hpos, hentry]
  simp [hret]

/-- Only what Issue puts behind the instruction is in the memory station, with another tag (R31, R193). -/
theorem ne_head_of_mem_committed_rsm {s : State} {i : Instr} {k : ArithKind}
    (hop : (recordOf i).op = .arith k) {a : Acts} (ha : a.taken (s.issued i)) {e : RsEntry MemKind}
    (he : e ∈ (a.committed (s.issued i)).rsm) : e.tag ≠ s.rob.head := by
  obtain ⟨e0, he0, rfl⟩ := of_mem_committed_rsm he
  have hrsm : (s.issued i).rsm = [] := by simp only [State.issued, hop]
  cases hi : a.issue with
  | none =>
    rw [issued_of_none _ hi, hrsm] at he0
    cases he0
  | some r =>
    rw [issued_of_some _ hi] at he0
    obtain ⟨-, hhead, -⟩ := (wellSized_iff _).1 ha.wellSized
    rcases of_mem_issueInto_rsm he0 with he0 | ⟨m, -, rfl⟩
    · rw [hrsm] at he0
      cases he0
    · exact (head_ne_tail hhead Nat.one_pos (issue_room ha hi)).symm

/-- The cycle after the issue executes the instruction; no access and no commit is made in it. -/
theorem issued_executed {s : State} (hs : s.idle) {i : Instr} {k : ArithKind}
    (hop : (recordOf i).op = .arith k) {a : Acts} (ha : a.taken (s.issued i)) :
    endOfCycle (s.issued i) (a.run (s.issued i)) = a.committed (s.issued i) ∧
      Executed s (a.committed (s.issued i)) (executedEntry s i k) (s.fetchesAfter i) := by
  have hu := issued_underway hs i
  have hold := issued_oldest hs i
  have hbuffer : (s.issued i).lsb.q = [] := by
    obtain ⟨-, -, -, -, -, -, hq, -⟩ := hs
    exact hq
  have hcm := commit_none ha hold rfl
  have hacc := access_idle ha hu.countdown (by simp [State.performing, hu.countdown, hbuffer])
  refine ⟨endOfCycle_of_commit_none hcm, hu.next ha hacc (.inl hcm), ?_, rfl,
    committed_followedBy ha hcm (.inl ⟨rfl, rfl⟩), ?_, fun e he => ?_⟩
  · have hbus := issued_resultBus hs hop ha hacc
    rw [committed_oldest_afterBus ha hcm hold, hbus]
    exact congrArg some (afterBus_of_mem (by simp) (List.mem_singleton.2 rfl) rfl)
  · rw [committed_q, hbuffer, issued_mem_none hop ha]
    simp [MemAct.queued]
  · exact ne_head_of_mem_committed_rsm hop ha he

/-! ## The cycle that commits it -/

theorem Executed.commit {s v : State} {x : RobEntry} {next : Word} (h : Executed s v x next)
    {b : Acts} (hb : b.taken v) (hg : x.op.group ≠ .halt) : b.commit = .retire x :=
  commit_retire hb h.oldest h.ready hg

theorem Executed.access {s v : State} {x : RobEntry} {next : Word} (h : Executed s v x next)
    {b : Acts} (hb : b.taken v) : b.access = .idle :=
  access_idle hb h.underway.countdown
    (by simp [State.performing, h.underway.countdown, h.buffer])

/-- The commit writes the committed value to the destination, `x0` excepted, and no other register (R262,
R265). -/
theorem Executed.committed_value {s v : State} {x : RobEntry} {next : Word} (h : Executed s v x next)
    {b : Acts} (hcm : b.commit = .retire x) (hd : x.dest = none ↔ x.op.noDest = true) (r : RegIdx) :
    (b.committed v).regs.value r =
      if x.dest = some r ∧ r ≠ 0 then x.committed else s.regs.value r := by
  have hbus : b.commit.bus = retireBus x := by simp [hcm, CommitAct.bus, CommitAct.retired]
  rw [committed_regs, value_forceZero, hbus]
  by_cases hr0 : r = 0
  · simp [hr0, h.underway.zero]
  · rw [if_neg hr0, value_retireBus hd _ hr0, issued_value, h.underway.regs r]
    simp [hr0]

/-- Entries that are no committed stores owe nothing to the backing store (R80). -/
theorem pendingApplied_of_uncommitted {q : List LsbEntry} (h : ∀ x ∈ q, x.committedStore = false)
    (m : Memory) : pendingApplied q m = m := by
  induction q with
  | nil => rfl
  | cons x rest ih =>
    rw [pendingApplied_cons, h x List.mem_cons_self, if_neg Bool.false_ne_true,
      ih fun y hy => h y (List.mem_cons_of_mem _ hy)]

/-- What is dispatched behind the instruction stays unready: the commit bus carries the instruction's own
tag only (R228). -/
theorem Executed.committed_uncommitted {s v : State} {x : RobEntry} {next : Word}
    (h : Executed s v x next) {b : Acts} (hb : b.taken v) (hcm : b.commit = .retire x) :
    ∀ y ∈ (b.committed v).lsb.q, y.committedStore = false := by
  intro y hy
  obtain ⟨y0, rfl, hy0⟩ := of_mem_committed_q hy
  rw [h.buffer] at hy0
  obtain ⟨e, hd, htag, -, hkind⟩ := of_mem_queued hb (hy0.resolve_left List.not_mem_nil)
  rw [committedStore_eq, markReady_isStore]
  rcases hkind with ⟨k, -, rfl⟩ | hload
  · have hquiet : b.commit.bus.any (fun c => decide (c.tag = e.tag)) = false := by
      simp only [hcm, CommitAct.bus, CommitAct.retired, Option.toList_some, List.flatMap_singleton,
        List.any_eq_false, decide_eq_true_eq]
      exact fun c hc hct =>
        h.station e (dispatched_mem_rsm hb hd) (hct.symm.trans (tag_of_mem_retireBus hc))
    rw [markReady_ready_eq, htag, hquiet]
    rfl
  · rw [hload, Bool.false_and]

theorem Executed.committed_sameMemory {s v : State} {x : RobEntry} {next : Word}
    (h : Executed s v x next) {b : Acts} (hb : b.taken v) (hcm : b.commit = .retire x) :
    s.sameMemory (b.committed v) := by
  have hmem : (b.committed v).mem = s.mem := by
    rw [committed_mem, h.access hb]
    exact h.underway.mem
  intro addr
  rw [pendingApplied_of_uncommitted (h.committed_uncommitted hb hcm), hmem]
  exact ⟨rfl, rfl⟩

/-- A retirement does not halt the machine (R143). -/
theorem Executed.committed_halted {s v : State} {x : RobEntry} {next : Word} (h : Executed s v x next)
    {b : Acts} (hcm : b.commit = .retire x) : (b.committed v).halted = false := by
  obtain ⟨hh, -⟩ := h.underway.running
  simpa [Acts.committed, Acts.run, hcm, applyCommit] using hh

/-- The cycle that retires the instruction leaves its result in its destination, and the next instruction
to commit is the one that follows it. -/
theorem Executed.committed_wrote {s v : State} {x : RobEntry} {next : Word} (h : Executed s v x next)
    {b : Acts} (hb : b.taken v) (hg : x.op.group ≠ .halt) (hd : x.dest = none ↔ x.op.noDest = true)
    {rd : RegIdx} (hrd : x.dest = some rd) : s.wrote (b.committed v) rd x.committed next := by
  have hcm := h.commit hb hg
  refine ⟨fun r => ?_, committed_archPc hb hcm h.followed, h.committed_sameMemory hb hcm,
    h.committed_halted hcm⟩
  simp only [h.committed_value hcm hd, hrd, Option.some.injEq, eq_comm]

/-- The commit of a kind without a target check flushes nothing (R167, R168, R171). -/
theorem endOfCycle_of_retire_unchecked {v : State} {b : Acts} {x : RobEntry}
    (hcm : b.commit = .retire x) (hx : x.op.checked = false) :
    endOfCycle v (b.run v) = b.committed v := by
  refine endOfCycle_none ?_
  rw [run_flushReq, hcm]
  simp [CommitAct.retired, retireFlush, ← checked_iff, hx]

/-! ## Completion -/

/-- An arithmetic instruction with a destination and without a target check completes in two cycles with
the value its entry commits (R147, R298). -/
theorem completes_arith {s : State} (hs : s.idle) {i : Instr} {k : ArithKind} {rd : RegIdx}
    (hop : (recordOf i).op = .arith k) (hrd : (recordOf i).rd = some rd)
    (hchecked : (recordOf i).op.checked = false) :
    completes i s 2 fun w => s.wrote w rd (executedEntry s i k).committed (s.fetchesAfter i) := by
  refine ⟨exec_idle hs i, reachesUnlessFatal_succ (issued_underway hs i).running fun a ha => ?_⟩
  obtain ⟨hend, h⟩ := issued_executed hs hop ha
  rw [hend]
  refine reachesUnlessFatal_succ h.underway.running fun b hb => reachesUnlessFatal_zero ?_
  have hd := recordOf_rd_none i
  have hg : (recordOf i).op.group ≠ .halt := fun hg => by
    rw [hrd, (group_halt_iff _).1 hg] at hd
    simp [OpKind.noDest] at hd
  rw [endOfCycle_of_retire_unchecked (h.commit hb hg) hchecked]
  exact h.committed_wrote hb hg hd hrd

/-- Behind an instruction that neither branches nor jumps the next word is fetched (R129). -/
theorem fetchesAfter_of_sequential (s : State) {i : Instr} {k : ArithKind}
    (hop : (recordOf i).op = .arith k) (hchecked : (OpKind.arith k).checked = false) (hjal : k ≠ .jal) :
    s.fetchesAfter i = s.pc + 4 := by
  cases k with
  | jal => exact absurd rfl hjal
  | jalr | branch => cases hchecked
  | _ => simp only [State.fetchesAfter, hop]

/-- The commit of such an instruction writes the result of its execution (R168, R171). -/
theorem executedEntry_committed (s : State) {i : Instr} {k : ArithKind}
    (hop : (recordOf i).op = .arith k) (hchecked : (OpKind.arith k).checked = false) (hjal : k ≠ .jal) :
    (executedEntry s i k).committed = (arithResult (issuedArith s i k)).1 := by
  have hop' : (executedEntry s i k).op = .arith k := hop
  cases k with
  | jal => exact absurd rfl hjal
  | jalr | branch => cases hchecked
  | _ => simp only [RobEntry.committed, hop']; rfl

/-- An arithmetic instruction that neither branches nor jumps completes with the result of its execution on
the operands and the immediate that Issue has captured (R192, R196, R298). -/
theorem writesNext_arith {s : State} (hs : s.idle) {i : Instr} {k : ArithKind} {rd : RegIdx}
    (hop : (recordOf i).op = .arith k) (hrd : (recordOf i).rd = some rd)
    (hchecked : (OpKind.arith k).checked = false) (hjal : k ≠ .jal) :
    writesNext i s rd (arithResult (issuedArith s i k)).1 := by
  rw [writesNext, ← executedEntry_committed s hop hchecked hjal,
    ← fetchesAfter_of_sequential s hop hchecked hjal]
  exact completes_arith hs hop hrd (hop ▸ hchecked)

end Sys2Proof.Proofs
end

section
/-! O20, O21, O22: the 21 integer instructions (45_ops_integer.md R298 to R321), each by the function of the
arithmetic unit that its kind executes. -/

namespace Sys2Proof.Proofs

-- One proof after the other, on one thread: each thread costs the check 256 MB of stack.
set_option Elab.async false

open Sys2Proof.Machine Sys2Proof.Laws

/-- The register-immediate kinds (R303 to R311). -/
theorem writesNext_imm {s : State} (hs : s.idle) {i : Instr} {k : ImmKind} {rd : RegIdx}
    (hop : (recordOf i).op = .arith (.imm k)) (hrd : (recordOf i).rd = some rd) :
    writesNext i s rd (immAlu k (s.source (recordOf i).rs1) (recordOf i).imm) :=
  writesNext_arith hs hop hrd rfl nofun

/-- The register-register kinds (R312 to R321). -/
theorem writesNext_reg {s : State} (hs : s.idle) {i : Instr} {k : RegKind} {rd : RegIdx}
    (hop : (recordOf i).op = .arith (.reg k)) (hrd : (recordOf i).rd = some rd) :
    writesNext i s rd (regAlu k (s.source (recordOf i).rs1) (s.source (recordOf i).rs2)) :=
  writesNext_arith hs hop hrd rfl nofun

/-- Settles O20: the immediate is the second operand, for the shifts the five-bit amount. -/
theorem registerImmediateCompletes : Obligations.RegisterImmediateCompletes := by
  unfold Obligations.RegisterImmediateCompletes
  intro s rd rs1 imm sh hs a b
  refine ⟨?addi, ?slti, ?sltiu, ?xori, ?ori, ?andi, ?slli, ?srli, ?srai⟩
  case addi => exact writesNext_imm hs (i := .addi rd rs1 imm) rfl rfl
  case slti => exact aluSlt_eq a b ▸ writesNext_imm hs (i := .slti rd rs1 imm) rfl rfl
  case sltiu => exact aluSltu_eq a b ▸ writesNext_imm hs (i := .sltiu rd rs1 imm) rfl rfl
  case xori => exact writesNext_imm hs (i := .xori rd rs1 imm) rfl rfl
  case ori => exact writesNext_imm hs (i := .ori rd rs1 imm) rfl rfl
  case andi => exact writesNext_imm hs (i := .andi rd rs1 imm) rfl rfl
  case slli => exact shamtOf_setWidth sh ▸ writesNext_imm hs (i := .slli rd rs1 sh) rfl rfl
  case srli => exact shamtOf_setWidth sh ▸ writesNext_imm hs (i := .srli rd rs1 sh) rfl rfl
  case srai => exact shamtOf_setWidth sh ▸ writesNext_imm hs (i := .srai rd rs1 sh) rfl rfl

/-- Settles O21: both operands are registers, and a shift uses the low five bits of the second. -/
theorem registerRegisterCompletes : Obligations.RegisterRegisterCompletes := by
  unfold Obligations.RegisterRegisterCompletes
  intro s rd rs1 rs2 hs a b
  refine ⟨?add, ?sub, ?sll, ?slt, ?sltu, ?xor, ?srl, ?sra, ?or, ?and⟩
  case add => exact writesNext_reg hs (i := .add rd rs1 rs2) rfl rfl
  case sub => exact aluSub_eq a b ▸ writesNext_reg hs (i := .sub rd rs1 rs2) rfl rfl
  case sll => exact shamtOf_eq b ▸ writesNext_reg hs (i := .sll rd rs1 rs2) rfl rfl
  case slt => exact aluSlt_eq a b ▸ writesNext_reg hs (i := .slt rd rs1 rs2) rfl rfl
  case sltu => exact aluSltu_eq a b ▸ writesNext_reg hs (i := .sltu rd rs1 rs2) rfl rfl
  case xor => exact writesNext_reg hs (i := .xor rd rs1 rs2) rfl rfl
  case srl => exact shamtOf_eq b ▸ writesNext_reg hs (i := .srl rd rs1 rs2) rfl rfl
  case sra => exact shamtOf_eq b ▸ writesNext_reg hs (i := .sra rd rs1 rs2) rfl rfl
  case or => exact writesNext_reg hs (i := .or rd rs1 rs2) rfl rfl
  case and => exact writesNext_reg hs (i := .and rd rs1 rs2) rfl rfl

/-- Settles O22: the result is the immediate as the station holds it, AUIPC's with the pc added (R192). -/
theorem upperImmediateCompletes : Obligations.UpperImmediateCompletes := by
  unfold Obligations.UpperImmediateCompletes
  intro s rd imm20 hs
  exact ⟨writesNext_arith hs (i := .lui rd imm20) rfl rfl rfl nofun,
    writesNext_arith hs (i := .auipc rd imm20) rfl rfl rfl nofun⟩

end Sys2Proof.Proofs
end

section
/-! O23, O24, O25: the jumps and the six branches (46_ops_control.md R338 to R347). JAL goes to its target
already at Issue; the commit of a branch or a JALR checks the address that was fetched behind it, and the next
instruction to commit is at the resolved target with the flush and without it (41_reorder_buffer.md R168 to
R170, R174, 40_orchestrator_cycle.md R141). -/

namespace Sys2Proof.Proofs

-- One proof after the other, on one thread: each thread costs the check 256 MB of stack.
set_option Elab.async false

open Sys2Proof.Machine Sys2Proof.Laws

/-! ## The state a flush leaves (R141) -/

theorem flushTo_archPc (target : Word) (n : State) : (flushTo target n).archPc = target := rfl

/-- Where no store has committed, the flush leaves nothing owed to the backing store (R236). -/
theorem flushTo_sameMemory {s n : State} (target : Word)
    (hq : ∀ y ∈ n.lsb.q, y.committedStore = false) (h : s.sameMemory n) :
    s.sameMemory (flushTo target n) := by
  have hempty : (flushTo target n).lsb.q = [] :=
    List.filter_eq_nil_iff.2 fun y hy => by simp [hq y hy]
  intro addr
  obtain ⟨hbyte, -⟩ := h addr
  rw [hempty, pendingApplied_nil, flushTo_mem]
  exact ⟨hbyte, hbyte⟩

/-! ## The target check (R169, R170, R174) -/

/-- The check compares the target with the address of the instruction that follows. -/
theorem fetchedAfter_of_followedBy {v : State} {next : Word} (h : followedBy v next) :
    fetchedAfter v = next := by
  unfold fetchedAfter
  rcases h with ⟨hc, hpc⟩ | ⟨hc, y, hy, hpc⟩
  · rw [if_neg (by omega), hpc]
  · rw [if_pos hc, hy]
    exact hpc

/-- The commit of a branch or a JALR flushes unless the instruction that follows is the target's. -/
theorem Executed.endOfCycle_of_checked {s v : State} {x : RobEntry} {next : Word}
    (h : Executed s v x next) {b : Acts} (hcm : b.commit = .retire x) (hx : x.op.checked = true) :
    endOfCycle v (b.run v) =
      if x.target = next then b.committed v else flushTo x.target (b.committed v) := by
  have hflush : (b.run v).flushReq = if x.target = next then none else some x.target := by
    rw [run_flushReq, hcm]
    simp [CommitAct.retired, retireFlush, ← checked_iff, hx, fetchedAfter_of_followedBy h.followed]
  split
  next heq => exact endOfCycle_none (hflush.trans (if_pos heq))
  next hne => exact endOfCycle_some (hflush.trans (if_neg hne))

/-- The instruction of the entry `x` has retired in `w`: its destination has the committed value, `x0`
excepted, every other register and every byte is that of `s`, the next instruction to commit is at `target`,
and the machine goes on. -/
structure RetiredTo (s w : State) (x : RobEntry) (target : Word) : Prop where
  regs : ∀ r, w.regs.value r = if x.dest = some r ∧ r ≠ 0 then x.committed else s.regs.value r
  archPc : w.archPc = target
  memory : s.sameMemory w
  halted : w.halted = false

theorem RetiredTo.wrote {s w : State} {x : RobEntry} {target : Word} (h : RetiredTo s w x target)
    {rd : RegIdx} (hrd : x.dest = some rd) : s.wrote w rd x.committed target := by
  refine ⟨fun r => ?_, h.archPc, h.memory, h.halted⟩
  simp only [h.regs r, hrd, Option.some.injEq, eq_comm]

theorem RetiredTo.sameRegs {s w : State} {x : RobEntry} {target : Word} (h : RetiredTo s w x target)
    (hrd : x.dest = none) : s.sameRegs w := fun r => by simp [h.regs r, hrd]

/-- A branch or a JALR goes to its resolved target, whatever follows it: either that is fetched already, or
the flush redirects the fetch. -/
theorem Executed.retiredTo_target {s v : State} {x : RobEntry} {next : Word} (h : Executed s v x next)
    {b : Acts} (hb : b.taken v) (hx : x.op.checked = true) (hd : x.dest = none ↔ x.op.noDest = true) :
    RetiredTo s (endOfCycle v (b.run v)) x x.target := by
  have hg : x.op.group ≠ .halt := fun hg => by
    rw [(group_halt_iff _).1 hg] at hx
    cases hx
  have hcm := h.commit hb hg
  have hmem := h.committed_sameMemory hb hcm
  rw [h.endOfCycle_of_checked hcm hx]
  split
  next heq =>
    exact ⟨h.committed_value hcm hd, (committed_archPc hb hcm h.followed).trans heq.symm, hmem,
      h.committed_halted hcm⟩
  next =>
    exact ⟨h.committed_value hcm hd, flushTo_archPc _ _,
      flushTo_sameMemory _ (h.committed_uncommitted hb hcm) hmem, h.committed_halted hcm⟩

/-! ## Completion -/

theorem completes_mono {i : Instr} {s : State} {n : Nat} {P Q : State → Prop} (h : completes i s n P)
    (hPQ : ∀ w, P w → Q w) : completes i s n Q := by
  obtain ⟨hexec, w, hrun, hw⟩ := h
  exact ⟨hexec, w, hrun, fun hf => hPQ w (hw hf)⟩

/-- A branch or a JALR completes in two cycles, and the result of its execution is where it goes (R147, R172,
R196). -/
theorem completes_checked {s : State} (hs : s.idle) {i : Instr} {k : ArithKind}
    (hop : (recordOf i).op = .arith k) (hchecked : (recordOf i).op.checked = true) :
    completes i s 2 fun w =>
      RetiredTo s w (executedEntry s i k) (executedEntry s i k).target := by
  refine ⟨exec_idle hs i, reachesUnlessFatal_succ (issued_underway hs i).running fun a ha => ?_⟩
  obtain ⟨hend, h⟩ := issued_executed hs hop ha
  rw [hend]
  exact reachesUnlessFatal_succ h.underway.running fun b hb =>
    reachesUnlessFatal_zero (h.retiredTo_target hb hchecked (recordOf_rd_none i))

/-- Settles O23: the next instruction is fetched from the target at once, and the commit checks nothing. -/
theorem jumpAndLinkCompletes : Obligations.JumpAndLinkCompletes := by
  unfold Obligations.JumpAndLinkCompletes
  exact fun s rd off hs => completes_arith hs (i := .jal rd off) rfl rfl rfl

/-- Settles O24: the target is computed from the operand that Issue has captured, before the link is
written. -/
theorem indirectJumpCompletes : Obligations.IndirectJumpCompletes := by
  unfold Obligations.IndirectJumpCompletes
  exact fun s rd rs1 imm hs =>
    completes_mono (completes_checked hs (i := .jalr rd rs1 imm) rfl rfl) fun _ hw => hw.wrote rfl

/-! ## The six branches -/

/-- A branch goes by the condition of its kind, however that is written (R196, R339). -/
theorem branchesTo_of_cond {s : State} (hs : s.idle) {i : Instr} {k : BranchKind} {rs1 rs2 : RegIdx}
    {off : BitVec 13} (hr : recordOf i = recordB k rs1 rs2 off) {p : Prop} [Decidable p]
    (hcond : branchCond k (s.x rs1) (s.x rs2) = true ↔ p) :
    branchesTo i s (if p then s.pc + off.signExtend 32 else s.pc + 4) := by
  have hop : (recordOf i).op = .arith (.branch k) := by rw [hr]; rfl
  have hrd : (recordOf i).rd = none := by rw [hr]; rfl
  have htarget : (executedEntry s i (.branch k)).target =
      if p then s.pc + off.signExtend 32 else s.pc + 4 :=
    calc (executedEntry s i (.branch k)).target
        = branchTarget k (s.x rs1) (s.x rs2) s.pc (off.signExtend 32) := by
          simp only [executedEntry, issuedArith, hr]
          rfl
      _ = _ := if_congr hcond rfl rfl
  rw [← htarget]
  exact completes_mono (completes_checked hs hop (by rw [hop]; rfl)) fun _ hw =>
    ⟨hw.sameRegs hrd, hw.archPc, hw.memory, hw.halted⟩

theorem condBge_iff (a b : Word) : condBge a b = true ↔ a.toInt ≥ b.toInt := by
  simp [condBge, lessSigned]

theorem condBgeu_iff (a b : Word) : condBgeu a b = true ↔ a.toNat ≥ b.toNat := by
  simp [condBgeu, lessUnsigned]

/-- Settles O25, condition by condition (R342 to R347). -/
theorem branchCompletes : Obligations.BranchCompletes := by
  unfold Obligations.BranchCompletes
  intro s rs1 rs2 off hs a b yes no
  refine ⟨?beq, ?bne, ?blt, ?bge, ?bltu, ?bgeu⟩
  case beq => exact branchesTo_of_cond hs (i := .beq rs1 rs2 off) rfl decide_eq_true_iff
  case bne => exact branchesTo_of_cond hs (i := .bne rs1 rs2 off) rfl decide_eq_true_iff
  case blt => exact branchesTo_of_cond hs (i := .blt rs1 rs2 off) rfl decide_eq_true_iff
  case bge => exact branchesTo_of_cond hs (i := .bge rs1 rs2 off) rfl (condBge_iff a b)
  case bltu => exact branchesTo_of_cond hs (i := .bltu rs1 rs2 off) rfl decide_eq_true_iff
  case bgeu => exact branchesTo_of_cond hs (i := .bgeu rs1 rs2 off) rfl (condBgeu_iff a b)

end Sys2Proof.Proofs
end

section
/-! O29: the halt marker, followed from the idle machine that issues it to its commit (46_ops_control.md R349,
40_orchestrator_cycle.md R143, R149): behind it nothing is fetched, so that nothing can stop the machine
before. -/

namespace Sys2Proof.Proofs

-- One proof after the other, on one thread: each thread costs the check 256 MB of stack.
set_option Elab.async false

open Sys2Proof.Machine Sys2Proof.Laws

/-! ## A machine behind the halt marker -/

/-- A running machine that has issued the halt marker and has no access in flight. -/
structure BehindHalt (u : State) : Prop where
  running : u.running
  haltIssued : u.haltIssued = true
  station : u.rsm = []
  buffer : u.lsb.q = []

/-- No fatal condition can stop its cycle: nothing is fetched and nothing accessed, and each bus carries at
most one entry (R404). -/
theorem BehindHalt.phases_ne_error {u : State} (h : BehindHalt u) (f : FatalStop) :
    phases .none u ≠ .error f := by
  intro herr
  obtain ⟨-, -, hl, -⟩ := h.running
  have hcap : 1 ≤ u.cfg.rbCap ∧ 1 ≤ u.cfg.cbCap := by
    simp only [Config.legal, Bool.and_eq_true, decide_eq_true_eq] at hl
    omega
  rcases phases_error herr with hissue | ⟨c1, h1, hrest⟩
  · obtain ⟨cause, hoffer, -⟩ := issuePhase_error hissue
    cases hoffer
  · obtain ⟨ai, -, rfl⟩ := issuePhase_acts h1
    rcases hrest with hexec | ⟨c2, h2, hrest⟩
    · rcases executePhase_error hexec with harith | ⟨c2, h2, hmem⟩
      · obtain ⟨hfull, -⟩ := rsaExecute_error harith
        simp at hfull
        omega
      · simp [rsmExecute, h.station, rsmSelect] at hmem
    · obtain ⟨c2', h2, h2'⟩ := executePhase_ok h2
      obtain rfl := rsaExecute_acts h2
      obtain ⟨am, -, rfl⟩ := rsmExecute_acts h2'
      rcases hrest with haccess | ⟨c3, h3, hcommit⟩
      · obtain ⟨x, rest, -, hq, -⟩ := tryLoadStore_error haccess
        rw [h.buffer] at hq
        cases hq
      · obtain ⟨aa, -, rfl⟩ := tryLoadStore_acts (by simp) h3
        obtain ⟨hfull, -⟩ := commitPhase_error hcommit
        simp at hfull
        omega

/-- Its step is a cycle that issues nothing (R149). -/
theorem BehindHalt.step {u : State} (h : BehindHalt u) :
    ∃ a : Acts, a.taken u ∧ a.issue = none ∧ step u = .next (endOfCycle u (a.run u)) := by
  obtain ⟨hh, hf, hl, hw⟩ := h.running
  rw [step_blocked ((issueBlocked_iff u).2 (.inl h.haltIssued)), cycle_running hh hf hl hw]
  rcases afterCycle_cases .none u with ⟨f, herr, -⟩ | ⟨c, hok, ht⟩
  · exact absurd herr (h.phases_ne_error f)
  · obtain ⟨a, va, rfl⟩ := phases_acts hok
    refine ⟨a, taken_of_valid h.running va (by simp), ?_, congrArg _ ht⟩
    have hv := va.issue
    cases hi : a.issue with
    | none => rfl
    | some r =>
      rw [hi] at hv
      obtain ⟨hoffer, -⟩ := hv
      cases hoffer

/-! ## The cycle that executes the marker -/

theorem issued_behindHalt {s : State} (hs : s.idle) : BehindHalt (s.issued .halt) := by
  have hrunning := (issued_underway hs .halt).running
  obtain ⟨-, -, -, -, -, -, hq, -⟩ := hs
  exact ⟨hrunning, rfl, rfl, hq⟩

/-- The cycle leaves the marker executed, still with nothing behind it and the pc as Issue has left it. -/
theorem issued_halt_next {s : State} (hs : s.idle) :
    ∃ v, step (s.issued .halt) = .next v ∧ BehindHalt v ∧
      Executed s v (executedEntry s .halt .halt) (s.pc + 4) ∧ v.pc = s.pc + 4 := by
  obtain ⟨a, ha, hi, hstep⟩ := (issued_behindHalt hs).step
  obtain ⟨hend, h⟩ := issued_executed hs (k := .halt) rfl ha
  rw [hend] at hstep
  refine ⟨_, hstep, ⟨h.underway.running, ?_, ?_, h.buffer⟩, h, ?_⟩
  · rw [committed_haltIssued, issued_of_none _ hi]
    rfl
  · rw [committed_rsm, issued_of_none _ hi, issued_mem_none (k := .halt) rfl ha]
    rfl
  · rw [committed_pc, issued_of_none _ hi]
    rfl

/-! ## The cycle that commits it -/

/-- A cycle that retires nothing changes no register (R262). -/
theorem Underway.committed_sameRegs {s u : State} (hu : Underway s u) {a : Acts}
    (hr : a.commit.retired = none) : s.sameRegs (a.committed u) := by
  intro r
  by_cases hr0 : r = 0
  · rw [committed_regs, value_forceZero, if_pos hr0, hr0, hu.zero]
  · rw [committed_value_of_not_retired hr hr0, hu.regs r]

theorem Executed.commit_halt {s v : State} {x : RobEntry} {next : Word} (h : Executed s v x next)
    {b : Acts} (hb : b.taken v) (hop : x.op = .arith .halt) : b.commit = .halt :=
  (commit_eq_halt_iff hb.commit).2
    ⟨x, (committing_eq_some_iff v x).2 ⟨h.oldest, h.ready⟩, hop⟩

/-- Settles O29: one cycle executes the marker, and the next commits it and halts. -/
theorem haltCompletes : Obligations.HaltCompletes := by
  unfold Obligations.HaltCompletes
  intro s hs
  obtain ⟨v, hstep, hbehind, h, hpc⟩ := issued_halt_next hs
  obtain ⟨b, hb, hi, hstep'⟩ := hbehind.step
  obtain ⟨hh, hf, -⟩ := hbehind.running
  have hcm := h.commit_halt hb rfl
  have hhalted := (endOfCycle_halted v (b.run v)).trans ((run_halted_iff hh).2 hcm)
  have hfatal := endOfCycle_run_fatal hf b
  rw [endOfCycle_of_halt hcm] at hstep' hhalted hfatal
  have hexit : (b.committed v).exitValue = (s.x 10).extractLsb' 0 8 := by
    rw [committed_exitValue_of_halt hcm, h.underway.regs 10]
    rfl
  refine ⟨exec_idle hs .halt, _, (run_succ hstep 1).trans (run_succ hstep' 0), hhalted, hfatal, hexit,
    ?_, h.underway.committed_sameRegs (by rw [hcm]; rfl), ?_, ?_⟩
  · simp [State.outputs, hfatal, hhalted, hexit]
  · rw [committed_mem, h.access hb]
    exact h.underway.mem
  · rw [committed_pc, issued_of_none _ hi, hpc]

end Sys2Proof.Proofs
end

section
/-! A load or a store, followed through the cycle after the one that issues it into an idle machine, whatever
is fetched behind it: it is dispatched to the load-store buffer, and nothing behind it has its tag
(47_ops_memory.md R358, R359, 42_reservation_stations.md R197 to R199, 43_load_store_buffer.md R222 to
R226). -/

namespace Sys2Proof.Proofs

-- One proof after the other, on one thread: each thread costs the check 256 MB of stack.
set_option Elab.async false

open Sys2Proof.Machine Sys2Proof.Laws

/-! ## The tags in the stations (R31, R193) -/

/-- What Issue adds to the memory station has another tag than the oldest instruction. -/
theorem issued_rsm_append {a : Acts} {u : State} (ha : a.taken u) (h1 : 0 < u.rob.count) :
    ∃ new, (a.issued u).rsm = u.rsm ++ new ∧ ∀ e ∈ new, e.tag ≠ u.rob.head := by
  cases hi : a.issue with
  | none => exact ⟨[], by rw [issued_of_none u hi, List.append_nil], fun e he => by cases he⟩
  | some r =>
    obtain ⟨-, hhead, -⟩ := (wellSized_iff u).1 ha.wellSized
    rw [issued_of_some u hi, issueInto_rsm]
    cases hop : r.op with
    | arith k => exact ⟨[], by simp [stationIssue, hop], fun e he => by cases he⟩
    | mem k =>
      refine ⟨[memEntry k r (u.rob.tail u.cfg) u.regs u.pc], by simp [stationIssue, hop, rsmIssue],
        fun e he => ?_⟩
      rw [List.mem_singleton.1 he]
      exact (head_ne_tail hhead h1 (issue_room ha hi)).symm

/-- Neither station holds an entry with the tag `p`. -/
structure LeftStations (u : State) (p : Tag) : Prop where
  arith : ∀ e, some e ∈ u.rsa → e.tag ≠ p
  mem : ∀ e ∈ u.rsm, e.tag ≠ p

theorem committed_rsa_ne_head {a : Acts} {u : State} (ha : a.taken u) (h1 : 0 < u.rob.count)
    (h : ∀ e, some e ∈ u.rsa → e.tag ≠ u.rob.head) {e : RsEntry ArithKind}
    (he : some e ∈ (a.committed u).rsa) : e.tag ≠ u.rob.head := by
  obtain ⟨e0, he0, rfl⟩ := of_mem_committed_rsa he
  rw [wake_tag]
  cases hi : a.issue with
  | none =>
    rw [issued_of_none u hi] at he0
    exact h e0 he0
  | some r =>
    obtain ⟨-, hhead, -⟩ := (wellSized_iff u).1 ha.wellSized
    rw [issued_of_some u hi] at he0
    rcases of_mem_issueInto_rsa he0 with he0 | ⟨k, -, rfl⟩
    · exact h e0 he0
    · exact (head_ne_tail hhead h1 (issue_room ha hi)).symm

/-- The oldest instruction does not come back to the stations. -/
theorem LeftStations.committed {a : Acts} {u : State} (h : LeftStations u u.rob.head) (ha : a.taken u)
    (h1 : 0 < u.rob.count) : LeftStations (a.committed u) u.rob.head := by
  refine ⟨fun e he => committed_rsa_ne_head ha h1 h.arith he, fun e he => ?_⟩
  obtain ⟨e0, he0, rfl⟩ := of_mem_committed_rsm he
  obtain ⟨new, hnew, hne⟩ := issued_rsm_append ha h1
  rw [hnew] at he0
  rcases List.mem_append.1 he0 with he0 | he0
  · exact h.mem e0 he0
  · exact hne e0 he0

/-- The dispatch of the only entry of the memory station leaves there what Issue adds (R199). -/
theorem committed_rsm_of_dispatched {a : Acts} {u : State} (ha : a.taken u) (h1 : 0 < u.rob.count)
    {e : RsEntry MemKind} (hrsm : u.rsm = [e]) (hd : a.mem.dispatched = some e) :
    ∀ f ∈ (a.committed u).rsm, f.tag ≠ u.rob.head := by
  obtain ⟨new, hnew, hne⟩ := issued_rsm_append ha h1
  have hafter : a.mem.rsmAfter (a.issued u).rsm = new := by
    simp [hnew, hrsm, MemAct.rsmAfter, hd, rsmRemove]
  rw [committed_rsm, hafter, rsmCheckBus]
  intro f hf
  obtain ⟨f0, hf0, rfl⟩ := List.mem_map.1 hf
  exact hne f0 hf0

/-- The stations put nothing with that tag on the result bus (R195, R222, R225). -/
theorem LeftStations.bus_tag {u : State} {p : Tag} (h : LeftStations u p) {a : Acts} (ha : a.taken u)
    {b : ResultEntry} (hb : b ∈ arithBus a.arith ++ a.mem.bus) : b.tag ≠ p := by
  rcases List.mem_append.1 hb with hb | hb
  · cases harith : a.arith with
    | none => rw [harith] at hb; cases hb
    | some y =>
      obtain ⟨n, e⟩ := y
      rw [harith] at hb
      obtain ⟨hslot, -⟩ := rsaSelect_some (ha.arith.trans harith)
      rw [List.mem_singleton.1 hb]
      exact h.arith e (List.mem_of_getElem? hslot)
  · have hmem : ∀ e, a.mem.dispatched = some e → e.tag ≠ p := fun e hd =>
      h.mem e (dispatched_mem_rsm ha hd)
    cases hm : a.mem with
    | none => rw [hm] at hb; cases hb
    | queue k e => rw [hm] at hb; cases hb
    | store k e | forward k e y =>
      rw [hm] at hb hmem
      rw [List.mem_singleton.1 hb]
      exact hmem e rfl

/-- Bus entries with other tags do nothing to an entry (R172). -/
theorem afterBus_append_of_ne {rb rb' : List ResultEntry} {p : Tag} (h : ∀ b ∈ rb, b.tag ≠ p)
    (x : RobEntry) : RobEntry.afterBus (rb ++ rb') p x = RobEntry.afterBus rb' p x := by
  have hnone : rb.find? (fun b => decide (b.tag = p)) = none :=
    List.find?_eq_none.2 fun b hb => by simpa using h b hb
  simp only [RobEntry.afterBus, List.find?_append, hnone, Option.none_or]

/-! ## What owes nothing to the backing store (R80, R228) -/

/-- If the queue entry `y` is a store, it has not committed, and it is not the one with the tag `p`. -/
def uncommittedBehind (p : Tag) (y : LsbEntry) : Prop :=
  y.isStore = true → y.ready = false ∧ y.tag ≠ p

theorem LeftStations.queued {u : State} {p : Tag} (h : LeftStations u p) {a : Acts} (ha : a.taken u) :
    ∀ y ∈ a.mem.queued, uncommittedBehind p y := by
  intro y hy hstore
  obtain ⟨e, hd, htag, -, ⟨k, -, rfl⟩ | hload⟩ := of_mem_queued ha hy
  · exact ⟨rfl, h.mem e (dispatched_mem_rsm ha hd)⟩
  · rw [hstore] at hload
    cases hload

/-- The retirement of the entry `x` marks only a store with its tag (R167, R228). -/
theorem markReady_of_uncommittedBehind {x : RobEntry} {y : LsbEntry}
    (h : uncommittedBehind x.tag y) :
    (y.markReady (retireBus x)).committedStore = false := by
  rw [committedStore_eq, markReady_isStore]
  cases hstore : y.isStore with
  | false => rfl
  | true =>
    obtain ⟨hr, htag⟩ := h hstore
    have hquiet : (retireBus x).any (fun b => decide (b.tag = y.tag)) = false := by
      simp only [List.any_eq_false, decide_eq_true_eq]
      exact fun b hb hbt => htag (hbt.symm.trans (tag_of_mem_retireBus hb))
    rw [markReady_ready_eq, hr, hquiet]
    rfl

theorem commitBus_of_retire {a : Acts} {x : RobEntry} (hcm : a.commit = .retire x) :
    a.commit.bus = retireBus x := by
  simp [hcm, CommitAct.bus, CommitAct.retired]

/-! ## The instruction after its dispatch -/

/-- The memory instruction `x` is the oldest in flight in `v`, which has the registers and the bytes of `s`;
the instruction at `next` follows it, and it has left the stations. -/
structure Dispatched (s v : State) (x : RobEntry) (next : Word) : Prop where
  underway : Underway s v
  oldest : v.rob.oldest = some x
  tag : x.tag = v.rob.head
  followed : followedBy v next
  stations : LeftStations v x.tag

theorem Dispatched.count_pos {s v : State} {x : RobEntry} {next : Word} (h : Dispatched s v x next) :
    0 < v.rob.count := (oldest_eq_some h.oldest).1

/-- A cycle that commits nothing, leaves the port free and writes no byte leaves the machine under way. -/
theorem Underway.next_of_access {s u : State} (hu : Underway s u) {a : Acts} (ha : a.taken u)
    (hcm : a.commit = .none) (hcount : a.access.countAfter u = 0)
    (hmem : a.access.memAfter u.mem = u.mem) : Underway s (a.committed u) := by
  have hend := endOfCycle_of_commit_none (u := u) hcm
  obtain ⟨hh, hf, hl, -⟩ := hu.running
  refine ⟨⟨?_, ?_, by rwa [committed_cfg], committed_wellSized ha⟩, by rw [committed_cfg, hu.cfg],
    (committed_count a u).trans hcount, hu.zero, hu.committed_sameRegs (by rw [hcm]; rfl), ?_⟩
  · simpa [Acts.committed, Acts.run, hcm, applyCommit] using hh
  · exact hend ▸ endOfCycle_run_fatal hf a
  · rw [committed_mem, hmem, hu.mem]

/-- It stays dispatched through a cycle that commits nothing, and takes what the result bus has for it. -/
theorem Dispatched.next {s v : State} {x : RobEntry} {next : Word} (h : Dispatched s v x next) {b : Acts}
    (hb : b.taken v) (hcm : b.commit = .none) (hu : Underway s (b.committed v)) :
    Dispatched s (b.committed v) (RobEntry.afterBus (b.resultBus v) x.tag x) next := by
  have hhead : (b.committed v).rob.head = v.rob.head := by
    simp [committed_head, hcm, CommitAct.retired]
  refine ⟨hu, ?_, ?_, committed_followedBy hb hcm h.followed, ?_⟩
  · rw [h.tag]
    exact committed_oldest_afterBus hb hcm h.oldest
  · rw [afterBus_tag, h.tag, hhead]
  · have hleft := h.stations
    rw [h.tag] at hleft
    rw [afterBus_tag, h.tag]
    exact hleft.committed hb h.count_pos

/-! ## The cycle that dispatches it -/

theorem fetchesAfter_of_mem (s : State) {i : Instr} {k : MemKind} (hop : (recordOf i).op = .mem k) :
    s.fetchesAfter i = s.pc + 4 := by
  simp only [State.fetchesAfter, hop]

/-- The arithmetic station of an idle machine stays empty when a memory instruction is issued (R193). -/
theorem issued_rsa_empty {s : State} (hs : s.idle) {i : Instr} {k : MemKind}
    (hop : (recordOf i).op = .mem k) : ∀ y ∈ (s.issued i).rsa, y = none := by
  obtain ⟨-, -, -, -, hrsa, -⟩ := hs
  simpa only [State.issued, hop] using hrsa

/-- The cycle after the issue of a memory instruction dispatches it, and does nothing else to it than what
the dispatch puts on the result bus (R199, R222, R226). -/
theorem issued_dispatched {s : State} (hs : s.idle) {i : Instr} {k : MemKind}
    (hop : (recordOf i).op = .mem k) {a : Acts} (ha : a.taken (s.issued i))
    (hd : a.mem.dispatched = some (issuedMem s i k)) :
    endOfCycle (s.issued i) (a.run (s.issued i)) = a.committed (s.issued i) ∧
      (a.committed (s.issued i)).lsb.q = a.mem.queued ∧
      Dispatched s (a.committed (s.issued i))
        (RobEntry.afterBus a.mem.bus s.rob.head (newRobEntry (recordOf i) s.rob.head s.pc))
        (s.pc + 4) := by
  have hu := issued_underway hs i
  have honly := issued_onlyInStation hs hop
  have hold := issued_oldest hs i
  obtain ⟨hacc, hcm⟩ := honly.acts hu.countdown ha
  have harith : a.arith = none := ha.arith.symm.trans (rsaSelect_of_empty (issued_rsa_empty hs hop))
  have hbus : a.resultBus (s.issued i) = a.mem.bus := by
    simp [Acts.resultBus, harith, hacc, arithBus, AccessAct.bus]
  have hnext := committed_oldest_afterBus ha hcm hold
  have hhead : (a.committed (s.issued i)).rob.head = s.rob.head := by
    rw [committed_head, hcm]
    rfl
  rw [hbus] at hnext
  refine ⟨endOfCycle_of_commit_none hcm, honly.committed_queue hu.countdown ha,
    hu.next ha hacc (.inl hcm), hnext, ?_, ?_, ?_, ?_⟩
  · rw [afterBus_tag, hhead]
    rfl
  · exact committed_followedBy ha hcm (.inl ⟨rfl, fetchesAfter_of_mem s hop⟩)
  · intro e he
    rw [afterBus_tag]
    refine committed_rsa_ne_head ha Nat.one_pos (fun f hf => ?_) he
    cases issued_rsa_empty hs hop _ hf
  · rw [afterBus_tag]
    exact committed_rsm_of_dispatched ha Nat.one_pos honly.station hd

end Sys2Proof.Proofs
end

section
/-! O26: a load issued into an idle machine is dispatched, performed and retired, one cycle each
(47_ops_memory.md R358, R360 to R364, 40_orchestrator_cycle.md R147, 43_load_store_buffer.md R226 to
R232). -/

namespace Sys2Proof.Proofs

-- One proof after the other, on one thread: each thread costs the check 256 MB of stack.
set_option Elab.async false

open Sys2Proof.Machine Sys2Proof.Laws

/-! ## The access (R230, R232) -/

theorem access_of_performing_load {s : State} {a : AccessAct} (ha : validAccess s a) {k : LoadKind}
    {h : LsbEntry} (hperf : s.performing = some h) (hop : h.op = .load k) : a = .read k h := by
  rw [← performed_eq_performing ha] at hperf
  cases a with
  | countdown => cases hperf
  | idle => cases hperf
  | write k' x =>
    cases hperf
    obtain ⟨-, hop', -⟩ := ha
    cases hop.symm.trans hop'
  | read k' x =>
    cases hperf
    obtain ⟨-, hop', -⟩ := ha
    cases hop.symm.trans hop'
    rfl

/-- The cycle that performs the load, alone in the load-store buffer, gives its entry the value read. -/
theorem Dispatched.load_performed {s v : State} {x : RobEntry} {next : Word} (h : Dispatched s v x next)
    (hready : x.ready = false) {y : LsbEntry} {k : LoadKind} (hq : v.lsb.q = [y]) (hop : y.op = .load k)
    (hy : y.ready = true) (htag : y.tag = x.tag) {b : Acts} (hb : b.taken v) :
    endOfCycle v (b.run v) = b.committed v ∧ (b.committed v).lsb.q = b.mem.queued ∧
      Dispatched s (b.committed v)
        (x.complete (loadExtend k (s.mem.readLE y.addr.toNat k.width))) next := by
  have hcm := commit_none hb h.oldest hready
  have hacc := access_of_performing_load hb.access
    (performing_of_head h.underway.countdown hq hy) hop
  have hcount : b.access.countAfter v = 0 := by
    simp [hacc, AccessAct.countAfter, countdownAfter, hq]
  have hmem : b.access.memAfter v.mem = v.mem := by rw [hacc]; rfl
  have hbus : RobEntry.afterBus (b.resultBus v) x.tag x =
      x.complete (loadExtend k (s.mem.readLE y.addr.toNat k.width)) := by
    rw [Acts.resultBus, afterBus_append_of_ne fun r hr => h.stations.bus_tag hb hr, hacc, h.underway.mem,
      ← htag]
    exact afterBus_of_mem (by simp) (List.mem_singleton.2 rfl) hready
  refine ⟨endOfCycle_of_commit_none hcm, ?_, ?_⟩
  · simp [committed_q, hq, hacc, AccessAct.performed, hcm, CommitAct.bus, CommitAct.retired,
      markReady_nil]
  · rw [← hbus]
    exact h.next hb hcm (h.underway.next_of_access hb hcm hcount hmem)

/-! ## The retirement (R171) -/

/-- A retirement writes the committed value to the destination, `x0` excepted, and no other register (R262,
R265). -/
theorem Underway.committed_value {s u : State} (hu : Underway s u) {a : Acts} {x : RobEntry}
    (hcm : a.commit = .retire x) (hd : x.dest = none ↔ x.op.noDest = true) (r : RegIdx) :
    (a.committed u).regs.value r = if x.dest = some r ∧ r ≠ 0 then x.committed else s.regs.value r := by
  rw [committed_regs, value_forceZero, commitBus_of_retire hcm]
  by_cases hr0 : r = 0
  · simp [hr0, hu.zero]
  · rw [if_neg hr0, value_retireBus hd _ hr0, issued_value, hu.regs r]
    simp [hr0]

/-- The cycle that retires the load leaves its value in its destination. What is in the load-store buffer is
behind the load, so no byte is written or owed. -/
theorem Dispatched.load_retired {s v : State} {x : RobEntry} {next : Word} (h : Dispatched s v x next)
    {k : LoadKind} (hop : x.op = .mem (.load k)) (hready : x.ready = true)
    (hd : x.dest = none ↔ x.op.noDest = true) {rd : RegIdx} (hrd : x.dest = some rd)
    (hq : ∀ y ∈ v.lsb.q, uncommittedBehind x.tag y) {b : Acts} (hb : b.taken v) :
    s.wrote (endOfCycle v (b.run v)) rd x.value next := by
  have hcm := commit_retire hb h.oldest hready (by simp [hop, OpKind.group])
  have hvalue : x.committed = x.value := by simp [RobEntry.committed, hop]
  have hmem : (b.committed v).mem = s.mem := by
    rw [committed_mem, memAfter_of_no_ready_store hb.access fun y hy hstore => (hq y hy hstore).1,
      h.underway.mem]
  have huncommitted : ∀ y ∈ (b.committed v).lsb.q, y.committedStore = false := by
    intro y hy
    obtain ⟨y0, rfl, hy0⟩ := of_mem_committed_q hy
    rw [commitBus_of_retire hcm]
    exact markReady_of_uncommittedBehind (hy0.elim (hq y0) (h.stations.queued hb y0))
  rw [endOfCycle_of_retire_unchecked hcm (by rw [hop]; rfl)]
  refine ⟨fun r => ?_, committed_archPc hb hcm h.followed, fun addr => ?_, ?_⟩
  · simp only [h.underway.committed_value hcm hd, hvalue, hrd, Option.some.injEq, eq_comm]
  · rw [pendingApplied_of_uncommitted huncommitted, hmem]
    exact ⟨rfl, rfl⟩
  · obtain ⟨hh, -⟩ := h.underway.running
    simpa [Acts.committed, Acts.run, hcm, applyCommit] using hh

/-! ## Completion -/

/-- A load completes in three cycles with the extended bytes at its address (R147, R358). An access out of
range is one of the fatal conditions that `completes` excepts. -/
theorem completes_load {s : State} (hs : s.idle) {i : Instr} {k : LoadKind} {rd : RegIdx}
    (hop : (recordOf i).op = .mem (.load k)) (hrd : (recordOf i).rd = some rd) {v : Word}
    (hv : loadExtend k
      (s.mem.readLE (s.source (recordOf i).rs1 + (recordOf i).imm).toNat k.width) = v) :
    completes i s 3 fun w => s.wrote w rd v (s.pc + 4) := by
  subst hv
  refine ⟨exec_idle hs i, reachesUnlessFatal_succ (issued_underway hs i).running fun a ha => ?_⟩
  have honly := issued_onlyInStation hs hop
  have hm := mem_queue ha honly.station honly.buffer rfl rfl
  obtain ⟨hend, hq, h⟩ := issued_dispatched hs hop ha (by rw [hm]; rfl)
  rw [hm] at hq h
  rw [hend]
  refine reachesUnlessFatal_succ h.underway.running fun b hb => ?_
  obtain ⟨hend', hq', h'⟩ := h.load_performed rfl hq rfl rfl rfl hb
  rw [hend']
  refine reachesUnlessFatal_succ h'.underway.running fun c hc => reachesUnlessFatal_zero ?_
  exact h'.load_retired hop rfl (recordOf_rd_none i) hrd
    (fun y hy => h.stations.queued hb y (hq' ▸ hy)) hc

/-- Settles O26: the bytes are those of the backing store at the time of the issue, which nothing writes on
the way; they make the value by `loadExtend_readLE`. -/
theorem loadCompletes : Obligations.LoadCompletes := by
  unfold Obligations.LoadCompletes
  intro s rd rs1 imm hs addr a byte gives
  refine ⟨fun _ => ⟨?lb, ?lbu⟩, fun _ => ⟨?lh, ?lhu⟩, fun _ => ?lw⟩
  case lb => exact completes_load hs (i := .lb rd rs1 imm) rfl rfl (loadExtend_readLE s.mem a .lb)
  case lbu => exact completes_load hs (i := .lbu rd rs1 imm) rfl rfl (loadExtend_readLE s.mem a .lbu)
  case lh => exact completes_load hs (i := .lh rd rs1 imm) rfl rfl (loadExtend_readLE s.mem a .lh)
  case lhu => exact completes_load hs (i := .lhu rd rs1 imm) rfl rfl (loadExtend_readLE s.mem a .lhu)
  case lw => exact completes_load hs (i := .lw rd rs1 imm) rfl rfl (loadExtend_readLE s.mem a .lw)

end Sys2Proof.Proofs
end

section
/-! O27: a store issued into an idle machine is dispatched, retired and then performed, one cycle each
(47_ops_memory.md R359, R365 to R367, 40_orchestrator_cycle.md R147, 43_load_store_buffer.md R228 to
R232). -/

namespace Sys2Proof.Proofs

-- One proof after the other, on one thread: each thread costs the check 256 MB of stack.
set_option Elab.async false

open Sys2Proof.Machine Sys2Proof.Laws

/-! ## The retirement and the access (R167, R228, R232) -/

/-- The store entry `y` has committed and is the next to be performed in `w`, which has the registers and the
bytes of `s`; no other byte is owed, and the next instruction to commit is at `next`. -/
structure Owing (s w : State) (y : LsbEntry) (next : Word) : Prop where
  underway : Underway s w
  archPc : w.archPc = next
  committed : y.committedStore = true
  queue : ∃ rest, w.lsb.q = y :: rest ∧ ∀ z ∈ rest, z.committedStore = false

/-- The cycle that retires the store marks its entry, alone in the load-store buffer, ready. -/
theorem Dispatched.store_retired {s v : State} {x : RobEntry} {next : Word} (h : Dispatched s v x next)
    (hready : x.ready = true) {y : LsbEntry} {k : StoreKind} (hxop : x.op = .mem (.store k))
    (hq : v.lsb.q = [y]) (hop : y.op = .store k) (hy : y.ready = false) (htag : y.tag = x.tag) {b : Acts}
    (hb : b.taken v) :
    endOfCycle v (b.run v) = b.committed v ∧
      Owing s (b.committed v) { y with ready := true } next := by
  have hg : x.op.group = .store := by rw [hxop]; rfl
  have hcm := commit_retire hb h.oldest hready (by simp [hg])
  have hacc := access_idle hb h.underway.countdown
    (by simp [State.performing, h.underway.countdown, hq, hy])
  have hquiet : quietCommit b.commit := .inr ⟨x, hcm, hg⟩
  have hmarked : y.markReady (retireBus x) = { y with ready := true } := by
    simp [LsbEntry.markReady, retireBus, hg, hy, htag]
  refine ⟨endOfCycle_of_quiet hquiet, h.underway.next hb hacc hquiet, committed_archPc hb hcm h.followed,
    by simp [LsbEntry.committedStore, hop], b.mem.queued.map (LsbEntry.markReady (retireBus x)), ?_,
    fun z hz => ?_⟩
  · rw [committed_q, hq, hacc, commitBus_of_retire hcm, ← hmarked]
    rfl
  · obtain ⟨z0, hz0, rfl⟩ := List.mem_map.1 hz
    exact markReady_of_uncommittedBehind (h.stations.queued hb z0 hz0)

/-- The backing store with the committed stores applied has the store's write (R80). -/
theorem Owing.pendingApplied_eq {s w : State} {y : LsbEntry} {next : Word} (h : Owing s w y next) :
    pendingApplied w.lsb.q w.mem = s.mem.writeLE y.addr.toNat y.op.width y.value := by
  obtain ⟨rest, hq, hrest⟩ := h.queue
  rw [hq, pendingApplied_cons, if_pos h.committed, pendingApplied_of_uncommitted hrest, h.underway.mem]

/-- The next cycle performs the store's write (R230, R232). -/
theorem Owing.performed {s w : State} {y : LsbEntry} {next : Word} (h : Owing s w y next) {b : Acts}
    (hb : b.taken w) :
    (endOfCycle w (b.run w)).mem = s.mem.writeLE y.addr.toNat y.op.width y.value := by
  obtain ⟨rest, hq, -⟩ := h.queue
  have hcommitted := h.committed
  rw [committedStore_eq, Bool.and_eq_true, isStore_iff] at hcommitted
  obtain ⟨⟨k, hop⟩, hr⟩ := hcommitted
  have hacc := access_of_performing_store hb.access
    (performing_of_head h.underway.countdown hq hr) hop
  rw [endOfCycle_run_mem, hacc, h.underway.mem, hop]
  rfl

/-! ## The bytes written (R64) -/

/-- A store keeps the bytes that it writes (R64, R222). -/
theorem storeData_byte (k : StoreKind) (v : Word) {j : Nat} (hj : j < k.width) :
    (storeData k v).extractLsb' (8 * j) 8 = v.extractLsb' (8 * j) 8 := by
  have hdata : storeData k v = truncateBytes k.width v := by cases k <;> rfl
  have hwidth : k.width ≤ 4 := by cases k <;> decide
  refine BitVec.eq_of_getLsbD_eq fun i hi => ?_
  simp only [hdata, BitVec.getLsbD_extractLsb', getLsbD_truncateBytes hwidth,
    show 8 * j + i < 8 * k.width by omega, decide_true, Bool.true_and]

/-- The write of the truncated data leaves the bytes of the source register (R61, R359). -/
theorem stored_storeData {m : Memory} (hm : m.wf = true) (a : Nat) (k : StoreKind) (v : Word) :
    m.stored (m.writeLE a k.width (storeData k v)) a k.width v := by
  obtain ⟨hbytes, hframe⟩ := writeLE_stored hm a k.width (storeData k v)
  exact ⟨fun j hj => (hbytes j hj).trans (storeData_byte k v hj), hframe⟩

/-! ## Completion -/

/-- The load-store-buffer entry of a store that was issued into an idle machine and has committed (R37). -/
def committedEntry (s : State) (i : Instr) (k : StoreKind) : LsbEntry :=
  { queuedStore k (issuedMem s i (.store k)) with ready := true }

/-- Two cycles after its issue a store has committed and is owed to the backing store (R147, R359). -/
theorem completes_of_owing {s : State} (hs : s.idle) {i : Instr} {k : StoreKind}
    (hop : (recordOf i).op = .mem (.store k)) {n : Nat} {post : State → Prop}
    (h : ∀ w, Owing s w (committedEntry s i k) (s.pc + 4) → reachesUnlessFatal n post w) :
    completes i s (n + 2) post := by
  refine ⟨exec_idle hs i, reachesUnlessFatal_succ (issued_underway hs i).running fun a ha => ?_⟩
  have honly := issued_onlyInStation hs hop
  have hm := mem_store ha honly.station honly.buffer rfl rfl
  obtain ⟨hend, hq, hdisp⟩ := issued_dispatched hs hop ha (by rw [hm]; rfl)
  rw [hm] at hq
  rw [hend]
  refine reachesUnlessFatal_succ hdisp.underway.running fun b hb => ?_
  have hready := afterBus_ready_of_mem (rb := a.mem.bus) (b := ⟨s.rob.head, 0, false⟩)
    (by rw [hm]; exact List.mem_singleton.2 rfl) (newRobEntry (recordOf i) s.rob.head s.pc)
  obtain ⟨hend', howing⟩ :=
    hdisp.store_retired hready ((afterBus_op _ _ _).trans hop) hq rfl rfl (by rw [afterBus_tag]; rfl) hb
  rw [hend']
  exact h _ howing

/-- A store commits in two cycles with its bytes owed, and they are written in the third (R147, R359). An
access out of range is one of the fatal conditions that `completes` excepts. -/
theorem completes_store {s : State} (hs : s.idle) (hm : s.mem.wf = true) {i : Instr} {k : StoreKind}
    (hop : (recordOf i).op = .mem (.store k)) :
    let a := (s.source (recordOf i).rs1 + (recordOf i).imm).toNat
    let v := s.source (recordOf i).rs2
    completes i s 2 (fun w =>
      s.sameRegs w ∧ w.archPc = s.pc + 4 ∧ w.halted = false ∧ w.mem = s.mem ∧
      s.mem.stored (pendingApplied w.lsb.q w.mem) a k.width v) ∧
    completes i s 3 (fun w => s.mem.stored w.mem a k.width v) := by
  intro a v
  have hwrite : s.mem.stored (s.mem.writeLE (committedEntry s i k).addr.toNat
      (committedEntry s i k).op.width (committedEntry s i k).value) a k.width v :=
    stored_storeData hm a k v
  refine ⟨completes_of_owing hs hop fun w h => reachesUnlessFatal_zero ?_,
    completes_of_owing hs hop fun w h => reachesUnlessFatal_succ h.underway.running fun b hb =>
      reachesUnlessFatal_zero ?_⟩
  · obtain ⟨hh, -⟩ := h.underway.running
    exact ⟨h.underway.regs, h.archPc, hh, h.underway.mem, h.pendingApplied_eq ▸ hwrite⟩
  · exact h.performed hb ▸ hwrite

/-- Settles O27, store by store. -/
theorem storeCompletes : Obligations.StoreCompletes := by
  unfold Obligations.StoreCompletes
  intro s rs1 rs2 imm hs hm a v leaves
  refine ⟨fun _ => ?sb, fun _ => ?sh, fun _ => ?sw⟩
  case sb => exact completes_store hs hm (i := .sb rs1 rs2 imm) rfl
  case sh => exact completes_store hs hm (i := .sh rs1 rs2 imm) rfl
  case sw => exact completes_store hs hm (i := .sw rs1 rs2 imm) rfl

end Sys2Proof.Proofs
end

section
/-! O13, O14: which fatal condition a cycle raises (60_exceptions.md R401, R403, R404): the fetch and the
decoder come first, and with three slots on the result bus the only other one is an access out of range. -/

namespace Sys2Proof.Proofs

-- One proof after the other, on one thread: each thread costs the check 256 MB of stack.
set_option Elab.async false

open Sys2Proof.Machine Sys2Proof.Laws

/-! ## What Issue raises (R124, R401, R403) -/

/-- The fetch or the decoder raises `cause` in the Issue phase. -/
def raisedAtIssue (o : Offer) (s : State) (cause : FatalCause) : Prop :=
  s.issueBlocked = false ∧ o = .fatal cause

theorem phases_of_raisedAtIssue {o : Offer} {s : State} {cause : FatalCause}
    (h : raisedAtIssue o s cause) : phases o s = .error ⟨cause, s.mem⟩ := by
  obtain ⟨hblocked, rfl⟩ := h
  simp [phases, issuePhase, hblocked]

theorem inRange_eq_true_iff (cfg : Config) (a : Word) (n : Nat) :
    inRange cfg a n = true ↔ a.toNat + n ≤ cfg.memSize := by
  simp [inRange]

theorem inRange_eq_false_iff (cfg : Config) (a : Word) (n : Nat) :
    inRange cfg a n = false ↔ cfg.memSize < a.toNat + n := by
  simp [inRange]

theorem issueBlocked_eq_false_iff {s : State} (hw : s.wellSized = true) :
    s.issueBlocked = false ↔ s.haltIssued = false ∧ s.rob.count < s.cfg.nRob := by
  obtain ⟨-, -, hcount, -⟩ := (wellSized_iff s).1 hw
  refine ⟨fun h => ?_, fun ⟨hh, hn⟩ => issueBlocked_eq_false hh hn⟩
  rw [Bool.eq_false_iff, ne_eq, issueBlocked_iff, not_or, Bool.not_eq_true] at h
  obtain ⟨hh, hn⟩ := h
  exact ⟨hh, by omega⟩

/-- What a step's offer raises at Issue, by the fetch and the decoding of the word at the pc. -/
theorem step_raisedAtIssue (s : State) :
    ∃ o, step s = cycle o s ∧
      (raisedAtIssue o s .decode ↔ s.issueBlocked = false ∧ inRange s.cfg s.pc 4 = true ∧
        ∃ e, decodeWord (s.mem.readLE s.pc.toNat 4) = .error e) ∧
      (raisedAtIssue o s .mem ↔ s.issueBlocked = false ∧ inRange s.cfg s.pc 4 = false) ∧
      ((∀ cause, ¬ raisedAtIssue o s cause) ↔ (s.issueBlocked = false →
        inRange s.cfg s.pc 4 = true ∧ ∃ i, decodeWord (s.mem.readLE s.pc.toNat 4) = .ok i)) := by
  rcases step_cases s with ⟨hb, h⟩ | ⟨hb, hr, h⟩ | ⟨hb, hr, ⟨e, he⟩, h⟩ | ⟨hb, hr, i, hi, h⟩
  · exact ⟨_, h, by simp [raisedAtIssue, hb]⟩
  · exact ⟨_, h, by simp [raisedAtIssue, hb, hr]⟩
  · exact ⟨_, h, by simp [raisedAtIssue, hb, hr, he]⟩
  · exact ⟨_, h, by simp [raisedAtIssue, hb, hr, hi]⟩

/-! ## The cause of a fatal cycle (R144, R400, R404) -/

/-- The cause that a code names. -/
def causeOf (code : BitVec 2) : FatalCause :=
  if code = 1 then .decode else if code = 2 then .bus else .mem

theorem causeOf_code : Function.LeftInverse causeOf FatalCause.code := fun c => by cases c <;> rfl

/-- A cycle ends fatal with a cause exactly when a phase raises it. -/
theorem fatal_iff_phases_error {o : Offer} {s t : State} (hs : s.running) (ho : step s = cycle o s)
    (hstep : step s = .next t) (cause : FatalCause) :
    (t.fatal = true ∧ t.fatalCause = cause.code) ↔ ∃ f, phases o s = .error f ∧ f.cause = cause := by
  obtain ⟨hh, hf, hl, hw⟩ := hs
  rw [ho, cycle_running hh hf hl hw] at hstep
  obtain rfl := Host.Outcome.next.inj hstep
  rcases afterCycle_cases o s with ⟨f, herr, ht⟩ | ⟨c, hok, ht⟩
  · simp [ht, herr, causeOf_code.injective.eq_iff]
  · obtain ⟨a, -, rfl⟩ := phases_acts hok
    simp [ht, hok, endOfCycle_run_fatal hf]

/-- The phases behind Issue raise BUS and MEM only. -/
theorem raisedAtIssue_of_decode {o : Offer} {s : State} {f : FatalStop} (h : phases o s = .error f)
    (hf : f.cause = .decode) : raisedAtIssue o s .decode := by
  rcases phases_error h with h | ⟨c1, -, h | ⟨c2, -, h | ⟨c3, -, h⟩⟩⟩
  · obtain ⟨cause, ho, hblocked, rfl⟩ := issuePhase_error h
    exact ⟨hblocked, hf ▸ ho⟩
  · rcases executePhase_error h with h | ⟨c2, -, h⟩
    · obtain ⟨-, rfl⟩ := rsaExecute_error h
      cases hf
    · obtain ⟨-, rfl⟩ := rsmExecute_error h
      cases hf
  · obtain ⟨x, rest, -, -, -, ⟨-, rfl⟩ | ⟨-, -, -, rfl⟩⟩ := tryLoadStore_error h
    · cases hf
    · cases hf
  · obtain ⟨-, rfl⟩ := commitPhase_error h
    cases hf

/-- An access out of range is never performed by a cycle that goes through its phases (R232). -/
theorem phases_ne_ok_of_outOfRange {o : Offer} {s : State} {x : LsbEntry} (hx : s.performing = some x)
    (hout : inRange s.cfg x.addr x.op.width = false) (c : Cycle) : phases o s ≠ .ok c := by
  intro hok
  obtain ⟨a, va, -⟩ := phases_acts hok
  have hin := performed_inRange va.access ((performed_eq_performing va.access).trans hx)
  rw [hout] at hin
  cases hin

/-- With three slots on the result bus, MEM comes from the fetch, or, when Issue raises nothing, from the
access (R404). -/
theorem phases_mem_iff {o : Offer} {s : State} (hl : s.cfg.legal = true) (hrb : 3 ≤ s.cfg.rbCap) :
    (∃ f, phases o s = .error f ∧ f.cause = .mem) ↔
      raisedAtIssue o s .mem ∨ (∀ cause, ¬ raisedAtIssue o s cause) ∧
        ∃ x, s.performing = some x ∧ inRange s.cfg x.addr x.op.width = false := by
  constructor
  · rintro ⟨f, herr, hf⟩
    by_cases hraised : ∃ cause, raisedAtIssue o s cause
    · obtain ⟨cause, hc⟩ := hraised
      rw [phases_of_raisedAtIssue hc] at herr
      cases herr
      obtain rfl : cause = .mem := hf
      exact .inl hc
    · rcases phases_error_cases hl hrb herr with ⟨cause, ho, hb, -⟩ | ⟨x, hx, hout, -⟩
      · exact absurd ⟨cause, hb, ho⟩ hraised
      · exact .inr ⟨not_exists.1 hraised, x, hx, hout⟩
  · rintro (hraised | ⟨hnone, x, hx, hout⟩)
    · exact ⟨_, phases_of_raisedAtIssue hraised, rfl⟩
    · cases hphases : phases o s with
      | ok c => exact absurd hphases (phases_ne_ok_of_outOfRange hx hout c)
      | error f =>
        rcases phases_error_cases hl hrb hphases with ⟨cause, ho, hb, -⟩ | ⟨-, -, -, hf⟩
        · exact absurd ⟨hb, ho⟩ (hnone cause)
        · exact ⟨f, rfl, hf⟩

/-- Settles O13: only Issue raises DECODE, and it stops the cycle before any other phase. -/
theorem fatalDecodeExactly : Obligations.FatalDecodeExactly := by
  unfold Obligations.FatalDecodeExactly
  intro s t hs hstep
  obtain ⟨-, -, -, hw⟩ := id hs
  obtain ⟨o, ho, hdecode, -, -⟩ := step_raisedAtIssue s
  have hphases : (∃ f, phases o s = .error f ∧ f.cause = .decode) ↔ raisedAtIssue o s .decode :=
    ⟨fun ⟨_, herr, hf⟩ => raisedAtIssue_of_decode herr hf,
      fun h => ⟨_, phases_of_raisedAtIssue h, rfl⟩⟩
  calc (t.fatal = true ∧ t.fatalCause = 1)
      ↔ raisedAtIssue o s .decode := (fatal_iff_phases_error hs ho hstep .decode).trans hphases
    _ ↔ _ := by
      rw [hdecode, issueBlocked_eq_false_iff hw, inRange_eq_true_iff, and_assoc]

/-- Settles O14, from the phases that can raise MEM (`phases_mem_iff`). -/
theorem fatalMemExactly : Obligations.FatalMemExactly := by
  unfold Obligations.FatalMemExactly
  intro s t hs hrb hstep fetches
  obtain ⟨-, -, hl, hw⟩ := id hs
  obtain ⟨o, ho, -, hmem, hnone⟩ := step_raisedAtIssue s
  calc (t.fatal = true ∧ t.fatalCause = 3)
      ↔ _ := (fatal_iff_phases_error hs ho hstep .mem).trans (phases_mem_iff hl hrb)
    _ ↔ _ := by
      rw [hmem, hnone, issueBlocked_eq_false_iff hw, inRange_eq_true_iff]
      simp only [inRange_eq_false_iff, Option.mem_def, fetches]

end Sys2Proof.Proofs
end

section
/-! O30: the block against the sequential machine (70_reset_and_hazards.md R450 to R452): what one step of the
sequential machine does, by the decoded record as Issue has it, and the same of the block's architectural view
when the instruction has retired, exactly, the memory included. -/

namespace Sys2Proof.Proofs

-- One proof after the other, on one thread: each thread costs the check 256 MB of stack.
set_option Elab.async false

open Sys2Proof.Machine Sys2Proof.Laws

/-! ## The sequential machine by records (R90, R450) -/

/-- The value of an optional source register. -/
def seqSource (q : Seq) (r : Option RegIdx) : Word :=
  match r with
  | none => 0
  | some r => q.reg r

/-- `x[rd] <- v`, where there is a destination. -/
def seqWrite (q : Seq) (rd : Option RegIdx) (v : Word) : Seq :=
  match rd with
  | none => q
  | some r => q.setReg r v

/-- The architectural effect of an instruction, by its kind and its record's fields. -/
def seqRecord (r : Record) (q : Seq) : SeqOutcome :=
  let a := seqSource q r.rs1
  let b := seqSource q r.rs2
  let addr := effectiveAddress a r.imm
  match r.op with
  | .arith .lui => .running { seqWrite q r.rd r.imm with pc := q.pc + 4 }
  | .arith .auipc => .running { seqWrite q r.rd (q.pc + r.imm) with pc := q.pc + 4 }
  | .arith .jal => .running { seqWrite q r.rd (q.pc + 4) with pc := q.pc + r.imm }
  | .arith .jalr => .running { seqWrite q r.rd (q.pc + 4) with pc := jalrTarget a r.imm }
  | .arith (.branch k) => .running { q with pc := branchTarget k a b q.pc r.imm }
  | .arith (.imm k) => .running { seqWrite q r.rd (immAlu k a r.imm) with pc := q.pc + 4 }
  | .arith (.reg k) => .running { seqWrite q r.rd (regAlu k a b) with pc := q.pc + 4 }
  | .arith .halt => .halted ((q.reg 10).setWidth 8)
  | .mem (.load k) =>
    if q.inRange addr k.width then
      .running { seqWrite q r.rd (loadExtend k (q.mem.readLE addr.toNat k.width)) with pc := q.pc + 4 }
    else .fatal .mem
  | .mem (.store k) =>
    if q.inRange addr k.width then
      .running { q with mem := q.mem.writeLE addr.toNat k.width b, pc := q.pc + 4 }
    else .fatal .mem

theorem seqExec_eq_seqRecord (i : Instr) (q : Seq) : seqExec i q = seqRecord (recordOf i) q := by
  cases i <;> rfl

theorem seqWrite_x (q : Seq) (rd : Option RegIdx) (v : Word) (r : RegIdx) :
    (seqWrite q rd v).x[r] = if rd = some r ∧ r ≠ 0 then v else q.x[r] := by
  cases rd with
  | none => simp [seqWrite]
  | some d =>
    simp only [seqWrite, Seq.setReg, Option.some.injEq]
    split
    next hd => exact (if_neg fun ⟨hr, hne⟩ => hne (hr.symm.trans hd)).symm
    next hd =>
      by_cases hr : d = r
      · simp [← hr, hd]
      · have hval : d.val ≠ r.val := fun e => hr (Fin.ext e)
        simp [hr, hval]

@[simp] theorem seqWrite_memSize (q : Seq) (rd : Option RegIdx) (v : Word) :
    (seqWrite q rd v).memSize = q.memSize := by
  unfold seqWrite Seq.setReg
  split
  · rfl
  · split <;> rfl

@[simp] theorem seqWrite_mem (q : Seq) (rd : Option RegIdx) (v : Word) :
    (seqWrite q rd v).mem = q.mem := by
  unfold seqWrite Seq.setReg
  split
  · rfl
  · split <;> rfl

/-! ## The architectural view (R24, R452, R461) -/

/-- The view of an idle machine is its own registers, pc and bytes. -/
theorem idle_view {s : State} (hs : s.idle) :
    s.view = { x := s.regs.val, pc := s.pc, mem := s.mem, memSize := s.cfg.memSize } := by
  obtain ⟨-, -, hcount, -, -, -, hq, -⟩ := hs
  simp [State.view, State.archPc, hcount, hq]

theorem seqSource_view (s : State) (r : Option RegIdx) : seqSource s.view r = s.source r := by
  cases r <;> rfl

/-- The registers, the next pc and the memory make the view: that of `s` with one register written, or
none. -/
theorem view_eq {s w : State} {rd : Option RegIdx} {v target : Word} {m : Memory}
    (hregs : ∀ r, w.regs.value r = if rd = some r ∧ r ≠ 0 then v else s.regs.value r)
    (hpc : w.archPc = target) (hmem : w.view.mem = m) (hcfg : w.cfg = s.cfg) :
    w.view = { seqWrite s.view rd v with pc := target, mem := m } := by
  have hx : w.regs.val = (seqWrite s.view rd v).x :=
    Vector.ext fun n hn => (hregs ⟨n, hn⟩).trans (seqWrite_x s.view rd v ⟨n, hn⟩).symm
  subst hpc hmem
  simp [State.view, hx, hcfg]

/-- A register write leaves the memory, named or not. -/
theorem seqWrite_with_mem (q : Seq) (rd : Option RegIdx) (v target : Word) :
    { seqWrite q rd v with pc := target, mem := q.mem } = { seqWrite q rd v with pc := target } := by
  rw [← seqWrite_mem q rd v]

/-- Where no store has committed, the view's memory is the backing store, with a flush and without (R236,
R461). -/
theorem endOfCycle_view_mem {u : State} {a : Acts}
    (hq : ∀ y ∈ (a.committed u).lsb.q, y.committedStore = false) :
    (endOfCycle u (a.run u)).view.mem = a.access.memAfter u.mem := by
  have hmem := committed_mem a u
  cases hflush : (a.run u).flushReq with
  | none =>
    rw [endOfCycle_none hflush, ← hmem]
    exact pendingApplied_of_uncommitted hq _
  | some target =>
    rw [endOfCycle_some hflush, ← hmem]
    exact pendingApplied_of_uncommitted (fun y hy => hq y (List.mem_filter.1 hy).1) _

theorem endOfCycle_run_cfg (a : Acts) (u : State) : (endOfCycle u (a.run u)).cfg = u.cfg :=
  (endOfCycle_cfg u _).trans (run_cfg a u)

/-! ## Arithmetic instructions -/

/-- Where the sequential machine goes after the executed instruction `x`: a kind with a target check to its
target, every other one to the instruction that follows. -/
def goesOnAt (x : RobEntry) (next : Word) : Word := if x.op.checked then x.target else next

/-- The cycle that commits an executed instruction leaves the sequential machine's view. -/
theorem Executed.retired_view {s v : State} {x : RobEntry} {next : Word} (h : Executed s v x next)
    (hs : s.idle) {b : Acts} (hb : b.taken v) (hg : x.op.group ≠ .halt)
    (hd : x.dest = none ↔ x.op.noDest = true) :
    (endOfCycle v (b.run v)).view =
      { seqWrite s.view x.dest x.committed with pc := goesOnAt x next } := by
  have hcm := h.commit hb hg
  have hmem : (endOfCycle v (b.run v)).view.mem = s.view.mem := by
    rw [endOfCycle_view_mem (h.committed_uncommitted hb hcm), h.access hb, idle_view hs]
    exact h.underway.mem
  have hcfg := (endOfCycle_run_cfg b v).trans h.underway.cfg
  rw [← seqWrite_with_mem]
  cases hx : x.op.checked with
  | true =>
    have hret := h.retiredTo_target hb hx hd
    exact view_eq hret.regs (hret.archPc.trans (by simp [goesOnAt, hx])) hmem hcfg
  | false =>
    have hend := endOfCycle_of_retire_unchecked (v := v) hcm hx
    rw [hend] at hmem hcfg ⊢
    exact view_eq (h.committed_value hcm hd)
      ((committed_archPc hb hcm h.followed).trans (by simp [goesOnAt, hx])) hmem hcfg

/-- The sequential machine after the arithmetic instruction `i`, in the terms of the block: the value that its
executed entry commits, and where it goes on. -/
def arithView (s : State) (i : Instr) (k : ArithKind) : Seq :=
  { seqWrite s.view (recordOf i).rd (executedEntry s i k).committed with
    pc := goesOnAt (executedEntry s i k) (s.fetchesAfter i) }

theorem completes_arith_view {s : State} (hs : s.idle) {i : Instr} {k : ArithKind}
    (hop : (recordOf i).op = .arith k) (hk : k ≠ .halt) :
    completes i s 2 fun w => w.view = arithView s i k := by
  refine ⟨exec_idle hs i, reachesUnlessFatal_succ (issued_underway hs i).running fun a ha => ?_⟩
  obtain ⟨hend, h⟩ := issued_executed hs hop ha
  have hg : (recordOf i).op.group ≠ .halt := fun hg =>
    hk (OpKind.arith.inj (hop.symm.trans ((group_halt_iff _).1 hg)))
  rw [hend]
  exact reachesUnlessFatal_succ h.underway.running fun b hb =>
    reachesUnlessFatal_zero (h.retired_view hs hb hg (recordOf_rd_none i))

/-- A branch or a JALR records the result of its execution as its target (R172). -/
theorem executedEntry_target (s : State) {i : Instr} {k : ArithKind} (hop : (recordOf i).op = .arith k) :
    (executedEntry s i k).target =
      if (OpKind.arith k).hasTarget then (arithResult (issuedArith s i k)).1 else 0 := by
  simp only [executedEntry, RobEntry.complete, newRobEntry, hop]

/-- The sequential machine does the same from the view of the idle machine, kind by kind. -/
theorem seqRecord_arith {s : State} (hs : s.idle) {i : Instr} {k : ArithKind}
    (hop : (recordOf i).op = .arith k) (hk : k ≠ .halt) :
    seqRecord (recordOf i) s.view = .running (arithView s i k) := by
  have hpc : s.view.pc = s.pc := by rw [idle_view hs]
  have hop' : (executedEntry s i k).op = .arith k := hop
  simp only [seqRecord, arithView, seqSource_view, hpc, hop, goesOnAt, hop', State.fetchesAfter,
    RobEntry.committed, executedEntry_target s hop]
  cases k with
  | halt => exact absurd rfl hk
  | branch k =>
    have hrd : (recordOf i).rd = none := (recordOf_rd_none i).2 (by rw [hop]; rfl)
    rw [hrd]
    rfl
  | _ => rfl

/-! ## Loads and stores -/

/-- The sequential machine after a load or a store in range: the value read is in the destination, or the
bytes are written. -/
def memView (s : State) (r : Record) (k : MemKind) : Seq :=
  let addr := s.source r.rs1 + r.imm
  match k with
  | .load k =>
    { seqWrite s.view r.rd (loadExtend k (s.mem.readLE addr.toNat k.width)) with pc := s.pc + 4 }
  | .store k =>
    { s.view with mem := s.mem.writeLE addr.toNat k.width (s.source r.rs2), pc := s.pc + 4 }

/-- Where the sequential machine goes on after a load or a store, the access is in range and has its
effect. -/
theorem eq_memView_of_running {s : State} (hs : s.idle) {r : Record} {k : MemKind} {q : Seq}
    (hop : r.op = .mem k) (hq : seqRecord r s.view = .running q) : q = memView s r k := by
  have hpc : s.view.pc = s.pc := by rw [idle_view hs]
  have hmem : s.view.mem = s.mem := by rw [idle_view hs]
  simp only [seqRecord, hop, seqSource_view, hpc, hmem] at hq
  cases k with
  | load k | store k =>
    simp only at hq
    split at hq
    · exact (SeqOutcome.running.inj hq).symm
    · cases hq

/-- The cycle that retires the load leaves the sequential machine's view. -/
theorem Dispatched.load_retired_view {s v : State} {x : RobEntry} {next : Word}
    (h : Dispatched s v x next) (hs : s.idle) {k : LoadKind} (hop : x.op = .mem (.load k))
    (hready : x.ready = true) (hd : x.dest = none ↔ x.op.noDest = true)
    (hq : ∀ y ∈ v.lsb.q, uncommittedBehind x.tag y) {b : Acts} (hb : b.taken v) :
    (endOfCycle v (b.run v)).view = { seqWrite s.view x.dest x.value with pc := next } := by
  obtain ⟨rd, hrd⟩ : ∃ rd, x.dest = some rd :=
    Option.ne_none_iff_exists'.1 fun hn => by simpa [hop, OpKind.noDest] using hd.1 hn
  obtain ⟨hregs, hpc, -⟩ := h.load_retired hop hready hd hrd hq hb
  have hcm := commit_retire hb h.oldest hready (by simp [hop, OpKind.group])
  have hmem : b.access.memAfter v.mem = s.view.mem := by
    rw [memAfter_of_no_ready_store hb.access fun y hy hstore => (hq y hy hstore).1, h.underway.mem,
      idle_view hs]
  rw [← seqWrite_with_mem]
  refine view_eq (fun r => ?_) hpc ?_ ((endOfCycle_run_cfg b v).trans h.underway.cfg)
  · simp only [hregs r, hrd, Option.some.injEq, eq_comm]
  · rw [← hmem]
    refine endOfCycle_view_mem fun y hy => ?_
    obtain ⟨y0, rfl, hy0⟩ := of_mem_committed_q hy
    rw [commitBus_of_retire hcm]
    exact markReady_of_uncommittedBehind (hy0.elim (hq y0) (h.stations.queued hb y0))

/-- A load issued into an idle machine leaves the sequential machine's view. -/
theorem completes_load_view {s : State} (hs : s.idle) {i : Instr} {k : LoadKind}
    (hop : (recordOf i).op = .mem (.load k)) :
    completes i s 3 fun w => w.view = memView s (recordOf i) (.load k) := by
  refine ⟨exec_idle hs i, reachesUnlessFatal_succ (issued_underway hs i).running fun a ha => ?_⟩
  have honly := issued_onlyInStation hs hop
  have hm := mem_queue ha honly.station honly.buffer rfl rfl
  obtain ⟨hend, hq, h⟩ := issued_dispatched hs hop ha (by rw [hm]; rfl)
  rw [hm] at hq h
  rw [hend]
  refine reachesUnlessFatal_succ h.underway.running fun b hb => ?_
  obtain ⟨hend', hq', h'⟩ := h.load_performed rfl hq rfl rfl rfl hb
  rw [hend']
  refine reachesUnlessFatal_succ h'.underway.running fun c hc => reachesUnlessFatal_zero ?_
  exact h'.load_retired_view hs hop rfl (recordOf_rd_none i)
    (fun y hy => h.stations.queued hb y (hq' ▸ hy)) hc

/-- Byte `j` of a word, as a write takes it. -/
theorem byte_eq_shiftRight (v : Word) (j : Nat) :
    v.extractLsb' (8 * j) 8 = (v >>> (8 * j)).setWidth 8 := by
  ext i hi
  simp [BitVec.getElem_extractLsb']

/-- A write of `n` bytes uses the low `n` bytes of its value only (R61). -/
theorem writeLE_congr (m : Memory) (a n : Nat) {v w : Word}
    (h : ∀ j, j < n → (v >>> (8 * j)).setWidth 8 = (w >>> (8 * j)).setWidth 8) :
    m.writeLE a n v = m.writeLE a n w := by
  induction n generalizing m a v w with
  | zero => rfl
  | succ n ih =>
    have hlow : v.setWidth 8 = w.setWidth 8 := by simpa using h 0 (Nat.succ_pos n)
    rw [Memory.writeLE, Memory.writeLE, hlow]
    refine ih _ _ fun j hj => ?_
    simpa only [← BitVec.shiftRight_add, Nat.mul_succ, Nat.add_comm 8] using
      h (j + 1) (Nat.succ_lt_succ hj)

/-- A store's data truncated to its width writes what the whole word writes (R64, R222). -/
theorem writeLE_storeData (m : Memory) (a : Nat) (k : StoreKind) (v : Word) :
    m.writeLE a k.width (storeData k v) = m.writeLE a k.width v :=
  writeLE_congr m a k.width fun j hj => by
    rw [← byte_eq_shiftRight, ← byte_eq_shiftRight, storeData_byte k v hj]

/-- A store issued into an idle machine leaves the sequential machine's view: its bytes are owed. -/
theorem completes_store_view {s : State} (hs : s.idle) {i : Instr} {k : StoreKind}
    (hop : (recordOf i).op = .mem (.store k)) :
    completes i s 2 fun w => w.view = memView s (recordOf i) (.store k) := by
  refine completes_of_owing hs hop fun w h => reachesUnlessFatal_zero ?_
  refine view_eq (rd := none) (v := 0) (fun r => ?_) h.archPc (h.pendingApplied_eq.trans ?_)
    h.underway.cfg
  · simp [h.underway.regs r]
  · exact writeLE_storeData _ _ k _

/-! ## Agreement -/

/-- Settles O30: both machines by the class of the instruction, arithmetic, load or store. -/
theorem agreesWithSequentialMachine : Obligations.AgreesWithSequentialMachine := by
  unfold Obligations.AgreesWithSequentialMachine
  intro s i q hs hq n
  rw [seqExec_eq_seqRecord] at hq
  cases hop : (recordOf i).op with
  | arith k =>
    have hn : n = 2 := by simp only [n, hop]
    have hk : k ≠ .halt := by
      rintro rfl
      simp [seqRecord, hop] at hq
    rw [seqRecord_arith hs hop hk] at hq
    rw [hn, ← SeqOutcome.running.inj hq]
    exact completes_arith_view hs hop hk
  | mem k =>
    obtain rfl := eq_memView_of_running hs hop hq
    cases k with
    | load k =>
      have hn : n = 3 := by simp only [n, hop]
      exact hn ▸ completes_load_view hs hop
    | store k =>
      have hn : n = 2 := by simp only [n, hop]
      exact hn ▸ completes_store_view hs hop

end Sys2Proof.Proofs
end
